-- ==== Sys2Proof/Word.lean ====
section
/-!
DEFINITION. The word types of the FS640 model: the byte of a line frame, the 6-bit line number and the
16-byte block of show data. Everything else the station keeps is a count, a name or a record.
-/

namespace Sys2Proof

/-- One data byte of a line frame (R162). -/
abbrev Byte := BitVec 8

/-- A sender or station number of the tower line, 0 to 63 (R162, R175). -/
abbrev LineNumber := BitVec 6

/-- A 16-byte block of show data; byte 0 is the most significant byte (R114, R174). -/
abbrev Block := BitVec 128

end Sys2Proof
end

