-- ==== Sys2Proof/Syntax.lean ====
section
/-!
DEFINITION. The commands of the FS640: one constructor of `Instr` per row of spec/opcode_table.json. A row that
stands for a checked line frame carries the frame's sender, its target byte and its fields as the layouts of
R174 give them (unjudged: the owner judges them); a row that stands for an event of the part carries what
identifies it (the link, the input, the player) and what only the world outside can supply (a voltage, a
message, the straps).
-/

namespace Sys2Proof

/-- The four discipline states (R13 to R16), in the order of their beacon codes (R174). -/
inductive Discipline
  | acquire | track | coast | holdover
deriving DecidableEq, Repr

/-- The mode of a show request and of an instance (R50, R62). -/
inductive PlayMode
  | once | loop
deriving DecidableEq, Repr

/-- The monitor classes watched on each link (R140). -/
inductive LinkClass
  | short | openLine | feedLow
deriving DecidableEq, Repr

/-- The monitor classes watched for the station as a whole (R140). -/
inductive StationClass
  | hotWarn | hotShutdown
deriving DecidableEq, Repr

/-- One deglitched sense: a class on a link, or a class of the station (R141). -/
inductive SenseClass
  | link (l : Fin 4) (c : LinkClass)
  | station (c : StationClass)
deriving DecidableEq, Repr

/-- A change of one sensed quantity, in the units R140's thresholds are given in: the current the driver of a link
draws when driven, the link's fixture feed, the die temperature. -/
inductive Reading
  | current (l : Fin 4) (microamps : Nat)
  | feed (l : Fin 4) (millivolts : Nat)
  | temperature (tenthsCelsius : Int)
deriving DecidableEq, Repr

/-- The monitor modes of R142; `unknown` is any code that names none of them. -/
inductive MonMode
  | latched | retry | recover | warn | off | unknown
deriving DecidableEq, Repr

/-- One mode per monitor class (R142). -/
structure MonitorModes where
  short : MonMode
  openLine : MonMode
  feedLow : MonMode
  hotWarn : MonMode
  hotShutdown : MonMode
deriving DecidableEq, Repr

/-- The coast set of the boot record: any subset of four conditions (R13, R175). -/
structure CoastSet where
  spread : Bool
  solo : Bool
  line : Bool
  steppedPeer : Bool
deriving DecidableEq, Repr

/-- The function of a contact input (R153); `unknown` is any code that names none of them. -/
inductive InputFunction
  | noFunction | go | safety | stopAll | unknown
deriving DecidableEq, Repr

/-- The sense of a contact input (R153); `unknown` is any code that names neither. -/
inductive InputSense
  | activeClosed | activeOpen | unknown
deriving DecidableEq, Repr

/-- A contact input's fields in the boot record (R153, R175). -/
structure InputBoot where
  function : InputFunction
  sense : InputSense
deriving DecidableEq, Repr

/-- A link's fields in the boot record: safe level 0 to 4095 and budget 0 to 1,048,575 (R95, R175). -/
structure LinkBoot where
  safeLevel : BitVec 12
  budget : BitVec 20
deriving DecidableEq, Repr

/-- A local zone of the zone map: its tower zone number, which is 0 to 4095 wide, and the link and link slot of each of its slot positions,
position 1 first (R95). The slot count is the length of the list. -/
structure ZoneBoot where
  tower : BitVec 12
  slots : List (Fin 4 × Fin 256)
deriving DecidableEq, Repr

/-- The fields of the boot record that the record check is computed over, as boot memory presents them, unjudged (R175). -/
structure BootFields where
  zones : List ZoneBoot
  links : Vector LinkBoot 4
  depth : Nat
  modes : MonitorModes
  coast : CoastSet
  reference : Bool
  position : Nat
  inputs : Vector InputBoot 8
deriving DecidableEq, Repr

/-- The boot record as boot memory presents it, unjudged: its fields and the record check it carries (R175). -/
structure BootRecord extends BootFields where
  check : BitVec 16
deriving DecidableEq, Repr

/-- What boot memory presents at a start: a record, or none when it does not answer or reads blank (R175). -/
abbrev BootImage := Option BootRecord

/-- How far the unit of show memory work in progress had got when main power failed: nothing of it was written,
a block's bytes without its presence mark, or all of it (R114, R126). -/
inductive CutPoint
  | nothing | dataOnly | whole
deriving DecidableEq, Repr

/-- Bytes 7 to 12 of a BEACON (R174). -/
structure BeaconBody where
  hops : BitVec 4
  discipline : Discipline
  timeValid : Bool
  stepFlag : Bool
  safetyFlag : Bool
  faults : Byte
  instances : Byte
  position : BitVec 16
deriving DecidableEq, Repr

/-- Bytes 2 to 20 of an ENTRY WRITE, unjudged (R174). -/
structure EntryImage where
  id : BitVec 16
  kind : BitVec 4
  enabled : Bool
  recurrence : Byte
  day6 : Byte
  day7 : Byte
  anchor : BitVec 24
  validFrom : BitVec 16
  validUntil : BitVec 16
  duration : BitVec 24
  byte18 : Byte
  byte19 : Byte
  byte20 : Byte
deriving DecidableEq, Repr

/-- The bytes after the subcode of an ENTRY EXTRA and its target, unjudged (R174). -/
structure ExtraImage where
  id : BitVec 16
  skipCount : Byte
  skips : Vector (BitVec 16) 4
  levels : BitVec 48
  ceiling : BitVec 12
deriving DecidableEq, Repr

/-- Bytes 1 to 16 of an ANNOUNCE; a mode code other than ONCE or LOOP is no checked frame (R171, R174). -/
structure Announcement where
  showNo : Byte
  priority : Byte
  tag : BitVec 40
  anchor : BitVec 40
  duration : BitVec 24
  mode : PlayMode
  passes : BitVec 4
deriving DecidableEq, Repr

/-- Bytes 2 to 13 of a START SHOW, unjudged (R174). -/
structure StartImage where
  showNo : Byte
  priority : Byte
  tag : BitVec 40
  duration : BitVec 24
  mode : Byte
  passes : Byte
deriving DecidableEq, Repr

/-- A frame as received from the tower line, before any check (R162, R171). `endGood` is clear when an end bit was
dominant or the frame broke off before its end field. `arrival` is the own tower time in µs at its start bit. -/
structure LineFrame where
  cls : BitVec 3
  sender : LineNumber
  length : BitVec 5
  data : List Byte
  check : BitVec 16
  endGood : Bool
  arrival : Nat
deriving DecidableEq, Repr

/-- The commands of the part, in the order of spec/opcode_table.json. -/
inductive Instr
  /-- POWER_START (R177): what the strap pins and the boot memory present, and whether the backup cell held. -/
  | powerStart (straps : LineNumber) (boot : BootImage) (cellHeld : Bool)
  /-- RESTART_PIN_FALL (R178): the pin falls and stays low for `lowUs` µs at least. -/
  | restartPinFall (lowUs : Nat)
  /-- RESTART_PIN_RISE (R178): the pin rises; what the straps and the boot memory present. -/
  | restartPinRise (straps : LineNumber) (boot : BootImage)
  /-- RESTART (R178). -/
  | restart (sender : LineNumber) (target : Byte)
  /-- RESTART_TIMEOUT (R178). -/
  | restartTimeout
  /-- TOWER_FRAME_BOUNDARY (R1). -/
  | towerFrameBoundary
  /-- WHOLE_SECOND (R1). -/
  | wholeSecond
  /-- HOLD_END (R5). -/
  | holdEnd
  /-- REFERENCE_PULSE (R17). -/
  | referencePulse
  /-- REFERENCE_MESSAGE (R18): the second named, since 2000-01-01 00:00:00; none for a malformed message. -/
  | referenceMessage (second : Option Int)
  /-- REFERENCE_MESSAGE_TIMEOUT (R17). -/
  | referenceMessageTimeout
  /-- REFERENCE_SILENCE (R17). -/
  | referenceSilence
  /-- BEACON (R7): the own tower time in µs at the start bit, the sender's stamp, the rest of the beacon. -/
  | beacon (sender : LineNumber) (arrival : Nat) (stamp : BitVec 56) (body : BeaconBody)
  /-- TIME_SET (R21): the own tower time in µs at the start bit, the value carried. -/
  | timeSet (sender : LineNumber) (target : Byte) (arrival : Nat) (value : BitVec 56)
  /-- ENTRY_WRITE (R42). -/
  | entryWrite (sender : LineNumber) (target : Byte) (image : EntryImage)
  /-- ENTRY_EXTRA (R43). -/
  | entryExtra (sender : LineNumber) (target : Byte) (image : ExtraImage)
  /-- ENTRY_DELETE (R44). -/
  | entryDelete (sender : LineNumber) (target : Byte) (id : BitVec 16)
  /-- CALENDAR_CLEAR (R44). -/
  | calendarClear (sender : LineNumber) (target : Byte)
  /-- DUSK_BLOCK (R29). -/
  | duskBlock (sender : LineNumber) (target : Byte) (first : BitVec 16) (values : Vector (BitVec 16) 8)
  /-- SEASON_WRITE (R30): the instant in standard minutes, the offset in minutes as a signed byte. -/
  | seasonWrite (sender : LineNumber) (target : Byte) (instant : BitVec 32) (offset : Byte)
  /-- SEASON_CLEAR (R30). -/
  | seasonClear (sender : LineNumber) (target : Byte)
  /-- START_SHOW (R52). -/
  | startShow (sender : LineNumber) (target : Byte) (image : StartImage)
  /-- ANNOUNCE_START (R53). -/
  | announceStart (sender : LineNumber) (a : Announcement)
  /-- ANNOUNCE_RUNNING (R53). -/
  | announceRunning (sender : LineNumber) (a : Announcement)
  /-- STOP_SHOW (R59). -/
  | stopShow (sender : LineNumber) (target : Byte) (showNo : Byte)
  /-- STOP_ALL (R59). -/
  | stopAll (sender : LineNumber) (target : Byte)
  /-- ANNOUNCE_STOP (R61). -/
  | announceStop (sender : LineNumber) (a : Announcement)
  /-- MARK (R66). -/
  | mark (sender : LineNumber) (showNo : Byte) (tag : BitVec 40) (number : Byte) (release : BitVec 40)
  /-- CATCH_UP_COMPLETE (R90). -/
  | catchUpComplete (player : Fin 4)
  /-- FLUSH_REQUEST (R99). -/
  | flushRequest
  /-- RENDER_BEGIN (R97). -/
  | renderBegin
  /-- RENDER_COMPLETE (R98). -/
  | renderComplete
  /-- LINK_FRAME_END (R136). -/
  | linkFrameEnd (link : Fin 4)
  /-- REFRESH_EXPIRY (R137): the expiry instant of the refresh timers, which all four drivers share. -/
  | refreshExpiry
  /-- SENSE_CHANGE (R140). -/
  | senseChange (reading : Reading)
  /-- DEGLITCH_EXPIRY (R141). -/
  | deglitchExpiry (sense : SenseClass)
  /-- RETRY_EXPIRY (R146). -/
  | retryExpiry (link : Fin 4) (cls : LinkClass)
  /-- CLEAR_FAULTS (R150). -/
  | clearFaults (sender : LineNumber) (target : Byte)
  /-- INPUT_CHANGE (R153): the voltage at the input, in mV. -/
  | inputChange (input : Fin 8) (millivolts : Nat)
  /-- DEBOUNCE_EXPIRY (R153). -/
  | debounceExpiry (input : Fin 8)
  /-- RESEND_EXPIRY (R155). -/
  | resendExpiry
  /-- SAFETY_SET (R156). -/
  | safetySet (sender : LineNumber)
  /-- SAFETY_CLEAR (R156). -/
  | safetyClear (sender : LineNumber)
  /-- SAFETY_CLEAR_ALL (R157). -/
  | safetyClearAll (sender : LineNumber) (target : Byte)
  /-- SHOW_BEGIN (R118). -/
  | showBegin (sender : LineNumber) (target : Byte) (showNo : Byte) (blocks : BitVec 16)
  /-- SHOW_BLOCK (R120). -/
  | showBlock (sender : LineNumber) (target : Byte) (showNo : Byte) (index : BitVec 16) (data : Block)
  /-- SHOW_DELETE (R122). -/
  | showDelete (sender : LineNumber) (target : Byte) (showNo : Byte)
  /-- REFILL_COMPLETE (R125): the unit of port work in progress is known to the port. -/
  | refillComplete
  /-- SECTOR_ERASE_COMPLETE (R119). -/
  | sectorEraseComplete
  /-- TAG_WRITE_COMPLETE (R119). -/
  | tagWriteComplete
  /-- DEAD_MARK_WRITE_COMPLETE (R122). -/
  | deadMarkWriteComplete
  /-- BLOCK_WRITE_COMPLETE (R121). -/
  | blockWriteComplete
  /-- CHECK_READ_COMPLETE (R116). -/
  | checkReadComplete
  /-- LINE_IDLE (R170): the line stands idle now. -/
  | lineIdle
  /-- ARBITRATION_LOST (R163). -/
  | arbitrationLost
  /-- DATA_FIELD_CONTENTION (R164). -/
  | dataFieldContention
  /-- FRAME_SENT (R163). -/
  | frameSent
  /-- LINE_FAULT (R170). -/
  | lineFault
  /-- FRAME_RECEIVED (R171): a frame as received, not an own transmission. -/
  | frameReceived (frame : LineFrame)
  /-- QUERY_STATUS_PAGE (R180). -/
  | queryStatusPage (sender : LineNumber) (target : Byte) (argument : BitVec 16)
  /-- QUERY_TIME (R180). -/
  | queryTime (sender : LineNumber) (target : Byte) (argument : BitVec 16)
  /-- QUERY_PEER (R180). -/
  | queryPeer (sender : LineNumber) (target : Byte) (argument : BitVec 16)
  /-- QUERY_INSTANCE (R180). -/
  | queryInstance (sender : LineNumber) (target : Byte) (argument : BitVec 16)
  /-- QUERY_SLOT (R180). -/
  | querySlot (sender : LineNumber) (target : Byte) (argument : BitVec 16)
  /-- QUERY_RECEIVED_SET (R180). -/
  | queryReceivedSet (sender : LineNumber) (target : Byte) (argument : BitVec 16)
  /-- QUERY_ENTRY (R180). -/
  | queryEntry (sender : LineNumber) (target : Byte) (argument : BitVec 16)
  /-- QUERY_CALENDAR (R180). -/
  | queryCalendar (sender : LineNumber) (target : Byte) (argument : BitVec 16)
  /-- QUERY_LINK (R180). -/
  | queryLink (sender : LineNumber) (target : Byte) (argument : BitVec 16)
  /-- QUERY_HOLD_LIST (R180). -/
  | queryHoldList (sender : LineNumber) (target : Byte) (argument : BitVec 16)
  /-- QUERY_INPUTS (R180). -/
  | queryInputs (sender : LineNumber) (target : Byte) (argument : BitVec 16)
  /-- QUERY_BOOT (R180). -/
  | queryBoot (sender : LineNumber) (target : Byte) (argument : BitVec 16)
  /-- MAIN_POWER_LOSS (R176). -/
  | mainPowerLoss (cut : CutPoint)
  /-- BACKUP_SECOND (R23). -/
  | backupSecond
  /-- QUERY_UNKNOWN_ITEM (R180). -/
  | queryUnknownItem (sender : LineNumber) (target : Byte) (item : Byte) (argument : BitVec 16)
deriving DecidableEq, Repr

end Sys2Proof
end

