-- ==== Sys2Proof/Config.lean ====
section
/-!
DEFINITION. What an implementation of the FS640 fixes and the manual leaves open. Every constant here is opaque: it
has no body, so no proof can rest on a value of it. Each is named in a log entry under notes/assumptions.
-/

namespace Sys2Proof.Config

/-- The fields of a REPLY (R180) whose code numbers, or whose value when there is nothing to send, the manual does
not give. -/
inductive ReplyField
  | timeValid | holdoverRun | referenceState | referenceOffset
  | lockState
  | playerState | priorState | instanceShow | instancePriority | modeAndPasses | originKind | originNumber
  | announcer | lastHeard | releaseWeight | instancePosition
  | slotState | slotShow | slotBlocks | slotValidating | slotFault
  | linkEnable | linkCauses | linkCondition | linkFlag | retryRunning | safeLevel | budget
  | hotState | hotCondition | hotFlag
  | inputFunction | inputSense | rawReading | debouncedState
  | faultReason | depth | coastSet | referenceFitted
deriving DecidableEq, Repr

/-- The code number a REPLY carries for the `value`-th name of a field whose names the manual gives and whose codes
it does not (R180; log entry 3). -/
opaque replyCode (field : ReplyField) (value : Nat) : Byte

/-- What a REPLY carries in a field that the station has no value for, or whose value does not fit the field's
width, where the manual says no more (R180; log entry 4). -/
opaque replyAbsent (field : ReplyField) : Nat

/-- The bytes in which boot memory holds the fields of the boot record, over which its record check is computed; the
manual gives the fields and no layout (R175; log entry 17). -/
opaque bootBytes (fields : BootFields) : List Byte

/-- What a read of a block position that has not been written since its erase gives (R114; log entry 5). -/
opaque blankBlock : Block

/-- What the strap pins and boot memory present to the `n`-th reading that a restart by command makes (R175, R178): a person may have
changed either since the last start, and no command of the table carries the change (log entry 25). -/
opaque presented (n : Nat) : LineNumber × BootImage

/-- Whether another sender's start bit is heard at the `n`-th µs on an idle line (R163); no command of the table carries it (log
entry 24). -/
opaque startBit (n : Nat) : Bool

/-- How many µs before its end a frame began that came on an idle line and broke off, or whose end field was not recessive: the `n`-th
reading of the world (R170; log entry 24). -/
opaque frameUs (n : Nat) : Nat

end Sys2Proof.Config
end

