-- ==== Sys2Proof/Machine/Bits.lean ====
section
/-!
DEFINITION. Byte order and the cyclic check: multi-byte fields most significant byte first (R174), and the 16-bit
check of the tower line (R162), which the show check (R115) and the link frame check (R135) use as well.
-/

namespace Sys2Proof.Machine

/-- The byte of a number, its low eight bits. -/
def byteOf (n : Nat) : Byte := BitVec.ofNat 8 n

/-- A number as `k` bytes, most significant first (R174). -/
def bytesBE : Nat → Nat → List Byte
  | 0, _ => []
  | k + 1, v => byteOf (v >>> (8 * k)) :: bytesBE k v

/-- A signed number as `k` bytes in two's complement, most significant first (R174). -/
def signedBE (k : Nat) (v : Int) : List Byte := bytesBE k (v % (2 ^ (8 * k) : Nat)).toNat

/-- The number that bytes carry, most significant first (R174). -/
def natOfBytes (bs : List Byte) : Nat := bs.foldl (fun a b => a * 256 + b.toNat) 0

/-- A byte as a signed number in two's complement (R174). -/
def signedByte (b : Byte) : Int := b.toInt

/-- The bits of a `width`-bit number, most significant first (R162). -/
def bitsOf : Nat → Nat → List Bool
  | 0, _ => []
  | k + 1, v => v.testBit k :: bitsOf k v

/-- The bits of a run of bytes, each most significant bit first (R162). -/
def bitsOfBytes (bs : List Byte) : List Bool := bs.flatMap (fun b => bitsOf 8 b.toNat)

/-- One bit through the cyclic check, generator x^16 + x^12 + x^5 + 1 (R162). -/
def crcBit (r : BitVec 16) (bit : Bool) : BitVec 16 :=
  if r.msb != bit then (r <<< 1) ^^^ 0x1021#16 else r <<< 1

/-- The cyclic check of a run of bits: initial value all ones, no final inversion (R162). -/
def crcBits (bs : List Bool) : BitVec 16 := bs.foldl crcBit 0xFFFF#16

/-- The cyclic check of a run of bytes. -/
def crcBytes (bs : List Byte) : BitVec 16 := crcBits (bitsOfBytes bs)

/-- The field of `k` bytes that starts at byte `i` of a block, byte 0 first (R174). -/
def blockField (b : Block) (i k : Nat) : Nat := (b.toNat >>> (8 * (16 - i - k))) % 2 ^ (8 * k)

/-- The sixteen bytes of a block, byte 0 first. -/
def blockBytes (b : Block) : List Byte := bytesBE 16 b.toNat

/-- `a` clamped to lie from `lo` to `hi`. -/
def clampInt (lo hi a : Int) : Int := max lo (min hi a)

end Sys2Proof.Machine
end

