-- ==== Sys2Proof/Decode.lean ====
section
/-!
DEFINITION. Decoding. The command table gives no row any bits, so no word spells a command and `decodeTableWord` answers none.
What does have a layout is the checked line frame: `decodeFrame` reads from its class and data the command that R172 routes
(R174), and `frameFormat` is the length R174 gives a class and subcode.
-/

namespace Sys2Proof

/-- The command a word spells: no row of spec/opcode_table.json has bits, so there is none. -/
def decodeTableWord (_nbits _w : Nat) : Option Instr := none

/-! ### Fields of a frame's data (R174) -/

/-- Data byte `i` of a frame. -/
def byteAt (d : List Byte) (i : Nat) : Byte := (d[i]?).getD 0

/-- The field of `k` bytes that starts at data byte `i`. -/
def fieldAt (d : List Byte) (i k : Nat) : Nat := Machine.natOfBytes ((d.drop i).take k)

/-- A frame class with subcodes (R174): all but BEACON and MARK. -/
def hasSubcode (cls : Nat) : Bool := cls != 1 && cls != 3

/-- The least and greatest length R174 gives a class and its subcode; none for a subcode not listed. -/
def frameFormat (cls sub : Nat) : Option (Nat × Nat) :=
  match cls, sub with
  | 0, 1 => some (1, 1) | 0, 2 => some (1, 1) | 0, 3 => some (2, 2)
  | 1, _ => some (13, 13)
  | 2, 1 => some (17, 17) | 2, 2 => some (17, 17) | 2, 3 => some (17, 17)
  | 3, _ => some (12, 12)
  | 4, 1 => some (14, 14) | 4, 2 => some (3, 3) | 4, 3 => some (2, 2) | 4, 4 => some (2, 2) | 4, 5 => some (9, 9)
  | 4, 6 => some (2, 2) | 4, 7 => some (5, 5)
  | 5, 1 => some (24, 24) | 5, 2 => some (7, 7) | 5, 3 => some (6, 24)
  | 6, 1 => some (21, 21) | 6, 2 => some (21, 21) | 6, 3 => some (4, 4) | 6, 4 => some (2, 2) | 6, 5 => some (20, 20)
  | 6, 6 => some (7, 7) | 6, 7 => some (2, 2)
  | 7, 1 => some (5, 5) | 7, 2 => some (21, 21) | 7, 3 => some (3, 3)
  | _, _ => none

/-- How many data bytes the frame of a class and subcode carries, where R174 gives one length. -/
def frameLength (cls sub : Nat) : Nat := ((frameFormat cls sub).map (·.1)).getD 0

/-! ### The layouts (R174) -/

/-- The discipline state of a beacon code. -/
def disciplineOf : Nat → Discipline
  | 0 => .acquire | 1 => .track | 2 => .coast | _ => .holdover

/-- Bytes 7 to 12 of a BEACON. -/
def beaconBodyOf (d : List Byte) : BeaconBody :=
  let b7 := (byteAt d 7).toNat
  let b8 := byteAt d 8
  { hops := BitVec.ofNat 4 b7, discipline := disciplineOf (b7 / 16 % 4), timeValid := b8.getLsbD 0,
    stepFlag := b8.getLsbD 1, safetyFlag := b8.getLsbD 2, faults := byteAt d 9, instances := byteAt d 10,
    position := BitVec.ofNat 16 (fieldAt d 11 2) }

/-- The mode of an ANNOUNCE's mode code; none for a code that names neither (R171). -/
def modeOfCode : Nat → Option PlayMode
  | 0 => some .once | 1 => some .loop | _ => none

/-- Bytes 1 to 16 of an ANNOUNCE; none for a bad mode code. -/
def announcementOf (d : List Byte) : Option Announcement :=
  (modeOfCode ((byteAt d 16).toNat / 16)).map (fun m =>
    { showNo := byteAt d 1, priority := byteAt d 2, tag := BitVec.ofNat 40 (fieldAt d 3 5),
      anchor := BitVec.ofNat 40 (fieldAt d 8 5), duration := BitVec.ofNat 24 (fieldAt d 13 3), mode := m,
      passes := BitVec.ofNat 4 (byteAt d 16).toNat })

/-- Bytes 2 to 13 of a START SHOW. -/
def startImageOf (d : List Byte) : StartImage :=
  { showNo := byteAt d 2, priority := byteAt d 3, tag := BitVec.ofNat 40 (fieldAt d 4 5),
    duration := BitVec.ofNat 24 (fieldAt d 9 3), mode := byteAt d 12, passes := byteAt d 13 }

/-- Bytes 2 to 20 of an ENTRY WRITE. -/
def entryImageOf (d : List Byte) : EntryImage :=
  { id := BitVec.ofNat 16 (fieldAt d 2 2), kind := BitVec.ofNat 4 ((byteAt d 4).toNat / 16),
    enabled := (byteAt d 4).getLsbD 0, recurrence := byteAt d 5, day6 := byteAt d 6, day7 := byteAt d 7,
    anchor := BitVec.ofNat 24 (fieldAt d 8 3), validFrom := BitVec.ofNat 16 (fieldAt d 11 2),
    validUntil := BitVec.ofNat 16 (fieldAt d 13 2), duration := BitVec.ofNat 24 (fieldAt d 15 3),
    byte18 := byteAt d 18, byte19 := byteAt d 19, byte20 := byteAt d 20 }

/-- Bytes 2 to 20 of an ENTRY EXTRA. -/
def extraImageOf (d : List Byte) : ExtraImage :=
  { id := BitVec.ofNat 16 (fieldAt d 2 2), skipCount := byteAt d 4,
    skips := Vector.ofFn (fun i : Fin 4 => BitVec.ofNat 16 (fieldAt d (5 + 2 * i.val) 2)),
    levels := BitVec.ofNat 48 (fieldAt d 13 6), ceiling := BitVec.ofNat 12 (fieldAt d 19 2) }

/-- The QUERY of an item (R180). -/
def queryOf (sender : LineNumber) (target item : Byte) (argument : BitVec 16) : Instr :=
  match item.toNat with
  | 1 => .queryStatusPage sender target argument
  | 2 => .queryTime sender target argument
  | 3 => .queryPeer sender target argument
  | 4 => .queryInstance sender target argument
  | 5 => .querySlot sender target argument
  | 6 => .queryReceivedSet sender target argument
  | 7 => .queryEntry sender target argument
  | 8 => .queryCalendar sender target argument
  | 9 => .queryLink sender target argument
  | 10 => .queryHoldList sender target argument
  | 11 => .queryInputs sender target argument
  | 12 => .queryBoot sender target argument
  | _ => .queryUnknownItem sender target item argument

/-- The command a COMMAND frame of a subcode carries. -/
def commandOf (sender : LineNumber) (arrival : Nat) (d : List Byte) : Option Instr :=
  let target := byteAt d 1
  match (byteAt d 0).toNat with
  | 1 => some (.startShow sender target (startImageOf d))
  | 2 => some (.stopShow sender target (byteAt d 2))
  | 3 => some (.stopAll sender target)
  | 4 => some (.clearFaults sender target)
  | 5 => some (.timeSet sender target arrival (BitVec.ofNat 56 (fieldAt d 2 7)))
  | 6 => some (.restart sender target)
  | 7 => some (queryOf sender target (byteAt d 2) (BitVec.ofNat 16 (fieldAt d 3 2)))
  | _ => none

/-- The command a SCHEDULE frame of a subcode carries. -/
def scheduleOf (sender : LineNumber) (d : List Byte) : Option Instr :=
  let target := byteAt d 1
  match (byteAt d 0).toNat with
  | 1 => some (.entryWrite sender target (entryImageOf d))
  | 2 => some (.entryExtra sender target (extraImageOf d))
  | 3 => some (.entryDelete sender target (BitVec.ofNat 16 (fieldAt d 2 2)))
  | 4 => some (.calendarClear sender target)
  | 5 => some (.duskBlock sender target (BitVec.ofNat 16 (fieldAt d 2 2))
               (Vector.ofFn (fun i : Fin 8 => BitVec.ofNat 16 (fieldAt d (4 + 2 * i.val) 2))))
  | 6 => some (.seasonWrite sender target (BitVec.ofNat 32 (fieldAt d 2 4)) (byteAt d 6))
  | 7 => some (.seasonClear sender target)
  | _ => none

/-- The command a LIBRARY frame of a subcode carries. -/
def libraryOf (sender : LineNumber) (d : List Byte) : Option Instr :=
  let target := byteAt d 1
  match (byteAt d 0).toNat with
  | 1 => some (.showBegin sender target (byteAt d 2) (BitVec.ofNat 16 (fieldAt d 3 2)))
  | 2 => some (.showBlock sender target (byteAt d 2) (BitVec.ofNat 16 (fieldAt d 3 2))
               (BitVec.ofNat 128 (fieldAt d 5 16)))
  | 3 => some (.showDelete sender target (byteAt d 2))
  | _ => none

/-- The command a SAFETY frame of a subcode carries. -/
def safetyOf (sender : LineNumber) (d : List Byte) : Option Instr :=
  match (byteAt d 0).toNat with
  | 1 => some (.safetySet sender)
  | 2 => some (.safetyClear sender)
  | 3 => some (.safetyClearAll sender (byteAt d 1))
  | _ => none

/-- The command an ANNOUNCE of a subcode carries. -/
def announceOf (sender : LineNumber) (d : List Byte) : Option Instr :=
  match (byteAt d 0).toNat with
  | 1 => (announcementOf d).map (.announceStart sender)
  | 2 => (announcementOf d).map (.announceRunning sender)
  | 3 => (announcementOf d).map (.announceStop sender)
  | _ => none

/-- The command that a checked frame carries to its owner; none for a REPORT, which is not routed (R172). -/
def decodeFrame (f : LineFrame) : Option Instr :=
  let d := f.data
  match f.cls.toNat with
  | 0 => safetyOf f.sender d
  | 1 => some (.beacon f.sender f.arrival (BitVec.ofNat 56 (fieldAt d 0 7)) (beaconBodyOf d))
  | 2 => announceOf f.sender d
  | 3 => some (.mark f.sender (byteAt d 0) (BitVec.ofNat 40 (fieldAt d 1 5)) (byteAt d 6)
               (BitVec.ofNat 40 (fieldAt d 7 5)))
  | 4 => commandOf f.sender f.arrival d
  | 6 => scheduleOf f.sender d
  | 7 => libraryOf f.sender d
  | _ => none

end Sys2Proof
end

