-- ==== Sys2Proof/Machine/State.lean ====
section
/-!
DEFINITION. The state of one FS640, block by block as the manual's block overview lists them (00_scope.md), the
queue of waiting commands, and the state at reset. Plain data throughout.
-/

namespace Sys2Proof.Machine

/-! ### Counters (R179, R181) -/

/-- The counters of the station in the order of the STATUS pages (R179), ten to a page. -/
inductive Counter
  | checkErrors | formatErrors | txDropped | txDisplaced | beaconsReplaced
  | contentionDrops | duplicateFrames | lineFaults | peerTableFull | steps
  | holds | timeSetRefused | showFirings | lateFirings | missedFirings
  | scheduleRefused | instanceFull | evictions | showAbsent | startRefused
  | announceIgnored | marksDiscarded | marksDropped | cueStarved | sweepOverflow
  | marksLate | marksUnsent | flushes | renderLate | budgetScaled
  | libraryRefused | blocksUnknown | blocksOutOfRange | blocksDuplicate | blocksDropped
  | showsLoaded | showsInvalid | staleRecords | lowWater | underruns
  | refreshes | shorts | opens | feedLows | hotWarnings
  | hotShutdowns | retries | clearsTaken | safetyHolds | safetyDiscarded
  | clearAllTaken | clearAllRefused | activations | goRaised | stopAllRaised
  | queriesRefused
deriving DecidableEq, Repr

/-- A counter's place in the order of the STATUS pages (R179). -/
def Counter.place : Counter → Fin 56
  | .checkErrors => 0 | .formatErrors => 1 | .txDropped => 2 | .txDisplaced => 3 | .beaconsReplaced => 4
  | .contentionDrops => 5 | .duplicateFrames => 6 | .lineFaults => 7 | .peerTableFull => 8 | .steps => 9
  | .holds => 10 | .timeSetRefused => 11 | .showFirings => 12 | .lateFirings => 13 | .missedFirings => 14
  | .scheduleRefused => 15 | .instanceFull => 16 | .evictions => 17 | .showAbsent => 18 | .startRefused => 19
  | .announceIgnored => 20 | .marksDiscarded => 21 | .marksDropped => 22 | .cueStarved => 23 | .sweepOverflow => 24
  | .marksLate => 25 | .marksUnsent => 26 | .flushes => 27 | .renderLate => 28 | .budgetScaled => 29
  | .libraryRefused => 30 | .blocksUnknown => 31 | .blocksOutOfRange => 32 | .blocksDuplicate => 33
  | .blocksDropped => 34 | .showsLoaded => 35 | .showsInvalid => 36 | .staleRecords => 37 | .lowWater => 38
  | .underruns => 39 | .refreshes => 40 | .shorts => 41 | .opens => 42 | .feedLows => 43 | .hotWarnings => 44
  | .hotShutdowns => 45 | .retries => 46 | .clearsTaken => 47 | .safetyHolds => 48 | .safetyDiscarded => 49
  | .clearAllTaken => 50 | .clearAllRefused => 51 | .activations => 52 | .goRaised => 53 | .stopAllRaised => 54
  | .queriesRefused => 55

/-- The values of the counters, by their places; each is 16 bits wide (R181). -/
abbrev Counters := Vector (BitVec 16) 56

/-! ### Time Unit (01_tower_time.md) -/

/-- The states of a peer's lock filter (R6, R9, R11). -/
inductive Lock
  | seeking | locked | lapsed
deriving DecidableEq, Repr

/-- A usable sample kept for the next discipline event, with what its beacon carried (R10). -/
structure PeriodSample where
  value : Int
  hops : Nat
  timeValid : Bool
  stepFlag : Bool
deriving DecidableEq, Repr

/-- One entry of the peer table (R6). -/
structure Peer where
  number : Nat
  body : BeaconBody
  lock : Lock
  consistentRun : Nat
  inconsistentRun : Nat
  previous : Option Int
  sample : Option PeriodSample
  lastArrival : Int
deriving DecidableEq, Repr

/-- The states of the reference input (R17). -/
inductive RefState
  | notFitted | absent | valid
deriving DecidableEq, Repr

/-- A pulse that waits for its message: the own tower time in µs at the pulse, and the µs of oscillator time left of
the 500 ms it may wait (R17, R18). -/
structure WaitingPulse where
  stamp : Nat
  left : Nat
deriving DecidableEq, Repr

/-- The reference input (R17, R18): its state, the length of the run and its last second, the latest offset, a
pulse that waits, and the silence timer, which runs while the input is VALID. -/
structure Reference where
  state : RefState
  run : Nat
  lastSecond : Int
  offset : Option Int
  waiting : Option WaitingPulse
  silence : Option Nat
deriving DecidableEq, Repr

/-- The Time Unit. `ns` is the tower time counter (R1); `fraction` the part of a ns, in 1/1,000,000, that counting has
accumulated; `lastBoundary` and `lastSecond` the newest tower frame and whole second that counting has reached or
a correction has landed on (R1); `slew` the phase correction in force in µs, 0 for none (R16); `hold` the µs of
oscillator time left of a hold (R5). -/
structure TimeUnit where
  ns : Nat
  fraction : Nat
  lastBoundary : Nat
  lastSecond : Nat
  trim : Int
  slew : Int
  hold : Option Nat
  discipline : Discipline
  hops : Nat
  timeValid : Bool
  stepFlags : Nat
  holdoverRun : Nat
  peers : List Peer
  ref : Reference
deriving DecidableEq, Repr

/-! ### Calendar Unit and retained memory (02_the_calendar.md) -/

/-- The four levels a cue, a record or a base look carries, one per slot position (R80, R95). -/
structure Levels where
  l1 : Nat
  l2 : Nat
  l3 : Nat
  l4 : Nat
deriving DecidableEq, Repr

/-- A recurrence; weekdays count from Monday 0 to Sunday 6 (R28, R174). In `weekly` bit i of the set is weekday i;
in `nth` an absent n is LAST. -/
inductive Recurrence
  | once (day : Nat)
  | daily
  | weekly (days : BitVec 7)
  | yearly (month day : Nat)
  | nth (month weekday : Nat) (n : Option Nat)
deriving DecidableEq, Repr

/-- The anchor of an entry: civil seconds of the day, or an offset from dusk in minutes (R31, R32). -/
inductive Anchor
  | clock (seconds : Nat)
  | dusk (offset : Int)
deriving DecidableEq, Repr

/-- What an entry of each kind carries (2.1). -/
inductive EntryKind
  | playShow (showNo priority : Nat) (mode : PlayMode) (passes : Nat)
  | curfew (ceiling exempt : Nat)
  | base (priority : Nat) (levels : Levels)
deriving DecidableEq, Repr

/-- A calendar entry (2.1, R26). `nextFire` and `windowEnd` are the derived fields. -/
structure Entry where
  id : Nat
  enabled : Bool
  recurrence : Recurrence
  anchor : Anchor
  validFrom : Option Nat
  validUntil : Option Nat
  skips : List Nat
  duration : Nat
  kind : EntryKind
  nextFire : Option Nat
  windowEnd : Option Nat
deriving DecidableEq, Repr

/-- A seasonal transition: the standard minute at which it takes effect, the civil offset in minutes (R30). -/
structure Season where
  instant : Nat
  offset : Int
deriving DecidableEq, Repr

/-- The Calendar Unit. The three tables live in retained memory (R45); `dusk` lists the values that are not missing
by ascending index (R29); the active curfew and base look are those handed to the Frame Mixer, with the entry
each was selected from (R40). -/
structure CalendarUnit where
  entries : List Entry
  dusk : List (Nat × Nat)
  seasons : List Season
  curfew : Option (Nat × Nat × Nat)
  base : Option (Nat × Levels)
deriving DecidableEq, Repr

/-- The Backup Clock and the rest of retained memory: the backup seconds counter (R23), the retained copy of
time-valid (R3) and the intact marker, set while it is good (R176). -/
structure Backup where
  seconds : Nat
  timeValid : Bool
  intact : Bool
deriving DecidableEq, Repr

/-! ### Shows and show memory (06_show_library_and_show_memory.md) -/

/-- The actions of a cue (R115, R174); `other` is a code of 7 or above. -/
inductive Action
  | set | fade | sweepUp | sweepDown | gate | mark | endShow | other
deriving DecidableEq, Repr

/-- A cue record with its place in stored order (R76, R174). -/
structure Cue where
  index : Nat
  time : Nat
  action : Action
  track : Nat
  zoneLow : Nat
  zoneHigh : Nat
  param : Nat
  levels : Levels
deriving DecidableEq, Repr

/-- The header copy of a COMPLETE slot (R113). -/
structure ShowHeader where
  length : Nat
  attack : Nat
  release : Nat
  low : Nat
  high : Nat
deriving DecidableEq, Repr

/-- The tests of R115 in order, and TORN BLOCK (R126). -/
inductive ShowFault
  | showNumber | cueCount | length | span | showCheck | action | track | order | time | zones | markNumber
  | sweepReach | endCue | tornBlock
deriving DecidableEq, Repr

/-- A slot tag in flash (R114). -/
structure SlotTag where
  showNo : Nat
  blocks : Nat
  dead : Bool
deriving DecidableEq, Repr

/-- The flash contents of a slot: its tag, the block indices whose presence marks are written, and the block
positions that are not blank with their contents, both by ascending index (R114). -/
structure FlashSlot where
  tag : Option SlotTag
  marks : List Nat
  data : List (Nat × Block)
deriving DecidableEq, Repr

/-- The directory state of a slot (R113), with what each state holds. `check` is the next block the check of R116
reads, present while validating is set. -/
inductive SlotState
  | empty
  | erasing (showNo blocks : Nat)
  | loading (showNo blocks : Nat) (received : List Nat) (check : Option Nat)
  | complete (showNo blocks : Nat) (received : List Nat) (header : ShowHeader)
  | invalid (showNo blocks : Nat) (received : List Nat) (fault : ShowFault)
deriving DecidableEq, Repr

/-- A block in the write queue (R121). -/
structure QueuedBlock where
  showNo : Nat
  index : Nat
  data : Block
deriving DecidableEq, Repr

/-- A slot in the erase list and the number of its sectors already erased, 0 to 5 (R119). -/
structure EraseItem where
  slot : Fin 32
  erased : Nat
deriving DecidableEq, Repr

/-- The unit of work the memory port is doing (R124). `live` is clear when what asked for the unit has been
withdrawn while it runs (R119, R121, R125). -/
inductive PortUnit
  | refill (player : Fin 4) (live : Bool)
  | deadMark (slot : Fin 32)
  | tagWrite (slot : Fin 32) (showNo blocks : Nat)
  | blockWrite (slot : Fin 32) (block : QueuedBlock) (live : Bool)
  | checkRead (slot : Fin 32) (index : Nat)
  | sectorErase (slot : Fin 32) (sector : Nat) (live : Bool)
deriving DecidableEq, Repr

/-- The Show Memory Controller: the directory, the write queue, the erase list, the dead marks still to be written,
oldest first, and the port (6). -/
structure Library where
  dir : Vector SlotState 32
  queue : List QueuedBlock
  erase : List EraseItem
  deadMarks : List (Fin 32)
  port : Option PortUnit
deriving DecidableEq, Repr

/-! ### Instances and players (03_show_instances.md, 04_players.md) -/

/-- The origin of an instance (R50). -/
inductive Origin
  | calendar (entry : Nat)
  | console (sender : Nat)
  | peer (station : Nat)
deriving DecidableEq, Repr

/-- A gate record (R74). -/
structure Gate where
  time : Nat
  mark : Nat
  timeout : Nat
  due : Nat
  timeoutFrame : Nat
deriving DecidableEq, Repr

/-- The state of a non-IDLE player, or its prior state while SUSPENDED, with what that state holds (R48, R73, R74). -/
inductive Phase
  | armed
  | running
  | gated (g : Gate)
  | releasing (start weight : Nat)
deriving DecidableEq, Repr

/-- The kinds of catch-up (R90). -/
inductive CatchKind
  | join | forward | resume
deriving DecidableEq, Repr

/-- The record a track holds for a local zone (R80). The effective frame is a show frame of the pass under way; a
record of an earlier pass has one below 0 (log entry 22). -/
structure ZoneRecord where
  fromLevels : Levels
  toLevels : Levels
  effective : Int
  fade : Nat
deriving DecidableEq, Repr

/-- The four tracks of one local zone, transparent where absent (R74). -/
abbrev ZoneTracks := Vector (Option ZoneRecord) 4

/-- A sweep in progress: its cue and the local zones it has yet to reach, by their places in the zone map, in the
order it reaches them (R74, R81). -/
structure Sweep where
  cue : Cue
  todo : List Nat
deriving DecidableEq, Repr

/-- What a player gave for a render frame: for each local zone its show value, transparent where absent (R88, R103). -/
structure Answer where
  frame : Nat
  values : List (Option Levels)
deriving DecidableEq, Repr

/-- A catch-up in progress: its kind and its held values (R90). -/
structure CatchUp where
  kind : CatchKind
  held : List (Option Levels)
deriving DecidableEq, Repr

/-- The context of a player (R74). `nextCue` and `endRead` are the read point; `refillAsked` a refill asked for and
not yet begun; `starved` a starvation already counted (R79). -/
structure Context where
  position : Int
  window : List Cue
  nextCue : Nat
  endRead : Bool
  refillAsked : Bool
  starved : Bool
  sweeps : List Sweep
  zones : List ZoneTracks
  lateWatch : Option Nat
  pendingMarks : List (Nat × Nat)
  catchUp : Option CatchUp
  lastAnswer : Option Answer
deriving DecidableEq, Repr

/-- A non-IDLE row of the instance table with its player's context (R48, R74). An IDLE row holds nothing and is
absent. `suspended` is set in SUSPENDED, when `phase` is the prior state. -/
structure Row where
  phase : Phase
  suspended : Bool
  showNo : Nat
  priority : Nat
  tag : Nat
  anchor : Nat
  endFrame : Option Nat
  mode : PlayMode
  passes : Nat
  origin : Origin
  announcer : Bool
  lastHeard : Int
  marks : List (Nat × Nat)
  ctx : Context
deriving DecidableEq, Repr

/-! ### Frame Mixer, Output Queue, Link Drivers (05_frame_computation.md, 07_output_queue_and_luminaire_links.md) -/

/-- The levels of the four links of a record, 256 link slots each (R96). -/
abbrev LinkLevels := Vector (List Nat) 4

/-- A render in progress: its frame, whether it read the hold list as not empty, the levels of its slot step (R96, R98). -/
structure Render where
  frame : Nat
  safe : Bool
  levels : LinkLevels
deriving DecidableEq, Repr

/-- The Frame Mixer: its cursor, the render in progress, its copy of the active curfew (ceiling, exempt priority) and
base look (R97, R98, R99a), and the flush requests asked and not yet taken. -/
structure Mixer where
  cursor : Option Nat
  render : Option Render
  curfew : Option (Nat × Nat)
  base : Option Levels
  flushAsked : Nat
deriving DecidableEq, Repr

/-- A frame record (R127). -/
structure Record where
  frame : Nat
  safe : Bool
  levels : LinkLevels
deriving DecidableEq, Repr

/-- The Output Queue (R127, R128, R131). -/
structure OutputQueue where
  records : List Record
  primed : Bool
  lowWater : Bool
  underrun : Bool
deriving DecidableEq, Repr

/-- The kinds of link frame (R135). -/
inductive FrameKind
  | live | held | safe
deriving DecidableEq, Repr

/-- A link frame (R135). -/
structure LinkFrame where
  kind : FrameKind
  count : BitVec 16
  levels : List Nat
deriving DecidableEq, Repr

/-- A Link Driver (7): its last frame, the frame count of its last boundary frame, its safe frame (none until STARTING
is left), its refresh timer in µs of oscillator time, the link frame it is sending and the one that waits. -/
structure Driver where
  lastLevels : List Nat
  lastKind : FrameKind
  lastCount : BitVec 16
  safeFrame : Option (List Nat)
  refresh : Option Nat
  sending : Option LinkFrame
  waiting : Option LinkFrame
deriving DecidableEq, Repr

/-! ### Link Monitors (08_link_monitors.md) -/

/-- One monitored sense: its raw sense, deglitched condition (PRESENT when set), deglitch timer in µs of oscillator
time, sticky flag, retry timer and, in `cause`, whether its class holds its link disabled (R140, R141, R143, R144). -/
structure Sense where
  raw : Bool
  present : Bool
  deglitch : Option Nat
  sticky : Bool
  retry : Option Nat
  cause : Bool
deriving DecidableEq, Repr

/-- The senses of one link, with the two quantities sensed on it (R140). -/
structure LinkMonitor where
  microamps : Nat
  millivolts : Nat
  short : Sense
  openLine : Sense
  feedLow : Sense
deriving DecidableEq, Repr

/-- The Link Monitors. The HOT SHUTDOWN cause is held on all four links together, exactly while the station is HOT
(R149): it is `hotShutdown.cause`. -/
structure Monitors where
  links : Vector LinkMonitor 4
  temperature : Int
  hotWarn : Sense
  hotShutdown : Sense
deriving DecidableEq, Repr

/-! ### Safety Hold and Contact Inputs (09_safety_hold_and_contact_inputs.md) -/

/-- The debounced states of a contact input (R153). -/
inductive Debounced
  | unsettled | active | inactive
deriving DecidableEq, Repr

/-- A contact input: the voltage at its pin in mV, its raw reading (CLOSED when set), its debounced state and its
debounce timer in µs of oscillator time (R153). -/
structure Input where
  millivolts : Nat
  closed : Bool
  state : Debounced
  timer : Option Nat
deriving DecidableEq, Repr

/-- Safety Hold: the hold list in ascending number, the own hold, the re-send timer in µs of oscillator time (R154, R155). -/
structure SafetyHold where
  holdList : List Nat
  ownHold : Bool
  resend : Option Nat
deriving DecidableEq, Repr

/-! ### Line Interface (10_the_tower_line.md) -/

/-- A frame in the transmit queue (R165): its class, data and contention count, whether it is being sent, and whether
it is the RESULT that a RESTART waits for (R178). -/
structure TxFrame where
  cls : Nat
  data : List Byte
  contention : Nat
  sending : Bool
  restart : Bool
deriving DecidableEq, Repr

/-- What stands on the line: it is idle (R162), a frame of another sender is being received, from its start bit or after the own
attempt was lost (R163, R164, R171), or anything else. -/
inductive Wire
  | idle | receiving | busy
deriving DecidableEq, Repr

/-- The Line Interface: the transmit queue, head first, what stands on the line, the DUPLICATE flag, LINE FAULT, and the µs
of oscillator time since the line was last idle (R163, R165, R169, R170). -/
structure LineInterface where
  tx : List TxFrame
  wire : Wire
  duplicate : Bool
  fault : Bool
  sinceIdle : Nat
deriving DecidableEq, Repr

/-! ### Start Controller (11_start_up_and_station_reports.md) -/

/-- The start states (R177). -/
inductive StartState
  | starting | running | configFault
deriving DecidableEq, Repr

/-- The checks of the boot record in order (R175). -/
inductive BootFault
  | noRecord | recordCheck | zoneMap | depth | modes | position | inputs
deriving DecidableEq, Repr

/-- The Start Controller. `powered` is clear from a loss of main power to the next power start; `pinLow` is set while the
restart pin holds the station at the beginning of STARTING (R178); `straps` and `image` are what the strap pins and boot
memory presented to the last start, held until the next (R175); `number` and `boot` what the last start read of them, with no
boot record when its checks failed; `reason` the configuration fault (R175); `page` the STATUS page number (R179); `restart`
the µs of oscillator time left until an armed warm restart (R178); `readings`, the model's own, how many free
values of the world outside have been read: by restarts by command, and by the µs on an idle line (log entries 24, 25). -/
structure StartController where
  powered : Bool
  state : StartState
  pinLow : Bool
  straps : LineNumber
  image : BootImage
  number : Nat
  boot : Option BootRecord
  reason : Option BootFault
  retainLost : Bool
  page : Nat
  restart : Option Nat
  readings : Nat
deriving DecidableEq, Repr

/-! ### The station -/

/-- The state of the station, one field per block of the manual's block overview, and the commands that wait, first
in, first out. -/
structure State where
  start : StartController
  time : TimeUnit
  backup : Backup
  cal : CalendarUnit
  flash : Vector FlashSlot 32
  lib : Library
  rows : Vector (Option Row) 4
  mixer : Mixer
  out : OutputQueue
  drivers : Vector Driver 4
  mon : Monitors
  safety : SafetyHold
  inputs : Vector Input 8
  line : LineInterface
  counters : Counters
  pending : List Instr
deriving DecidableEq, Repr

/-- The reasons a run could stop with a fault: none. Every command of the table has the effect its rules give it in
every state of the station, so this type has no constructor and no meaning answers a fault. -/
inductive Fault
deriving DecidableEq, Repr

/-- The reasons a command is refused. -/
inductive Refusal
  /-- Raised by `exec` alone, for a command that has no meaning yet; safe: the run stops, nothing is claimed. No arm
  raises it. -/
  | notModelled (mnemonic : String)
deriving DecidableEq, Repr

/-! ### Start values -/

/-- Power-start counters: all 0 (R181). -/
def Counters.zero : Counters := Vector.replicate 56 0

/-- The reference input with an empty run and no offset (R24). -/
def Reference.start (state : RefState) : Reference :=
  { state := state, run := 0, lastSecond := 0, offset := none, waiting := none, silence := none }

/-- A sense at a start (R152). -/
def Sense.start : Sense :=
  { raw := false, present := false, deglitch := none, sticky := false, retry := none, cause := false }

/-- A driver at a start: the dark frame, kind HELD (R139). -/
def Driver.start : Driver :=
  { lastLevels := List.replicate 256 0, lastKind := .held, lastCount := 0, safeFrame := none, refresh := none,
    sending := none, waiting := none }

/-- The Frame Mixer at a start (R100). -/
def Mixer.start : Mixer := { cursor := none, render := none, curfew := none, base := none, flushAsked := 0 }

/-- The Output Queue at a start (R139). -/
def OutputQueue.start : OutputQueue := { records := [], primed := false, lowWater := false, underrun := false }

/-- The Line Interface at a start: no frame is being received, and the time since idle is measured from the start (R173). -/
def LineInterface.start : LineInterface := { tx := [], wire := .busy, duplicate := false, fault := false, sinceIdle := 0 }

/-- Safety Hold at a start (R161). -/
def SafetyHold.start : SafetyHold := { holdList := [], ownHold := false, resend := none }

/-- A blank slot of show memory (R114). -/
def FlashSlot.blank : FlashSlot := { tag := none, marks := [], data := [] }

/-- The Show Memory Controller before its directory is rebuilt, with every slot EMPTY (R126). -/
def Library.start : Library :=
  { dir := Vector.replicate 32 .empty, queue := [], erase := [], deadMarks := [], port := none }

/-- The machine right after main power has come up, before a start has read the straps and the boot record: every
block at its power-start values (R24, R46, R72, R74, R100, R126, R139, R152, R161, R173), STARTING (R177), retained
memory not intact and show memory blank. What lies outside the part (straps 0, no boot record, healthy senses,
open contacts) and the values no rule gives are log entry 1's. -/
def State.reset : State :=
  { start := { powered := true, state := .starting, pinLow := false, straps := 0, image := none, number := 0,
               boot := none, reason := none, retainLost := false, page := 0, restart := none,
               readings := 0 }
    time := { ns := 0, fraction := 0, lastBoundary := 0, lastSecond := 0, trim := 0, slew := 0, hold := none,
              discipline := .acquire, hops := 15, timeValid := false, stepFlags := 0, holdoverRun := 0,
              peers := [], ref := Reference.start .notFitted }
    backup := { seconds := 0, timeValid := false, intact := false }
    cal := { entries := [], dusk := [], seasons := [], curfew := none, base := none }
    flash := Vector.replicate 32 FlashSlot.blank
    lib := Library.start
    rows := Vector.replicate 4 none
    mixer := Mixer.start
    out := OutputQueue.start
    drivers := Vector.replicate 4 Driver.start
    mon := { links := Vector.replicate 4 { microamps := 50000, millivolts := 24000, short := Sense.start,
                                           openLine := Sense.start, feedLow := Sense.start }
             temperature := 250, hotWarn := Sense.start, hotShutdown := Sense.start }
    safety := SafetyHold.start
    inputs := Vector.replicate 8 { millivolts := 3300, closed := false, state := .unsettled, timer := none }
    line := LineInterface.start
    counters := Counters.zero
    pending := [] }

end Sys2Proof.Machine
end

