-- ==== Sys2Proof/Machine/Ops.lean ====
section
/-!
DEFINITION. The shared operations over State: time as the other blocks see it, counters, flush requests, the boot
record in use, the transmit queue, RESULT reports and the reception of a frame.
-/

namespace Sys2Proof.Machine

/-- What a step of the station answers. -/
abbrev Answered := Host.Outcome State Fault Refusal

/-! ### Tower time -/

/-- Tower time in µs (1.1). -/
def towerUs (s : State) : Nat := s.time.ns / 1000

/-- The current tower frame number (1.1). -/
def frameNow (s : State) : Nat := towerUs s / 25000

/-- The current second (R33). -/
def secondNow (s : State) : Nat := towerUs s / 1000000

/-! ### Start state -/

/-- The station has main power and its restart pin is not held low, so its blocks take events (R178). -/
def awake (s : State) : Bool := s.start.powered && !s.start.pinLow

/-- Main power is up and STARTING has been left (R177). -/
def started (s : State) : Bool := awake s && s.start.state != .starting

/-- The station is RUNNING (R177). -/
def isRunning (s : State) : Bool := awake s && s.start.state == .running

/-! ### Counters (R181) -/

/-- The value of a counter. -/
def count (s : State) (c : Counter) : BitVec 16 := s.counters[c.place]

/-- A counter counts `n`, holding at 65,535 (R181). -/
def bumpBy (n : Nat) (c : Counter) (s : State) : State :=
  { s with counters := s.counters.set c.place (BitVec.ofNat 16 (min 65535 ((count s c).toNat + n))) }

/-- A counter counts one (R181). -/
def bump (c : Counter) (s : State) : State := bumpBy 1 c s

/-! ### Flush requests (R99) -/

/-- A block asks the Frame Mixer to flush (R99). -/
def askFlush (s : State) : State := { s with mixer := { s.mixer with flushAsked := s.mixer.flushAsked + 1 } }

/-- A block asks for a flush when a condition holds. -/
def askFlushIf (b : Bool) (s : State) : State := if b then askFlush s else s

/-! ### The boot record in use (R175) -/

/-- The local zones (R95); none when the boot record failed its checks (R175). -/
def zonesOf (s : State) : List ZoneBoot := (s.start.boot.map (·.zones)).getD []

/-- The own position in m (R8); 0 when the boot record failed its checks (R175). -/
def positionOf (s : State) : Nat := (s.start.boot.map (·.position)).getD 0

/-- The coast set (R13); empty when the boot record failed its checks (R175). -/
def coastOf (s : State) : CoastSet :=
  (s.start.boot.map (·.coast)).getD { spread := false, solo := false, line := false, steppedPeer := false }

/-- The reference input is fitted (R17, R175). -/
def referenceFitted (s : State) : Bool := (s.start.boot.map (·.reference)).getD false

/-- The depth of the Output Queue (R127); 0, unused, when the boot record failed its checks. -/
def depthOf (s : State) : Nat := (s.start.boot.map (·.depth)).getD 0

/-- The safe level of a link (R95); 0, unused, when the boot record failed its checks. -/
def safeLevelOf (s : State) (l : Fin 4) : Nat := (s.start.boot.map (fun b => b.links[l].safeLevel.toNat)).getD 0

/-- The budget of a link, 0 for no limit (R95). -/
def budgetOf (s : State) (l : Fin 4) : Nat := (s.start.boot.map (fun b => b.links[l].budget.toNat)).getD 0

/-- The modes of CONFIG FAULT (R142). -/
def configFaultModes : MonitorModes :=
  { short := .warn, openLine := .warn, feedLow := .warn, hotWarn := .warn, hotShutdown := .latched }

/-- The monitor modes in use (R142). -/
def modesOf (s : State) : MonitorModes := (s.start.boot.map (·.modes)).getD configFaultModes

/-- The function of a contact input in use; NONE when the boot record failed its checks (R153, R175). -/
def functionOf (s : State) (i : Fin 8) : InputFunction :=
  (s.start.boot.map (fun b => b.inputs[i].function)).getD .noFunction

/-- The sense of a contact input in use (R153). -/
def senseOf (s : State) (i : Fin 8) : InputSense :=
  (s.start.boot.map (fun b => b.inputs[i].sense)).getD .activeClosed

/-! ### Rows and shows -/

/-- A row of the instance table is set (R48). -/
def setRow (p : Fin 4) (r : Option Row) (s : State) : State := { s with rows := s.rows.set p r }

/-- A non-IDLE row is changed (R48). -/
def modRow (p : Fin 4) (f : Row → Row) (s : State) : State :=
  match s.rows[p] with
  | some r => setRow p (some (f r)) s
  | none => s

/-- The context of a non-IDLE player is changed (R74). -/
def modCtx (p : Fin 4) (f : Context → Context) (s : State) : State := modRow p (fun r => { r with ctx := f r.ctx }) s

/-- The number of rows not in IDLE (R49). -/
def instanceCount (s : State) : Nat := (s.rows.toList.filter Option.isSome).length

/-- The show number a slot holds; absent in EMPTY (R113). -/
def slotShow : SlotState → Option Nat
  | .empty => none
  | .erasing n _ => some n
  | .loading n _ _ _ => some n
  | .complete n _ _ _ => some n
  | .invalid n _ _ _ => some n

/-- The lowest-numbered slot that holds a show number (R113: at most one does). -/
def slotOf (s : State) (showNo : Nat) : Option (Fin 32) :=
  (List.finRange 32).find? (fun i => slotShow s.lib.dir[i] == some showNo)

/-- The header copy of a show whose slot is COMPLETE (R113). -/
def headerOf (s : State) (showNo : Nat) : Option ShowHeader :=
  match slotOf s showNo with
  | some i =>
    match s.lib.dir[i] with
    | .complete _ _ _ h => some h
    | _ => none
  | none => none

/-- The header of a show held by a row, which is COMPLETE (R48). -/
def headerOr (s : State) (showNo : Nat) : ShowHeader :=
  (headerOf s showNo).getD { length := 0, attack := 0, release := 0, low := 0, high := 0 }

/-- The in-use count of a show: the non-IDLE rows that hold it (R123). -/
def inUse (s : State) (showNo : Nat) : Nat :=
  (s.rows.toList.filter (fun r => match r with | some r => r.showNo == showNo | none => false)).length

/-! ### The transmit queue (R165 to R168) -/

/-- A frame as it is queued: contention count 0, not being sent (R164, R165). -/
def newFrame (cls : Nat) (data : List Byte) : TxFrame :=
  { cls := cls, data := data, contention := 0, sending := false, restart := false }

/-- A frame takes its place by class, and within its class after the frames already queued (R165). -/
def txInsert (f : TxFrame) : List TxFrame → List TxFrame
  | [] => [f]
  | g :: gs => if g.cls ≤ f.cls then g :: txInsert f gs else f :: g :: gs

/-- The candidate for displacement: the newest frame of the largest class value among those not being sent, taken as
the last in queue order. Of two BEACONs that wait, R167 may have put the newer in the older's place ahead of the other: that
the last in queue order counts as the newest is then the model's choice (DESIGN CHOICE, log entry 24). -/
def txCandidate (q : List TxFrame) : Option TxFrame := q.reverse.find? (fun g => !g.sending)

/-- The queue without its candidate (R166). -/
def txRemoveCandidate : List TxFrame → List TxFrame
  | [] => []
  | g :: gs =>
    if gs.any (fun x => !x.sending) then g :: txRemoveCandidate gs
    else if g.sending then g :: gs else gs

/-- The transmit queue is replaced. -/
def setTx (q : List TxFrame) (s : State) : State := { s with line := { s.line with tx := q } }

/-- A frame is queued: it joins a queue of fewer than 12, displaces the candidate of a full queue when its class is
lower, and is dropped otherwise (R165, R166). -/
def enqueue (f : TxFrame) (s : State) : State :=
  if s.line.tx.length < 12 then setTx (txInsert f s.line.tx) s
  else
    match txCandidate s.line.tx with
    | some g =>
      if f.cls < g.cls then bump .txDisplaced (setTx (txInsert f (txRemoveCandidate s.line.tx)) s)
      else bump .txDropped s
    | none => bump .txDropped s

/-- A block queues a frame; a listen-only station queues nothing (R168). -/
def send (f : TxFrame) (s : State) : State := if s.start.number = 0 then s else enqueue f s

/-- The first frame not being sent that satisfies `q` is replaced by `f`, which takes its place (R167). -/
def txReplace (q : TxFrame → Bool) (f : TxFrame) : List TxFrame → List TxFrame
  | [] => []
  | g :: gs => if q g && !g.sending then f :: gs else g :: txReplace q f gs

/-- A BEACON is queued; it replaces a BEACON in the queue that is not being sent (R167), and of two such the first: the
model's choice (DESIGN CHOICE, log entry 24). -/
def sendBeacon (f : TxFrame) (s : State) : State :=
  if s.start.number = 0 then s
  else if s.line.tx.any (fun g => g.cls == 1 && !g.sending) then
    bump .beaconsReplaced (setTx (txReplace (fun g => g.cls == 1) f s.line.tx) s)
  else enqueue f s

/-! ### Console frames: target, outcome, RESULT (R174, R180) -/

/-- The outcomes of a command (00_scope.md, R174). -/
inductive Verdict
  | accepted | inUse | full | invalid | unknown | notNow
deriving DecidableEq, Repr

/-- The outcome codes of a RESULT (R174). -/
def Verdict.code : Verdict → Nat
  | .accepted => 0 | .inUse => 1 | .full => 2 | .invalid => 3 | .unknown => 4 | .notNow => 5

/-- A console frame concerns this station: its target is 0 or the own station number (R41, R52, R117). -/
def concerns (target : Byte) (s : State) : Bool := target.toNat == 0 || target.toNat == s.start.number

/-- A console frame is targeted at this station by its number, which is not 0, so that it is answered (R41, R180). -/
def targeted (target : Byte) (s : State) : Bool := target.toNat == s.start.number && s.start.number != 0

/-- The data of a RESULT: the sender, class and subcode of the frame answered, the outcome, the subject (R174). -/
def resultData (sender cls sub : Nat) (v : Verdict) (subject : Nat) : List Byte :=
  [byteOf 2, byteOf sender, byteOf cls, byteOf sub, byteOf v.code] ++ bytesBE 2 subject

/-- A RESULT is queued when the frame was targeted at this station (R41, R180). -/
def answerResult (sender : LineNumber) (target : Byte) (cls sub : Nat) (v : Verdict) (subject : Nat) (s : State) : State :=
  if targeted target s then send (newFrame 5 (resultData sender.toNat cls sub v subject)) s else s

/-! ### Reception (R169, R171, R178) -/

/-- The µs that a line frame of `bytes` data bytes takes from the leading edge of its start bit to the end of its end field: 34 bits
and its data, of 4 µs each (R162). -/
def frameTime (bytes : Nat) : Nat := 4 * (34 + 8 * bytes)

/-- A frame has been received whose start bit came `us` µs before: it is no longer being received, and the line is not idle until
it has stood recessive again (R162, R171). Where its start bit ended an idle line, the line was last idle at that bit (R170). -/
def hearFrame (us : Nat) (s : State) : State :=
  { s with line := { s.line with
      wire := .busy
      sinceIdle := if s.line.wire = .idle then us else s.line.sinceIdle } }

/-- What the Line Interface does with every checked frame of `bytes` data bytes that is not its own transmission: a frame under the own
number, which is not 0, sets DUPLICATE (R169). -/
def noteSender (sender : LineNumber) (bytes : Nat) (s : State) : State :=
  let s := hearFrame (frameTime bytes) s
  if sender.toNat = s.start.number ∧ s.start.number ≠ 0 then
    bump .duplicateFrames { s with line := { s.line with duplicate := true } }
  else s

/-- A checked frame of a class and subcode is received and its owner's rule acts; without power, or while the restart pin is
held low, the Line Interface does not receive (R178). -/
def onFrame (sender : LineNumber) (cls sub : Nat) (owner : State → State) (s : State) : Answered :=
  .next (if awake s then owner (noteSender sender (frameLength cls sub) s) else s)

/-- A checked frame whose owner discards it while the Start Controller is STARTING (R21, R41, R117). -/
def onFrameStarted (sender : LineNumber) (cls sub : Nat) (owner : State → State) (s : State) : Answered :=
  onFrame sender cls sub (fun s => if s.start.state = .starting then s else owner s) s

/-- An event of the part itself: nothing happens without power or while the restart pin is held low (R178). -/
def onEvent (f : State → State) (s : State) : Answered := .next (if awake s then f s else s)

end Sys2Proof.Machine
end

