-- ==== Sys2Proof/Machine/Operands.lean ====
section
/-!
DEFINITION. The byte layouts of R174 that the station builds or reads: BEACON, ANNOUNCE and MARK frames, the show
header and the cue record, packed levels, and the link frame of R135.
-/

namespace Sys2Proof.Machine

/-! ### Levels -/

/-- All four levels 0. -/
def Levels.zero : Levels := { l1 := 0, l2 := 0, l3 := 0, l4 := 0 }

/-- The level of slot position `j + 1` (R80). -/
def Levels.get (l : Levels) : Nat → Nat
  | 0 => l.l1
  | 1 => l.l2
  | 2 => l.l3
  | _ => l.l4

/-- Four levels from two sets of four, position by position. -/
def Levels.zipWith (f : Nat → Nat → Nat) (a b : Levels) : Levels :=
  { l1 := f a.l1 b.l1, l2 := f a.l2 b.l2, l3 := f a.l3 b.l3, l4 := f a.l4 b.l4 }

/-- Four levels packed in 48 bits, level 1 in the highest 12 (R174). -/
def unpackLevels (n : Nat) : Levels :=
  { l1 := (n >>> 36) % 4096, l2 := (n >>> 24) % 4096, l3 := (n >>> 12) % 4096, l4 := n % 4096 }

/-- The six bytes of four levels (R174). -/
def packLevels (l : Levels) : List Byte :=
  bytesBE 6 ((l.l1 % 4096) <<< 36 + (l.l2 % 4096) <<< 24 + (l.l3 % 4096) <<< 12 + l.l4 % 4096)

/-! ### Frames the station builds (R174) -/

/-- The beacon code of a discipline state. -/
def disciplineCode : Discipline → Nat
  | .acquire => 0 | .track => 1 | .coast => 2 | .holdover => 3

/-- A bit with a place in a byte. -/
def bitAt (b : Bool) (place : Nat) : Nat := if b then 2 ^ place else 0

/-- Bytes 7 to 12 of a BEACON. The bits of bytes 7 and 8 that the layout gives no field are 0: the model's choice
(DESIGN CHOICE, log entry 6). -/
def beaconTail (b : BeaconBody) : List Byte :=
  [byteOf (b.hops.toNat + disciplineCode b.discipline * 16),
   byteOf (bitAt b.timeValid 0 + bitAt b.stepFlag 1 + bitAt b.safetyFlag 2),
   b.faults, b.instances] ++ bytesBE 2 b.position.toNat

/-- The data of a BEACON; its stamp is written at its start bit (R19, R20). -/
def beaconData (stamp : Nat) (b : BeaconBody) : List Byte := bytesBE 7 stamp ++ beaconTail b

/-- The code of a mode. -/
def modeCode : PlayMode → Nat
  | .once => 0 | .loop => 1

/-- The data of an ANNOUNCE with subcode `sub` for a row's current values (R62). -/
def announceData (sub : Nat) (r : Row) : List Byte :=
  [byteOf sub, byteOf r.showNo, byteOf r.priority] ++ bytesBE 5 r.tag ++ bytesBE 5 r.anchor ++
    bytesBE 3 (match r.endFrame with | some e => e - r.tag | none => 0) ++
    [byteOf (modeCode r.mode * 16 + r.passes)]

/-- The data of a MARK frame. -/
def markData (showNo tag number release : Nat) : List Byte :=
  [byteOf showNo] ++ bytesBE 5 tag ++ [byteOf number] ++ bytesBE 5 release

/-- An ANNOUNCE START, RUNNING or STOP is queued for a row: subcode 1, 2 or 3 (R62). -/
def announce (sub : Nat) (r : Row) (s : State) : State := send (newFrame 2 (announceData sub r)) s

/-! ### Show records (R174) -/

/-- The action of an action code (R174). -/
def actionOf : Nat → Action
  | 0 => .set | 1 => .fade | 2 => .sweepUp | 3 => .sweepDown | 4 => .gate | 5 => .mark | 6 => .endShow
  | _ => .other

/-- A block as a cue record, with its place in stored order (R174). -/
def cueOfBlock (index : Nat) (b : Block) : Cue :=
  { index := index, time := blockField b 0 3, action := actionOf (blockField b 3 1 / 16),
    track := blockField b 3 1 % 16, zoneLow := blockField b 4 2, zoneHigh := blockField b 6 2,
    param := blockField b 8 2, levels := unpackLevels (blockField b 10 6) }

/-- The header fields of block 0 (R174). -/
structure HeaderFields where
  showNo : Nat
  cues : Nat
  length : Nat
  attack : Nat
  release : Nat
  low : Nat
  high : Nat
  check : Nat
deriving DecidableEq, Repr

/-- Block 0 as the show header (R174). -/
def headerOfBlock (b : Block) : HeaderFields :=
  { showNo := blockField b 0 1, cues := blockField b 1 2, length := blockField b 3 3, attack := blockField b 6 1,
    release := blockField b 7 1, low := blockField b 8 2, high := blockField b 10 2, check := blockField b 12 2 }

/-- The block at a position of a slot's data sectors (R114). -/
def readBlock (f : FlashSlot) (index : Nat) : Block :=
  match f.data.find? (fun e => e.1 == index) with
  | some e => e.2
  | none => Config.blankBlock

/-- The pace of a SWEEP cue in quarter-frames per zone (R81). -/
def Cue.pace (c : Cue) : Nat := c.param % 256

/-- The fade frames of a cue: a FADE's parameter, a SWEEP's high byte, 0 for SET (R80, R81). -/
def Cue.fade (c : Cue) : Nat :=
  match c.action with
  | .fade => c.param
  | .sweepUp | .sweepDown => c.param / 256
  | _ => 0

/-- The mark number of a GATE cue (R84, R174). -/
def Cue.gateMark (c : Cue) : Nat := c.param % 256

/-- The timeout of a GATE cue in seconds; 0 means 30 (R84). -/
def Cue.gateTimeout (c : Cue) : Nat := if c.param / 256 = 0 then 30 else c.param / 256

/-! ### The link frame (R135) -/

/-- The kind byte of a link frame. -/
def kindCode : FrameKind → Nat
  | .live => 0 | .held => 1 | .safe => 2

/-- Levels of a link two by two in three bytes, the lower-numbered slot in the higher 12 bits (R135, R174). -/
def packPairs : List Nat → List Byte
  | a :: b :: rest => bytesBE 3 ((a % 4096) <<< 12 + b % 4096) ++ packPairs rest
  | [a] => bytesBE 3 ((a % 4096) <<< 12)
  | [] => []

/-- The bytes of a link frame after its line break: start code, kind, frame count, levels and check (R135). -/
def linkFrameBytes (f : LinkFrame) : List Byte :=
  let body := byteOf (kindCode f.kind) :: (bytesBE 2 f.count.toNat ++ packPairs f.levels)
  byteOf 1 :: (body ++ bytesBE 2 (crcBytes body).toNat)

/-- What a luminaire link carries in one µs of a link frame: the line break, or one bit (R135). The manual gives the break's length and
not its level, so it is a symbol of its own (DEDUCED, log entry 41). -/
inductive LinkSymbol where
  | lineBreak
  | bit (value : Bool)
deriving DecidableEq, Repr

/-- A whole link frame as it is sent at 1,000 kbit/s, one symbol for each µs: the line break of 100 µs, then the bytes, each most
significant bit first (R135). -/
def linkFrameSent (f : LinkFrame) : List LinkSymbol :=
  List.replicate 100 .lineBreak ++ (bitsOfBytes (linkFrameBytes f)).map .bit

/-- The bits of a line frame from its class to its last data bit, over which the check is computed (R162). -/
def lineFrameBits (cls sender length : Nat) (data : List Byte) : List Bool :=
  bitsOf 3 cls ++ bitsOf 6 sender ++ bitsOf 5 length ++ bitsOfBytes data

/-- The check of a line frame (R162). -/
def lineCheck (cls sender length : Nat) (data : List Byte) : BitVec 16 :=
  crcBits (lineFrameBits cls sender length data)

/-- The bits of a whole line frame in the order sent, 0 dominant and 1 recessive (R162). -/
def lineFrameSent (cls sender : Nat) (data : List Byte) : List Bool :=
  [false] ++ lineFrameBits cls sender data.length data ++
    bitsOf 16 (lineCheck cls sender data.length data).toNat ++ [true, true, true]

end Sys2Proof.Machine
end

