-- ==== Sys2Proof/Machine/Flags.lean ====
section
/-!
DEFINITION. The indications the station forms from its state: the enable state of a link (R144), the fault summary byte
(R151), the station byte of STATUS (R174, R179) and the counters of a STATUS page (R179).
-/

namespace Sys2Proof.Machine

/-- A link is ENABLED while its cause set is empty; the HOT SHUTDOWN cause is held on every link while the station is HOT
(R144, R149). -/
def linkEnabled (s : State) (l : Fin 4) : Bool :=
  let m := s.mon.links[l]
  !m.short.cause && !m.openLine.cause && !m.feedLow.cause && !s.mon.hotShutdown.cause

/-- A link is driven while the station is RUNNING and the link is ENABLED, and until the link frame in progress on it has
ended (R140). -/
def linkDriven (s : State) (l : Fin 4) : Bool :=
  isRunning s && (linkEnabled s l || s.drivers[l].sending.isSome)

/-- The station HOT state: HOT while the HOT SHUTDOWN cause is held (R149). -/
def stationHot (s : State) : Bool := s.mon.hotShutdown.cause

/-- The station is in CONFIG FAULT (R177). -/
def inConfigFault (s : State) : Bool := s.start.state == .configFault

/-- Some link satisfies a test. -/
def anyLink (q : Fin 4 → Bool) : Bool := q 0 || q 1 || q 2 || q 3

/-- A class in mode WARN has a sticky flag set, as the WARN indication shows it (R151). -/
def warnShown (s : State) : Bool :=
  let m := modesOf s
  (m.short == .warn && anyLink (fun l => s.mon.links[l].short.sticky)) ||
    (m.openLine == .warn && anyLink (fun l => s.mon.links[l].openLine.sticky)) ||
    (m.feedLow == .warn && anyLink (fun l => s.mon.links[l].feedLow.sticky)) ||
    (m.hotWarn == .warn && s.mon.hotWarn.sticky)

/-- The fault summary byte (R151, R174): bit 7 FAULT, 6 WARN, 5 SHORT, 4 OPEN, 3 FEED, 2 HOT, 1 UNDERRUN, 0 CONFIG. -/
def faultSummary (s : State) : Byte :=
  byteOf
    (bitAt (anyLink (fun l => !linkEnabled s l) || inConfigFault s) 7 + bitAt (warnShown s) 6 +
      bitAt (anyLink (fun l => s.mon.links[l].short.sticky)) 5 +
      bitAt (anyLink (fun l => s.mon.links[l].openLine.sticky)) 4 +
      bitAt (anyLink (fun l => s.mon.links[l].feedLow.sticky)) 3 +
      bitAt (s.mon.hotWarn.sticky || s.mon.hotShutdown.sticky) 2 + bitAt s.out.underrun 1 +
      bitAt s.start.reason.isSome 0)

/-- The start state's code in the station byte (R174). -/
def startCode : StartState → Nat
  | .starting => 0 | .running => 1 | .configFault => 2

/-- The station byte of STATUS (R174, R179). -/
def stationByte (s : State) : Byte :=
  byteOf
    (startCode s.start.state + bitAt s.start.retainLost 2 + bitAt s.line.duplicate 3 + bitAt s.line.fault 4 +
      bitAt s.out.lowWater 5 + bitAt s.time.timeValid 6 + bitAt (s.safety.holdList != []) 7)

/-- The counter at a place of the STATUS pages; 0 beyond the last (R179). -/
def counterAt (s : State) (place : Nat) : Nat := (s.counters[place]?.map BitVec.toNat).getD 0

/-- The ten counters of a page, two bytes each (R179). -/
def pageCounters (s : State) (page : Nat) : List Byte :=
  (List.range 10).flatMap (fun i => bytesBE 2 (counterAt s (page * 10 + i)))

/-- The data of a STATUS (R174, R179). -/
def statusData (s : State) : List Byte :=
  [byteOf 1, stationByte s, faultSummary s, byteOf s.start.page] ++ pageCounters s s.start.page

end Sys2Proof.Machine
end

