-- ==== Sys2Proof/Machine/CalendarMath.lean ====
section
/-!
DEFINITION. Days, recurrences, dusk, seasons and instants (2.2, 2.3), the recompute of an entry (R33, R39) and the checks
and layout of a calendar entry (R27, R174).
-/

namespace Sys2Proof.Machine

/-! ### Days (R28) -/

/-- The last day number, 2099-12-31 (R28). -/
def lastDay : Nat := 36524

/-- The weekday of a day, Monday 0; day 0 is a Saturday (R28). -/
def weekdayOf (day : Nat) : Nat := (day + 5) % 7

/-- Every year of the calendar divisible by 4 is a leap year (R28). -/
def isLeap (year : Nat) : Bool := year % 4 == 0

/-- The year of a day, counted from 2000, and the day of that year from 0: leap years begin a cycle of 1,461 days (R28). -/
def yearOf (day : Nat) : Nat × Nat :=
  let cycle := day % 1461
  if cycle < 366 then (4 * (day / 1461), cycle)
  else (4 * (day / 1461) + 1 + (cycle - 366) / 365, (cycle - 366) % 365)

/-- The length of each month of a leap year or another. -/
def monthLengths (leap : Bool) : List Nat := [31, if leap then 29 else 28, 31, 30, 31, 30, 31, 31, 30, 31, 30, 31]

/-- The month, from 1, and the day of the month, from 1, of a day of the year. -/
def splitMonths : List Nat → Nat → Nat → Nat × Nat
  | [], month, day => (month, day + 1)
  | n :: ns, month, day => if day < n then (month, day + 1) else splitMonths ns (month + 1) (day - n)

/-- The month and day of the month of a day (R28). -/
def dateOf (day : Nat) : Nat × Nat :=
  let (year, k) := yearOf day
  splitMonths (monthLengths (isLeap year)) 1 k

/-- The days of the month that a day lies in. -/
def monthLengthOf (day : Nat) : Nat := ((monthLengths (isLeap (yearOf day).1))[(dateOf day).1 - 1]?).getD 31

/-- The days of a month with February taken as 29 days; 0 for no month (R27). -/
def longestMonth (month : Nat) : Nat := if month = 0 then 0 else ((monthLengths true)[month - 1]?).getD 0

/-- A recurrence names a day (R28). -/
def Recurrence.names (r : Recurrence) (day : Nat) : Bool :=
  match r with
  | .once d => day == d
  | .daily => true
  | .weekly days => days.getLsbD (weekdayOf day)
  | .yearly month d => dateOf day == (month, d)
  | .nth month weekday n =>
    let (m, d) := dateOf day
    m == month && weekdayOf day == weekday &&
      (match n with
       | some k => (d - 1) / 7 + 1 == k
       | none => decide (monthLengthOf day < d + 7))

/-- An entry recurs on a day: named, within its validity and not skipped (R28). -/
def Entry.recursOn (e : Entry) (day : Nat) : Bool :=
  e.recurrence.names day &&
    (match e.validFrom with | some a => decide (a ≤ day) | none => true) &&
    (match e.validUntil with | some b => decide (day ≤ b) | none => true) && !e.skips.contains day

/-! ### Dusk and seasons (R29 to R32) -/

/-- The index of a month and day in the dusk table (R29). -/
def duskIndex (month day : Nat) : Nat := ((monthLengths true).take (month - 1)).sum + day

/-- The dusk value of an index; a missing value reads as 1,080 (R29). -/
def duskValue (table : List (Nat × Nat)) (index : Nat) : Nat :=
  ((table.find? (fun e => e.1 == index)).map (·.2)).getD 1080

/-- The earliest standard instant at which civil time is at or past a target: `offset` is in force from `start` to the
first of the transitions (R30, R31). -/
def clockInstant (target start offset : Int) : List Season → Int
  | [] => max start (target - offset * 60)
  | w :: ws =>
    let t := max start (target - offset * 60)
    if t < w.instant * 60 then t else clockInstant target (w.instant * 60) w.offset ws

/-- The firing instant of an anchor on a day, in standard seconds (R31, R32). -/
def instantOf (dusk : List (Nat × Nat)) (seasons : List Season) (a : Anchor) (day : Nat) : Nat :=
  match a with
  | .clock s => (clockInstant (day * 86400 + s) 0 0 seasons).toNat
  | .dusk o =>
    let (m, d) := dateOf day
    day * 86400 + (clampInt 0 86399 ((duskValue dusk (duskIndex m d) : Int) * 60 + o * 60)).toNat

/-- The firing instants of an entry's recurrence days among the days from `first` on, `count` of them, within day 0 to day
36,524. -/
def firingInstants (dusk : List (Nat × Nat)) (seasons : List Season) (e : Entry) (first : Int) (count : Nat) : List Nat :=
  (List.range count).filterMap (fun i =>
    let day := first + i
    if 0 ≤ day ∧ day ≤ lastDay then
      if e.recursOn day.toNat then some (instantOf dusk seasons e.anchor day.toNat) else none
    else none)

/-! ### The recompute (R33, R39) -/

/-- The smallest of a list of numbers. -/
def smallest : List Nat → Option Nat
  | [] => none
  | a :: rest => match smallest rest with | some b => some (min a b) | none => some a

/-- The largest of a list of numbers. -/
def largest : List Nat → Option Nat
  | [] => none
  | a :: rest => match largest rest with | some b => some (max a b) | none => some a

/-- The next-fire of an enabled entry seen from a current second (R33). -/
def nextFireOf (dusk : List (Nat × Nat)) (seasons : List Season) (current : Nat) (e : Entry) : Option Nat :=
  (smallest ((firingInstants dusk seasons e ((current / 86400 : Nat) - 1) 402).filter (fun t => current < t))).map (· * 40)

/-- The window end of an enabled entry by look-back from a current second (R39). -/
def windowEndOf (dusk : List (Nat × Nat)) (seasons : List Season) (current : Nat) (e : Entry) : Option Nat :=
  (largest (((firingInstants dusk seasons e ((current / 86400 : Nat) - 5) 6).filter
    (fun t => t ≤ current && current < t + e.duration)).map (fun t => t + e.duration))).map (· * 40)

/-- A SHOW entry, which fires requests; the other kinds open windows. -/
def Entry.isShow (e : Entry) : Bool :=
  match e.kind with
  | .playShow _ _ _ _ => true
  | .curfew _ _ => false
  | .base _ _ => false

/-- An entry recomputed, with `valid` the time-valid flag (R33, R39). -/
def Entry.recompute (dusk : List (Nat × Nat)) (seasons : List Season) (valid : Bool) (current : Nat) (e : Entry) : Entry :=
  if valid && e.enabled then
    { e with nextFire := nextFireOf dusk seasons current e
             windowEnd := if e.isShow then none else windowEndOf dusk seasons current e }
  else { e with nextFire := none, windowEnd := none }

/-! ### The checks of an entry (R27) -/

/-- An optional day as a frame carries it (R174). -/
def optionalDay (d : BitVec 16) : Option Nat := if d = 0xFFFF then none else some d.toNat

/-- The bits of an entry's byte 7 that carry the weekday and n of an NTH recurrence (R174). -/
def nthFields (b : Byte) : Nat × Nat := (b.toNat % 8, b.toNat / 16 % 8)

/-- The recurrence a frame carries, checked (R27, R174). -/
def recurrenceOf (f : EntryImage) : Option Recurrence :=
  let b6 := f.day6.toNat
  let b7 := f.day7.toNat
  match f.recurrence.toNat with
  | 0 => if b6 * 256 + b7 ≤ lastDay then some (.once (b6 * 256 + b7)) else none
  | 1 => some .daily
  | 2 => if b6 % 128 = 0 then none else some (.weekly (BitVec.ofNat 7 b6))
  | 3 => if 1 ≤ b7 ∧ b7 ≤ longestMonth b6 then some (.yearly b6 b7) else none
  | 4 =>
    let (w, n) := nthFields f.day7
    if 1 ≤ b6 ∧ b6 ≤ 12 ∧ w ≤ 6 then
      if n = 7 then some (.nth b6 w none) else if 1 ≤ n ∧ n ≤ 4 then some (.nth b6 w (some n)) else none
    else none
  | _ => none

/-- The anchor a frame carries, checked (R27, R174). -/
def anchorOf (a : BitVec 24) : Option Anchor :=
  if a.getLsbD 23 then
    let o := (a.setWidth 16).toInt
    if -180 ≤ o ∧ o ≤ 180 then some (.dusk o) else none
  else if a.toNat % 2 ^ 17 ≤ 86399 then some (.clock (a.toNat % 2 ^ 17))
  else none

/-- A priority is taken from 1 to 15 (R27, R50). -/
def clampPriority (n : Nat) : Nat := max 1 (min 15 n)

/-- An exempt priority is taken from 1 to 16 (R27). -/
def clampExempt (n : Nat) : Nat := max 1 (min 16 n)

/-- The kind a frame carries with the settings an ENTRY WRITE gives it, checked and clamped; the levels and the ceiling
are 0 (R27, R42). -/
def kindOf (f : EntryImage) : Option EntryKind :=
  match f.kind.toNat with
  | 0 =>
    let passes := f.byte20.toNat % 16
    match f.byte20.toNat / 16 with
    | 0 => if f.byte18 = 0 ∨ passes ≠ 0 then none
           else some (.playShow f.byte18.toNat (clampPriority f.byte19.toNat) .once 0)
    | 1 => if f.byte18 = 0 then none
           else some (.playShow f.byte18.toNat (clampPriority f.byte19.toNat) .loop passes)
    | _ => none
  | 1 => some (.curfew 0 (clampExempt f.byte18.toNat))
  | 2 => some (.base (clampPriority f.byte18.toNat) Levels.zero)
  | _ => none

/-- The validity a frame carries passes its check (R27). -/
def validityGood (f : EntryImage) : Bool :=
  match optionalDay f.validFrom, optionalDay f.validUntil with
  | some a, some b => decide (a ≤ lastDay ∧ b ≤ lastDay ∧ a ≤ b)
  | some a, none => decide (a ≤ lastDay)
  | none, some b => decide (b ≤ lastDay)
  | none, none => true

/-- The duration a frame carries passes its check (R27). -/
def durationGood (f : EntryImage) : Bool :=
  decide (f.duration.toNat ≤ 345600) && (f.kind == 0 || f.duration != 0)

/-- An ENTRY WRITE as a new entry, with no skip list, levels and ceiling 0 and no derived fields; none when a check fails
(R27, R42). -/
def entryOf (f : EntryImage) : Option Entry :=
  match recurrenceOf f, anchorOf f.anchor, kindOf f with
  | some r, some a, some k =>
    if validityGood f && durationGood f then
      some { id := f.id.toNat, enabled := f.enabled, recurrence := r, anchor := a,
             validFrom := optionalDay f.validFrom, validUntil := optionalDay f.validUntil, skips := [],
             duration := f.duration.toNat, kind := k, nextFire := none, windowEnd := none }
    else none
  | _, _, _ => none

/-- The skip list of an ENTRY EXTRA, its first days by count; none when a check fails (R27, R174). -/
def skipsOf (f : ExtraImage) : Option (List Nat) :=
  let days := (f.skips.toList.take f.skipCount.toNat).map BitVec.toNat
  if f.skipCount.toNat ≤ 4 ∧ days.all (fun d => d ≤ lastDay) then some days else none

/-! ### The entry as ENTRY WRITE carries it (R174) -/

/-- The kind code of an entry. -/
def EntryKind.code : EntryKind → Nat
  | .playShow _ _ _ _ => 0
  | .curfew _ _ => 1
  | .base _ _ => 2

/-- Bytes 5 to 7 of an ENTRY WRITE. -/
def recurrenceBytes : Recurrence → List Byte
  | .once d => byteOf 0 :: bytesBE 2 d
  | .daily => [byteOf 1, 0, 0]
  | .weekly days => [byteOf 2, byteOf days.toNat, 0]
  | .yearly m d => [byteOf 3, byteOf m, byteOf d]
  | .nth m w n => [byteOf 4, byteOf m, byteOf (n.getD 7 * 16 + w)]

/-- Bytes 8 to 10 of an ENTRY WRITE. -/
def anchorBytes : Anchor → List Byte
  | .clock s => bytesBE 3 s
  | .dusk o => byteOf 0x80 :: signedBE 2 o

/-- Bytes 18 to 20 of an ENTRY WRITE. -/
def settingBytes : EntryKind → List Byte
  | .playShow n p m k => [byteOf n, byteOf p, byteOf (modeCode m * 16 + k)]
  | .curfew _ exempt => [byteOf exempt, 0, 0]
  | .base p _ => [byteOf p, 0, 0]

/-- Bytes 2 to 20 of an ENTRY WRITE for a stored entry (R174, R180). -/
def entryBytes (e : Entry) : List Byte :=
  bytesBE 2 e.id ++ [byteOf (e.kind.code * 16 + bitAt e.enabled 0)] ++ recurrenceBytes e.recurrence ++
    anchorBytes e.anchor ++ bytesBE 2 (e.validFrom.getD 0xFFFF) ++ bytesBE 2 (e.validUntil.getD 0xFFFF) ++
    bytesBE 3 e.duration ++ settingBytes e.kind

end Sys2Proof.Machine
end

