-- ==== Sys2Proof/Machine/Players.lean ====
section
/-!
DEFINITION. The players (04_players.md): track values and records, the items of an advance, gates, endings, rendering
ahead, catch-up, suspension and repositioning.
-/

namespace Sys2Proof.Machine

/-! ### Records and track values (R80, R101) -/

/-- A record's value for one slot position `k` show frames into its fade (R101), truncated toward zero. -/
def fadeLevel (fade : Nat) (k : Int) (f t : Nat) : Nat :=
  if fade = 0 then t
  else if (fade : Int) ≤ k then t
  else ((f : Int) + (((t : Int) - f) * k).tdiv fade).toNat

/-- The value of a record at show frame `x` (R101). -/
def recordValue (r : ZoneRecord) (x : Int) : Levels :=
  Levels.zipWith (fadeLevel r.fade (x - r.effective + 1)) r.fromLevels r.toLevels

/-- The from-levels of an item of effective frame `e`: the value the track gave at show frame `e - 1`, 0 where it was
transparent (R80). A record that itself took effect at `e` started from that same value (R76). -/
def levelsBefore (r : Option ZoneRecord) (e : Int) : Levels :=
  match r with
  | none => Levels.zero
  | some r => if e ≤ r.effective then r.fromLevels else recordValue r (e - 1)

/-- A cue writes its record into one local zone with effective frame `e` (R80, R81). -/
def writeRecord (c : Cue) (e : Int) (z : ZoneTracks) : ZoneTracks :=
  match z[c.track]? with
  | some old =>
    z.setIfInBounds c.track (some { fromLevels := levelsBefore old e, toLevels := c.levels, effective := e,
                                    fade := c.fade })
  | none => z

/-- A cue touches a local zone (R80). -/
def touches (c : Cue) (z : ZoneBoot) : Bool := c.zoneLow ≤ z.tower.toNat && z.tower.toNat ≤ c.zoneHigh

/-- The zone state table after `f` has acted on the local zones that satisfy `q`, by place and tower zone. -/
def mapZones (zmap : List ZoneBoot) (q : Nat → ZoneBoot → Bool) (f : ZoneTracks → ZoneTracks)
    (zs : List ZoneTracks) : List ZoneTracks :=
  zs.zipIdx.map (fun (z, i) => match zmap[i]? with | some b => if q i b then f z else z | none => z)

/-- A SET or FADE cue is taken: it writes a record into every local zone it touches (R80). -/
def takeZoneCue (zmap : List ZoneBoot) (c : Cue) (x : Context) : Context :=
  { x with zones := mapZones zmap (fun _ b => touches c b) (writeRecord c c.time) x.zones }

/-! ### Sweeps (R81) -/

/-- The effective frame of a SWEEP cue's item for a tower zone (R81). -/
def sweepFrame (c : Cue) (tower : Nat) : Nat :=
  match c.action with
  | .sweepDown => c.time + (c.pace * (c.zoneHigh - tower)) / 4
  | _ => c.time + (c.pace * (tower - c.zoneLow)) / 4

/-- The effective frame of a SWEEP cue's item for a local zone, by its place in the zone map. -/
def sweepFrameAt (zmap : List ZoneBoot) (c : Cue) (i : Nat) : Nat :=
  sweepFrame c ((zmap[i]?.map (·.tower.toNat)).getD 0)

/-- Insertion into a list in ascending order of a key, after its equals. -/
def insertByKey {α : Type} (key : α → Nat) (a : α) : List α → List α
  | [] => [a]
  | b :: bs => if key a < key b then a :: b :: bs else b :: insertByKey key a bs

/-- A list in ascending order of a key, equals in their order. -/
def sortByKey {α : Type} (key : α → Nat) (l : List α) : List α := l.foldl (fun acc a => insertByKey key a acc) []

/-- The local zones a SWEEP cue touches, in the order it reaches them (R81). -/
def sweepZones (zmap : List ZoneBoot) (c : Cue) : List Nat :=
  sortByKey (sweepFrameAt zmap c)
    ((zmap.zipIdx.filter (fun (b, _) => touches c b)).map (fun (_, i) => i))

/-- Items of a sweep are taken for some of its zones with effective frame `e` (R81). -/
def takeSweepItems (zmap : List ZoneBoot) (c : Cue) (zs : List Nat) (e : Int) (x : Context) : Context :=
  { x with zones := mapZones zmap (fun i _ => zs.contains i) (writeRecord c e) x.zones }

/-- A SWEEP cue is taken at its cue time: its items of that frame are taken with it, and it joins the sweep list when
items remain; a full list first completes its oldest sweep. The flag says whether that happened (R81). -/
def takeSweep (zmap : List ZoneBoot) (c : Cue) (x : Context) : Context × Bool :=
  let zs := sweepZones zmap c
  let now := zs.filter (fun i => sweepFrameAt zmap c i == c.time)
  let later := zs.filter (fun i => sweepFrameAt zmap c i != c.time)
  let x' := fun (x : Context) => takeSweepItems zmap c now c.time x
  if later = [] then (x' x, false)
  else
    match x.sweeps with
    | old :: rest =>
      if 8 ≤ x.sweeps.length then
        let done := takeSweepItems zmap old.cue old.todo c.time { x with sweeps := rest }
        let y := x' done
        ({ y with sweeps := y.sweeps ++ [{ cue := c, todo := later }] }, true)
      else
        let y := x' x
        ({ y with sweeps := y.sweeps ++ [{ cue := c, todo := later }] }, false)
    | [] =>
      let y := x' x
      ({ y with sweeps := [{ cue := c, todo := later }] }, false)

/-! ### Items (R75, R76) -/

/-- The next item: a cue of the window's head, or the next zone of a sweep in progress. -/
inductive Item
  | cue (c : Cue)
  | sweep (c : Cue) (zone frame : Nat)
deriving DecidableEq, Repr

/-- The effective frame of an item (R75). -/
def Item.frame : Item → Nat
  | .cue c => c.time
  | .sweep _ _ e => e

/-- The earliest remaining item of the sweeps in progress; of equal frames the sweep stored first (R76). -/
def nextSweepItem (zmap : List ZoneBoot) : List Sweep → Option (Cue × Nat × Nat)
  | [] => none
  | w :: ws =>
    match w.todo, nextSweepItem zmap ws with
    | [], r => r
    | i :: _, none => some (w.cue, i, sweepFrameAt zmap w.cue i)
    | i :: _, some (c, j, e) =>
      if sweepFrameAt zmap w.cue i ≤ e then some (w.cue, i, sweepFrameAt zmap w.cue i) else some (c, j, e)

/-- The next item to take, in ascending effective frame and then stored order; a sweep's cue is stored before every cue
still in the window (R76). -/
def nextItem (zmap : List ZoneBoot) (x : Context) : Option Item :=
  match nextSweepItem zmap x.sweeps, x.window with
  | none, [] => none
  | none, c :: _ => some (.cue c)
  | some (w, i, e), [] => some (.sweep w i e)
  | some (w, i, e), c :: _ => if e ≤ c.time then some (.sweep w i e) else some (.cue c)

/-- A sweep item is taken: the zone's record is written and the sweep leaves the list with its last item (R81). -/
def takeSweepItem (zmap : List ZoneBoot) (c : Cue) (zone frame : Nat) (x : Context) : Context :=
  let y := takeSweepItems zmap c [zone] frame x
  let left := y.sweeps.map (fun w => if w.cue.index == c.index then { w with todo := w.todo.erase zone } else w)
  { y with sweeps := left.filter (fun w => w.todo != []) }

/-- The position moves forward to a show frame (R75). -/
def moveTo (x : Int) (c : Context) : Context := { c with position := max c.position x }

/-- The cue at the head of the window leaves it (R78). With the last cue held the position comes to its cue time: from there on the
window holds no cue (R79). -/
def dropHead (x : Context) : Context :=
  match x.window with
  | [c] => moveTo c.time { x with window := [] }
  | _ => { x with window := x.window.tail }

/-- More than the number of items an advance can take with the cues its window holds. -/
def itemFuel (zmap : List ZoneBoot) (x : Context) : Nat :=
  x.window.length * (zmap.length + 1) + (x.sweeps.map (fun w => w.todo.length)).sum + 4

/-! ### Read point and refills (R78) -/

/-- An instance will loop: its mode is LOOP and its passes remaining are not 1 (R78). -/
def willLoop (r : Row) : Bool := r.mode == .loop && r.passes != 1

/-- The END that leaves no pass to play, or one in RELEASING, has been taken, and the position holds at the show length
(R83, R87): END has been read and is not in the window. -/
def endTaken (r : Row) : Bool := r.ctx.endRead && r.ctx.window.isEmpty

/-- The read point has cues left to read: up to END, and beyond it when the instance will loop, until an END is taken that
begins no pass (R78, R83). -/
def cuesLeft (r : Row) : Bool := !r.ctx.endRead || (willLoop r && !endTaken r)

/-- A refill of the player is outstanding: asked for, or under way and not withdrawn (R78, R125). -/
def refillOutstanding (p : Fin 4) (r : Row) (s : State) : Bool :=
  r.ctx.refillAsked || s.lib.port == some (.refill p true)

/-- A player asks for a refill when its window holds fewer than 16 cues, its read point has cues left and none is
outstanding (R78). -/
def askRefill (p : Fin 4) (s : State) : State :=
  match s.rows[p] with
  | some r =>
    if r.ctx.window.length < 16 && cuesLeft r && !refillOutstanding p r s then
      modCtx p (fun x => { x with refillAsked := true }) s
    else s
  | none => s

/-- Every player asks for the refill it needs, in ascending index. -/
def askRefills (s : State) : State := (List.finRange 4).foldl (fun s p => askRefill p s) s

/-- A player's outstanding refill is withdrawn; a unit already begun runs to its end with its cues discarded (R125). -/
def withdrawRefill (p : Fin 4) (s : State) : State :=
  let s := modCtx p (fun x => { x with refillAsked := false }) s
  if s.lib.port = some (.refill p true) then { s with lib := { s.lib with port := some (.refill p false) } } else s

/-- Cues are read from the read point in stored order until the window holds 32 or END has been read; when the
instance will loop, reading goes on from the show's first cue (R78). `cueAt` reads one cue. -/
def readCues (cueAt : Nat → Option Cue) (loops : Bool) : Nat → Context → Context
  | 0, x => x
  | fuel + 1, x =>
    if 32 ≤ x.window.length then x
    else
      match cueAt x.nextCue with
      | none => { x with endRead := true }
      | some c =>
        let y := { x with window := x.window ++ [c], nextCue := x.nextCue + 1 }
        if c.action = .endShow then
          if loops then readCues cueAt loops fuel { y with nextCue := 0 } else { y with endRead := true }
        else readCues cueAt loops fuel y

/-- The `i`-th cue of the show in a slot (R114, R125). -/
def cueOfSlot (s : State) (slot : Fin 32) (i : Nat) : Option Cue :=
  match s.lib.dir[slot] with
  | .complete _ n _ _ => if i + 2 < n then some (cueOfBlock i (readBlock s.flash[slot] (i + 2))) else none
  | _ => none

/-- The cues of a refill join the player's window and its read point moves (R125). The window, the mode and the passes that its reads go
by are those of the row when its unit ends, also where they have changed while the unit ran: the model's choice (DESIGN CHOICE, log
entry 33). -/
def refillContext (s : State) (r : Row) : Context :=
  match slotOf s r.showNo with
  | some slot =>
    let x := if r.ctx.endRead && cuesLeft r then { r.ctx with nextCue := 0, endRead := false } else r.ctx
    if x.endRead then x else readCues (cueOfSlot s slot) (willLoop r) 33 x
  | none => r.ctx

/-! ### Weights (R104, R105) -/

/-- The attack weight at frame `n` from the tag and the attack frames (R104). -/
def attackWeight (tag attack n : Nat) : Nat :=
  if n < tag then 0
  else if attack = 0 ∨ attack ≤ n - tag then 256
  else 256 * (n - tag) / attack

/-- The release weight at frame `n` (R105). -/
def releaseWeight (tag attack start weight release n : Nat) : Nat :=
  if n < start then attackWeight tag attack n
  else if n - start < release then weight * (release - (n - start)) / release
  else 0

/-- The weight of a row's layer at frame `n` (R104, R105). -/
def rowWeight (h : ShowHeader) (r : Row) (n : Nat) : Nat :=
  match r.phase with
  | .releasing start weight => releaseWeight r.tag h.attack start weight h.release n
  | _ => attackWeight r.tag h.attack n

/-! ### Rows become IDLE (R48, R73) -/

/-- A row becomes IDLE: it is cleared with its player's context, and an outstanding refill is withdrawn (R48, R125). -/
def toIdle (p : Fin 4) (s : State) : State := setRow p none (withdrawRefill p s)

/-! ### Marks (R67, R69, R85, R85a) -/

/-- The release frame a row's mark list holds for a mark number (R67). -/
def markFrame (r : Row) (m : Nat) : Option Nat := (r.marks.find? (fun e => e.1 == m)).map (·.2)

/-- A gate is released at frame `q`: the anchor becomes q - tg and the player is RUNNING (R84, R85). -/
def openGate (g : Gate) (q : Nat) (r : Row) : Row := { r with anchor := q - g.time, phase := .running }

/-- A GATED player is offered a mark with release frame `release` and is released at the largest of release + 4, the
due frame and the frame after the current one (R85). -/
def offerMark (p : Fin 4) (m release : Nat) (s : State) : State :=
  match s.rows[p] with
  | some r =>
    match r.phase with
    | .gated g =>
      if !r.suspended && g.mark == m then
        askFlush (setRow p (some (openGate g (max (release + 4) (max g.due (frameNow s + 1))) r)) s)
      else s
    | _ => s
  | none => s

/-- The player is GATED on a mark number (R85a). -/
def gatedOn (r : Row) (m : Nat) : Bool :=
  match r.phase with
  | .gated g => !r.suspended && g.mark == m
  | _ => false

/-- A new pair meets the player: GATED on its number it is offered the mark (R85); otherwise its late watch is compared
(R85a). -/
def meetMark (p : Fin 4) (m release : Nat) (s : State) : State :=
  match s.rows[p] with
  | some r =>
    if gatedOn r m then offerMark p m release s
    else if r.ctx.lateWatch = some m then bump .marksLate (modCtx p (fun x => { x with lateWatch := none }) s)
    else s
  | none => s

/-- A numbered mark is filed in a row's mark list: a number already present leaves the list as it is, a full list loses
its oldest pair, and a new pair meets the row's player (R67). -/
def fileMark (p : Fin 4) (m release : Nat) (s : State) : State :=
  match s.rows[p] with
  | some r =>
    if r.marks.any (fun e => e.1 == m) then s
    else
      let full := decide (16 ≤ r.marks.length)
      let kept := if full then r.marks.tail else r.marks
      let s := setRow p (some { r with marks := kept ++ [(m, release)] }) s
      meetMark p m release (if full then bump .marksDropped s else s)
  | none => s

/-- A player emits a mark: the pair is filed in its own row and a MARK frame is queued (R69). -/
def emitMark (p : Fin 4) (m due : Nat) (s : State) : State :=
  match s.rows[p] with
  | some r => send (newFrame 3 (markData r.showNo r.tag m due)) (fileMark p m due s)
  | none => s

/-! ### Projection limit and answers (R88) -/

/-- The cues of the window up to and including the first END: the rest of the pass under way. -/
def passCues : List Cue → List Cue
  | [] => []
  | c :: cs => if c.action = .endShow then [c] else c :: passCues cs

/-- The last cue the window holds is not END, and its cue time (R79, R88). -/
def openEnd (cs : List Cue) : Option Nat :=
  match cs.getLast? with
  | some c => if c.action = .endShow then none else some c.time
  | none => none

/-- A player's projection limit (R88). -/
def projectionLimit (r : Row) : Int :=
  let pass := passCues r.ctx.window
  let gates := match r.phase with | .releasing _ _ => false | _ => true
  let gate := if gates then pass.find? (fun c => c.action == .gate) else none
  let ends := pass.find? (fun c => c.action == .endShow)
  match r.ctx.window with
  | [] => r.ctx.position
  | _ =>
    let last : Int := match ends with
      | some c => c.time
      | none => match openEnd pass with | some t => (t : Int) - 1 | none => r.ctx.position
    let limit := match gate with | some c => min (c.time : Int) last | none => last
    max r.ctx.position limit

/-- The items an advance would take up to show frame `limit`, taken on a copy; gates are passed only in RELEASING (R88). -/
def project (zmap : List ZoneBoot) (passGates : Bool) (limit : Int) : Nat → Context → Context
  | 0, x => x
  | fuel + 1, x =>
    match nextItem zmap x with
    | none => x
    | some it =>
      if limit < it.frame then x
      else
        match it with
        | .sweep c i e => project zmap passGates limit fuel (takeSweepItem zmap c i e x)
        | .cue c =>
          match c.action with
          | .set | .fade => project zmap passGates limit fuel (takeZoneCue zmap c (dropHead x))
          | .sweepUp | .sweepDown => project zmap passGates limit fuel (takeSweep zmap c (dropHead x)).1
          | .gate => if passGates then project zmap passGates limit fuel (dropHead x) else x
          | .endShow => x
          | .mark | .other => project zmap passGates limit fuel (dropHead x)

/-- The show value of one local zone at show frame `x`: that of the highest track that is not transparent (R103). -/
def zoneValue (z : ZoneTracks) (x : Int) : Option Levels :=
  match z[3], z[2], z[1], z[0] with
  | some r, _, _, _ => some (recordValue r x)
  | none, some r, _, _ => some (recordValue r x)
  | none, none, some r, _ => some (recordValue r x)
  | none, none, none, some r => some (recordValue r x)
  | none, none, none, none => none

/-- The values at a show frame for every local zone (R88). -/
def valuesAt (zs : List ZoneTracks) (x : Int) : List (Option Levels) := zs.map (fun z => zoneValue z x)

/-- What a player answers for render frame `n`; none when it is not a layer (R88, R90). -/
def playerAnswer (zmap : List ZoneBoot) (r : Row) (n : Nat) : Option (List (Option Levels)) :=
  let atPosition := valuesAt r.ctx.zones r.ctx.position
  let projected (passGates : Bool) :=
    let s : Int := (n : Int) - r.anchor
    if s ≤ r.ctx.position then atPosition
    else
      let x := min s (projectionLimit r)
      valuesAt (project zmap passGates x (itemFuel zmap r.ctx) r.ctx).zones x
  match r.ctx.catchUp with
  | some cu => some cu.held
  | none =>
    if r.suspended then some atPosition
    else
      match r.phase with
      | .armed => if n < r.anchor then none else some (projected false)
      | .running => some (projected false)
      | .gated g => some (valuesAt r.ctx.zones g.time)
      | .releasing _ _ => some (projected true)

/-- The last answered frame lies at a show frame beyond `limit` (R89). -/
def answeredBeyond (r : Row) (limit : Int) : Bool :=
  match r.ctx.lastAnswer with
  | some a => limit < (a.frame : Int) - r.anchor
  | none => false

/-- With the last cue held at show frame `t` and no END after it, a position that comes to `t` raises the projection limit from the frame
before, and the player has answered past that limit (R88, R89). -/
def risesTo (r : Row) (t : Nat) : Bool := decide (r.ctx.position < t) && answeredBeyond r ((t : Int) - 1)

/-- A change of a player raises its projection limit past which it has answered, so that it asks for a flush (R89). -/
def limitRose (before after : Row) : Bool :=
  decide (projectionLimit before < projectionLimit after) && answeredBeyond before (projectionLimit before)

/-! ### Ending (R86) -/

/-- A player's row becomes RELEASING at frame `start`, or IDLE when the release is over by `c` or is 0 frames (R83, R86). -/
def beginRelease (p : Fin 4) (r : Row) (start : Nat) (s : State) : State :=
  let h := headerOr s r.showNo
  askFlush
    (if h.release = 0 then toIdle p s
     else setRow p (some { r with phase := .releasing start (attackWeight r.tag h.attack start) }) s)

/-- A RUNNING or GATED player meets its row's end frame (R86). -/
def meetEndFrame (p : Fin 4) (s : State) : State :=
  match s.rows[p] with
  | some r =>
    match r.endFrame with
    | some e =>
      if e + (headerOr s r.showNo).release ≤ frameNow s then askFlush (toIdle p s) else beginRelease p r e s
    | none => s
  | none => s

/-! ### The advance (R75, R76, R79) -/

/-- How an advance stands after one item: it goes on, it waits for cues beyond its window, or it is done. -/
inductive Halt
  | more | starved | done
deriving DecidableEq, Repr

/-- The target show frame at tower frame `n` (R75); with prior state RUNNING it stops at the end frame's show frame (R76). -/
def advanceTarget (r : Row) (n : Nat) : Int :=
  let s : Int := (n : Int) - r.anchor
  match r.suspended, r.phase, r.endFrame with
  | true, .running, some e => min s ((e : Int) - r.anchor)
  | _, _, _ => s

/-- The show frame up to which an advance takes items with the window as it is (R79): its target, where the window holds the pass's
END or the target does not lie past the last cue; the frame before the last cue, where it starves; and with no cue
in the window its position. A catch-up takes every cue the window holds (R90). -/
def windowReach (r : Row) (target : Int) : Int :=
  match r.ctx.window with
  | [] => min target r.ctx.position
  | cs =>
    match openEnd (passCues cs) with
    | some t =>
      if target ≤ t then target
      else if r.ctx.catchUp.isSome then t
      else (t : Int) - 1
    | none => target

/-- A gate with its due and timeout frames for an anchor (R84). -/
def gateAt (time mark timeout anchor : Nat) : Gate :=
  { time := time, mark := mark, timeout := timeout, due := anchor + time, timeoutFrame := anchor + time + timeout * 40 }

/-- A gate is evaluated at frame `c`: its release frame, and whether by timeout; none when it is not released (R84). -/
def evalGate (r : Row) (g : Gate) (c : Nat) : Option (Nat × Bool) :=
  match (if g.mark = 0 then none else markFrame r g.mark) with
  | some release => some (max (release + 4) g.due, false)
  | none => if g.timeoutFrame ≤ c then some (g.timeoutFrame, true) else none

/-- The late watch after a gate on `m` has been released (R84). -/
def watchAfter (m : Nat) (byTimeout : Bool) : Option Nat := if byTimeout && m != 0 then some m else none

/-- A GATE that is not released, taken or stood before, raises the projection limit of its player where the last cue held is of its
frame (R88, R89). The limit's further rise to what the cues after the gate allow asks for no flush, since R89 excepts RUNNING to GATED
and names the gate released: the model's reading (DEDUCED, log entry 23). -/
def gateRaises (r : Row) (c : Cue) : Bool := openEnd (passCues r.ctx.window) == some c.time && risesTo r c.time

/-- A GATE cue is taken in RUNNING (R84). -/
def takeGate (p : Fin 4) (c : Cue) (r : Row) (s : State) : Halt × State :=
  let g := gateAt c.time c.gateMark c.gateTimeout r.anchor
  let taken := { r with ctx := { moveTo c.time (dropHead r.ctx) with lateWatch := none } }
  match evalGate r g (frameNow s) with
  | some (q, byTimeout) =>
    let o := openGate g q taken
    let o := { o with ctx := { o.ctx with lateWatch := watchAfter g.mark byTimeout } }
    let flush := q != g.due || limitRose r o
    (.more, askFlushIf flush (setRow p (some o) s))
  | none => (.done, askFlushIf (gateRaises r c) (setRow p (some { taken with phase := .gated g }) s))

/-- A MARK cue is taken (R82). -/
def takeMark (p : Fin 4) (c : Cue) (r : Row) (s : State) : State :=
  let m := c.param
  let due := r.anchor + c.time
  let s := modCtx p dropHead s
  match r.phase with
  | .running =>
    if r.suspended then
      let full := decide (4 ≤ r.ctx.pendingMarks.length)
      let kept := if full then r.ctx.pendingMarks.tail else r.ctx.pendingMarks
      let s := modCtx p (fun x => { x with pendingMarks := kept ++ [(m, due)] }) s
      if full then bump .marksUnsent s else s
    else
      match r.ctx.catchUp with
      | some { kind := .join, held := _ } => s
      | some { kind := .forward, held := _ } => s
      | some { kind := .resume, held := _ } => emitMark p m due s
      | none => emitMark p m due s
  | _ => s

/-- The records of the zone state table keep their place in time across a new pass (R83). -/
def shiftZones (length : Nat) (zs : List ZoneTracks) : List ZoneTracks :=
  zs.map (fun z => z.map (fun t => t.map (fun r => { r with effective := r.effective - length })))

/-- A new pass begins (R70, R83). -/
def newPass (p : Fin 4) (r : Row) (length : Nat) (s : State) : State :=
  let anchor := r.anchor + length
  let x := dropHead r.ctx
  let x := { x with sweeps := [], lateWatch := none, zones := shiftZones length x.zones, position := -1 }
  let x := if x.endRead then { x with nextCue := 0, endRead := false } else x
  askFlush
    (setRow p
      (some { r with anchor := anchor, passes := if r.passes = 0 then 0 else r.passes - 1,
                     marks := r.marks.filter (fun e => anchor ≤ e.2), ctx := x }) s)

/-- An END that begins no pass has been taken: the cues beyond it are discarded and nothing is left to read (R83, R87). -/
def pastEnd (length : Nat) (x : Context) : Context :=
  moveTo length { x with window := [], endRead := true, refillAsked := false }

/-- An END cue is taken in RUNNING or RELEASING (R83). Where it begins no pass, a refill still outstanding is withdrawn: the
model's choice (DESIGN CHOICE, log entry 33), for R125 names only the player that becomes IDLE and the window that a new
catch-up empties. -/
def takeEnd (p : Fin 4) (c : Cue) (r : Row) (s : State) : Halt × State :=
  match r.phase with
  | .releasing _ _ => (.done, modCtx p (pastEnd c.time) (withdrawRefill p s))
  | _ =>
    if willLoop r then (.more, newPass p r c.time s)
    else
      let s := modCtx p (pastEnd c.time) (withdrawRefill p s)
      (.done,
        match s.rows[p] with
        | some r => beginRelease p r (r.anchor + c.time) s
        | none => s)

/-- A catch-up in RUNNING is about to take an item that lies after its end frame's show frame (R86, R90). -/
def pastEndFrame (r : Row) (frame : Nat) : Bool :=
  match r.ctx.catchUp, r.phase, r.endFrame with
  | some _, .running, some e => decide ((e : Int) - r.anchor < frame)
  | _, _, _ => false

/-- The state in which a GATE is passed at once, at its due frame and without evaluation (R84). -/
def passesGates (r : Row) : Bool :=
  match r.phase with
  | .releasing _ _ => true
  | _ => false

/-- One item of an advance (R75, R76): the item is taken, or the advance stops before it. -/
def advanceOne (p : Fin 4) (s : State) : Halt × State :=
  match s.rows[p] with
  | none => (.done, s)
  | some r =>
    let zmap := zonesOf s
    let target := advanceTarget r (frameNow s)
    let reach := windowReach r target
    let stop : Halt × State :=
      (if reach < target && r.ctx.position < target && !endTaken r then .starved else .done, modCtx p (moveTo reach) s)
    match nextItem zmap r.ctx with
    | none => stop
    | some it =>
      if reach < it.frame then stop
      else if pastEndFrame r it.frame then (.more, meetEndFrame p s)
      else
        match it with
        | .sweep c i e => (.more, modCtx p (takeSweepItem zmap c i e) s)
        | .cue c =>
          match c.action with
          | .set | .fade => (.more, modCtx p (fun x => takeZoneCue zmap c (dropHead x)) s)
          | .sweepUp | .sweepDown =>
            let (x, overflowed) := takeSweep zmap c (dropHead r.ctx)
            let s := modCtx p (fun _ => x) s
            (.more, if overflowed then bump .sweepOverflow s else s)
          | .mark => (.more, takeMark p c r s)
          | .gate =>
            if passesGates r then (.more, modCtx p (fun x => { dropHead x with lateWatch := none }) s)
            else if r.suspended then (.done, askFlushIf (gateRaises r c) (modCtx p (moveTo c.time) s))
            else takeGate p c r s
          | .endShow => if r.suspended then (.done, modCtx p (moveTo c.time) s) else takeEnd p c r s
          | .other => (.more, modCtx p dropHead s)

/-- An advance takes items until it stops (R75). -/
def advanceLoop (p : Fin 4) : Nat → State → Halt × State
  | 0, s => (.done, s)
  | fuel + 1, s =>
    match advanceOne p s with
    | (.more, s') => advanceLoop p fuel s'
    | r => r

/-- An advance of a player toward its target, items of its own position not yet taken included. -/
def advanceAll (p : Fin 4) (s : State) : Halt × State :=
  match s.rows[p] with
  | some r => advanceLoop p (itemFuel (zonesOf s) r.ctx) s
  | none => (.done, s)

/-- A starvation is noted, and counted at its first boundary (R79). It lasts until an advance comes to its end (log entry
29). -/
def noteStarved (p : Fin 4) (h : Halt) (s : State) : State :=
  match s.rows[p] with
  | some r =>
    if h = .starved then
      if r.ctx.starved then s else bump .cueStarved (modCtx p (fun x => { x with starved := true }) s)
    else if r.ctx.starved then modCtx p (fun x => { x with starved := false }) s else s
  | none => s

/-- A GATE that its player does not pass is of the cue time `t` (R84, R88). -/
def gateAtEnd (before after : Row) (t : Nat) : Bool :=
  !passesGates after && (passCues before.ctx.window).any (fun c => c.action == .gate && c.time == t)

/-- An advance that has taken the last cue its window held has raised the projection limit from the frame before that cue to the
cue's: the player asks for a flush where it has answered past the limit before. A gate of that frame has raised it already (R88,
R89). -/
def noteEmptied (p : Fin 4) (before : Row) (s : State) : State :=
  match s.rows[p], openEnd (passCues before.ctx.window) with
  | some r, some t =>
    askFlushIf (r.ctx.window.isEmpty && r.anchor == before.anchor && risesTo before t && !gateAtEnd before r t) s
  | _, _ => s

/-- The advance of a boundary: nothing when the target is at or below the position (R75), starvation noted (R79). -/
def advanceAtBoundary (p : Fin 4) (s : State) : State :=
  match s.rows[p] with
  | some r =>
    if advanceTarget r (frameNow s) ≤ r.ctx.position then noteStarved p .done s
    else
      let (h, s) := advanceAll p s
      noteStarved p h (noteEmptied p r s)
  | none => s

/-! ### Catch-up (R90) -/

/-- The held values of a catch-up that begins: those of the catch-up it replaces, or those of the last answered frame, or
transparent (R90). -/
def heldValues (nZones : Nat) (x : Context) : List (Option Levels) :=
  match x.catchUp with
  | some cu => cu.held
  | none =>
    match x.lastAnswer with
    | some a => a.values
    | none => List.replicate nZones none

/-- Four transparent tracks (R74). -/
def transparent : ZoneTracks := Vector.replicate 4 none

/-- The context of a player at the show's start, all else kept (R74, R78, R90). -/
def rewind (nZones : Nat) (x : Context) : Context :=
  { x with position := -1, window := [], nextCue := 0, endRead := false, refillAsked := false, starved := false,
           sweeps := [], zones := List.replicate nZones transparent }

/-- A catch-up begins; one of kind JOIN starts from the show's start (R78, R90). A player in catch-up is not starved (R79). -/
def beginCatchUp (kind : CatchKind) (p : Fin 4) (s : State) : State :=
  let n := (zonesOf s).length
  let s := if kind = .join then withdrawRefill p s else s
  modCtx p
    (fun x =>
      let held := heldValues n x
      let x := if kind = .join then rewind n x else x
      { x with catchUp := some { kind := kind, held := held }, starved := false }) s

/-- A FORWARD catch-up from a kept position, or a JOIN from position -1 (R90, R92, R93, R94). -/
def joinOrForward (r : Row) : CatchKind := if r.ctx.position = -1 then .join else .forward

/-- A catch-up completes: its held values are dropped and the player asks for a flush (R90). -/
def completeCatchUp (p : Fin 4) (s : State) : State := askFlush (modCtx p (fun x => { x with catchUp := none }) s)

/-- A RELEASING row whose release is over at frame `c` (R77, R90). -/
def releaseOver (s : State) (r : Row) (c : Nat) : Bool :=
  match r.phase with
  | .releasing start _ => decide (start + (headerOr s r.showNo).release ≤ c)
  | _ => false

/-- The end of a run of a catch-up: it waits for a refill, or it completes, meeting an end frame or a release end that
fell due meanwhile (R90). One that has taken the last pass's END short of its target completes at that END: the model's
choice (DEDUCED, log entry 21), for R90 names only an END taken in RELEASING. -/
def settleCatchUp (p : Fin 4) (h : Halt) (s : State) : State :=
  match s.rows[p] with
  | none => askFlush s
  | some r =>
    if releaseOver s r (frameNow s) then askFlush (toIdle p s)
    else if h = .starved then s
    else
      let due := match r.phase, r.endFrame with
        | .running, some e => decide (e ≤ frameNow s)
        | .gated _, some e => decide (e ≤ frameNow s)
        | _, _ => false
      completeCatchUp p (if due then meetEndFrame p s else s)

/-- A catch-up in progress takes items toward its target, and completes when it is reached or the catch-up ends (R90). One whose target is
its position takes the items of that frame that it has not taken, such as the cues stored after a gate whose release frame is the
current frame, those of a FORWARD one without their marks (R82): the model's choice (DESIGN CHOICE, log entry 23), for R84 has
them taken once the release frame is reached and R75 takes no item there. -/
def runCatchUp (p : Fin 4) (s : State) : State :=
  match s.rows[p] with
  | some r =>
    if r.ctx.catchUp.isSome then
      if releaseOver s r (frameNow s) then askFlush (toIdle p s)
      else
        let (h, s) := advanceAll p s
        settleCatchUp p h (noteEmptied p r s)
    else s
  | none => s

/-! ### Boundary work (R77, R91) -/

/-- A GATED player's gate is released by timeout (R85). -/
def timeoutGate (p : Fin 4) (g : Gate) (s : State) : State :=
  askFlush
    (modRow p
      (fun r =>
        let r := openGate g g.timeoutFrame r
        { r with ctx := { r.ctx with lateWatch := watchAfter g.mark true } }) s)

/-- A player's work for the new frame `n` (R77, R91). -/
def playerBoundary (n : Nat) (p : Fin 4) (s : State) : State :=
  match s.rows[p] with
  | none => s
  | some r =>
    if r.suspended then
      match r.phase with
      | .running | .releasing _ _ => advanceAtBoundary p s
      | .armed | .gated _ => s
    else if r.ctx.catchUp.isSome then s
    else if releaseOver s r n then toIdle p s
    else
      let ended := match r.endFrame with | some e => decide (e ≤ n) | none => false
      match r.phase with
      | .releasing _ _ => advanceAtBoundary p s
      | .armed =>
        if ended then askFlush (toIdle p s)
        else if r.anchor ≤ n then advanceAtBoundary p (setRow p (some { r with phase := .running }) s)
        else s
      | .running =>
        if ended then advanceAtBoundary p (meetEndFrame p s) else advanceAtBoundary p s
      | .gated g =>
        if ended then advanceAtBoundary p (meetEndFrame p s)
        else if g.timeoutFrame ≤ n then
          let (h, s) := advanceAll p (timeoutGate p g s)
          noteStarved p h s
        else s

/-- The players' boundary work (R77). They work in ascending index, and the MARK frames that several emit at one boundary are queued in
that order: the model's choice (DESIGN CHOICE, log entry 38), for R69 and R77 give no order across players. -/
def playersBoundary (n : Nat) (s : State) : State := (List.finRange 4).foldl (fun s p => playerBoundary n p s) s

/-! ### Suspension and resumption (R91, R92) -/

/-- A non-IDLE player that is not SUSPENDED becomes SUSPENDED (R91). -/
def suspendPlayer (p : Fin 4) (s : State) : State :=
  match s.rows[p] with
  | some r =>
    if r.suspended then s
    else askFlush (setRow p (some { r with suspended := true, ctx := { r.ctx with catchUp := none } }) s)
  | none => s

/-- Every player is told that the hold list has become non-empty (R91, R158). -/
def suspendPlayers (s : State) : State := (List.finRange 4).foldl (fun s p => suspendPlayer p s) s

/-- The re-evaluation of a player at resume, its prior state restored (R92). -/
def reevaluate (p : Fin 4) (s : State) : State :=
  let c := frameNow s
  match s.rows[p] with
  | none => s
  | some r =>
    let ended := match r.endFrame with | some e => decide (e ≤ c) | none => false
    match r.phase with
    | .armed =>
      if ended then toIdle p s
      else if c < r.anchor then s
      else beginCatchUp (joinOrForward r) p (setRow p (some { r with phase := .running }) s)
    | .running => beginCatchUp .resume p s
    | .gated g =>
      if ended then meetEndFrame p s
      else
        match evalGate r g c with
        | some (q, byTimeout) =>
          let o := openGate g q r
          beginCatchUp .resume p
            (askFlush (setRow p (some { o with ctx := { o.ctx with lateWatch := watchAfter g.mark byTimeout } }) s))
        | none => s
    | .releasing _ _ => if releaseOver s r c then toIdle p s else beginCatchUp .resume p s

/-- A SUSPENDED player resumes: its pending marks are emitted in the order taken, and its prior state is re-evaluated (R92). -/
def resumePlayer (p : Fin 4) (s : State) : State :=
  match s.rows[p] with
  | some r =>
    if r.suspended then
      let s := r.ctx.pendingMarks.foldl (fun s e => emitMark p e.1 e.2 s) s
      let s := modRow p (fun r => { r with suspended := false, ctx := { r.ctx with pendingMarks := [] } }) s
      reevaluate p (askFlush s)
    else s
  | none => s

/-- Every player is told that the hold list has become empty (R92, R158). -/
def resumePlayers (s : State) : State := (List.finRange 4).foldl (fun s p => resumePlayer p s) s

/-! ### Repositioning (R93, R94) -/

/-- A context reset (R93): the show's start, no pending emissions and no late watch. -/
def resetContext (nZones : Nat) (x : Context) : Context :=
  { rewind nZones x with lateWatch := none, pendingMarks := [] }

/-- The player repositions after its row has adopted a new pair (R93); a change of state it makes, but for ARMED to
RUNNING, asks for a flush (R89). A GATED player that adopts a smaller anchor still after the current frame, which R93's
table gives no case, has its gate evaluated as for one at or before it: the model's choice (DESIGN CHOICE, log entry 34).
A context reset withdraws the refill outstanding for the window it empties, also where no catch-up begins: the model's choice
(DESIGN CHOICE, log entry 33), for R125 names the player that becomes IDLE and the new catch-up. -/
def reposition (p : Fin 4) (newTag : Bool) (s : State) : State :=
  let c := frameNow s
  match s.rows[p] with
  | none => s
  | some r =>
    let ahead := decide (c < r.anchor)
    if newTag then
      let n := (zonesOf s).length
      let s := withdrawRefill p s
      let fresh := fun (x : Context) => resetContext n x
      if r.suspended then
        modRow p (fun r => { r with phase := if ahead then .armed else .running, ctx := fresh r.ctx }) s
      else
        let s := askFlushIf (match r.phase with | .gated _ => true | .running => ahead | _ => false) s
        if ahead then modRow p (fun r => { r with phase := .armed, ctx := { fresh r.ctx with catchUp := none } }) s
        else beginCatchUp .join p (modRow p (fun r => { r with phase := .running, ctx := fresh r.ctx }) s)
    else
      match r.phase with
      | .armed =>
        if r.suspended || ahead then s
        else beginCatchUp (joinOrForward r) p (setRow p (some { r with phase := .running }) s)
      | .running =>
        if r.suspended then s
        else if ahead then askFlush (setRow p (some { r with phase := .armed, ctx := { r.ctx with catchUp := none } }) s)
        else beginCatchUp .forward p s
      | .gated g =>
        let g' := gateAt g.time g.mark g.timeout r.anchor
        if r.suspended then setRow p (some { r with phase := .gated g' }) s
        else
          match evalGate r g' c with
          | some (q, byTimeout) =>
            let o := openGate g' q r
            beginCatchUp .forward p
              (askFlush (setRow p (some { o with ctx := { o.ctx with lateWatch := watchAfter g.mark byTimeout } }) s))
          | none => setRow p (some { r with phase := .gated g' }) s
      | .releasing _ _ => s

/-- A player acts on a STEP FORWARD (R94). -/
def playerStepForward (p : Fin 4) (s : State) : State :=
  let c := frameNow s
  match s.rows[p] with
  | none => s
  | some r =>
    if r.suspended || r.ctx.catchUp.isSome then s
    else
      match r.phase with
      | .armed =>
        if r.anchor ≤ c then beginCatchUp (joinOrForward r) p (setRow p (some { r with phase := .running }) s) else s
      | .running => beginCatchUp .forward p s
      | .gated g => if g.timeoutFrame ≤ c then beginCatchUp .forward p (timeoutGate p g s) else s
      | .releasing _ _ => if releaseOver s r c then toIdle p s else beginCatchUp .forward p s

/-- A catch-up whose target has fallen to its position or below completes (R90, R94). -/
def completeIfReached (p : Fin 4) (s : State) : State :=
  match s.rows[p] with
  | some r =>
    if r.ctx.catchUp.isSome && decide ((frameNow s : Int) - r.anchor ≤ r.ctx.position) then completeCatchUp p s else s
  | none => s

/-- A player acts on a STEP BACKWARD (R94). -/
def playerStepBackward (p : Fin 4) (s : State) : State :=
  let s := completeIfReached p s
  match s.rows[p] with
  | none => s
  | some r =>
    match r.phase with
    | .running =>
      if frameNow s < r.anchor then
        let armed := setRow p (some { r with phase := .armed }) s
        if r.suspended then armed else askFlush armed
      else s
    | _ => s

/-- A player is created for its row with the context of R74. -/
def freshContext (nZones : Nat) : Context :=
  { position := -1, window := [], nextCue := 0, endRead := false, refillAsked := false, starved := false, sweeps := [],
    zones := List.replicate nZones transparent, lateWatch := none, pendingMarks := [], catchUp := none,
    lastAnswer := none }

end Sys2Proof.Machine
end

