-- ==== Sys2Proof/Machine/Instances.lean ====
section
/-!
DEFINITION. The Instance Manager (03_show_instances.md): show requests, merging, allocation and eviction, stops, announcer
duty, GO marks, and the commands START SHOW, ANNOUNCE START, RUNNING and STOP, STOP SHOW, STOP ALL and MARK.
-/

namespace Sys2Proof.Machine

/-! ### Requests (R50) -/

/-- A show request (R50). -/
structure Request where
  showNo : Nat
  priority : Nat
  tag : Nat
  anchor : Nat
  endFrame : Option Nat
  mode : PlayMode
  passes : Nat
  origin : Origin
deriving DecidableEq, Repr

/-- A request's nominal final frame for a show of a length; none for an endless LOOP without an end frame (R50). -/
def nominalFinal (q : Request) (length : Nat) : Option Nat :=
  let played : Option Nat :=
    match q.mode with
    | .once => some (q.anchor + length)
    | .loop => if q.passes = 0 then none else some (q.anchor + q.passes * length)
  match q.endFrame, played with
  | some e, some f => some (min e f)
  | some e, none => some e
  | none, f => f

/-- The row that holds a show in any state but IDLE (R48). -/
def heldRow (s : State) (showNo : Nat) : Option (Fin 4) :=
  (List.finRange 4).find? (fun p => match s.rows[p] with | some r => r.showNo == showNo | none => false)

/-! ### Taking a request (R54 to R57) -/

/-- A row is cut to IDLE at once, without release (R54, R56). -/
def cutRow (p : Fin 4) (s : State) : State := askFlush (toIdle p s)

/-- The row a request creates, before its player joins (R57). -/
def rowOfRequest (q : Request) (s : State) : Row :=
  { phase := if frameNow s < q.anchor then .armed else .running, suspended := s.safety.holdList != [],
    showNo := q.showNo, priority := q.priority, tag := q.tag, anchor := q.anchor, endFrame := q.endFrame,
    mode := q.mode, passes := q.passes, origin := q.origin, announcer := false, lastHeard := frameNow s, marks := [],
    ctx := freshContext (zonesOf s).length }

/-- The request is the station's own: from its calendar or a console (R55, R57). -/
def Origin.isOwn : Origin → Bool
  | .calendar _ => true
  | .console _ => true
  | .peer _ => false

/-- A row takes the announcer flag and queues an ANNOUNCE START, on a station numbered 1 to 63 (R55, R57). -/
def announceStartOf (p : Fin 4) (s : State) : State :=
  if s.start.number = 0 then s
  else
    match s.rows[p] with
    | some r => announce 1 r (setRow p (some { r with announcer := true }) s)
    | none => s

/-- A new row is created (R57). -/
def createRow (p : Fin 4) (q : Request) (s : State) : State :=
  let r := rowOfRequest q s
  let s := askFlush (setRow p (some r) s)
  let s := if q.origin.isOwn then announceStartOf p s else s
  if r.phase = .running ∧ r.suspended = false then beginCatchUp .join p s else s

/-- The request's (tag, anchor) pair is smaller than a row's (R55). -/
def pairSmaller (q : Request) (r : Row) : Bool := q.tag < r.tag || (q.tag == r.tag && q.anchor < r.anchor)

/-- A row adopts a request's pair and fields; its mark list is emptied when the tag differs (R55). -/
def adoptPair (q : Request) (r : Row) : Row :=
  { r with tag := q.tag, anchor := q.anchor, priority := q.priority, endFrame := q.endFrame, mode := q.mode,
           passes := q.passes, origin := q.origin, marks := if q.tag = r.tag then r.marks else [] }

/-- A request is merged into the row that holds its show (R55). -/
def mergeRow (p : Fin 4) (q : Request) (s : State) : State :=
  match s.rows[p] with
  | some r =>
    if pairSmaller q r then
      let s := askFlush (setRow p (some (adoptPair q r)) s)
      let s := if q.origin.isOwn then announceStartOf p s else s
      reposition p (q.tag != r.tag) s
    else s
  | none => s

/-- Row `a` is evicted before row `b`: lower priority, then smaller tag, then higher player index (R56). -/
def evictsBefore (a b : Fin 4 × Row) : Bool :=
  a.2.priority < b.2.priority ||
    (a.2.priority == b.2.priority && (a.2.tag < b.2.tag || (a.2.tag == b.2.tag && b.1 < a.1)))

/-- The row evicted for a request of a priority; none when no row's priority is strictly below it (R56). -/
def evictionOf (s : State) (priority : Nat) : Option (Fin 4) :=
  ((List.finRange 4).foldl
    (fun (best : Option (Fin 4 × Row)) p =>
      match s.rows[p] with
      | some r =>
        if r.priority < priority then
          match best with
          | some b => if evictsBefore (p, r) b then some (p, r) else best
          | none => some (p, r)
        else best
      | none => best) none).map (·.1)

/-- The lowest-numbered IDLE row (R56). -/
def idleRow (s : State) : Option (Fin 4) := (List.finRange 4).find? (fun p => s.rows[p].isNone)

/-- Allocation of a player for a request that is not held; the flag says whether it was taken (R56). -/
def allocate (q : Request) (s : State) : Bool × State :=
  match idleRow s with
  | some p => (true, createRow p q s)
  | none =>
    match evictionOf s q.priority with
    | some p => (true, createRow p q (bump .evictions (cutRow p s)))
    | none => (false, bump .instanceFull s)

/-- An accepted request is taken; the flag is clear when it is refused FULL (R54). -/
def takeRequest (q : Request) (s : State) : Bool × State :=
  match heldRow s q.showNo with
  | some p =>
    match s.rows[p] with
    | some r =>
      match r.phase with
      | .releasing _ _ => (true, createRow p q (cutRow p s))
      | _ => (true, mergeRow p q s)
    | none => (true, createRow p q s)
  | none => allocate q s

/-- A request of the station's own calendar (R51). -/
def takeCalendarRequest (q : Request) (s : State) : State :=
  if isRunning s then
    match headerOf s q.showNo with
    | some _ => (takeRequest q s).2
    | none => bump .showAbsent s
  else s

/-! ### Stops (R58 to R61) -/

/-- A row is stopped according to its state (R58). A SUSPENDED row keeps its flag and is judged by its prior state. With a release of 0
frames a SUSPENDED row whose prior state is RUNNING or GATED becomes IDLE at once, as a RUNNING one does: the model's choice (DESIGN
CHOICE, log entry 39), for the table keeps that row SUSPENDED with prior state RELEASING, and R58's sentence on a release of 0 speaks
of a stop that would make the row RELEASING. -/
def stopRow (p : Fin 4) (s : State) : State :=
  match s.rows[p] with
  | none => s
  | some r =>
    match r.phase with
    | .armed => askFlush (toIdle p s)
    | .releasing _ _ => s
    | .running | .gated _ =>
      let h := headerOr s r.showNo
      let start := frameNow s + 1
      if h.release = 0 then askFlush (toIdle p s)
      else
        askFlush
          (setRow p
            (some { r with phase := .releasing start (attackWeight r.tag h.attack start), announcer := false }) s)

/-- Every row is stopped, in ascending order (R59). -/
def stopRows (s : State) : State := (List.finRange 4).foldl (fun s p => stopRow p s) s

/-- A row is alive for the announcer rules and for R60: not IDLE, and neither RELEASING nor SUSPENDED with that prior state. -/
def aliveRow (r : Row) : Bool :=
  match r.phase with
  | .releasing _ _ => false
  | _ => true

/-- The STOP ALL contact: the live rows are recorded, every row is stopped, and an ANNOUNCE STOP is queued for each
recorded row (R60). -/
def contactStopAll (s : State) : State :=
  let recorded := s.rows.toList.filterMap (fun r => match r with | some r => if aliveRow r then some r else none | none => none)
  recorded.foldl (fun s r => announce 3 r s) (stopRows s)

/-! ### Announcer duty (R62 to R65) -/

/-- A row's announcer work at the boundary of frame `n`: the scheduled ANNOUNCE RUNNING of an announcer, or the takeover of a
row that has heard none for 480 frames (R63, R65). -/
def announcerBoundary (n : Nat) (p : Fin 4) (s : State) : State :=
  match s.rows[p] with
  | none => s
  | some r =>
    if !aliveRow r then s
    else if r.announcer then
      if r.tag ≤ n ∧ (n - r.tag) % 160 = 0 then announce 2 r s else s
    else if s.start.number ≠ 0 ∧ r.lastHeard + 480 ≤ n then
      let r := { r with announcer := true, lastHeard := frameNow s }
      announce 2 r (setRow p (some r) s)
    else s

/-- The announcer work of every row (R63, R65). The announcements of several rows at one boundary join the transmit queue in ascending
row: the model's choice (DESIGN CHOICE, log entry 38), for R63 and R65 give no order across rows. -/
def announcersBoundary (n : Nat) (s : State) : State :=
  (List.finRange 4).foldl (fun s p => announcerBoundary n p s) s

/-! ### GO marks (R68) -/

/-- A GO mark is offered to every player GATED on mark 0, in ascending index (R68). -/
def offerGo (release : Nat) (s : State) : State :=
  (List.finRange 4).foldl (fun s p => offerMark p 0 release s) s

/-! ### Correction notices (R71) -/

/-- A step of `amount` µs moves the last announcement heard of every row by as many tower frames (R71). -/
def shiftLastHeard (amount : Int) (s : State) : State :=
  { s with rows := s.rows.map (fun r => r.map (fun r => { r with lastHeard := r.lastHeard + amount.tdiv 25000 })) }

/-! ### The port after a change (R78, R124) -/

/-- The oldest dead mark to write, as a unit of port work (R122, R124). -/
def deadMarkWork (s : State) : Option PortUnit := s.lib.deadMarks.head?.map PortUnit.deadMark

/-- The tag write of the head of the erase list, once its five sectors are erased (R119). -/
def tagWork (s : State) : Option PortUnit :=
  match s.lib.erase with
  | e :: _ =>
    if 5 ≤ e.erased then
      match s.lib.dir[e.slot] with
      | .erasing n b => some (.tagWrite e.slot n b)
      | _ => none
    else none
  | [] => none

/-- The slot in LOADING that holds a show (R121). -/
def loadingSlot (s : State) (showNo : Nat) : Option (Fin 32) :=
  match slotOf s showNo with
  | some i =>
    match s.lib.dir[i] with
    | .loading _ _ _ _ => some i
    | _ => none
  | none => none

/-- The oldest writable block (R121). -/
def blockWork (s : State) : Option PortUnit :=
  s.lib.queue.findSome? (fun b => (loadingSlot s b.showNo).map (fun i => PortUnit.blockWrite i b true))

/-- The next block read of a check under way, the lowest-numbered slot first (R116, R124). -/
def checkWork (s : State) : Option PortUnit :=
  (List.finRange 32).findSome? (fun i =>
    match s.lib.dir[i] with
    | .loading _ _ _ (some k) => some (PortUnit.checkRead i k)
    | _ => none)

/-- The next sector erase of the head of the erase list (R119). -/
def eraseWork (s : State) : Option PortUnit :=
  match s.lib.erase with
  | e :: _ => if e.erased < 5 then some (.sectorErase e.slot e.erased true) else none
  | [] => none

/-- The refill of the lowest-numbered player that has one waiting (R124). -/
def refillWork (s : State) : Option (Fin 4) :=
  (List.finRange 4).find? (fun p => match s.rows[p] with | some r => r.ctx.refillAsked | none => false)

/-- A unit of port work begins. -/
def setPort (u : Option PortUnit) (s : State) : State := { s with lib := { s.lib with port := u } }

/-- When the port is free the arbiter begins the next unit: a refill, then library work, then an erase (R124). -/
def arbitrate (s : State) : State :=
  match s.lib.port with
  | some _ => s
  | none =>
    match refillWork s with
    | some p => setPort (some (.refill p true)) (modCtx p (fun x => { x with refillAsked := false }) s)
    | none =>
      setPort (((deadMarkWork s).or (tagWork s)).or (((blockWork s).or (checkWork s)).or (eraseWork s))) s

/-- After a step that can leave players wanting cues or the port free: refills are asked and the arbiter decides (R78, R124). -/
def servePort (s : State) : State := arbitrate (askRefills s)

/-! ### Console commands (R52, R59) -/

/-- The request of a START SHOW, formed from the frame (R52). -/
def startRequest (sender : LineNumber) (f : StartImage) (s : State) : Request :=
  let tag := if f.tag = 0 then frameNow s + 1 + 80 else f.tag.toNat
  { showNo := f.showNo.toNat, priority := clampPriority f.priority.toNat, tag := tag, anchor := tag,
    endFrame := if f.duration = 0 then none else some (tag + f.duration.toNat * 40),
    mode := if f.mode = 1 then .loop else .once, passes := f.passes.toNat, origin := .console sender.toNat }

/-- A START SHOW carries a field out of range (R52). -/
def startInvalid (f : StartImage) : Bool :=
  f.showNo == 0 || (f.mode != 0 && f.mode != 1) || (f.mode == 0 && f.passes != 0) || 15 < f.passes.toNat ||
    345600 < f.duration.toNat || 126230400000 ≤ f.tag.toNat

/-- The tests of a START SHOW before its request is taken: the outcome of the first that applies (R52). -/
def startRefusal (f : StartImage) (q : Request) (s : State) : Option Verdict :=
  if s.start.state = .configFault then some .notNow
  else if startInvalid f then some .invalid
  else if s.time.timeValid = false then some .notNow
  else
    match headerOf s f.showNo.toNat with
    | none => some .unknown
    | some h =>
      match nominalFinal q h.length with
      | some e => if e ≤ frameNow s then some .notNow else none
      | none => none

/-- A START SHOW is taken: its outcome and its effect (R52). -/
def startEffect (sender : LineNumber) (f : StartImage) (s : State) : Verdict × State :=
  let q := startRequest sender f s
  match startRefusal f q s with
  | some .unknown => (.unknown, bump .showAbsent s)
  | some v => (v, bump .startRefused s)
  | none =>
    let (taken, s) := takeRequest q s
    (if taken then .accepted else .full, s)

/-- START_SHOW (R52). -/
def execStartShow (sender : LineNumber) (target : Byte) (f : StartImage) (s : State) : Answered :=
  onFrameStarted sender 4 1
    (fun s =>
      if concerns target s then
        let (v, s) := startEffect sender f s
        servePort (answerResult sender target 4 1 v f.showNo.toNat s)
      else s) s

/-- A STOP SHOW is taken: its outcome and its effect (R59). -/
def stopShowEffect (showNo : Nat) (s : State) : Verdict × State :=
  if showNo = 0 then (.invalid, s)
  else
    match heldRow s showNo with
    | some p => (.accepted, stopRow p s)
    | none => (.unknown, s)

/-- STOP_SHOW (R59). -/
def execStopShow (sender : LineNumber) (target showNo : Byte) (s : State) : Answered :=
  onFrameStarted sender 4 2
    (fun s =>
      if concerns target s then
        let (v, s) := stopShowEffect showNo.toNat s
        servePort (answerResult sender target 4 2 v showNo.toNat s)
      else s) s

/-- STOP_ALL (R59). -/
def execStopAll (sender : LineNumber) (target : Byte) (s : State) : Answered :=
  onFrameStarted sender 4 3
    (fun s =>
      if concerns target s then servePort (answerResult sender target 4 3 .accepted 0 (stopRows s)) else s) s

/-! ### Announcements (R53, R61, R64) -/

/-- The request of an ANNOUNCE START or ANNOUNCE RUNNING (R53). An announced mode ONCE keeps the announced passes, also when they are
not 0: the model's choice (DESIGN CHOICE, log entry 40), for the table of 3.1 holds 0 for ONCE, and R53 has the request carry what is
announced. -/
def announceRequest (sender : LineNumber) (a : Announcement) : Request :=
  { showNo := a.showNo.toNat, priority := clampPriority a.priority.toNat, tag := a.tag.toNat, anchor := a.anchor.toNat,
    endFrame := if a.duration = 0 then none else some (a.tag.toNat + a.duration.toNat),
    mode := a.mode, passes := a.passes.toNat, origin := .peer sender.toNat }

/-- The show's zone span meets the station's zones (R53). -/
def spanMeets (h : ShowHeader) (s : State) : Bool :=
  (zonesOf s).any (fun z => h.low ≤ z.tower.toNat && z.tower.toNat ≤ h.high)

/-- An announcement is acted on (R53). -/
def announceActedOn (q : Request) (s : State) : Bool :=
  isRunning s && s.time.timeValid &&
    (match headerOf s q.showNo with
     | some h =>
       spanMeets h s && decide (q.tag ≤ q.anchor) &&
         (match nominalFinal q h.length with | some e => decide (frameNow s < e) | none => true)
     | none => false)

/-- An announcement is heard: a row with its show number and tag notes the current frame (R64). -/
def noteHeard (q : Request) (s : State) : State :=
  match heldRow s q.showNo with
  | some p => modRow p (fun r => if r.tag = q.tag then { r with lastHeard := frameNow s } else r) s
  | none => s

/-- The announcer rules after an announcement has been taken as a request (R64). -/
def announcerRules (sender : Nat) (q : Request) (s : State) : State :=
  match heldRow s q.showNo with
  | none => s
  | some p =>
    match s.rows[p] with
    | none => s
    | some r =>
      if r.tag = q.tag ∧ r.anchor = q.anchor then
        if sender < s.start.number then setRow p (some { r with announcer := false }) s else s
      else if r.tag < q.tag ∨ (r.tag = q.tag ∧ r.anchor < q.anchor) then announce 2 r s
      else s

/-- An ANNOUNCE START or ANNOUNCE RUNNING of a peer is taken (R53, R64). -/
def takeAnnouncement (sender : LineNumber) (a : Announcement) (s : State) : State :=
  let q := announceRequest sender a
  let s := noteHeard q s
  if announceActedOn q s then servePort (announcerRules sender.toNat q (takeRequest q s).2)
  else bump .announceIgnored s

/-- An ANNOUNCE START or ANNOUNCE RUNNING arrives. In STARTING it is discarded (R72), and counts as one that is not acted on (R53). -/
def hearAnnouncement (sender : LineNumber) (a : Announcement) (s : State) : State :=
  if s.start.state = .starting then bump .announceIgnored s else takeAnnouncement sender a s

/-- ANNOUNCE_START (R53). -/
def execAnnounceStart (sender : LineNumber) (a : Announcement) (s : State) : Answered :=
  onFrame sender 2 1 (hearAnnouncement sender a) s

/-- ANNOUNCE_RUNNING (R53). -/
def execAnnounceRunning (sender : LineNumber) (a : Announcement) (s : State) : Answered :=
  onFrame sender 2 2 (hearAnnouncement sender a) s

/-- A peer's ANNOUNCE STOP stops the row that holds the show when its tag is at or before the announced tag (R61). -/
def takeAnnounceStop (a : Announcement) (s : State) : State :=
  match heldRow s a.showNo.toNat with
  | some p =>
    match s.rows[p] with
    | some r => if r.tag ≤ a.tag.toNat then servePort (stopRow p s) else s
    | none => s
  | none => s

/-- ANNOUNCE_STOP (R61). -/
def execAnnounceStop (sender : LineNumber) (a : Announcement) (s : State) : Answered :=
  onFrameStarted sender 2 3 (takeAnnounceStop a) s

/-! ### Marks (R66) -/

/-- A MARK frame is taken (R66). -/
def takeMarkFrame (showNo tag number release : Nat) (s : State) : State :=
  if !isRunning s then bump .marksDiscarded s
  else if number = 0 then
    if showNo = 0 ∧ tag = 0 then offerGo release s else bump .marksDiscarded s
  else
    match heldRow s showNo with
    | some p =>
      match s.rows[p] with
      | some r => if r.tag = tag then fileMark p number release s else bump .marksDiscarded s
      | none => bump .marksDiscarded s
    | none => bump .marksDiscarded s

/-- MARK (R66). -/
def execMark (sender : LineNumber) (showNo : Byte) (tag : BitVec 40) (number : Byte) (release : BitVec 40)
    (s : State) : Answered :=
  onFrame sender 3 0 (fun s => takeMarkFrame showNo.toNat tag.toNat number.toNat release.toNat s) s

/-! ### Catch-up (R90) -/

/-- CATCH_UP_COMPLETE (R90). -/
def execCatchUpComplete (p : Fin 4) (s : State) : Answered := onEvent (fun s => servePort (runCatchUp p s)) s

end Sys2Proof.Machine
end

