-- ==== Sys2Proof/Machine/Mixer.lean ====
section
/-!
DEFINITION. The Frame Mixer (05_frame_computation.md): the mix of a zone slot, the frame record, the budget, and the
commands FLUSH_REQUEST, RENDER_BEGIN and RENDER_COMPLETE.
-/

namespace Sys2Proof.Machine

/-! ### Layers and the mix (R106 to R108) -/

/-- A layer of a zone: its row's priority and tag, its player, its weight and its show value (R106). -/
structure Layer where
  priority : Nat
  tag : Nat
  player : Nat
  weight : Nat
  values : Levels
deriving DecidableEq, Repr

/-- Layer `a` is placed before layer `b`: ascending priority, then ascending tag, then descending player (R106). -/
def layerBefore (a b : Layer) : Bool :=
  a.priority < b.priority ||
    (a.priority == b.priority && (a.tag < b.tag || (a.tag == b.tag && b.player < a.player)))

/-- A layer takes its place in the order of R106. -/
def insertLayer (a : Layer) : List Layer → List Layer
  | [] => [a]
  | b :: bs => if layerBefore a b then a :: b :: bs else b :: insertLayer a bs

/-- Layers in the order of R106. -/
def orderLayers (ls : List Layer) : List Layer := ls.foldl (fun acc a => insertLayer a acc) []

/-- One mix step over `out` with value `v` and weight `w`, truncated toward zero (R107). -/
def mixStep (out v w : Nat) : Nat := ((out : Int) + (((v : Int) - out) * w).tdiv 256).toNat

/-- Layers take their mix steps in order for slot position `j` (R107). -/
def mixLayers (j : Nat) (out : Nat) (ls : List Layer) : Nat :=
  ls.foldl (fun out l => mixStep out (l.values.get j) l.weight) out

/-- The mixed level of slot position `j` (R107, R108). -/
def mixSlot (curfew : Option (Nat × Nat)) (base : Option Levels) (ls : List Layer) (j : Nat) : Nat :=
  let out := (base.map (fun b => b.get j)).getD 0
  match curfew with
  | none => mixLayers j out ls
  | some (ceiling, exempt) =>
    mixLayers j (min (mixLayers j out (ls.filter (fun l => l.priority < exempt))) ceiling)
      (ls.filter (fun l => exempt ≤ l.priority))

/-! ### The frame record (R96, R109, R110) -/

/-- A player's answer for frame `n` as a layer of the local zone at place `i` (R106). -/
def layerOf (s : State) (n i : Nat) (p : Fin 4) : Option Layer :=
  match s.rows[p] with
  | some r =>
    match (playerAnswer (zonesOf s) r n).bind (fun vs => vs[i]?.join) with
    | some v =>
      some { priority := r.priority, tag := r.tag, player := p.val, weight := rowWeight (headerOr s r.showNo) r n,
             values := v }
    | none => none
  | none => none

/-- The layers of the local zone at place `i`, in order (R106). -/
def zoneLayers (s : State) (n i : Nat) : List Layer := orderLayers ((List.finRange 4).filterMap (layerOf s n i))

/-- The level of slot position `j` of the local zone at place `i` on link `l`: mixed, or the link's safe level while the hold
list is not empty (R107, R108, R109). -/
def slotLevel (s : State) (n i j : Nat) (l : Fin 4) : Nat :=
  if s.safety.holdList ≠ [] then safeLevelOf s l
  else mixSlot s.mixer.curfew s.mixer.base (zoneLayers s n i) j

/-- The mapped link slots with the local zone and slot position each belongs to (R95). -/
def mappedSlots (zmap : List ZoneBoot) : List (Fin 4 × Fin 256 × Nat × Nat) :=
  zmap.zipIdx.flatMap (fun (z, i) => z.slots.zipIdx.map (fun (m, j) => (m.1, m.2, i, j)))

/-- The levels of one link after the slot step: mapped slots their level, unmapped slots 0 (R96). -/
def linkSlots (level : Nat → Nat → Nat) (mapped : List (Fin 4 × Fin 256 × Nat × Nat)) (l : Fin 4) : List Nat :=
  let here := (mapped.filter (fun m => m.1 == l)).map (fun m => (m.2.1.val, level m.2.2.1 m.2.2.2))
  (List.range 256).map (fun k => ((here.find? (fun e => e.1 == k)).map (·.2)).getD 0)

/-- The slot step of a render of frame `n` (R96). -/
def slotStep (s : State) (n : Nat) : LinkLevels :=
  let mapped := mappedSlots (zonesOf s)
  Vector.ofFn (fun l => linkSlots (fun i j => slotLevel s n i j l) mapped l)

/-- The levels of a link scaled to a budget, 0 for no limit (R110). -/
def scaleLink (budget : Nat) (levels : List Nat) : List Nat :=
  if 0 < budget ∧ budget < levels.sum then levels.map (fun v => v * budget / levels.sum) else levels

/-- A link is scaled (R110). -/
def isScaled (budget : Nat) (levels : List Nat) : Bool := decide (0 < budget ∧ budget < levels.sum)

/-- The link step: every link scaled to its budget (R96, R110). -/
def linkStep (s : State) (levels : LinkLevels) : LinkLevels :=
  Vector.ofFn (fun l => scaleLink (budgetOf s l) levels[l])

/-- The number of links of a record that are scaled (R110). -/
def scaledLinks (s : State) (levels : LinkLevels) : Nat :=
  ((List.finRange 4).filter (fun l => isScaled (budgetOf s l) levels[l])).length

/-! ### The render cursor (R97 to R99) -/

/-- The Frame Mixer takes a flush: the render in progress is abandoned, the Output Queue emptied, the cursor none (R99). -/
def takeFlush (s : State) : State :=
  bump .flushes
    { s with mixer := { s.mixer with cursor := none, render := none, flushAsked := s.mixer.flushAsked - 1 }
             out := { s.out with records := [] } }

/-- FLUSH_REQUEST (R99). -/
def execFlushRequest (s : State) : Answered := onEvent takeFlush s

/-- A render may begin (R97). -/
def canRender (s : State) : Bool :=
  isRunning s && s.mixer.render.isNone && decide (s.out.records.length < depthOf s)

/-- The frame the next render is for (R97). -/
def renderFrame (s : State) : Nat :=
  match s.mixer.cursor with
  | none => frameNow s + 1
  | some k => max (k + 1) (frameNow s + 1)

/-- A player has been asked for frame `n`: its last answered frame (R88). -/
def noteAnswer (zmap : List ZoneBoot) (n : Nat) (r : Row) : Row :=
  match playerAnswer zmap r n with
  | some vs => { r with ctx := { r.ctx with lastAnswer := some { frame := n, values := vs } } }
  | none => r

/-- A render begins and reads its inputs (R97, R98). -/
def beginRender (s : State) : State :=
  let n := renderFrame s
  let render : Render := { frame := n, safe := s.safety.holdList != [], levels := slotStep s n }
  { s with mixer := { s.mixer with render := some render }
           rows := s.rows.map (fun r => r.map (noteAnswer (zonesOf s) n)) }

/-- RENDER_BEGIN (R97). -/
def execRenderBegin (s : State) : Answered := onEvent (fun s => if canRender s then beginRender s else s) s

/-- A render completes: its record joins the tail of the Output Queue, or is discarded as late (R98, R110). -/
def completeRender (r : Render) (s : State) : State :=
  let s := bumpBy (scaledLinks s r.levels) .budgetScaled s
  let s := { s with mixer := { s.mixer with render := none, cursor := some r.frame } }
  if frameNow s < r.frame then
    let rec' : Record := { frame := r.frame, safe := r.safe, levels := linkStep s r.levels }
    { s with out := { s.out with records := s.out.records ++ [rec'] } }
  else bump .renderLate s

/-- RENDER_COMPLETE (R98). -/
def execRenderComplete (s : State) : Answered :=
  onEvent (fun s => match s.mixer.render with | some r => completeRender r s | none => s) s

end Sys2Proof.Machine
end

