-- ==== Sys2Proof/Machine/Monitors.lean ====
section
/-!
DEFINITION. The Link Monitors (08_link_monitors.md) and the commands SENSE_CHANGE, DEGLITCH_EXPIRY, RETRY_EXPIRY and
CLEAR_FAULTS.
-/

namespace Sys2Proof.Machine

/-! ### Senses (R140, R141) -/

/-- A sense takes a raw reading: the deglitch timer runs while the reading differs from the condition (R141). -/
def Sense.read (raw : Bool) (x : Sense) : Sense :=
  { x with raw := raw, deglitch := if raw = x.present then none else some (x.deglitch.getD 100000) }

/-- The senses of a link are read: SHORT and OPEN while it is driven, FEED LOW with its hysteresis (R140). -/
def readLink (driven sensing : Bool) (m : LinkMonitor) : LinkMonitor :=
  { m with short := m.short.read (driven && decide (180000 < m.microamps))
           openLine := m.openLine.read (driven && decide (m.microamps < 3000))
           feedLow := m.feedLow.read (sensing && decide (m.millivolts < if m.feedLow.present then 19000 else 18000)) }

/-- Every sense is read as the state of the station has it (R140). -/
def resense (s : State) : State :=
  let sensing := started s
  { s with mon :=
    { links := Vector.ofFn (fun l => readLink (linkDriven s l) sensing s.mon.links[l])
      temperature := s.mon.temperature
      hotWarn := s.mon.hotWarn.read
        (sensing && decide ((if s.mon.hotWarn.present then 900 else 1050) ≤ s.mon.temperature))
      hotShutdown := s.mon.hotShutdown.read
        (sensing && decide ((if s.mon.hotShutdown.present then 1100 else 1250) ≤ s.mon.temperature)) } }

/-- A sensed quantity takes a new value. -/
def setReading (r : Reading) (m : Monitors) : Monitors :=
  match r with
  | .current l a => { m with links := m.links.set l { m.links[l] with microamps := a } }
  | .feed l v => { m with links := m.links.set l { m.links[l] with millivolts := v } }
  | .temperature t => { m with temperature := t }

/-- SENSE_CHANGE (R140). The quantity is the world's and is kept while nothing is sensed. -/
def execSenseChange (r : Reading) (s : State) : Answered :=
  let s := { s with mon := setReading r s.mon }
  .next (if started s then resense s else s)

/-! ### Access to one sense -/

/-- The sense of a class on a link. -/
def LinkMonitor.sense (m : LinkMonitor) : LinkClass → Sense
  | .short => m.short | .openLine => m.openLine | .feedLow => m.feedLow

/-- The sense of a class on a link is replaced. -/
def LinkMonitor.setSense (m : LinkMonitor) (c : LinkClass) (x : Sense) : LinkMonitor :=
  match c with
  | .short => { m with short := x }
  | .openLine => { m with openLine := x }
  | .feedLow => { m with feedLow := x }

/-- One sense of the monitors. -/
def Monitors.sense (m : Monitors) : SenseClass → Sense
  | .link l c => m.links[l].sense c
  | .station .hotWarn => m.hotWarn
  | .station .hotShutdown => m.hotShutdown

/-- One sense of the monitors is replaced. -/
def Monitors.setSense (m : Monitors) (c : SenseClass) (x : Sense) : Monitors :=
  match c with
  | .link l c => { m with links := m.links.set l (m.links[l].setSense c x) }
  | .station .hotWarn => { m with hotWarn := x }
  | .station .hotShutdown => { m with hotShutdown := x }

/-- One sense of the station is replaced. -/
def setSense (c : SenseClass) (x : Sense) (s : State) : State := { s with mon := s.mon.setSense c x }

/-- The mode of a class (R142). -/
def modeOf (s : State) : SenseClass → MonMode
  | .link _ .short => (modesOf s).short
  | .link _ .openLine => (modesOf s).openLine
  | .link _ .feedLow => (modesOf s).feedLow
  | .station .hotWarn => (modesOf s).hotWarn
  | .station .hotShutdown => (modesOf s).hotShutdown

/-- The detection counter of a class (R143). -/
def detectionCounter : SenseClass → Counter
  | .link _ .short => .shorts
  | .link _ .openLine => .opens
  | .link _ .feedLow => .feedLows
  | .station .hotWarn => .hotWarnings
  | .station .hotShutdown => .hotShutdowns

/-! ### Detections and removals (R143 to R149) -/

/-- What a detection does to its sense, by mode: LATCHED, RETRY and RECOVER add the cause, RETRY starts the retry timer,
WARN adds none (R145 to R149). HOT WARN, which admits WARN and OFF, holds no cause (R148). -/
def Sense.detect (mode : MonMode) (x : Sense) : Sense :=
  match mode with
  | .latched | .recover => { x with sticky := true, cause := true }
  | .retry => { x with sticky := true, cause := true, retry := some 1000000 }
  | .warn => { x with sticky := true }
  | .off | .unknown => x

/-- A detection of a class whose mode is not OFF sets the sticky flag, counts, and its mode's response acts (R143). -/
def detect (c : SenseClass) (s : State) : State :=
  let mode := modeOf s c
  if mode = .off ∨ mode = .unknown then s
  else bump (detectionCounter c) (setSense c ((s.mon.sense c).detect mode) s)

/-- A removal of a class in mode RECOVER removes its cause (R147, R149). -/
def remove (c : SenseClass) (s : State) : State :=
  if modeOf s c = .recover then setSense c { s.mon.sense c with cause := false } s else s

/-- A deglitched condition takes its raw sense's value (R141). -/
def deglitch (c : SenseClass) (s : State) : State :=
  let x := s.mon.sense c
  match x.deglitch with
  | none => s
  | some _ =>
    let s := setSense c { x with present := x.raw, deglitch := none } s
    resense (if x.raw then detect c s else remove c s)

/-- DEGLITCH_EXPIRY (R141). -/
def execDeglitchExpiry (c : SenseClass) (s : State) : Answered := onEvent (deglitch c) s

/-- A retry timer runs out: the RETRY cause is removed (R146). -/
def retryExpire (l : Fin 4) (c : LinkClass) (s : State) : State :=
  let x := s.mon.sense (.link l c)
  match x.retry with
  | none => s
  | some _ => resense (bump .retries (setSense (.link l c) { x with retry := none, cause := false } s))

/-- RETRY_EXPIRY (R146). -/
def execRetryExpiry (l : Fin 4) (c : LinkClass) (s : State) : Answered := onEvent (retryExpire l c) s

/-! ### CLEAR FAULTS (R150) -/

/-- A sense is cleared while its condition is ABSENT: its sticky flag, its cause in mode LATCHED or RETRY, a running retry
timer (R150). -/
def Sense.clear (mode : MonMode) (x : Sense) : Sense :=
  if x.present then x
  else { x with sticky := false, retry := none, cause := x.cause && mode != .latched && mode != .retry }

/-- Every sense is cleared as R150 states. -/
def clearSenses (s : State) : State :=
  let m := modesOf s
  let clearLink (k : LinkMonitor) : LinkMonitor :=
    { k with short := k.short.clear m.short, openLine := k.openLine.clear m.openLine,
             feedLow := k.feedLow.clear m.feedLow }
  { s with mon := { s.mon with links := s.mon.links.map clearLink, hotWarn := s.mon.hotWarn.clear m.hotWarn,
                               hotShutdown := s.mon.hotShutdown.clear m.hotShutdown } }

/-- A CLEAR FAULTS is taken (R150, R131). -/
def clearFaults (s : State) : State :=
  let s := clearSenses s
  bump .clearsTaken (resense { s with out := { s.out with lowWater := false, underrun := false } })

/-- CLEAR_FAULTS (R150). -/
def execClearFaults (sender : LineNumber) (target : Byte) (s : State) : Answered :=
  onFrameStarted sender 4 4
    (fun s => if concerns target s then answerResult sender target 4 4 .accepted 0 (clearFaults s) else s) s

end Sys2Proof.Machine
end

