-- ==== Sys2Proof/Machine/Output.lean ====
section
/-!
DEFINITION. The Output Queue and the Link Drivers (07_output_queue_and_luminaire_links.md): the work of a boundary, the
safe frames, link frames, and the commands LINK_FRAME_END and REFRESH_EXPIRY.
-/

namespace Sys2Proof.Machine

/-! ### The Output Queue at a boundary (R128 to R130) -/

/-- The records of a queue whose frames lie before `n` are removed from its head (R129). -/
def dropStale (n : Nat) (records : List Record) : List Record := records.dropWhile (fun r => r.frame < n)

/-- The stale discard and the low-water test of boundary `n` (R129). -/
def discardStale (n : Nat) (s : State) : State :=
  let kept := dropStale n s.out.records
  let s := bumpBy (s.out.records.length - kept.length) .staleRecords
    { s with out := { s.out with records := kept } }
  if s.out.primed ∧ kept.length ≤ 1 then bump .lowWater { s with out := { s.out with lowWater := true } } else s

/-- The frame a boundary hands to the drivers: the record for its frame, or none for the fallback (R130). -/
def headRecord (n : Nat) (s : State) : Option Record :=
  match s.out.records with
  | r :: _ => if r.frame = n then some r else none
  | [] => none

/-- The hand-over of boundary `n`: the head record leaves the queue, or an underrun is noted when primed (R128, R130). -/
def dequeue (n : Nat) (s : State) : State :=
  match headRecord n s with
  | some _ => { s with out := { s.out with records := s.out.records.tail, primed := true } }
  | none => if s.out.primed then bump .underruns { s with out := { s.out with underrun := true } } else s

/-! ### What the links send (R132, R133) -/

/-- The number of mapped slots of a link (R95, R132). -/
def mappedCount (zmap : List ZoneBoot) (l : Fin 4) : Nat :=
  (zmap.map (fun z => (z.slots.filter (fun m => m.1 == l)).length)).sum

/-- The level a mapped slot of a safe frame carries (R132). -/
def safeSlot (s : State) (l : Fin 4) : Nat :=
  let total := safeLevelOf s l * mappedCount (zonesOf s) l
  if 0 < budgetOf s l ∧ budgetOf s l < total then safeLevelOf s l * budgetOf s l / total else safeLevelOf s l

/-- The safe frame of a link (R132). -/
def safeFrameOf (s : State) (l : Fin 4) : List Nat :=
  linkSlots (fun _ _ => safeSlot s l) (mappedSlots (zonesOf s)) l

/-- The safe frames are computed from the boot record (R132). -/
def setSafeFrames (s : State) : State :=
  { s with drivers := Vector.ofFn (fun l => { s.drivers[l] with safeFrame := some (safeFrameOf s l) }) }

/-- The levels of a driver's safe frame; the dark frame before it is computed (R132, R139). -/
def Driver.safeLevels (d : Driver) : List Nat := d.safeFrame.getD (List.replicate 256 0)

/-- The fallback of a link: the safe frame while the hold list is not empty, else the last frame (R132). -/
def fallback (s : State) (l : Fin 4) : FrameKind × List Nat :=
  let d := s.drivers[l]
  if s.safety.holdList ≠ [] then (.safe, d.safeLevels) else (.held, d.lastLevels)

/-- The kind and levels a driver chooses for the frame handed over (R133). -/
def chooseFrame (s : State) (l : Fin 4) : Option Record → FrameKind × List Nat
  | none => fallback s l
  | some r =>
    if r.safe then (.safe, r.levels[l])
    else if s.safety.holdList ≠ [] then (.safe, s.drivers[l].safeLevels)
    else (.live, r.levels[l])

/-- A driver may start a link frame: RUNNING and its link ENABLED (R133, R137, R138). -/
def mayStart (s : State) (l : Fin 4) : Bool := isRunning s && linkEnabled s l

/-- A driver starts a link frame when its link is idle; otherwise the frame waits for the one being sent (R136). -/
def Driver.start1 (f : LinkFrame) (d : Driver) : Driver :=
  match d.sending with
  | none => { d with sending := some f }
  | some _ => { d with waiting := some f }

/-- A driver at boundary `n`: its last frame and frame count, its refresh timer in RUNNING, and the link frame it sends
(R133, R135, R137). The count is kept at every boundary the driver takes, also by a link that is DISABLED and sends no frame,
so a later refresh carries it: the model's choice (DEDUCED, log entry 20). -/
def driverBoundary (n : Nat) (given : Option Record) (s : State) (l : Fin 4) : Driver :=
  let (kind, levels) := chooseFrame s l given
  let count := BitVec.ofNat 16 n
  let d := { s.drivers[l] with lastLevels := levels, lastKind := kind, lastCount := count }
  let d := if isRunning s then { d with refresh := some 30000 } else d
  if mayStart s l then d.start1 { kind := kind, count := count, levels := levels } else d

/-- The boundary of frame `n` at the Output Queue and the Link Drivers; in STARTING the last frames stay (R138). -/
def outputBoundary (n : Nat) (s : State) : State :=
  let s := discardStale n s
  let given := headRecord n s
  let s := dequeue n s
  if s.start.state = .starting then s
  else resense { s with drivers := Vector.ofFn (driverBoundary n given s) }

/-! ### Refresh (R137) -/

/-- A driver at the expiry of its refresh timer: the timer runs on for 25,000 µs and the fallback is sent with the count of
the last boundary frame (R137). -/
def driverRefresh (s : State) (l : Fin 4) : Driver :=
  let d := s.drivers[l]
  match d.refresh with
  | none => d
  | some _ =>
    let d := { d with refresh := some 25000 }
    let (kind, levels) := fallback s l
    if mayStart s l then d.start1 { kind := kind, count := d.lastCount, levels := levels } else d

/-- The refresh timers expire: REFRESHES counts one when at least one link sends a refresh frame (R137). -/
def refreshExpire (s : State) : State :=
  let sends := anyLink (fun l => s.drivers[l].refresh.isSome && mayStart s l)
  let s := { s with drivers := Vector.ofFn (driverRefresh s) }
  resense (if sends then bump .refreshes s else s)

/-- REFRESH_EXPIRY (R137). -/
def execRefreshExpiry (s : State) : Answered :=
  onEvent (fun s => if anyLink (fun l => s.drivers[l].refresh.isSome) then refreshExpire s else s) s

/-! ### The link frame on its link (R135, R136) -/

/-- What a driver puts on its link: the line break and bits of the link frame being sent; none while the link rests (R135, R136, R138). -/
def linkSent (s : State) (l : Fin 4) : Option (List LinkSymbol) := s.drivers[l].sending.map linkFrameSent


/-- A driver at the end of its link frame: a frame that waits starts, when the driver may still start one (R136). It starts with the
kind and levels chosen at its boundary or refresh, also where the hold list has changed while it waited: the model's choice
(DESIGN CHOICE, log entry 20), for R133 also has every link that transmits while the list is not empty send its safe level. -/
def Driver.frameEnd (may : Bool) (d : Driver) : Driver :=
  { d with sending := if may then d.waiting else none, waiting := none }

/-- LINK_FRAME_END (R136). A link that is then no longer driven reads its SHORT and OPEN senses healthy (R140). -/
def execLinkFrameEnd (l : Fin 4) (s : State) : Answered :=
  onEvent
    (fun s =>
      match s.drivers[l].sending with
      | none => s
      | some _ =>
        resense { s with drivers := s.drivers.set l (s.drivers[l].frameEnd (mayStart s l)) }) s

end Sys2Proof.Machine
end

