-- ==== Sys2Proof/Machine/Calendar.lean ====
section
/-!
DEFINITION. The Calendar Unit (02_the_calendar.md): recomputes, selection, firings, correction notices, time-valid, and the
SCHEDULE commands.
-/

namespace Sys2Proof.Machine

/-! ### Selection (R40) -/

/-- The active curfew among the open entries: lowest ceiling, then lowest id (R40). -/
def selectCurfew (entries : List Entry) : Option (Nat × Nat × Nat) :=
  entries.foldl
    (fun best e =>
      match e.kind, e.windowEnd with
      | .curfew ceiling exempt, some _ =>
        match best with
        | some (_, c, _) => if ceiling < c then some (e.id, ceiling, exempt) else best
        | none => some (e.id, ceiling, exempt)
      | _, _ => best) none

/-- The active base look among the open entries, with its priority: highest priority, then lowest id (R40). -/
def selectBasePriority (entries : List Entry) : Option (Nat × Nat × Levels) :=
  entries.foldl
    (fun best e =>
      match e.kind, e.windowEnd with
      | .base priority levels, some _ =>
        match best with
        | some (_, p, _) => if p < priority then some (e.id, priority, levels) else best
        | none => some (e.id, priority, levels)
      | _, _ => best) none

/-- The active base look among the open entries (R40). -/
def selectBase (entries : List Entry) : Option (Nat × Levels) :=
  (selectBasePriority entries).map (fun b => (b.1, b.2.2))

/-- The selection is made and handed to the Frame Mixer, which is asked to flush when what it is handed has changed (R40). -/
def selectWindows (s : State) : State :=
  let curfew := selectCurfew s.cal.entries
  let base := selectBase s.cal.entries
  let curfew' := curfew.map (·.2)
  let base' := base.map (·.2)
  let changed := curfew' != s.mixer.curfew || base' != s.mixer.base
  askFlushIf changed
    { s with cal := { s.cal with curfew := curfew, base := base }
             mixer := { s.mixer with curfew := curfew', base := base' } }

/-! ### Recomputes (R33, R34) -/

/-- The table of entries is replaced. -/
def setEntries (es : List Entry) (s : State) : State := { s with cal := { s.cal with entries := es } }

/-- An entry recomputed against the present state (R33, R39). -/
def recomputeEntry (s : State) (e : Entry) : Entry :=
  e.recompute s.cal.dusk s.cal.seasons s.time.timeValid (secondNow s)

/-- The entries that satisfy a test are recomputed (R34). -/
def recomputeWhere (q : Entry → Bool) (s : State) : State :=
  setEntries (s.cal.entries.map (fun e => if q e then recomputeEntry s e else e)) s

/-- Every entry is recomputed and the selection made (R34, R40). -/
def recomputeAll (s : State) : State := selectWindows (recomputeWhere (fun _ => true) s)

/-! ### Time-valid (R3, R36) -/

/-- The time-valid flag takes a value; a change is written to retained memory (R3) and the Calendar Unit acts on it (R36). -/
def setTimeValid (v : Bool) (s : State) : State :=
  if s.time.timeValid = v then s
  else
    let s := { s with time := { s.time with timeValid := v }, backup := { s.backup with timeValid := v, intact := true } }
    recomputeAll s

/-! ### Firings (R35, R37) -/

/-- The show request of a SHOW entry fired at instant `t` (R35). -/
def requestOf (e : Entry) (t : Nat) : Option Request :=
  match e.kind with
  | .playShow n p m k =>
    let tag := t * 40 + 80
    some { showNo := n, priority := p, tag := tag, anchor := tag,
           endFrame := if e.duration = 0 then none else some (tag + e.duration * 40), mode := m, passes := k,
           origin := .calendar e.id }
  | _ => none

/-- A SHOW entry's firing at instant `t`, counted by `c`, reaches the Instance Manager (R35, R37, R51). -/
def fire (c : Counter) (t : Nat) (e : Entry) (s : State) : State :=
  match requestOf e t with
  | some q => takeCalendarRequest q (bump c s)
  | none => s

/-- The entries due at whole second `t`: enabled, with next-fire its frame (R35, R38). -/
def dueEntries (t : Nat) (s : State) : List Entry :=
  s.cal.entries.filter (fun e => e.enabled && e.nextFire == some (t * 40))

/-- A CURFEW or BASE entry opens at instant `t`: its window end becomes the later of the present one and that of this
firing (R38). -/
def openWindow (t : Nat) (e : Entry) : Entry :=
  let fin := (t + e.duration) * 40
  { e with windowEnd := some (match e.windowEnd with | some w => max w fin | none => fin) }

/-- A window whose end is at or before the frame of second `t` closes (R38). -/
def closeWindow (t : Nat) (e : Entry) : Entry :=
  match e.windowEnd with
  | some w => if w ≤ t * 40 then { e with windowEnd := none } else e
  | none => e

/-- An entry due at whole second `t` is recomputed and its window opens (R33, R38). The look-back of that recompute ends at the current
standard day (R39) and does not find a CLOCK firing of the civil day after it: the window that R38 opens stands beside what it finds,
unless the time has been stepped out of it: the model's choice (DESIGN CHOICE, log entry 15). -/
def actWindow (t : Nat) (s : State) (e : Entry) : Entry :=
  let r := recomputeEntry s e
  if t ≤ secondNow s ∧ secondNow s < t + r.duration then openWindow t r else r

/-- The windows due at whole second `t` open and their entries are recomputed (R33, R34, R38), ended ones close, and the
selection is made again (R38, R40). Recomputes and closings look at the current second, which is `t` but where the discipline event
of the same second has stepped the time (log entry 15). -/
def windowsAt (t : Nat) (due : List Nat) (s : State) : State :=
  let opened := s.cal.entries.map (fun e => if due.contains e.id && !e.isShow then actWindow t s e else e)
  selectWindows (setEntries (opened.map (closeWindow (secondNow s))) s)

/-- The SHOW entries due at whole second `t` fire in ascending id and are recomputed (R35). -/
def showsAt (t : Nat) (due : List Entry) (s : State) : State :=
  let s := (due.filter Entry.isShow).foldl (fun s e => fire .showFirings t e s) s
  recomputeWhere (fun e => e.isShow && due.any (fun d => d.id == e.id)) s

/-- The Calendar Unit's work at whole second `t` with the entries due at it (R34, R35, R38). While time-valid is clear it does
none (R36). -/
def calendarSecond (t : Nat) (due : List Entry) (s : State) : State :=
  if s.time.timeValid then
    let s := showsAt t due s
    let s := windowsAt t (due.map (·.id)) s
    if t % 86400 = 0 then selectWindows (recomputeWhere (fun e => e.nextFire.isNone) s) else s
  else s

/-! ### Correction notices (R37) -/

/-- The kinds of correction notice (R4). -/
inductive NoticeKind
  | stepForward | stepBackward | hold
deriving DecidableEq, Repr

/-- The instants of an enabled SHOW entry among the seconds after `before` up to `now`, both current seconds (R37). -/
def skippedInstants (s : State) (before now : Nat) (e : Entry) : List Nat :=
  if e.enabled && e.isShow then
    (firingInstants s.cal.dusk s.cal.seasons e ((before / 86400 : Nat) - 1) (now / 86400 - before / 86400 + 3)).filter
      (fun t => before < t && t ≤ now)
  else []

/-- The skipped firings in ascending instant, and at one instant in ascending id (R37). -/
def skippedFirings (s : State) (before now : Nat) : List (Nat × Entry) :=
  sortByKey (·.1) (s.cal.entries.flatMap (fun e => (skippedInstants s before now e).map (fun t => (t, e))))

/-- A skipped firing is judged by its lateness: at most 60 s late it fires, else it is missed (R37). -/
def judgeSkipped (s : State) (f : Nat × Entry) : State :=
  if towerUs s ≤ f.1 * 1000000 + 60000000 then fire .lateFirings f.1 f.2 s else bump .missedFirings s

/-- The Calendar Unit acts on a correction notice; `before` is the current second before the correction (R37). -/
def calendarNotice (kind : NoticeKind) (before : Nat) (s : State) : State :=
  if s.time.timeValid then
    recomputeAll
      (match kind with
       | .stepForward => (skippedFirings s before (secondNow s)).foldl judgeSkipped s
       | .stepBackward | .hold => s)
  else s

/-! ### SCHEDULE frames (R41 to R45) -/

/-- An accepted SCHEDULE frame: retained memory is written with its marker (R45, R176) and RETAIN LOST is cleared (R176). -/
def noteAccepted (s : State) : State :=
  { s with backup := { s.backup with intact := true }, start := { s.start with retainLost := false } }

/-- The outcome of a SCHEDULE frame is counted or noted (R41, R45). -/
def settleSchedule (v : Verdict) (s : State) : State :=
  if v = .accepted then noteAccepted s else bump .scheduleRefused s

/-- A SCHEDULE frame of subcode `sub` is taken: its effect, and its RESULT (R41). -/
def onSchedule (sender : LineNumber) (target : Byte) (sub subject : Nat) (effect : State → Verdict × State)
    (s : State) : Answered :=
  onFrameStarted sender 6 sub
    (fun s =>
      if concerns target s then
        let (v, s) := effect s
        answerResult sender target 6 sub v subject (settleSchedule v s)
      else s) s

/-- An entry takes its place in ascending id, replacing one of the same id (R26, R42). -/
def insertEntry (e : Entry) : List Entry → List Entry
  | [] => [e]
  | g :: gs => if g.id < e.id then g :: insertEntry e gs else if g.id = e.id then e :: gs else e :: g :: gs

/-- What an entry keeps across a write of the same kind: skip list, levels and ceiling (R42). -/
def keepExtras (old new : Entry) : Entry :=
  match old.kind, new.kind with
  | .playShow _ _ _ _, .playShow _ _ _ _ => { new with skips := old.skips }
  | .curfew ceiling _, .curfew _ exempt => { new with skips := old.skips, kind := .curfew ceiling exempt }
  | .base _ levels, .base priority _ => { new with skips := old.skips, kind := .base priority levels }
  | _, _ => new

/-- The entry of an id. -/
def entryAt (s : State) (id : Nat) : Option Entry := s.cal.entries.find? (fun e => e.id == id)

/-- An ENTRY WRITE is taken (R42). -/
def entryWrite (f : EntryImage) (s : State) : Verdict × State :=
  match entryOf f with
  | none => (.invalid, s)
  | some new =>
    match entryAt s new.id with
    | some old =>
      (.accepted, selectWindows (setEntries (insertEntry (recomputeEntry s (keepExtras old new)) s.cal.entries) s))
    | none =>
      if s.cal.entries.length < 96 then
        (.accepted, selectWindows (setEntries (insertEntry (recomputeEntry s new) s.cal.entries) s))
      else (.full, s)

/-- ENTRY_WRITE (R42). -/
def execEntryWrite (sender : LineNumber) (target : Byte) (f : EntryImage) (s : State) : Answered :=
  onSchedule sender target 1 f.id.toNat (entryWrite f) s

/-- An entry takes the fields of an ENTRY EXTRA that belong to its kind (R43). -/
def takeExtras (f : ExtraImage) (skips : List Nat) (e : Entry) : Entry :=
  { e with skips := skips
           kind := match e.kind with
             | .playShow n p m k => .playShow n p m k
             | .curfew _ exempt => .curfew f.ceiling.toNat exempt
             | .base p _ => .base p (unpackLevels f.levels.toNat) }

/-- An ENTRY EXTRA is taken (R43). -/
def entryExtra (f : ExtraImage) (s : State) : Verdict × State :=
  match entryAt s f.id.toNat with
  | none => (.unknown, s)
  | some old =>
    match skipsOf f with
    | none => (.invalid, s)
    | some skips =>
      (.accepted, selectWindows (setEntries (insertEntry (recomputeEntry s (takeExtras f skips old)) s.cal.entries) s))

/-- ENTRY_EXTRA (R43). -/
def execEntryExtra (sender : LineNumber) (target : Byte) (f : ExtraImage) (s : State) : Answered :=
  onSchedule sender target 2 f.id.toNat (entryExtra f) s

/-- An ENTRY DELETE is taken (R44). -/
def entryDelete (id : Nat) (s : State) : Verdict × State :=
  match entryAt s id with
  | none => (.unknown, s)
  | some _ => (.accepted, selectWindows (setEntries (s.cal.entries.filter (fun e => e.id != id)) s))

/-- ENTRY_DELETE (R44). -/
def execEntryDelete (sender : LineNumber) (target : Byte) (id : BitVec 16) (s : State) : Answered :=
  onSchedule sender target 3 id.toNat (entryDelete id.toNat) s

/-- CALENDAR_CLEAR (R44). -/
def execCalendarClear (sender : LineNumber) (target : Byte) (s : State) : Answered :=
  onSchedule sender target 4 0 (fun s => (.accepted, selectWindows (setEntries [] s))) s

/-- A value takes its place in the dusk table by ascending index, replacing the one there (R29). -/
def setDusk (index value : Nat) : List (Nat × Nat) → List (Nat × Nat)
  | [] => [(index, value)]
  | e :: es =>
    if e.1 < index then e :: setDusk index value es
    else if e.1 = index then (index, value) :: es else (index, value) :: e :: es

/-- The indices and values of a DUSK BLOCK that would be written (R29). -/
def duskWrites (first : Nat) (values : Vector (BitVec 16) 8) : List (Nat × Nat) :=
  (values.toList.zipIdx.map (fun (v, i) => (first + i, v.toNat))).filter (fun e => e.1 ≤ 366)

/-- A DUSK BLOCK is taken (R29). -/
def duskBlock (first : Nat) (values : Vector (BitVec 16) 8) (s : State) : Verdict × State :=
  let writes := duskWrites first values
  if 1 ≤ first ∧ first ≤ 366 ∧ writes.all (fun e => e.2 ≤ 1439) then
    (.accepted,
      recomputeAll { s with cal := { s.cal with dusk := writes.foldl (fun t e => setDusk e.1 e.2 t) s.cal.dusk } })
  else (.invalid, s)

/-- DUSK_BLOCK (R29). -/
def execDuskBlock (sender : LineNumber) (target : Byte) (first : BitVec 16) (values : Vector (BitVec 16) 8)
    (s : State) : Answered :=
  onSchedule sender target 5 0 (duskBlock first.toNat values) s

/-- A transition takes its place by ascending instant, replacing the one at its instant (R30). -/
def insertSeason (w : Season) : List Season → List Season
  | [] => [w]
  | v :: vs => if v.instant < w.instant then v :: insertSeason w vs
               else if v.instant = w.instant then w :: vs else w :: v :: vs

/-- A SEASON WRITE is taken (R30). -/
def seasonWrite (instant : Nat) (offset : Int) (s : State) : Verdict × State :=
  if 52596000 ≤ instant ∨ offset < -120 ∨ 120 < offset then (.invalid, s)
  else if s.cal.seasons.length < 16 ∨ s.cal.seasons.any (fun w => w.instant == instant) then
    (.accepted,
      recomputeAll
        { s with cal := { s.cal with seasons := insertSeason { instant := instant, offset := offset } s.cal.seasons } })
  else (.full, s)

/-- SEASON_WRITE (R30). -/
def execSeasonWrite (sender : LineNumber) (target : Byte) (t : BitVec 32) (offset : Byte) (s : State) : Answered :=
  onSchedule sender target 6 0 (seasonWrite t.toNat (signedByte offset)) s

/-- SEASON_CLEAR (R30). -/
def execSeasonClear (sender : LineNumber) (target : Byte) (s : State) : Answered :=
  onSchedule sender target 7 0
    (fun s => (.accepted, recomputeAll { s with cal := { s.cal with seasons := [] } })) s

end Sys2Proof.Machine
end

