-- ==== Sys2Proof/Machine/Contacts.lean ====
section
/-!
DEFINITION. Safety Hold and the Contact Inputs (09_safety_hold_and_contact_inputs.md): the hold list, the own hold, the
inputs, and the commands INPUT_CHANGE, DEBOUNCE_EXPIRY, RESEND_EXPIRY, SAFETY_SET, SAFETY_CLEAR and SAFETY_CLEAR_ALL.
-/

namespace Sys2Proof.Machine

/-! ### The hold list (R154, R158) -/

/-- A number joins a list in ascending order, without duplicates (R154). -/
def insertNat (n : Nat) : List Nat → List Nat
  | [] => [n]
  | m :: ms => if m < n then m :: insertNat n ms else if m = n then m :: ms else n :: m :: ms

/-- The hold list takes a value; a change between empty and not empty is reported to the players and the Frame Mixer is
asked to flush (R158). -/
def setHoldList (list : List Nat) (s : State) : State :=
  let s' := { s with safety := { s.safety with holdList := list } }
  if s.safety.holdList = [] ∧ list ≠ [] then askFlush (suspendPlayers (bump .safetyHolds s'))
  else if s.safety.holdList ≠ [] ∧ list = [] then askFlush (resumePlayers s')
  else s'

/-- A number joins the hold list (R154). -/
def addHold (n : Nat) (s : State) : State := setHoldList (insertNat n s.safety.holdList) s

/-- A number leaves the hold list (R154). -/
def removeHold (n : Nat) (s : State) : State := setHoldList (s.safety.holdList.filter (fun m => m != n)) s

/-- A SAFETY frame of subcode 1 SET or 2 CLEAR is queued (R155). -/
def sendSafety (sub : Nat) (s : State) : State := send (newFrame 0 [byteOf sub]) s

/-- The re-send timer is set (R155). -/
def setResend (t : Option Nat) (s : State) : State := { s with safety := { s.safety with resend := t } }

/-- On a station numbered 1 to 63 a SAFETY SET is queued and the re-send timer starts (R155, R157). -/
def sendSet (s : State) : State := if s.start.number = 0 then s else setResend (some 2000000) (sendSafety 1 s)

/-! ### The own hold (R155) -/

/-- Some input of function SAFETY is ACTIVE (R155). -/
def anySafetyActive (s : State) : Bool :=
  (List.finRange 8).any (fun i => functionOf s i == .safety && s.inputs[i].state == .active)

/-- The own hold begins, when it is not active (R155). -/
def beginOwnHold (s : State) : State :=
  if s.safety.ownHold then s
  else sendSet (addHold s.start.number { s with safety := { s.safety with ownHold := true } })

/-- The own hold ends, when no SAFETY input is ACTIVE (R155). Where the list empties with it, the MARK frames of the players that
resume are queued before the SAFETY CLEAR: the model's choice (DESIGN CHOICE, log entry 36). -/
def endOwnHold (s : State) : State :=
  if s.safety.ownHold && !anySafetyActive s then
    sendSafety 2 (removeHold s.start.number { s with safety := { s.safety with ownHold := false, resend := none } })
  else s

/-- An INACTIVE settle of a SAFETY input (R155). -/
def settleInactive (s : State) : State := if s.safety.ownHold then s else sendSafety 2 s

/-! ### GO and STOP ALL (R159, R160) -/

/-- A GO contact is activated (R159). -/
def raiseGo (s : State) : State :=
  let release := frameNow s
  let s := bump .goRaised s
  send (newFrame 3 (markData 0 0 0 release)) (if isRunning s then offerGo release s else s)

/-- A STOP ALL contact is activated (R160). -/
def raiseStopAll (s : State) : State := contactStopAll (bump .stopAllRaised s)

/-! ### Inputs (R153) -/

/-- The raw reading of an input at a voltage, given the reading before (R153). -/
def readVoltage (millivolts : Nat) (before : Bool) : Bool :=
  if millivolts < 800 then true else if 2000 < millivolts then false else before

/-- A reading is active in raw terms when it agrees with the sense (R153). -/
def rawActive (sense : InputSense) (closed : Bool) : Bool :=
  match sense with
  | .activeOpen => !closed
  | .activeClosed | .unknown => closed

/-- The debounced state of a raw state. -/
def debouncedOf (active : Bool) : Debounced := if active then .active else .inactive

/-- An input takes its raw reading: while UNSETTLED the debounce timer restarts at each change; afterwards it runs while
the raw state differs from the debounced state (R153). -/
def Input.read (sense : InputSense) (i : Input) : Input :=
  let closed := readVoltage i.millivolts i.closed
  let timer :=
    match i.state with
    | .unsettled => if closed = i.closed then some (i.timer.getD 20000) else some 20000
    | st => if debouncedOf (rawActive sense closed) = st then none else some (i.timer.getD 20000)
  { i with closed := closed, timer := timer }

/-- An input is read (R153). -/
def readInput (i : Fin 8) (s : State) : State := { s with inputs := s.inputs.set i (s.inputs[i].read (senseOf s i)) }

/-- INPUT_CHANGE (R153). The voltage is the world's and is kept while nothing is sensed. -/
def execInputChange (i : Fin 8) (millivolts : Nat) (s : State) : Answered :=
  let s := { s with inputs := s.inputs.set i { s.inputs[i] with millivolts := millivolts } }
  .next (if started s then readInput i s else s)

/-- A settle reaches the block that the input's function names (R153). -/
def onSettle (f : InputFunction) (active : Bool) (s : State) : State :=
  match f with
  | .safety => if active then beginOwnHold s else settleInactive s
  | .noFunction | .go | .stopAll | .unknown => s

/-- An activation reaches the block that the input's function names (R153). -/
def onActivation (f : InputFunction) (s : State) : State :=
  match f with
  | .safety => beginOwnHold (bump .activations s)
  | .go => raiseGo (bump .activations s)
  | .stopAll => raiseStopAll (bump .activations s)
  | .noFunction | .unknown => s

/-- A release reaches the block that the input's function names (R153). -/
def onRelease (f : InputFunction) (s : State) : State :=
  match f with
  | .safety => endOwnHold s
  | .noFunction | .go | .stopAll | .unknown => s

/-- A debounce timer runs out (R153). -/
def debounce (i : Fin 8) (s : State) : State :=
  let x := s.inputs[i]
  match x.timer with
  | none => s
  | some _ =>
    let active := rawActive (senseOf s i) x.closed
    let s := { s with inputs := s.inputs.set i { x with state := debouncedOf active, timer := none } }
    match x.state with
    | .unsettled => onSettle (functionOf s i) active s
    | .active | .inactive => if active then onActivation (functionOf s i) s else onRelease (functionOf s i) s

/-- DEBOUNCE_EXPIRY (R153). -/
def execDebounceExpiry (i : Fin 8) (s : State) : Answered := onEvent (fun s => servePort (debounce i s)) s

/-- The re-send timer runs out (R155). -/
def resendExpire (s : State) : State :=
  match s.safety.resend with
  | none => s
  | some _ => if s.safety.ownHold then sendSet s else setResend none s

/-- RESEND_EXPIRY (R155). -/
def execResendExpiry (s : State) : Answered := onEvent resendExpire s

/-! ### SAFETY frames (R156, R157) -/

/-- A SAFETY SET or SAFETY CLEAR, of subcode `sub`, is taken in every start state; one whose sender is 0 or the own number is discarded (R156). -/
def onSafety (sender : LineNumber) (sub : Nat) (effect : Nat → State → State) (s : State) : Answered :=
  onFrame sender 0 sub
    (fun s =>
      if sender.toNat = 0 ∨ sender.toNat = s.start.number then bump .safetyDiscarded s
      else servePort (effect sender.toNat s)) s

/-- SAFETY_SET (R156). -/
def execSafetySet (sender : LineNumber) (s : State) : Answered := onSafety sender 1 addHold s

/-- SAFETY_CLEAR (R156). -/
def execSafetyClear (sender : LineNumber) (s : State) : Answered := onSafety sender 2 removeHold s

/-- A CLEAR ALL is taken: its outcome and its effect (R157). -/
def clearAll (sender : LineNumber) (s : State) : Verdict × State :=
  if s.time.peers.any (fun p => p.number == sender.toNat) then (.invalid, bump .clearAllRefused s)
  else
    let s := bump .clearAllTaken s
    let s := setHoldList (if s.safety.ownHold then s.safety.holdList.filter (fun m => m == s.start.number) else []) s
    (.accepted, if s.safety.ownHold then sendSet s else s)

/-- SAFETY_CLEAR_ALL (R157). -/
def execSafetyClearAll (sender : LineNumber) (target : Byte) (s : State) : Answered :=
  onFrameStarted sender 0 3
    (fun s =>
      if concerns target s then
        let (v, s) := clearAll sender s
        servePort (answerResult sender target 0 3 v 0 s)
      else s) s

end Sys2Proof.Machine
end

