-- ==== Sys2Proof/Machine/Library.lean ====
section
/-!
DEFINITION. The Show Memory Controller (06_show_library_and_show_memory.md): the show check, the LIBRARY commands, the
completion of each unit of port work, and the rebuild of the directory.
-/

namespace Sys2Proof.Machine

/-! ### The show check (R115) -/

/-- Some cue and the cue stored after it satisfy a test. -/
def anyAdjacent (q : Cue → Cue → Bool) : List Cue → Bool
  | a :: b :: rest => q a b || anyAdjacent q (b :: rest)
  | _ => false

/-- A cue's zones are outside what R115 admits, for a header's zone span. -/
def badZones (h : HeaderFields) (c : Cue) : Bool :=
  match c.action with
  | .set | .fade | .sweepUp | .sweepDown =>
    c.zoneLow == 0 || c.zoneHigh < c.zoneLow || c.zoneLow < h.low || h.high < c.zoneHigh
  | _ => false

/-- A MARK cue's parameter is no mark number (R115). -/
def badMark (c : Cue) : Bool :=
  match c.action with
  | .mark => c.param == 0 || 255 < c.param
  | _ => false

/-- A SWEEP cue reaches past the show's length (R115). -/
def badReach (h : HeaderFields) (c : Cue) : Bool :=
  match c.action with
  | .sweepUp | .sweepDown => h.length < c.time + (c.pace * (c.zoneHigh - c.zoneLow)) / 4
  | _ => false

/-- A cue other than END lies past the length or past 1,439,999 (R115). -/
def badTime (h : HeaderFields) (c : Cue) : Bool := c.action != .endShow && (h.length < c.time || 1439999 < c.time)

/-- The cues do not end in one END at the length (R115). -/
def badEnd (h : HeaderFields) (cs : List Cue) : Bool :=
  match cs.getLast? with
  | some c => c.action != .endShow || c.time != h.length || cs.dropLast.any (fun d => d.action == .endShow)
  | none => true

/-- The tests of R115 in order, over the tag's show number and N, the header, the cues and the check computed over the cue
blocks; each with whether it fails. -/
def showTests (showNo blocks : Nat) (h : HeaderFields) (cs : List Cue) (check : Nat) : List (ShowFault × Bool) :=
  [(.showNumber, h.showNo != showNo), (.cueCount, h.cues + 2 != blocks), (.length, h.length == 0 || 1440000 < h.length),
   (.span, h.low == 0 || h.high == 0 || h.high < h.low), (.showCheck, h.check != check),
   (.action, cs.any (fun c => c.action == .other)), (.track, cs.any (fun c => 3 < c.track)),
   (.order, anyAdjacent (fun a b => b.time < a.time) cs), (.time, cs.any (badTime h)), (.zones, cs.any (badZones h)),
   (.markNumber, cs.any badMark), (.sweepReach, cs.any (badReach h)), (.endCue, badEnd h cs)]

/-- The first test that fails (R115). -/
def firstFault (tests : List (ShowFault × Bool)) : Option ShowFault := (tests.find? (·.2)).map (·.1)

/-- The cue blocks of a slot in index order: blocks 2 to N - 1 (R115). -/
def cueBlocks (f : FlashSlot) (blocks : Nat) : List Block := (List.range (blocks - 2)).map (fun i => readBlock f (i + 2))

/-- The first failed test of a show in flash, none when it passes (R115). -/
def showFault (f : FlashSlot) (showNo blocks : Nat) : Option ShowFault :=
  let bs := cueBlocks f blocks
  firstFault
    (showTests showNo blocks (headerOfBlock (readBlock f 0)) (bs.zipIdx.map (fun (b, i) => cueOfBlock i b))
      (crcBytes (bs.flatMap blockBytes)).toNat)

/-- The header copy of a show in flash (R113). -/
def headerCopy (f : FlashSlot) : ShowHeader :=
  let h := headerOfBlock (readBlock f 0)
  { length := h.length, attack := h.attack, release := h.release, low := h.low, high := h.high }

/-! ### The directory, the queue and the lists -/

/-- A directory entry is set. -/
def setDir (i : Fin 32) (d : SlotState) (s : State) : State := { s with lib := { s.lib with dir := s.lib.dir.set i d } }

/-- The flash contents of a slot are set. -/
def setFlash (i : Fin 32) (f : FlashSlot) (s : State) : State := { s with flash := s.flash.set i f }

/-- The queued blocks of a show are removed from the write queue (R118, R122). -/
def dropQueued (showNo : Nat) (s : State) : State :=
  { s with lib := { s.lib with queue := s.lib.queue.filter (fun b => b.showNo != showNo) } }

/-- A block write or sector erase in progress for a slot no longer counts for what asked for it (R119, R121). -/
def withdrawUnit (i : Fin 32) (s : State) : State :=
  { s with lib := { s.lib with port :=
    match s.lib.port with
    | some (.blockWrite j b live) => some (.blockWrite j b (live && j != i))
    | some (.sectorErase j k live) => some (.sectorErase j k (live && j != i))
    | u => u } }

/-- The slot's tag write is in progress (R119). -/
def tagWriting (i : Fin 32) (s : State) : Bool :=
  match s.lib.port with
  | some (.tagWrite j _ _) => j == i
  | _ => false

/-- A slot joins the end of the erase list with its five sectors to be erased (R118). -/
def pushErase (i : Fin 32) (s : State) : State :=
  { s with lib := { s.lib with erase := s.lib.erase ++ [{ slot := i, erased := 0 }] } }

/-- A slot leaves the erase list (R119). -/
def dropErase (i : Fin 32) (s : State) : State :=
  { s with lib := { s.lib with erase := s.lib.erase.filter (fun e => e.slot != i) } }

/-- The erased sectors of a slot in the erase list are set. -/
def setErased (i : Fin 32) (k : Nat) (s : State) : State :=
  { s with lib := { s.lib with
      erase := s.lib.erase.map (fun e => if e.slot = i then { e with erased := k } else e) } }

/-- A dead-mark write is asked for a slot's tag (R122). -/
def askDeadMark (i : Fin 32) (s : State) : State :=
  { s with lib := { s.lib with deadMarks := s.lib.deadMarks ++ [i] } }

/-! ### LIBRARY frames (R117 to R122) -/

/-- A LIBRARY frame of subcode `sub` is taken: its effect, its refusal counted, and its RESULT (R117). -/
def onLibrary (sender : LineNumber) (target : Byte) (sub subject : Nat) (effect : State → Verdict × State)
    (s : State) : Answered :=
  onFrameStarted sender 7 sub
    (fun s =>
      if concerns target s then
        let (v, s) := effect s
        servePort (answerResult sender target 7 sub v subject (if v = .accepted then s else bump .libraryRefused s))
      else s) s

/-- The lowest-numbered EMPTY slot (R118). -/
def emptySlot (s : State) : Option (Fin 32) := (List.finRange 32).find? (fun i => slotShow s.lib.dir[i] == none)

/-- A slot that holds the show in LOADING, COMPLETE or INVALID is begun again (R118). -/
def beginAgain (i : Fin 32) (showNo blocks : Nat) (s : State) : State :=
  pushErase i (setDir i (.erasing showNo blocks) (withdrawUnit i (dropQueued showNo s)))

/-- An ERASING slot is begun with a new N; its erase starts again when its tag write is in progress (R118, R119). -/
def beginErasing (i : Fin 32) (showNo blocks : Nat) (s : State) : State :=
  let s := setDir i (.erasing showNo blocks) (dropQueued showNo s)
  if tagWriting i s then setErased i 0 s else s

/-- A SHOW BEGIN is taken (R118). -/
def showBegin (showNo blocks : Nat) (s : State) : Verdict × State :=
  if showNo = 0 ∨ blocks < 3 ∨ 1024 < blocks then (.invalid, s)
  else
    match slotOf s showNo with
    | some i =>
      if 0 < inUse s showNo then (.inUse, s)
      else
        match s.lib.dir[i] with
        | .erasing _ _ => (.accepted, beginErasing i showNo blocks s)
        | .empty | .loading _ _ _ _ | .complete _ _ _ _ | .invalid _ _ _ _ => (.accepted, beginAgain i showNo blocks s)
    | none =>
      match emptySlot s with
      | some i => (.accepted, pushErase i (setDir i (.erasing showNo blocks) s))
      | none => (.full, s)

/-- SHOW_BEGIN (R118). -/
def execShowBegin (sender : LineNumber) (target showNo : Byte) (blocks : BitVec 16) (s : State) : Answered :=
  onLibrary sender target 1 showNo.toNat (showBegin showNo.toNat blocks.toNat) s

/-- N and the received-block set of the slot that holds a show in ERASING or LOADING (R120). -/
def loadOf (s : State) (showNo : Nat) : Option (Nat × List Nat) :=
  match slotOf s showNo with
  | some i =>
    match s.lib.dir[i] with
    | .erasing _ n => some (n, [])
    | .loading _ n received _ => some (n, received)
    | .empty | .complete _ _ _ _ | .invalid _ _ _ _ => none
  | none => none

/-- A SHOW BLOCK is judged and taken (R117, R120). -/
def showBlock (showNo index : Nat) (data : Block) (s : State) : Verdict × State :=
  if showNo = 0 then (.invalid, s)
  else
    match loadOf s showNo with
    | none => (.unknown, bump .blocksUnknown s)
    | some (n, received) =>
      if n ≤ index then (.invalid, bump .blocksOutOfRange s)
      else if received.contains index || s.lib.queue.any (fun b => b.showNo == showNo && b.index == index) then
        (.accepted, bump .blocksDuplicate s)
      else if 8 ≤ s.lib.queue.length then (.full, bump .blocksDropped s)
      else
        (.accepted,
          { s with lib := { s.lib with
              queue := s.lib.queue ++ [{ showNo := showNo, index := index, data := data }] } })

/-- SHOW_BLOCK (R120). -/
def execShowBlock (sender : LineNumber) (target showNo : Byte) (index : BitVec 16) (data : Block) (s : State) : Answered :=
  onLibrary sender target 2 index.toNat (showBlock showNo.toNat index.toNat data) s

/-- An ERASING slot is deleted; the tag of a write in progress is marked dead after it (R119, R122). -/
def deleteErasing (i : Fin 32) (showNo : Nat) (s : State) : State :=
  let written := tagWriting i s
  let s := setDir i .empty (dropErase i (withdrawUnit i (dropQueued showNo s)))
  if written then askDeadMark i s else s

/-- A LOADING, COMPLETE or INVALID slot is deleted (R122). -/
def deleteTagged (i : Fin 32) (showNo : Nat) (s : State) : State :=
  askDeadMark i (setDir i .empty (withdrawUnit i (dropQueued showNo s)))

/-- A SHOW DELETE is taken (R122). -/
def showDelete (showNo : Nat) (s : State) : Verdict × State :=
  if showNo = 0 then (.invalid, s)
  else
    match slotOf s showNo with
    | none => (.unknown, s)
    | some i =>
      if 0 < inUse s showNo then (.inUse, s)
      else
        match s.lib.dir[i] with
        | .erasing _ _ => (.accepted, deleteErasing i showNo s)
        | .empty | .loading _ _ _ _ | .complete _ _ _ _ | .invalid _ _ _ _ => (.accepted, deleteTagged i showNo s)

/-- SHOW_DELETE (R122). -/
def execShowDelete (sender : LineNumber) (target showNo : Byte) (s : State) : Answered :=
  onLibrary sender target 3 showNo.toNat (showDelete showNo.toNat) s

/-! ### What a unit of port work leaves in flash (R114) -/

/-- A block takes its position among those that are not blank, by ascending index (R114). -/
def insertBlock (index : Nat) (b : Block) : List (Nat × Block) → List (Nat × Block)
  | [] => [(index, b)]
  | e :: es =>
    if e.1 < index then e :: insertBlock index b es
    else if e.1 = index then (index, b) :: es else (index, b) :: e :: es

/-- The 16 bytes of a block are written at its position (R121). -/
def FlashSlot.writeData (index : Nat) (b : Block) (f : FlashSlot) : FlashSlot :=
  { f with data := insertBlock index b f.data }

/-- A block's presence mark is written (R114, R121). -/
def FlashSlot.writeMark (index : Nat) (f : FlashSlot) : FlashSlot := { f with marks := insertNat index f.marks }

/-- A sector is erased: 0 the tag sector, 1 to 4 the data sectors of 256 blocks each (R114, R119). -/
def FlashSlot.eraseSector (sector : Nat) (f : FlashSlot) : FlashSlot :=
  if sector = 0 then { f with tag := none, marks := [] }
  else { f with data := f.data.filter (fun e => e.1 / 256 + 1 != sector) }

/-- A live tag is written (R119). -/
def FlashSlot.writeTag (showNo blocks : Nat) (f : FlashSlot) : FlashSlot :=
  { f with tag := some { showNo := showNo, blocks := blocks, dead := false } }

/-- The dead mark of a slot's tag is written (R122). -/
def FlashSlot.writeDead (f : FlashSlot) : FlashSlot := { f with tag := f.tag.map (fun t => { t with dead := true }) }

/-- A unit of port work that has run to its end leaves this in flash (R114). -/
def PortUnit.written (u : PortUnit) (s : State) : State :=
  match u with
  | .refill _ _ => s
  | .checkRead _ _ => s
  | .deadMark i => setFlash i s.flash[i].writeDead s
  | .tagWrite i n b => setFlash i (s.flash[i].writeTag n b) s
  | .blockWrite i b _ => setFlash i ((s.flash[i].writeData b.index b.data).writeMark b.index) s
  | .sectorErase i k _ => setFlash i (s.flash[i].eraseSector k) s

/-! ### Completions (R116, R119, R121, R122, R125) -/

/-- The end of a refill whose unit was not withdrawn: the cues join the window, a catch-up that waited goes on, and a
starved player takes every item up to its target at once and asks for a flush (R79, R90, R125), staying starved while the
window still falls short (log entry 29); a player that is raised past a limit it has answered at asks for a flush, in
catch-up as well (R89). -/
def refillDone (p : Fin 4) (s : State) : State :=
  match s.rows[p] with
  | none => s
  | some r =>
    let filled := { r with ctx := refillContext s r }
    let s := setRow p (some filled) s
    if r.ctx.catchUp.isSome then runCatchUp p (askFlushIf (limitRose r filled) s)
    else
      match r.ctx.starved, r.phase with
      | true, .running | true, .releasing _ _ =>
        let (h, s) := advanceAll p s
        askFlush (noteStarved p h s)
      | _, _ => askFlushIf (limitRose r filled) s

/-- The unit the port is doing ends: the port is free and its flash contents are written. -/
def endUnit (u : PortUnit) (s : State) : State := u.written (setPort none s)

/-- REFILL_COMPLETE (R125). -/
def execRefillComplete (s : State) : Answered :=
  onEvent
    (fun s =>
      match s.lib.port with
      | some (.refill p live) =>
        let s := endUnit (.refill p live) s
        servePort (if live then refillDone p s else s)
      | _ => s) s

/-- SECTOR_ERASE_COMPLETE (R119). -/
def execSectorEraseComplete (s : State) : Answered :=
  onEvent
    (fun s =>
      match s.lib.port with
      | some (.sectorErase i k live) =>
        let s := endUnit (.sectorErase i k live) s
        servePort (if live then setErased i (k + 1) s else s)
      | _ => s) s

/-- The slot at the head of the erase list, whose five sectors are erased, becomes LOADING at the end of its tag write
(R119). A slot whose five sectors are to be erased again, and one that was deleted, does not. -/
def tagDone (i : Fin 32) (s : State) : State :=
  match s.lib.erase.find? (fun e => e.slot == i) with
  | some e =>
    match s.lib.dir[i] with
    | .erasing n b => if 5 ≤ e.erased then setDir i (.loading n b [] none) (dropErase i s) else s
    | _ => s
  | none => s

/-- TAG_WRITE_COMPLETE (R119). -/
def execTagWriteComplete (s : State) : Answered :=
  onEvent
    (fun s =>
      match s.lib.port with
      | some (.tagWrite i n b) => servePort (tagDone i (endUnit (.tagWrite i n b) s))
      | _ => s) s

/-- DEAD_MARK_WRITE_COMPLETE (R122). -/
def execDeadMarkWriteComplete (s : State) : Answered :=
  onEvent
    (fun s =>
      match s.lib.port with
      | some (.deadMark i) =>
        let s := endUnit (.deadMark i) s
        servePort { s with lib := { s.lib with deadMarks := s.lib.deadMarks.erase i } }
      | _ => s) s

/-- A written block leaves the queue and joins its slot's received-block set; a full set begins the check (R116, R121). -/
def blockDone (i : Fin 32) (b : QueuedBlock) (s : State) : State :=
  let s := { s with lib := { s.lib with
    queue := s.lib.queue.filter (fun q => !(q.showNo == b.showNo && q.index == b.index)) } }
  match s.lib.dir[i] with
  | .loading n blocks received check =>
    let received := insertNat b.index received
    setDir i (.loading n blocks received (if received.length = blocks then some 0 else check)) s
  | _ => s

/-- BLOCK_WRITE_COMPLETE (R121). -/
def execBlockWriteComplete (s : State) : Answered :=
  onEvent
    (fun s =>
      match s.lib.port with
      | some (.blockWrite i b live) =>
        let s := endUnit (.blockWrite i b live) s
        servePort (if live then blockDone i b s else s)
      | _ => s) s

/-- The check of a slot has read its last block: COMPLETE or INVALID (R116). -/
def finishCheck (i : Fin 32) (showNo blocks : Nat) (received : List Nat) (s : State) : State :=
  match showFault s.flash[i] showNo blocks with
  | none => bump .showsLoaded (setDir i (.complete showNo blocks received (headerCopy s.flash[i])) s)
  | some f => bump .showsInvalid (setDir i (.invalid showNo blocks received f) s)

/-- A block read of a check ends: the next block follows, or the check ends (R116). -/
def checkDone (i : Fin 32) (index : Nat) (s : State) : State :=
  match s.lib.dir[i] with
  | .loading n blocks received (some k) =>
    if k = index then
      if index + 1 < blocks then setDir i (.loading n blocks received (some (index + 1))) s
      else finishCheck i n blocks received s
    else s
  | _ => s

/-- A check is under way in some slot (R126, R177). -/
def checking (s : State) : Bool := (checkWork s).isSome

/-! ### The rebuild (R126) -/

/-- A directory entry rebuilt from a slot's flash contents, and whether a test of R126 left it a torn block. -/
def rebuiltOf (f : FlashSlot) (held : List Nat) : SlotState :=
  match f.tag with
  | none => .empty
  | some t =>
    if t.dead || t.showNo == 0 || t.blocks < 3 || 1024 < t.blocks || held.contains t.showNo then .empty
    else
      let received := f.marks.filter (fun k => k < t.blocks)
      if received.length = t.blocks then .loading t.showNo t.blocks received (some 0)
      else if f.data.any (fun e => !f.marks.contains e.1) then .invalid t.showNo t.blocks received .tornBlock
      else .loading t.showNo t.blocks received none

/-- The shows that the slots of a directory hold. -/
def heldShows (dir : Vector SlotState 32) : List Nat := dir.toList.filterMap slotShow

/-- A slot's live tag, with N in range, names a show that a lower-numbered slot already holds (R126). -/
def isDuplicate (f : FlashSlot) (held : List Nat) : Bool :=
  match f.tag with
  | some t => !t.dead && decide (3 ≤ t.blocks ∧ t.blocks ≤ 1024) && held.contains t.showNo
  | none => false

/-- One slot is rebuilt: its entry, the dead mark of a duplicate, and a torn block counted (R126). -/
def rebuildSlot (s : State) (i : Fin 32) : State :=
  let held := heldShows s.lib.dir
  let d := rebuiltOf s.flash[i] held
  let s' := setDir i d s
  let s' := if isDuplicate s.flash[i] held then setFlash i s.flash[i].writeDead s' else s'
  match d with
  | .invalid _ _ _ _ => bump .showsInvalid s'
  | _ => s'

/-- A unit of port work in progress at a warm restart runs to its end before the rebuild reads the memory (R126). -/
def finishUnit (s : State) : State :=
  match s.lib.port with
  | some u => endUnit u s
  | none => s

/-- The directory is rebuilt from flash, slot 0 first; the checks of the full slots then take the port (R126). -/
def rebuild (s : State) : State :=
  arbitrate ((List.finRange 32).foldl rebuildSlot { s with lib := Library.start })

end Sys2Proof.Machine
end

