-- ==== Sys2Proof/Machine/Time.lean ====
section
/-!
DEFINITION. The Time Unit (01_tower_time.md): peers and their lock filter, the discipline event, corrections and their
notices, the reference input, the beacon, and the commands HOLD_END, REFERENCE_PULSE, REFERENCE_MESSAGE,
REFERENCE_MESSAGE_TIMEOUT, REFERENCE_SILENCE, BEACON, TIME_SET and BACKUP_SECOND.
-/

namespace Sys2Proof.Machine

/-- The Time Unit's state is changed. -/
def modTime (f : TimeUnit → TimeUnit) (s : State) : State := { s with time := f s.time }

/-! ### Peers (R6 to R11) -/

/-- The propagation delay between two positions, in µs (R8). -/
def delayUs (a b : Nat) : Nat := ((a - b + (b - a)) * 5 + 500) / 1000

/-- A sample passes through the lock filter of an entry; the flag says whether it was consistent (R9). -/
def Peer.filter (x : Int) (p : Peer) : Peer × Bool :=
  match p.previous with
  | none => ({ p with previous := some x }, false)
  | some q =>
    let p' := { p with previous := some x }
    if (x - q).natAbs ≤ 400 then
      match p.lock with
      | .locked => ({ p' with consistentRun := 6, inconsistentRun := 0 }, true)
      | .seeking | .lapsed =>
        ({ p' with consistentRun := p.consistentRun + 1, inconsistentRun := 0
                   lock := if 6 ≤ p.consistentRun + 1 then .locked else .seeking }, true)
    else
      match p.lock with
      | .locked =>
        if 12 ≤ p.inconsistentRun + 1 then
          ({ p' with lock := .seeking, consistentRun := 0, inconsistentRun := 0, sample := none }, false)
        else ({ p' with inconsistentRun := p.inconsistentRun + 1 }, false)
      | .seeking | .lapsed =>
        ({ p' with consistentRun := 0, inconsistentRun := min 12 (p.inconsistentRun + 1) }, false)

/-- A usable sample becomes the entry's sample this period (R10). -/
def Peer.keep (x : Int) (consistent ownValid : Bool) (p : Peer) : Peer :=
  if p.lock = .locked ∧ consistent = true ∧ (p.body.timeValid = true ∨ ownValid = false) then
    { p with sample := some { value := x, hops := p.body.hops.toNat, timeValid := p.body.timeValid,
                              stepFlag := p.body.stepFlag } }
  else p

/-- A beacon is taken into its entry: content and arrival, a LAPSED entry is SEEKING again, and, while no hold is in force,
its sample `stamp + delay - arrival` (R7). A position above 1,023, which R8 does not admit and no rule discards, goes into
the delay as it is: the model's choice (DESIGN CHOICE, log entry 35). -/
def Peer.hear (held ownValid : Bool) (ownPosition arrival stamp : Nat) (body : BeaconBody) (p : Peer) : Peer :=
  let p := { p with body := body, lastArrival := arrival }
  let p := if p.lock = .lapsed then
      { p with lock := .seeking, consistentRun := 0, inconsistentRun := 0, previous := none, sample := none }
    else p
  if held then p
  else
    let x : Int := (stamp : Int) + delayUs ownPosition body.position.toNat - arrival
    let (p, consistent) := p.filter x
    p.keep x consistent ownValid

/-- A new entry (R6). -/
def newPeer (number : Nat) (body : BeaconBody) (arrival : Nat) : Peer :=
  { number := number, body := body, lock := .seeking, consistentRun := 0, inconsistentRun := 0, previous := none,
    sample := none, lastArrival := arrival }

/-- An entry takes its place in ascending station number (R6). -/
def insertPeer (p : Peer) : List Peer → List Peer
  | [] => [p]
  | q :: qs => if q.number < p.number then q :: insertPeer p qs else p :: q :: qs

/-- A beacon of a peer is taken (R6, R7). -/
def hearBeacon (number arrival stamp : Nat) (body : BeaconBody) (s : State) : State :=
  let hear := Peer.hear s.time.hold.isSome s.time.timeValid (positionOf s) arrival stamp body
  if s.time.peers.any (fun p => p.number == number) then
    modTime (fun t => { t with peers := t.peers.map (fun p => if p.number = number then hear p else p) }) s
  else if s.time.peers.length < 48 then
    modTime (fun t => { t with peers := insertPeer (hear (newPeer number body arrival)) t.peers }) s
  else bump .peerTableFull s

/-- BEACON (R7). Beacons are not taken while STARTING (R19), nor from sender 0 or the own number (R6). -/
def execBeacon (sender : LineNumber) (arrival : Nat) (stamp : BitVec 56) (body : BeaconBody) (s : State) : Answered :=
  onFrameStarted sender 1 0
    (fun s =>
      if sender.toNat = 0 ∨ sender.toNat = s.start.number then s
      else hearBeacon sender.toNat arrival stamp.toNat body s) s

/-- Silence is measured: entries silent over 16 s are removed, those silent over 3 s become LAPSED (R11). -/
def measureSilence (now : Nat) (peers : List Peer) : List Peer :=
  (peers.filter (fun p => (now : Int) - p.lastArrival ≤ 16000000)).map (fun p =>
    if 3000000 < (now : Int) - p.lastArrival ∧ p.lock ≠ .lapsed then { p with lock := .lapsed, sample := none } else p)

/-! ### Corrections (R4, R5) -/

/-- A correction is made on an entry's samples, and, for a step, on its last arrival (R4). -/
def Peer.correct (amount : Int) (held : Bool) (p : Peer) : Peer :=
  { p with previous := p.previous.map (· - amount), sample := p.sample.map (fun x => { x with value := x.value - amount })
           lastArrival := if held then p.lastArrival else p.lastArrival + amount }

/-- The Time Unit's own part of a correction: samples, reference offset, last arrivals, step flag countdown (R4). -/
def correctTime (amount : Int) (held : Bool) (t : TimeUnit) : TimeUnit :=
  { t with peers := t.peers.map (Peer.correct amount held), ref := { t.ref with offset := t.ref.offset.map (· - amount) }
           stepFlags := 8 }

/-- The players take a correction notice (R94). -/
def playersNotice (kind : NoticeKind) (s : State) : State :=
  match kind with
  | .stepForward => (List.finRange 4).foldl (fun s p => playerStepForward p s) s
  | .stepBackward => (List.finRange 4).foldl (fun s p => playerStepBackward p s) s
  | .hold => s

/-- A correction notice is given to the Calendar Unit, the Instance Manager, the players and the Output Queue, which is
flushed (R4, R37, R71, R94). `before` is the current second before the correction. -/
def giveNotice (kind : NoticeKind) (amount : Int) (before : Nat) (s : State) : State :=
  let s := calendarNotice kind before s
  let s := if kind = .hold then s else shiftLastHeard amount s
  askFlush (playersNotice kind s)

/-- The counter takes a value it lands on: no boundary and no whole second arises there (R1). -/
def landOn (ns : Nat) (t : TimeUnit) : TimeUnit :=
  { t with ns := ns, lastBoundary := ns / 25000000, lastSecond := ns / 1000000000 }

/-- A step or direct set of `amount` µs that lands on `ns` (R4). -/
def stepTo (ns : Nat) (amount : Int) (s : State) : State :=
  let before := secondNow s
  let kind := if 0 < amount then NoticeKind.stepForward else .stepBackward
  giveNotice kind amount before (bump .steps (modTime (fun t => correctTime amount false (landOn ns t)) s))

/-- A step of `amount` µs (R4). A backward step of more than the tower time held lands on 0: the model's choice (DESIGN CHOICE,
log entry 14). -/
def stepBy (amount : Int) (s : State) : State := stepTo ((s.time.ns : Int) + amount * 1000).toNat amount s

/-- A hold for the magnitude of a negative amount (R4, R5). -/
def holdBy (amount : Int) (s : State) : State :=
  giveNotice .hold amount (secondNow s)
    (bump .holds
      (modTime (fun t => { correctTime amount true t with hold := some amount.natAbs, slew := 0 }) s))

/-- HOLD_END (R5). -/
def execHoldEnd (s : State) : Answered := onEvent (modTime (fun t => { t with hold := none })) s

/-! ### The discipline event (R12 to R16) -/

/-- What an event has to act on: the consensus, the own hops, the peer samples selected, whether the own sample of 0 was
added, and whether the consensus is the reference's (R12). -/
structure Consensus where
  c : Int
  hops : Nat
  samples : List PeriodSample
  ownAdded : Bool
  reference : Bool
deriving DecidableEq, Repr

/-- Insertion into an ascending list of integers. -/
def insertInt (a : Int) : List Int → List Int
  | [] => [a]
  | b :: bs => if a ≤ b then a :: b :: bs else b :: insertInt a bs

/-- The lower median: the list sorted ascending, at index (count - 1) / 2 (R12). -/
def lowerMedian (xs : List Int) : Int :=
  ((xs.foldl (fun acc a => insertInt a acc) [])[(xs.length - 1) / 2]?).getD 0

/-- The samples gathered at an event (R12). -/
def gathered (t : TimeUnit) : List PeriodSample :=
  (t.peers.filterMap (·.sample)).filter (fun x => !t.timeValid || x.timeValid)

/-- The consensus over gathered samples, which are not none (R12). -/
def consensusOf (xs : List PeriodSample) : Consensus :=
  let h := (smallest (xs.map (·.hops))).getD 15
  let sel := xs.filter (fun x => x.hops == h)
  let own := decide (h = 15)
  { c := lowerMedian (sel.map (·.value) ++ (if own then [0] else [])), hops := min 15 (h + 1), samples := sel,
    ownAdded := own, reference := false }

/-- The consensus of an event; none for a HOLDOVER event (R12, R18). -/
def consensus (t : TimeUnit) : Option Consensus :=
  if t.ref.state = .valid then
    some { c := t.ref.offset.getD 0, hops := 0, samples := [], ownAdded := false, reference := true }
  else
    match gathered t with
    | [] => none
    | xs => some (consensusOf xs)

/-- The values of a selection, the own sample of 0 included when it was added. -/
def Consensus.values (k : Consensus) : List Int := k.samples.map (·.value) ++ (if k.ownAdded then [0] else [])

/-- Some two values lie more than 5,000 µs apart (R13). -/
def spreadWide (xs : List Int) : Bool := xs.any (fun a => xs.any (fun b => 5000 < a - b))

/-- A chosen coast condition holds; none is tested with a reference (R13). -/
def coastHolds (set : CoastSet) (lineFault : Bool) (k : Consensus) : Bool :=
  !k.reference &&
    ((set.spread && spreadWide k.values) || (set.solo && k.samples.length == 1) || (set.line && lineFault) ||
      (set.steppedPeer && k.samples.any (·.stepFlag)))

/-- The rate trim is clamped (R2). -/
def clampTrim (x : Int) : Int := clampInt (-200000) 200000 x

/-- TRACK's slew (R16). -/
def slewBy (c : Int) (t : TimeUnit) : TimeUnit :=
  { t with discipline := .track, slew := clampInt (-500) 500 (c.tdiv 4), trim := clampTrim (t.trim + (c * 1000).tdiv 256) }

/-- ACQUIRE's correction for a magnitude of c above 2,000 µs (R15). -/
def acquire (c : Int) (s : State) : State :=
  let s := modTime (fun t => { t with discipline := .acquire, slew := 0 }) s
  if 0 < c then stepBy c s
  else if -60000000 ≤ c then holdBy c s
  else stepBy c (setTimeValid false s)

/-- The threshold of |c| above which a state's rule is ACQUIRE's: 50,000 µs in TRACK, 2,000 µs otherwise (R13 to R16). -/
def acquireThreshold : Discipline → Nat
  | .track => 50000
  | .acquire | .coast | .holdover => 2000

/-- The state's rule acts on the consensus (R13 to R16), and time-valid is set as R12 states. -/
def actOn (k : Consensus) (s : State) : State :=
  let s := modTime (fun t => { t with hops := k.hops, holdoverRun := 0 }) s
  if coastHolds (coastOf s) s.line.fault k then modTime (fun t => { t with discipline := .coast, slew := 0 }) s
  else
    let s := if acquireThreshold s.time.discipline < k.c.natAbs then acquire k.c s else modTime (slewBy k.c) s
    if k.reference || k.samples.any (·.timeValid) then setTimeValid true s else s

/-- A HOLDOVER event (R14). -/
def holdoverEvent (t : TimeUnit) : TimeUnit :=
  { t with discipline := .holdover, slew := 0, holdoverRun := t.holdoverRun + 1,
           hops := if 60 ≤ t.holdoverRun + 1 then 15 else t.hops }

/-- Every sample this period is discarded (R10, R12). -/
def discardSamples (t : TimeUnit) : TimeUnit := { t with peers := t.peers.map (fun p => { p with sample := none }) }

/-- The discipline event (R12). -/
def disciplineEvent (s : State) : State :=
  let s := modTime (fun t => { t with peers := measureSilence (towerUs s) t.peers }) s
  modTime discardSamples
    (match consensus s.time with
     | some k => actOn k s
     | none => modTime holdoverEvent s)

/-! ### The reference input (R17, R18) -/

/-- The reference input's state is changed. -/
def modRef (f : Reference → Reference) (s : State) : State := modTime (fun t => { t with ref := f t.ref }) s

/-- A waiting pulse fails a test and starts no run (R17). -/
def Reference.fail (r : Reference) : Reference :=
  { r with run := 0, waiting := none, silence := none, state := if r.state = .valid then .absent else r.state }

/-- A second within 2000-01-01 to 2099-12-31 (R17). -/
def secondInRange (x : Int) : Bool := decide (0 ≤ x ∧ x < 3155760000)

/-- A pulse with stamp `stamp` named second `x` is accepted into a run of length `run` (R17, R18). -/
def Reference.accept (stamp run : Nat) (x : Int) (r : Reference) : Reference :=
  { r with run := run, lastSecond := x, offset := some (x * 1000000 - stamp), waiting := none }

/-- The message of a waiting pulse names second `x`, in range (R17, R18). -/
def Reference.named (stamp : Nat) (x : Int) (r : Reference) : Reference :=
  if r.run = 0 ∨ x = r.lastSecond + 1 then
    let r' := r.accept stamp (r.run + 1) x
    if r.state = .valid ∨ 3 ≤ r.run + 1 then { r' with state := .valid, silence := some 2000000 } else r'
  else { r.accept stamp 1 x with state := if r.state = .valid then .absent else r.state, silence := none }

/-- REFERENCE_PULSE (R17). A pulse during a hold is not taken; one that follows a pulse still without its message ends that
one's wait. -/
def execReferencePulse (s : State) : Answered :=
  onEvent
    (fun s =>
      if s.time.ref.state = .notFitted ∨ s.time.hold.isSome then s
      else
        modRef (fun r => { (if r.waiting.isSome then r.fail else r) with
                            waiting := some { stamp := towerUs s, left := 500000 } }) s) s

/-- REFERENCE_MESSAGE (R17, R18). A message that comes when no pulse waits, later than 500 ms after its pulse among them, is for no
pulse and does nothing: the model's choice (DESIGN CHOICE, log entry 13), for R17 could be read to start a run of one with that
pulse. -/
def execReferenceMessage (second : Option Int) (s : State) : Answered :=
  onEvent
    (fun s =>
      match s.time.ref.waiting, second with
      | some w, some x => modRef (if secondInRange x then Reference.named w.stamp x else Reference.fail) s
      | some _, none => modRef Reference.fail s
      | none, _ => s) s

/-- REFERENCE_MESSAGE_TIMEOUT (R17): the pulse is one that has no message, which starts no run (log entry 13). -/
def execReferenceMessageTimeout (s : State) : Answered :=
  onEvent (fun s => if s.time.ref.waiting.isSome then modRef Reference.fail s else s) s

/-- REFERENCE_SILENCE (R17). The silence timer is suspended during a hold. -/
def execReferenceSilence (s : State) : Answered :=
  onEvent
    (fun s =>
      if s.time.ref.silence.isSome ∧ s.time.hold.isNone then
        modRef (fun r => { r with state := .absent, run := 0, silence := none }) s
      else s) s

/-! ### The beacon (R19) -/

/-- What the station's beacon carries after its stamp (R19). -/
def ownBeacon (s : State) : BeaconBody :=
  { hops := BitVec.ofNat 4 s.time.hops, discipline := s.time.discipline, timeValid := s.time.timeValid,
    stepFlag := s.time.stepFlags != 0, safetyFlag := s.safety.holdList != [], faults := faultSummary s,
    instances := byteOf (instanceCount s), position := BitVec.ofNat 16 (positionOf s) }

/-- The station's BEACON is queued (R19). -/
def queueBeacon (s : State) : State := sendBeacon (newFrame 1 (beaconData 0 (ownBeacon s))) s

/-! ### TIME SET (R21, R22) -/

/-- The first µs after 2099 (R21). -/
def timeSetLimit : Nat := 3155760000000000

/-- A TIME SET is taken: its outcome and its effect (R21, R22). A hold in force ends, and the difference is then measured
from the held counter. -/
def timeSet (arrival value : Nat) (s : State) : Verdict × State :=
  let arrival := if s.time.hold.isSome then towerUs s else arrival
  let s := modTime (fun t => { t with hold := none }) s
  let d : Int := (value : Int) - arrival
  if timeSetLimit ≤ value then (.invalid, bump .timeSetRefused s)
  else if s.time.hops = 0 ∧ s.time.ref.state = .valid then (.notNow, bump .timeSetRefused s)
  else if 0 < d then (.accepted, setTimeValid true (stepBy d s))
  else if d = 0 then (.accepted, setTimeValid true s)
  else if -2000000 ≤ d then (.accepted, setTimeValid true (holdBy d s))
  else if s.time.timeValid = false then (.accepted, setTimeValid true (stepTo (value * 1000) d s))
  else (.notNow, bump .timeSetRefused s)

/-- TIME_SET (R21). -/
def execTimeSet (sender : LineNumber) (target : Byte) (arrival : Nat) (value : BitVec 56) (s : State) : Answered :=
  onFrameStarted sender 4 5
    (fun s =>
      if concerns target s then
        let (v, s) := timeSet arrival value.toNat s
        servePort (answerResult sender target 4 5 v 0 s)
      else s) s

/-! ### The backup clock (R23) -/

/-- BACKUP_SECOND (R23). The Backup Clock counts on its own cell, with or without main power. -/
def execBackupSecond (s : State) : Answered :=
  .next { s with backup := { s.backup with seconds := s.backup.seconds + 1 } }

end Sys2Proof.Machine
end

