-- ==== Sys2Proof/Machine/Line.lean ====
section
/-!
DEFINITION. The sending side of the Line Interface (10.2 to 10.4): a frame starts, loses, contends or is sent; LINE FAULT; and
the commands LINE_IDLE, ARBITRATION_LOST, DATA_FIELD_CONTENTION and LINE_FAULT.
-/

namespace Sys2Proof.Machine

/-! ### Frames being sent (R163, R164) -/

/-- The Line Interface's state is changed. -/
def modLine (f : LineInterface → LineInterface) (s : State) : State := { s with line := f s.line }

/-- Some frame is being sent (R165). -/
def isSending (s : State) : Bool := s.line.tx.any (·.sending)

/-- The frame being sent (R165). -/
def sendingFrame (s : State) : Option TxFrame := s.line.tx.find? (·.sending)

/-- A BEACON's stamp is written at its start bit (R20). -/
def stampFrame (us : Nat) (f : TxFrame) : TxFrame :=
  if f.cls = 1 then { f with data := bytesBE 7 us ++ f.data.drop 7 } else f

/-- The head of the transmit queue starts on the line (R163). -/
def startHead (us : Nat) : List TxFrame → List TxFrame
  | [] => []
  | f :: fs => { stampFrame us f with sending := true } :: fs

/-- The frame being sent ends its attempt and keeps its place (R163, R164). -/
def endAttempt (q : List TxFrame) : List TxFrame := q.map (fun f => { f with sending := false })

/-- The line is idle: LINE FAULT is cleared, measuring begins again, and the head of the queue starts when none is being
sent; with none to start the line stays idle (R163, R168, R170). -/
def lineIdle (s : State) : State :=
  let tx := if s.start.number ≠ 0 ∧ isSending s = false then startHead (towerUs s) s.line.tx else s.line.tx
  modLine
    (fun l => { l with fault := false, sinceIdle := 0, tx := tx, wire := if tx.any (·.sending) then .busy else .idle }) s

/-- The line stands idle while the head of the transmit queue waits, so that it starts at the next bit time (R163). -/
def headWaits (s : State) : Bool :=
  s.line.wire == .idle && s.start.number != 0 && !s.line.tx.isEmpty && !isSending s

/-- What the station puts on the line: the bits of the frame being sent, under the station's own number (R162, R168). -/
def sentBits (s : State) : Option (List Bool) :=
  (sendingFrame s).map (fun f => lineFrameSent f.cls s.start.number f.data)

/-- The own attempt has been lost: the rest of the other's frame is received (R163, R164). -/
def listen (s : State) : State := modLine (fun l => { l with wire := if isSending s then .receiving else l.wire }) s

/-- LINE_IDLE (R163, R170). -/
def execLineIdle (s : State) : Answered := onEvent lineIdle s

/-- ARBITRATION_LOST (R163). -/
def execArbitrationLost (s : State) : Answered :=
  onEvent (fun s => modLine (fun l => { l with tx := endAttempt l.tx }) (listen s)) s

/-- The frame being sent meets a contention in its data field (R164). -/
def contend (f : TxFrame) (s : State) : State :=
  if f.contention + 1 < 3 then
    modLine
      (fun l => { l with
        tx := l.tx.map (fun g => if g.sending then { g with sending := false, contention := g.contention + 1 } else g) }) s
  else
    bump .contentionDrops (modLine (fun l => { l with tx := l.tx.filter (fun g => !g.sending), duplicate := true }) s)

/-- DATA_FIELD_CONTENTION (R164). -/
def execDataFieldContention (s : State) : Answered :=
  onEvent (fun s => match sendingFrame s with | some f => contend f (listen s) | none => s) s

/-- A frame that has been sent leaves the queue (R163). -/
def removeSent (s : State) : State := modLine (fun l => { l with tx := l.tx.filter (fun g => !g.sending) }) s

/-- A BEACON carries the step flag (R174). -/
def carriesStepFlag (f : TxFrame) : Bool := f.cls == 1 && ((f.data[8]?).getD 0).getLsbD 1

/-- A sent BEACON that carries the step flag reduces the step flag countdown by one (R20). At 0, which a second flagged BEACON can
find (R167), it stays 0: the model's choice (DESIGN CHOICE, log entry 37). -/
def noteBeaconSent (f : TxFrame) (s : State) : State :=
  if carriesStepFlag f then modTime (fun t => { t with stepFlags := t.stepFlags - 1 }) s else s

/-! ### LINE FAULT (R170) -/

/-- LINE_FAULT (R170): 100,000 µs have passed without an idle line, so the line does not stand idle. -/
def execLineFault (s : State) : Answered :=
  onEvent
    (fun s =>
      if s.line.fault then s
      else
        bump .lineFaults
          (modLine (fun l => { l with fault := true, wire := if l.wire = .idle then .busy else l.wire }) s)) s

end Sys2Proof.Machine
end

