-- ==== Sys2Proof/Machine/Start.lean ====
section
/-!
DEFINITION. The Start Controller's starts (11_start_up_and_station_reports.md): the boot record, retained memory, power start,
warm restart and leaving STARTING; the work of a tower frame boundary and of a whole second across the blocks; and the
commands POWER_START, RESTART_PIN_FALL, RESTART_PIN_RISE, RESTART, RESTART_TIMEOUT, MAIN_POWER_LOSS, FRAME_SENT,
CHECK_READ_COMPLETE, TOWER_FRAME_BOUNDARY and WHOLE_SECOND.
-/

namespace Sys2Proof.Machine

/-! ### The boot record (R95, R142, R175) -/

/-- The Start Controller's state is changed. -/
def modStart (f : StartController → StartController) (s : State) : State := { s with start := f s.start }

/-- The zone map passes its check (R175). -/
def zoneMapGood (zs : List ZoneBoot) : Bool :=
  decide (1 ≤ zs.length ∧ zs.length ≤ 128) && zs.all (fun z => z.tower != 0) &&
    decide (zs.map (·.tower)).Nodup && zs.all (fun z => decide (1 ≤ z.slots.length ∧ z.slots.length ≤ 4)) &&
    decide (zs.flatMap (·.slots)).Nodup

/-- Every class has a mode in its row of R142. -/
def modesGood (m : MonitorModes) : Bool :=
  [MonMode.latched, .retry, .warn, .off].contains m.short && [MonMode.latched, .retry, .warn, .off].contains m.openLine &&
    [MonMode.latched, .recover, .warn, .off].contains m.feedLow && [MonMode.warn, .off].contains m.hotWarn &&
    [MonMode.latched, .recover].contains m.hotShutdown

/-- Every input's function and sense codes name values of R153. -/
def inputsGood (xs : Vector InputBoot 8) : Bool :=
  xs.toList.all (fun i => i.function != .unknown && i.sense != .unknown)

/-- The record check computed over the fields, the cyclic check of the tower line (R162, R175). -/
def recordCheck (b : BootFields) : BitVec 16 := crcBytes (Config.bootBytes b)

/-- The checks of a boot record that was read, in order, each with whether it fails (R175). -/
def bootTests (b : BootRecord) : List (BootFault × Bool) :=
  [(.recordCheck, b.check != recordCheck b.toBootFields), (.zoneMap, !zoneMapGood b.zones), (.depth, b.depth < 2 || 8 < b.depth),
   (.modes, !modesGood b.modes), (.position, 1023 < b.position), (.inputs, !inputsGood b.inputs)]

/-- The configuration fault that boot memory gives, none when every check passes (R175). -/
def bootFault : BootImage → Option BootFault
  | none => some .noRecord
  | some b => ((bootTests b).find? (·.2)).map (·.1)

/-- The straps and the boot record are read (R175); the reference input is ABSENT when fitted (R24, R25). -/
def readBoot (straps : LineNumber) (image : BootImage) (s : State) : State :=
  let reason := bootFault image
  let boot := if reason.isSome then none else image
  let s := modStart (fun c => { c with straps := straps, image := image, number := straps.toNat, boot := boot
                                       reason := reason }) s
  modTime (fun t => { t with ref := Reference.start (if referenceFitted s then .absent else .notFitted) }) s

/-! ### Start values (R24, R25, R46, R100, R126, R139, R152, R161, R173) -/

/-- A link's senses at a start; the quantities sensed are the world's (R152). -/
def LinkMonitor.start (m : LinkMonitor) : LinkMonitor :=
  { m with short := Sense.start, openLine := Sense.start, feedLow := Sense.start }

/-- An input at a start: raw reading OPEN, UNSETTLED, timer stopped; the voltage is the world's (R161). -/
def Input.start (i : Input) : Input := { i with closed := false, state := .unsettled, timer := none }

/-- The derived fields of an entry at a start (R46, R47). -/
def Entry.underive (e : Entry) : Entry := { e with nextFire := none, windowEnd := none }

/-- The Time Unit's values that every start sets (R24, R25). -/
def TimeUnit.start (t : TimeUnit) : TimeUnit :=
  { t with slew := 0, hold := none, discipline := .acquire, stepFlags := 0, holdoverRun := 0, peers := []
           ref := Reference.start .notFitted }

/-- The Start Controller at the beginning of STARTING, before it has read the straps (R177). -/
def StartController.begin (c : StartController) : StartController :=
  { c with state := .starting, pinLow := false, number := 0, boot := none, reason := none, page := 0, restart := none }

/-- Every block at its start values, the values that R178 continues kept; a unit of port work in progress runs to its end
(R126). It ends here, at once and whole: in a restart held by the pin at the falling edge, so that no loss of power while the pin
is low can cut it: the model's choice (DESIGN CHOICE, log entry 26), for R126 says only that it ends before the rebuild reads
the memory. -/
def startBlocks (s : State) : State :=
  let s := finishUnit s
  { s with
    start := s.start.begin
    time := s.time.start
    cal := { s.cal with entries := s.cal.entries.map Entry.underive, curfew := none, base := none }
    lib := Library.start
    rows := Vector.replicate 4 none
    mixer := Mixer.start
    out := OutputQueue.start
    drivers := Vector.replicate 4 Driver.start
    mon := { s.mon with links := s.mon.links.map LinkMonitor.start, hotWarn := Sense.start, hotShutdown := Sense.start }
    safety := SafetyHold.start
    inputs := s.inputs.map Input.start
    line := LineInterface.start
    counters := Counters.zero }

/-! ### Leaving STARTING (R177) -/

/-- Every contact input is read (R153). -/
def readInputs (s : State) : State := (List.finRange 8).foldl (fun s i => readInput i s) s

/-- The station leaves STARTING for RUNNING or CONFIG FAULT, and the event is given to the Calendar Unit (R47), the Link
Drivers (R132), the Link Monitors (R140) and the Contact Inputs (R153). -/
def leaveStarting (s : State) : State :=
  let s := modStart (fun c => { c with state := if c.reason.isSome then .configFault else .running }) s
  readInputs (resense (setSafeFrames (recomputeAll s)))

/-- STARTING is left when the rebuild and its checks are done (R126, R177). -/
def settleStart (s : State) : State :=
  if s.start.state = .starting ∧ checking s = false then leaveStarting s else s

/-- The steps of STARTING from the reading of the straps on (R177). -/
def runStart (straps : LineNumber) (image : BootImage) (s : State) : State :=
  settleStart (rebuild (readBoot straps image s))

/-! ### Power start (R24, R46, R176) -/

/-- A power start that finds the intact marker good (R24, R46, R176). -/
def retainedGood (s : State) : State :=
  let s := modTime (fun t => { landOn (s.backup.seconds * 1000000000) t with fraction := 0, timeValid := s.backup.timeValid }) s
  modStart (fun c => { c with retainLost := false }) s

/-- A power start that finds the intact marker bad: the tables and time-valid are cleared, a good marker is written over the
emptied contents, and RETAIN LOST is set (R24, R46, R176). -/
def retainedBad (s : State) : State :=
  let s := modTime (fun t => { landOn 0 t with fraction := 0, timeValid := false }) s
  modStart (fun c => { c with retainLost := true })
    { s with backup := { seconds := 0, timeValid := false, intact := true }
             cal := { entries := [], dusk := [], seasons := [], curfew := none, base := none } }

/-- The check of retained memory; a backup cell that did not hold has lost its contents (R176). -/
def checkRetained (cellHeld : Bool) (s : State) : State :=
  let s := modTime (fun t => { t with trim := 0, hops := 15 }) s
  if cellHeld && s.backup.intact then retainedGood s else retainedBad s

/-- Main power is lost: volatile state is gone, and flash keeps what the unit of port work in progress had written (R126,
R176). -/
def losePower (cut : CutPoint) (s : State) : State :=
  let s :=
    match s.lib.port, cut with
    | some u, .whole => endUnit u s
    | some (.blockWrite i b _), .dataOnly => setFlash i (s.flash[i].writeData b.index b.data) s
    | _, _ => s
  modStart (fun c => { c with powered := false }) (startBlocks (setPort none s))

/-- MAIN_POWER_LOSS (R176). -/
def execMainPowerLoss (cut : CutPoint) (s : State) : Answered :=
  .next (if s.start.powered then losePower cut s else s)

/-- A power start (R24, R177). -/
def powerStart (straps : LineNumber) (image : BootImage) (cellHeld : Bool) (s : State) : State :=
  let s := if s.start.powered then losePower .nothing s else s
  runStart straps image (checkRetained cellHeld (modStart (fun c => { c with powered := true }) (startBlocks s)))

/-- POWER_START (R177). -/
def execPowerStart (straps : LineNumber) (image : BootImage) (cellHeld : Bool) (s : State) : Answered :=
  .next (powerStart straps image cellHeld s)

/-! ### Warm restart (R25, R178) -/

/-- A warm restart by command: the station goes through STARTING and reads the straps and boot memory again (R175, R178). What they
present to this reading is free (DESIGN CHOICE, log entry 25). -/
def warmRestart (s : State) : State :=
  let found := Config.presented s.start.readings
  runStart found.1 found.2 (modStart (fun c => { c with readings := c.readings + 1 }) (startBlocks s))

/-- RESTART_PIN_FALL (R178). -/
def execRestartPinFall (lowUs : Nat) (s : State) : Answered :=
  onEvent (fun s => if 10 ≤ lowUs then modStart (fun c => { c with pinLow := true }) (startBlocks s) else s) s

/-- RESTART_PIN_RISE (R178). -/
def execRestartPinRise (straps : LineNumber) (image : BootImage) (s : State) : Answered :=
  .next
    (if s.start.powered && s.start.pinLow then
       runStart straps image (modStart (fun c => { c with pinLow := false }) s)
     else s)

/-- A RESTART targeted at the station by its number queues its RESULT and arms the restart (R178). -/
def takeRestart (sender : LineNumber) (s : State) : State :=
  let s := send { newFrame 5 (resultData sender.toNat 4 6 .accepted 0) with restart := true } s
  modStart (fun c => { c with restart := some (c.restart.getD 100000) }) s

/-- RESTART (R178). -/
def execRestart (sender : LineNumber) (target : Byte) (s : State) : Answered :=
  onFrameStarted sender 4 6 (fun s => if targeted target s then takeRestart sender s else s) s

/-- RESTART_TIMEOUT (R178). -/
def execRestartTimeout (s : State) : Answered :=
  onEvent (fun s => if s.start.restart.isSome then warmRestart s else s) s

/-- FRAME_SENT (R163). The RESULT of a RESTART, once sent, begins the warm restart (R178). -/
def execFrameSent (s : State) : Answered :=
  onEvent
    (fun s =>
      match sendingFrame s with
      | none => s
      | some f =>
        let s := noteBeaconSent f (removeSent s)
        if f.restart then warmRestart s else s) s

/-- CHECK_READ_COMPLETE (R116, R126). -/
def execCheckReadComplete (s : State) : Answered :=
  onEvent
    (fun s =>
      match s.lib.port with
      | some (.checkRead i k) => servePort (settleStart (checkDone i k (endUnit (.checkRead i k) s)))
      | _ => s) s

/-! ### Tower frame boundary (R1) -/

/-- The tower frame whose boundary counting reaches next (R1). -/
def nextBoundary (s : State) : Nat := max (s.time.lastBoundary + 1) (frameNow s)

/-- Counting reaches the boundary of frame `n` (R1). -/
def reachBoundary (n : Nat) (s : State) : State :=
  modTime (fun t => { t with ns := max t.ns (n * 25000000), lastBoundary := n }) s

/-- The boundary of frame `n` at the players, the Instance Manager, the Output Queue and the Link Drivers (R1). -/
def boundaryWork (n : Nat) (s : State) : State := servePort (outputBoundary n (announcersBoundary n (playersBoundary n s)))

/-- TOWER_FRAME_BOUNDARY (R1). None arises during a hold (R5); while the restart pin is held low only the counter counts
(R178). -/
def execTowerFrameBoundary (s : State) : Answered :=
  .next
    (if s.start.powered && s.time.hold.isNone then
       let n := nextBoundary s
       let s := reachBoundary n s
       if s.start.pinLow then s else boundaryWork n s
     else s)

/-! ### Whole second (R1) -/

/-- The whole second that counting reaches next (R1). -/
def nextSecond (s : State) : Nat := max (s.time.lastSecond + 1) (secondNow s)

/-- Counting reaches whole second `t`, and the backup seconds counter is loaded (R1, R23). -/
def reachSecond (t : Nat) (s : State) : State :=
  let s := modTime (fun u => { u with ns := max u.ns (t * 1000000000), lastSecond := t }) s
  { s with backup := { s.backup with seconds := t } }

/-- The STATUS of whole second `t` (R179). -/
def queueStatus (t : Nat) (s : State) : State :=
  if s.start.number ≠ 0 ∧ t % 10 = s.start.number % 10 then
    modStart (fun c => { c with page := if c.page = 5 then 0 else c.page + 1 }) (send (newFrame 5 (statusData s)) s)
  else s

/-- The work of whole second `t` outside STARTING: the beacon, the discipline event, the calendar, STATUS (R19, R12, R35, R179). -/
def secondWork (t : Nat) (s : State) : State :=
  let due := dueEntries t s
  servePort (queueStatus t (calendarSecond t due (disciplineEvent (queueBeacon s))))

/-- WHOLE_SECOND (R1). None arises during a hold (R5); in STARTING only the backup clock takes it (R19, R47, R177). -/
def execWholeSecond (s : State) : Answered :=
  .next
    (if s.start.powered && s.time.hold.isNone then
       let t := nextSecond s
       let s := reachSecond t s
       if s.start.pinLow ∨ s.start.state = .starting then s else secondWork t s
     else s)

end Sys2Proof.Machine
end

