-- ==== Sys2Proof/Machine/Reports.lean ====
section
/-!
DEFINITION. Queries and replies (R180): the reply data of each item, the cutting into parts, and the QUERY commands. Fields
whose codes the manual does not give carry `Config.replyCode`, and fields with nothing to send `Config.replyAbsent`
(log entries 3 and 4).
-/

namespace Sys2Proof.Machine

open Sys2Proof.Config (replyCode replyAbsent)

/-! ### Fields of reply data -/

/-- A flag's number for `replyCode`. -/
def flagNo (b : Bool) : Nat := if b then 1 else 0

/-- A named value as one byte; the manual gives its name and not its code. -/
def coded (f : Config.ReplyField) (n : Nat) : List Byte := [replyCode f n]

/-- A flag as one byte. -/
def codedFlag (f : Config.ReplyField) (b : Bool) : List Byte := coded f (flagNo b)

/-- What `k` bytes carry for a field with nothing to send. -/
def absentBytes (f : Config.ReplyField) (k : Nat) : List Byte := bytesBE k (replyAbsent f)

/-- A number in `k` bytes; one that does not fit is carried as the manual leaves open. -/
def fitted (f : Config.ReplyField) (k n : Nat) : List Byte := if n < 256 ^ k then bytesBE k n else absentBytes f k

/-- A signed number in four bytes; an absent one, or one that does not fit, is carried as the manual leaves open. -/
def fittedSigned (f : Config.ReplyField) (n : Option Int) : List Byte :=
  match n with
  | some x => if -2147483648 ≤ x ∧ x ≤ 2147483647 then signedBE 4 x else absentBytes f 4
  | none => absentBytes f 4

/-- A frame number in five bytes, all ones when absent (R180). -/
def frameBytes (n : Option Nat) : List Byte := bytesBE 5 (n.getD 0xFFFFFFFFFF)

/-! ### Reply data (R180) -/

/-- STATUS PAGE: station byte, fault summary, the page's counters. -/
def statusPageData (page : Nat) (s : State) : List Byte := [stationByte s, faultSummary s] ++ pageCounters s page

/-- The number of a reference state for `replyCode`. -/
def refStateNo : RefState → Nat
  | .notFitted => 0 | .absent => 1 | .valid => 2

/-- TIME. -/
def timeData (s : State) : List Byte :=
  bytesBE 7 (towerUs s) ++ signedBE 4 s.time.trim ++ [byteOf s.time.hops, byteOf (disciplineCode s.time.discipline)] ++
    codedFlag .timeValid s.time.timeValid ++ [byteOf s.time.stepFlags] ++ fitted .holdoverRun 1 s.time.holdoverRun ++
    coded .referenceState (refStateNo s.time.ref.state) ++ fittedSigned .referenceOffset s.time.ref.offset

/-- The number of a lock state for `replyCode`. -/
def lockNo : Lock → Nat
  | .seeking => 0 | .locked => 1 | .lapsed => 2

/-- PEER; the previous sample is limited to the signed 32-bit range, 7FFFFFFFh when absent. Of the last beacon's bytes 7 to 12 the fields
of R174 are kept and sent back, and bits that belong to no field go back as 0 whatever the beacon heard had there: the model's
choice (DESIGN CHOICE, log entry 6). -/
def peerData (p : Peer) : List Byte :=
  coded .lockState (lockNo p.lock) ++ [byteOf p.consistentRun, byteOf p.inconsistentRun] ++
    signedBE 4 (match p.previous with | some x => clampInt (-2147483648) 2147483647 x | none => 0x7FFFFFFF) ++
    signedBE 7 p.lastArrival ++ beaconTail p.body

/-- The number of a player's state for `replyCode`: IDLE, ARMED, RUNNING, GATED, RELEASING, SUSPENDED. -/
def phaseNo : Phase → Nat
  | .armed => 1 | .running => 2 | .gated _ => 3 | .releasing _ _ => 4

/-- Origin kind and number. -/
def originBytes : Origin → List Byte
  | .calendar e => coded .originKind 0 ++ bytesBE 2 e
  | .console n => coded .originKind 1 ++ bytesBE 2 n
  | .peer n => coded .originKind 2 ++ bytesBE 2 n

/-- Release start and weight of a row. -/
def releaseBytes : Phase → List Byte
  | .releasing start weight => bytesBE 5 start ++ bytesBE 2 weight
  | .armed | .running | .gated _ => frameBytes none ++ absentBytes .releaseWeight 2

/-- INSTANCE, a row not in IDLE. -/
def rowData (r : Row) : List Byte :=
  coded .playerState (if r.suspended then 5 else phaseNo r.phase) ++
    (if r.suspended then coded .priorState (phaseNo r.phase) else absentBytes .priorState 1) ++
    [byteOf r.showNo, byteOf r.priority] ++ bytesBE 5 r.tag ++ bytesBE 5 r.anchor ++ frameBytes r.endFrame ++
    [byteOf (modeCode r.mode * 16 + r.passes)] ++ originBytes r.origin ++ codedFlag .announcer r.announcer ++
    signedBE 5 r.lastHeard ++ releaseBytes r.phase ++ signedBE 3 r.ctx.position ++ [byteOf r.marks.length] ++
    r.marks.flatMap (fun m => byteOf m.1 :: bytesBE 5 m.2)

/-- INSTANCE, a row in IDLE: frame numbers all ones, the announcer flag clear (R48), no marks, the rest absent. -/
def idleRowData : List Byte :=
  coded .playerState 0 ++ absentBytes .priorState 1 ++ absentBytes .instanceShow 1 ++ absentBytes .instancePriority 1 ++
    frameBytes none ++ frameBytes none ++ frameBytes none ++ absentBytes .modeAndPasses 1 ++ absentBytes .originKind 1 ++
    absentBytes .originNumber 2 ++ codedFlag .announcer false ++ frameBytes none ++ frameBytes none ++
    absentBytes .releaseWeight 2 ++ absentBytes .instancePosition 3 ++ [byteOf 0]

/-- INSTANCE. -/
def instanceData (r : Option Row) : List Byte :=
  match r with
  | some r => rowData r
  | none => idleRowData

/-- The number of a slot state for `replyCode`. -/
def slotNo : SlotState → Nat
  | .empty => 0 | .erasing _ _ => 1 | .loading _ _ _ _ => 2 | .complete _ _ _ _ => 3 | .invalid _ _ _ _ => 4

/-- The block count N of a slot. -/
def slotBlocks : SlotState → Option Nat
  | .empty => none
  | .erasing _ b => some b
  | .loading _ b _ _ => some b
  | .complete _ b _ _ => some b
  | .invalid _ b _ _ => some b

/-- The received-block set of a slot; empty in EMPTY and ERASING (R113). -/
def slotReceived : SlotState → List Nat
  | .empty => []
  | .erasing _ _ => []
  | .loading _ _ r _ => r
  | .complete _ _ r _ => r
  | .invalid _ _ r _ => r

/-- Validating: a slot in LOADING whose check is under way (R113). -/
def slotValidating : SlotState → Bool
  | .loading _ _ _ check => check.isSome
  | .empty | .erasing _ _ | .complete _ _ _ _ | .invalid _ _ _ _ => false

/-- The number of a fault for `replyCode`, in the order of R115. -/
def showFaultNo : ShowFault → Nat
  | .showNumber => 1 | .cueCount => 2 | .length => 3 | .span => 4 | .showCheck => 5 | .action => 6 | .track => 7
  | .order => 8 | .time => 9 | .zones => 10 | .markNumber => 11 | .sweepReach => 12 | .endCue => 13 | .tornBlock => 14

/-- The fault byte of a slot. -/
def slotFaultByte : SlotState → List Byte
  | .invalid _ _ _ f => coded .slotFault (showFaultNo f)
  | .empty | .erasing _ _ | .loading _ _ _ _ | .complete _ _ _ _ => absentBytes .slotFault 1

/-- SLOT. -/
def slotData (d : SlotState) (s : State) : List Byte :=
  coded .slotState (slotNo d) ++
    (match slotShow d with | some n => [byteOf n] | none => absentBytes .slotShow 1) ++
    (match slotBlocks d with | some b => bytesBE 2 b | none => absentBytes .slotBlocks 2) ++
    codedFlag .slotValidating (slotValidating d) ++ slotFaultByte d ++
    [byteOf (match slotShow d with | some n => inUse s n | none => 0)] ++ bytesBE 2 (slotReceived d).length

/-- RECEIVED SET: one bit per block index, index 0 in the highest bit of the first byte. -/
def receivedData (received : List Nat) : List Byte :=
  (List.range 128).map (fun i =>
    byteOf (((List.range 8).map (fun j => bitAt (received.contains (8 * i + j)) (7 - j))).sum))

/-- The eight bytes of a skip list, unused days 0. -/
def skipBytes (skips : List Nat) : List Byte := (List.range 4).flatMap (fun i => bytesBE 2 ((skips[i]?).getD 0))

/-- The levels of a BASE entry; 0 for the other kinds. -/
def EntryKind.levels : EntryKind → Levels
  | .base _ l => l
  | .playShow _ _ _ _ | .curfew _ _ => Levels.zero

/-- The ceiling of a CURFEW entry; 0 for the other kinds. -/
def EntryKind.ceiling : EntryKind → Nat
  | .curfew c _ => c
  | .playShow _ _ _ _ | .base _ _ => 0

/-- ENTRY. -/
def entryData (e : Entry) : List Byte :=
  entryBytes e ++ [byteOf e.skips.length] ++ skipBytes e.skips ++ packLevels e.kind.levels ++ bytesBE 2 e.kind.ceiling ++
    frameBytes e.nextFire ++ frameBytes e.windowEnd

/-- CALENDAR. -/
def calendarData (s : State) : List Byte :=
  [byteOf s.cal.entries.length, byteOf s.cal.seasons.length] ++ bytesBE 2 ((s.cal.curfew.map (·.1)).getD 0) ++
    bytesBE 2 ((s.cal.base.map (·.1)).getD 0)

/-- The cause set of a link as a number for `replyCode`: SHORT, OPEN, FEED LOW and HOT SHUTDOWN from bit 0. -/
def causeNo (s : State) (l : Fin 4) : Nat :=
  let m := s.mon.links[l]
  bitAt m.short.cause 0 + bitAt m.openLine.cause 1 + bitAt m.feedLow.cause 2 + bitAt s.mon.hotShutdown.cause 3

/-- LINK. -/
def linkData (l : Fin 4) (s : State) : List Byte :=
  let m := s.mon.links[l]
  let senses := [m.short, m.openLine, m.feedLow]
  codedFlag .linkEnable (linkEnabled s l) ++ coded .linkCauses (causeNo s l) ++
    senses.flatMap (fun x => codedFlag .linkCondition x.present) ++ senses.flatMap (fun x => codedFlag .linkFlag x.sticky) ++
    coded .retryRunning (bitAt m.short.retry.isSome 0 + bitAt m.openLine.retry.isSome 1) ++
    (if s.start.boot.isSome then bytesBE 2 (safeLevelOf s l) ++ bytesBE 3 (budgetOf s l)
     else absentBytes .safeLevel 2 ++ absentBytes .budget 3) ++
    codedFlag .hotState (stationHot s) ++ codedFlag .hotCondition s.mon.hotWarn.present ++
    codedFlag .hotCondition s.mon.hotShutdown.present ++ codedFlag .hotFlag s.mon.hotWarn.sticky ++
    codedFlag .hotFlag s.mon.hotShutdown.sticky

/-- HOLD LIST. -/
def holdListData (s : State) : List Byte := s.safety.holdList.map byteOf

/-- The number of a function for `replyCode`. -/
def functionNo : InputFunction → Nat
  | .noFunction => 0 | .go => 1 | .safety => 2 | .stopAll => 3 | .unknown => 4

/-- The number of a sense for `replyCode`. -/
def senseNo : InputSense → Nat
  | .activeClosed => 0 | .activeOpen => 1 | .unknown => 2

/-- The number of a debounced state for `replyCode`. -/
def debouncedNo : Debounced → Nat
  | .unsettled => 0 | .active => 1 | .inactive => 2

/-- INPUTS. -/
def inputsData (s : State) : List Byte :=
  (List.finRange 8).flatMap (fun i =>
    coded .inputFunction (functionNo (functionOf s i)) ++ coded .inputSense (senseNo (senseOf s i)) ++
      codedFlag .rawReading s.inputs[i].closed ++ coded .debouncedState (debouncedNo s.inputs[i].state))

/-- The number of a configuration fault reason for `replyCode`, 0 for none. -/
def reasonNo : Option BootFault → Nat
  | none => 0
  | some .noRecord => 1 | some .recordCheck => 2 | some .zoneMap => 3 | some .depth => 4 | some .modes => 5
  | some .position => 6 | some .inputs => 7

/-- The coast set as a number for `replyCode`: SPREAD, SOLO, LINE and STEPPED PEER from bit 0. -/
def coastNo (c : CoastSet) : Nat := bitAt c.spread 0 + bitAt c.solo 1 + bitAt c.line 2 + bitAt c.steppedPeer 3

/-- BOOT. -/
def bootData (s : State) : List Byte :=
  [byteOf s.start.number] ++ coded .faultReason (reasonNo s.start.reason) ++
    (if s.start.boot.isSome then [byteOf (depthOf s)] else absentBytes .depth 1) ++ bytesBE 2 (positionOf s) ++
    coded .coastSet (coastNo (coastOf s)) ++ codedFlag .referenceFitted (referenceFitted s) ++
    [byteOf (zonesOf s).length]

/-! ### Replies (R180) -/

/-- Reply data cut into parts of 18 bytes, the last part holding the rest. -/
def cutParts : Nat → List Byte → List (List Byte)
  | 0, d => [d]
  | fuel + 1, d => if d.length ≤ 18 then [d] else d.take 18 :: cutParts fuel (d.drop 18)

/-- The data of one REPLY (R174). -/
def replyFrame (sender : LineNumber) (item : Nat) (argument : BitVec 16) (last part : Nat) (data : List Byte) : List Byte :=
  [byteOf 3, byteOf sender.toNat, byteOf item] ++ bytesBE 2 argument.toNat ++ [byteOf (part * 16 + last)] ++ data

/-- The REPLYs of a query are queued in part order (R180). -/
def sendReplies (sender : LineNumber) (item : Nat) (argument : BitVec 16) (data : List Byte) (s : State) : State :=
  let parts := cutParts 15 data
  parts.zipIdx.foldl (fun s (d, i) => send (newFrame 5 (replyFrame sender item argument (parts.length - 1) i d)) s) s

/-- What a query comes to: reply data, or the verdict of its refusal (R180). -/
abbrev QueryAnswer := Except Verdict (List Byte)

/-- A query targeted at the station by its number is answered (R180). -/
def onQuery (sender : LineNumber) (target : Byte) (item : Nat) (argument : BitVec 16) (answer : State → QueryAnswer)
    (s : State) : Answered :=
  onFrameStarted sender 4 7
    (fun s =>
      if targeted target s then
        match answer s with
        | .ok data => sendReplies sender item argument data s
        | .error v => answerResult sender target 4 7 v item (bump .queriesRefused s)
      else s) s

/-- The items whose argument is 0 (R180). -/
def answerAtZero (argument : BitVec 16) (data : State → List Byte) (s : State) : QueryAnswer :=
  if argument = 0 then .ok (data s) else .error .invalid

/-- QUERY_STATUS_PAGE (R180). -/
def execQueryStatusPage (sender : LineNumber) (target : Byte) (argument : BitVec 16) (s : State) : Answered :=
  onQuery sender target 1 argument
    (fun s => if argument.toNat ≤ 5 then .ok (statusPageData argument.toNat s) else .error .invalid) s

/-- QUERY_TIME (R180). -/
def execQueryTime (sender : LineNumber) (target : Byte) (argument : BitVec 16) (s : State) : Answered :=
  onQuery sender target 2 argument (answerAtZero argument timeData) s

/-- The answer to a PEER query (R180). -/
def answerPeer (number : Nat) (s : State) : QueryAnswer :=
  if number = 0 ∨ 63 < number then .error .invalid
  else
    match s.time.peers.find? (fun p => p.number == number) with
    | some p => .ok (peerData p)
    | none => .error .unknown

/-- QUERY_PEER (R180). -/
def execQueryPeer (sender : LineNumber) (target : Byte) (argument : BitVec 16) (s : State) : Answered :=
  onQuery sender target 3 argument (answerPeer argument.toNat) s

/-- QUERY_INSTANCE (R180). -/
def execQueryInstance (sender : LineNumber) (target : Byte) (argument : BitVec 16) (s : State) : Answered :=
  onQuery sender target 4 argument
    (fun s => if h : argument.toNat < 4 then .ok (instanceData s.rows[argument.toNat]) else .error .invalid) s

/-- QUERY_SLOT (R180). -/
def execQuerySlot (sender : LineNumber) (target : Byte) (argument : BitVec 16) (s : State) : Answered :=
  onQuery sender target 5 argument
    (fun s => if h : argument.toNat < 32 then .ok (slotData s.lib.dir[argument.toNat] s) else .error .invalid) s

/-- QUERY_RECEIVED_SET (R180). -/
def execQueryReceivedSet (sender : LineNumber) (target : Byte) (argument : BitVec 16) (s : State) : Answered :=
  onQuery sender target 6 argument
    (fun s =>
      if h : argument.toNat < 32 then .ok (receivedData (slotReceived s.lib.dir[argument.toNat])) else .error .invalid) s

/-- The answer to an ENTRY query: an id is 1 to 65,535 (2.1, R180). -/
def answerEntry (id : Nat) (s : State) : QueryAnswer :=
  if id = 0 then .error .invalid
  else
    match entryAt s id with
    | some e => .ok (entryData e)
    | none => .error .unknown

/-- QUERY_ENTRY (R180). -/
def execQueryEntry (sender : LineNumber) (target : Byte) (argument : BitVec 16) (s : State) : Answered :=
  onQuery sender target 7 argument (answerEntry argument.toNat) s

/-- QUERY_CALENDAR (R180). -/
def execQueryCalendar (sender : LineNumber) (target : Byte) (argument : BitVec 16) (s : State) : Answered :=
  onQuery sender target 8 argument (answerAtZero argument calendarData) s

/-- QUERY_LINK (R180). -/
def execQueryLink (sender : LineNumber) (target : Byte) (argument : BitVec 16) (s : State) : Answered :=
  onQuery sender target 9 argument
    (fun s => if h : argument.toNat < 4 then .ok (linkData ⟨argument.toNat, h⟩ s) else .error .invalid) s

/-- QUERY_HOLD_LIST (R180). -/
def execQueryHoldList (sender : LineNumber) (target : Byte) (argument : BitVec 16) (s : State) : Answered :=
  onQuery sender target 10 argument (answerAtZero argument holdListData) s

/-- QUERY_INPUTS (R180). -/
def execQueryInputs (sender : LineNumber) (target : Byte) (argument : BitVec 16) (s : State) : Answered :=
  onQuery sender target 11 argument (answerAtZero argument inputsData) s

/-- QUERY_BOOT (R180). -/
def execQueryBoot (sender : LineNumber) (target : Byte) (argument : BitVec 16) (s : State) : Answered :=
  onQuery sender target 12 argument (answerAtZero argument bootData) s

/-- QUERY_UNKNOWN_ITEM (R180): an item that the table of R180 does not list is refused INVALID. -/
def execQueryUnknownItem (sender : LineNumber) (target item : Byte) (argument : BitVec 16) (s : State) : Answered :=
  onQuery sender target item.toNat argument (fun _ => .error .invalid) s

end Sys2Proof.Machine
end

