-- ==== Sys2Proof/Machine/Received.lean ====
section
/-!
DEFINITION. Reception (10.5): the tests of a received frame, its routing to its owner, and the command FRAME_RECEIVED.
-/

namespace Sys2Proof.Machine

/-! ### The tests of R171 -/

/-- The check of a received frame differs from the one computed over its bits (R162, R171). -/
def badCheck (f : LineFrame) : Bool := f.check != lineCheck f.cls.toNat f.sender.toNat f.length.toNat f.data

/-- The subcode of a frame whose class has subcodes; none when it carries no data byte (R174). -/
def subcodeOf (f : LineFrame) : Option Nat := f.data.head?.map BitVec.toNat

/-- The lengths R174 gives a frame's class and subcode; none for a subcode not listed. -/
def lengthsOf (f : LineFrame) : Option (Nat × Nat) :=
  if hasSubcode f.cls.toNat then (subcodeOf f).bind (frameFormat f.cls.toNat) else frameFormat f.cls.toNat 0

/-- The length of a frame differs from that of its class and subcode (R171). -/
def badLength (f : LineFrame) : Bool :=
  match lengthsOf f with
  | some (lo, hi) => f.length.toNat < lo || hi < f.length.toNat
  | none => true

/-- An ANNOUNCE carries a mode code other than ONCE or LOOP (R171). -/
def badMode (f : LineFrame) : Bool := f.cls == 2 && (modeOfCode ((byteAt f.data 16).toNat / 16)).isNone

/-- The counter of the first test of R171 that a frame fails; none for a checked frame. -/
def receiveFault (f : LineFrame) : Option Counter :=
  if 24 < f.length.toNat then some .formatErrors
  else if badCheck f then some .checkErrors
  else if !f.endGood then some .checkErrors
  else if (lengthsOf f).isNone then some .formatErrors
  else if badLength f then some .formatErrors
  else if badMode f then some .formatErrors
  else none

/-! ### Routing (R172) -/

/-- The command that a checked frame carries reaches its owner (R172); the events of the part itself come on no frame. -/
def route (i : Instr) (s : State) : Answered :=
  match i with
  | .restart n t => execRestart n t s
  | .beacon n a st b => execBeacon n a st b s
  | .timeSet n t a v => execTimeSet n t a v s
  | .entryWrite n t f => execEntryWrite n t f s
  | .entryExtra n t f => execEntryExtra n t f s
  | .entryDelete n t id => execEntryDelete n t id s
  | .calendarClear n t => execCalendarClear n t s
  | .duskBlock n t i vs => execDuskBlock n t i vs s
  | .seasonWrite n t m o => execSeasonWrite n t m o s
  | .seasonClear n t => execSeasonClear n t s
  | .startShow n t f => execStartShow n t f s
  | .announceStart n a => execAnnounceStart n a s
  | .announceRunning n a => execAnnounceRunning n a s
  | .stopShow n t sh => execStopShow n t sh s
  | .stopAll n t => execStopAll n t s
  | .announceStop n a => execAnnounceStop n a s
  | .mark n sh tag m r => execMark n sh tag m r s
  | .clearFaults n t => execClearFaults n t s
  | .safetySet n => execSafetySet n s
  | .safetyClear n => execSafetyClear n s
  | .safetyClearAll n t => execSafetyClearAll n t s
  | .showBegin n t sh b => execShowBegin n t sh b s
  | .showBlock n t sh i d => execShowBlock n t sh i d s
  | .showDelete n t sh => execShowDelete n t sh s
  | .queryStatusPage n t a => execQueryStatusPage n t a s
  | .queryTime n t a => execQueryTime n t a s
  | .queryPeer n t a => execQueryPeer n t a s
  | .queryInstance n t a => execQueryInstance n t a s
  | .querySlot n t a => execQuerySlot n t a s
  | .queryReceivedSet n t a => execQueryReceivedSet n t a s
  | .queryEntry n t a => execQueryEntry n t a s
  | .queryCalendar n t a => execQueryCalendar n t a s
  | .queryLink n t a => execQueryLink n t a s
  | .queryHoldList n t a => execQueryHoldList n t a s
  | .queryInputs n t a => execQueryInputs n t a s
  | .queryBoot n t a => execQueryBoot n t a s
  | .queryUnknownItem n t it a => execQueryUnknownItem n t it a s
  | _ => .next s

/-- A frame that fails a test of R171 has been heard. Of one that breaks off, or whose end field is not recessive, no command tells how
far it came, so the µs since its start bit are free up to those of the whole frame (DESIGN CHOICE, log entry 24). -/
def hearDiscarded (f : LineFrame) (s : State) : State :=
  let whole := frameTime f.length.toNat
  if f.endGood then hearFrame whole s
  else
    hearFrame (min whole (Config.frameUs s.start.readings))
      { s with start := { s.start with readings := s.start.readings + 1 } }

/-- FRAME_RECEIVED (R171, R172): the frame is discarded and counted, or noted (R169) and routed; a REPORT is not routed. -/
def execFrameReceived (f : LineFrame) (s : State) : Answered :=
  if awake s then
    match receiveFault f with
    | some c => .next (bump c (hearDiscarded f s))
    | none =>
      match decodeFrame f with
      | some i => route i s
      | none => .next (noteSender f.sender f.length.toNat s)
  else .next s

end Sys2Proof.Machine
end

