-- ==== Sys2Proof/Machine/Tick.lean ====
section
/-!
DEFINITION. What the station does of itself while no command waits (log entry 2): it raises the event that is due, one at a time,
or, when none is, a microsecond of oscillator time passes.
-/

namespace Sys2Proof.Machine

/-! ### Events that are due -/

/-- A timer has run out. -/
def ranOut (t : Option Nat) : Bool := t == some 0

/-- The links and their monitor classes, for search. -/
def linkClasses : List (Fin 4 × LinkClass) :=
  (List.finRange 4).flatMap (fun l => [(l, LinkClass.short), (l, .openLine), (l, .feedLow)])

/-- The senses, for search. -/
def senseClasses : List SenseClass :=
  linkClasses.map (fun e => SenseClass.link e.1 e.2) ++ [.station .hotWarn, .station .hotShutdown]

/-- The events of counting that are due: the end of a hold, a tower frame boundary, a whole second (R1, R5). -/
def dueCount (s : State) : Option Instr :=
  if ranOut s.time.hold then some .holdEnd
  else if s.time.hold.isSome then none
  else if s.time.lastBoundary < frameNow s then some .towerFrameBoundary
  else if s.time.lastSecond < secondNow s then some .wholeSecond
  else none

/-- The timer of the blocks that has run out, in the order of the chapters; at one instant the monitors' deglitch timers run out
link by link SHORT, OPEN, FEED LOW, then HOT WARN, HOT SHUTDOWN, then their retry timers; the debounce timers from input 0 to
input 7 before the re-send timer; and a frame that waits on an idle line starts (R163). The order is the model's choice (DESIGN
CHOICE, log entry 2). -/
def dueTimer (s : State) : Option Instr :=
  if (s.time.ref.waiting.map (·.left)) = some 0 then some .referenceMessageTimeout
  else if ranOut s.time.ref.silence ∧ s.time.hold.isNone then some .referenceSilence
  else if anyLink (fun l => ranOut s.drivers[l].refresh) then some .refreshExpiry
  else
    match senseClasses.find? (fun c => ranOut (s.mon.sense c).deglitch) with
    | some c => some (.deglitchExpiry c)
    | none =>
      match linkClasses.find? (fun e => ranOut (s.mon.sense (.link e.1 e.2)).retry) with
      | some e => some (.retryExpiry e.1 e.2)
      | none =>
        match (List.finRange 8).find? (fun i => ranOut s.inputs[i].timer) with
        | some i => some (.debounceExpiry i)
        | none =>
          if ranOut s.safety.resend then some .resendExpiry
          else if headWaits s then some .lineIdle
          else if ranOut s.start.restart then some .restartTimeout
          else if 100000 ≤ s.line.sinceIdle ∧ s.line.fault = false ∧ s.line.wire ≠ .idle then some .lineFault
          else none

/-- The event that is due: a flush asked (R99), an event of counting (R1), a timer that has run out, a render (R97). -/
def dueEvent (s : State) : Option Instr :=
  if s.start.powered = false then none
  else if s.start.pinLow then dueCount s
  else if 0 < s.mixer.flushAsked then some .flushRequest
  else
    match (dueCount s).or (dueTimer s) with
    | some c => some c
    | none => if canRender s then some .renderBegin else none

/-! ### A microsecond of oscillator time -/

/-- A timer counts down one µs. -/
def countDown (t : Option Nat) : Option Nat := t.map (· - 1)

/-- The counter's advance over one µs of oscillator time, in 1/1,000,000 ns: 1,000,000,000 ns plus the trim plus 1,000 times
the slew over a second (R1, R16). -/
def usAdvance (t : TimeUnit) : Nat := (1000000000 + t.trim + 1000 * t.slew).toNat

/-- The counter counts one µs of oscillator time, or a hold runs down by it (R1, R5). -/
def countUs (t : TimeUnit) : TimeUnit :=
  match t.hold with
  | some n => { t with hold := some (n - 1) }
  | none =>
    let total := t.fraction + usAdvance t
    { t with ns := t.ns + total / 1000000, fraction := total % 1000000 }

/-- The reference timers run down one µs; the silence timer does not run during a hold (R17). -/
def refUs (held : Bool) (r : Reference) : Reference :=
  { r with waiting := r.waiting.map (fun w => { w with left := w.left - 1 })
           silence := if held then r.silence else countDown r.silence }

/-- A sense's timers run down one µs (R141, R146). -/
def Sense.tick (x : Sense) : Sense := { x with deglitch := countDown x.deglitch, retry := countDown x.retry }

/-- A link's senses run down one µs. -/
def LinkMonitor.tick (m : LinkMonitor) : LinkMonitor :=
  { m with short := m.short.tick, openLine := m.openLine.tick, feedLow := m.feedLow.tick }

/-- The line is idle and the Line Interface listens on it, which it does not while the restart pin holds it at its start values
(R163, R178). -/
def listening (s : State) : Bool := !s.start.pinLow && s.line.wire == .idle

/-- The Line Interface over one µs: on an idle line another sender's start bit is heard or is not (R163), and no time since the line
was last idle passes; otherwise it does (R170), but not while the restart pin is low (R178). No command tells another's start bit:
whether one comes is free (DESIGN CHOICE, log entry 24). -/
def lineUs (s : State) : LineInterface :=
  if listening s then { s.line with wire := if Config.startBit s.start.readings then .receiving else .idle }
  else if s.start.pinLow then s.line
  else { s.line with sinceIdle := s.line.sinceIdle + 1 }

/-- One µs of oscillator time passes. -/
def passUs (s : State) : State :=
  { s with
    time := let t := countUs s.time
            { t with ref := refUs s.time.hold.isSome t.ref }
    drivers := s.drivers.map (fun d => { d with refresh := countDown d.refresh })
    mon := { s.mon with links := s.mon.links.map LinkMonitor.tick, hotWarn := s.mon.hotWarn.tick
                        hotShutdown := s.mon.hotShutdown.tick }
    inputs := s.inputs.map (fun i => { i with timer := countDown i.timer })
    safety := { s.safety with resend := countDown s.safety.resend }
    start := { s.start with restart := countDown s.start.restart
                            readings := if listening s then s.start.readings + 1 else s.start.readings }
    line := lineUs s }

/-- What a step does when no command waits. Without main power nothing happens. -/
def tick (s : State) : State :=
  match dueEvent s with
  | some c => { s with pending := [c] }
  | none => if s.start.powered then passUs s else s

end Sys2Proof.Machine
end

