-- ==== Sys2Proof/Machine/Dispatch.lean ====
section
/-!
DEFINITION. One arm per command, each a direct call of its meaning.
-/

namespace Sys2Proof.Machine

/-- The effect of a command on everything but the queue of waiting commands. -/
def exec (i : Instr) (s : State) : Host.Outcome State Fault Refusal :=
  match i with
  | .powerStart straps boot cellHeld => Sys2Proof.Machine.execPowerStart straps boot cellHeld s
  | .restartPinFall lowUs => Sys2Proof.Machine.execRestartPinFall lowUs s
  | .restartPinRise straps boot => Sys2Proof.Machine.execRestartPinRise straps boot s
  | .restart sender target => Sys2Proof.Machine.execRestart sender target s
  | .restartTimeout => Sys2Proof.Machine.execRestartTimeout s
  | .towerFrameBoundary => Sys2Proof.Machine.execTowerFrameBoundary s
  | .wholeSecond => Sys2Proof.Machine.execWholeSecond s
  | .holdEnd => Sys2Proof.Machine.execHoldEnd s
  | .referencePulse => Sys2Proof.Machine.execReferencePulse s
  | .referenceMessage second => Sys2Proof.Machine.execReferenceMessage second s
  | .referenceMessageTimeout => Sys2Proof.Machine.execReferenceMessageTimeout s
  | .referenceSilence => Sys2Proof.Machine.execReferenceSilence s
  | .beacon sender arrival stamp body => Sys2Proof.Machine.execBeacon sender arrival stamp body s
  | .timeSet sender target arrival value => Sys2Proof.Machine.execTimeSet sender target arrival value s
  | .entryWrite sender target image => Sys2Proof.Machine.execEntryWrite sender target image s
  | .entryExtra sender target image => Sys2Proof.Machine.execEntryExtra sender target image s
  | .entryDelete sender target id => Sys2Proof.Machine.execEntryDelete sender target id s
  | .calendarClear sender target => Sys2Proof.Machine.execCalendarClear sender target s
  | .duskBlock sender target first values => Sys2Proof.Machine.execDuskBlock sender target first values s
  | .seasonWrite sender target instant offset => Sys2Proof.Machine.execSeasonWrite sender target instant offset s
  | .seasonClear sender target => Sys2Proof.Machine.execSeasonClear sender target s
  | .startShow sender target image => Sys2Proof.Machine.execStartShow sender target image s
  | .announceStart sender a => Sys2Proof.Machine.execAnnounceStart sender a s
  | .announceRunning sender a => Sys2Proof.Machine.execAnnounceRunning sender a s
  | .stopShow sender target showNo => Sys2Proof.Machine.execStopShow sender target showNo s
  | .stopAll sender target => Sys2Proof.Machine.execStopAll sender target s
  | .announceStop sender a => Sys2Proof.Machine.execAnnounceStop sender a s
  | .mark sender showNo tag number release => Sys2Proof.Machine.execMark sender showNo tag number release s
  | .catchUpComplete player => Sys2Proof.Machine.execCatchUpComplete player s
  | .flushRequest => Sys2Proof.Machine.execFlushRequest s
  | .renderBegin => Sys2Proof.Machine.execRenderBegin s
  | .renderComplete => Sys2Proof.Machine.execRenderComplete s
  | .linkFrameEnd link => Sys2Proof.Machine.execLinkFrameEnd link s
  | .refreshExpiry => Sys2Proof.Machine.execRefreshExpiry s
  | .senseChange reading => Sys2Proof.Machine.execSenseChange reading s
  | .deglitchExpiry sense => Sys2Proof.Machine.execDeglitchExpiry sense s
  | .retryExpiry link cls => Sys2Proof.Machine.execRetryExpiry link cls s
  | .clearFaults sender target => Sys2Proof.Machine.execClearFaults sender target s
  | .inputChange input millivolts => Sys2Proof.Machine.execInputChange input millivolts s
  | .debounceExpiry input => Sys2Proof.Machine.execDebounceExpiry input s
  | .resendExpiry => Sys2Proof.Machine.execResendExpiry s
  | .safetySet sender => Sys2Proof.Machine.execSafetySet sender s
  | .safetyClear sender => Sys2Proof.Machine.execSafetyClear sender s
  | .safetyClearAll sender target => Sys2Proof.Machine.execSafetyClearAll sender target s
  | .showBegin sender target showNo blocks => Sys2Proof.Machine.execShowBegin sender target showNo blocks s
  | .showBlock sender target showNo index data => Sys2Proof.Machine.execShowBlock sender target showNo index data s
  | .showDelete sender target showNo => Sys2Proof.Machine.execShowDelete sender target showNo s
  | .refillComplete => Sys2Proof.Machine.execRefillComplete s
  | .sectorEraseComplete => Sys2Proof.Machine.execSectorEraseComplete s
  | .tagWriteComplete => Sys2Proof.Machine.execTagWriteComplete s
  | .deadMarkWriteComplete => Sys2Proof.Machine.execDeadMarkWriteComplete s
  | .blockWriteComplete => Sys2Proof.Machine.execBlockWriteComplete s
  | .checkReadComplete => Sys2Proof.Machine.execCheckReadComplete s
  | .lineIdle => Sys2Proof.Machine.execLineIdle s
  | .arbitrationLost => Sys2Proof.Machine.execArbitrationLost s
  | .dataFieldContention => Sys2Proof.Machine.execDataFieldContention s
  | .frameSent => Sys2Proof.Machine.execFrameSent s
  | .lineFault => Sys2Proof.Machine.execLineFault s
  | .frameReceived frame => Sys2Proof.Machine.execFrameReceived frame s
  | .queryStatusPage sender target argument => Sys2Proof.Machine.execQueryStatusPage sender target argument s
  | .queryTime sender target argument => Sys2Proof.Machine.execQueryTime sender target argument s
  | .queryPeer sender target argument => Sys2Proof.Machine.execQueryPeer sender target argument s
  | .queryInstance sender target argument => Sys2Proof.Machine.execQueryInstance sender target argument s
  | .querySlot sender target argument => Sys2Proof.Machine.execQuerySlot sender target argument s
  | .queryReceivedSet sender target argument => Sys2Proof.Machine.execQueryReceivedSet sender target argument s
  | .queryEntry sender target argument => Sys2Proof.Machine.execQueryEntry sender target argument s
  | .queryCalendar sender target argument => Sys2Proof.Machine.execQueryCalendar sender target argument s
  | .queryLink sender target argument => Sys2Proof.Machine.execQueryLink sender target argument s
  | .queryHoldList sender target argument => Sys2Proof.Machine.execQueryHoldList sender target argument s
  | .queryInputs sender target argument => Sys2Proof.Machine.execQueryInputs sender target argument s
  | .queryBoot sender target argument => Sys2Proof.Machine.execQueryBoot sender target argument s
  | .mainPowerLoss cut => Sys2Proof.Machine.execMainPowerLoss cut s
  | .backupSecond => Sys2Proof.Machine.execBackupSecond s
  | .queryUnknownItem sender target item argument => Sys2Proof.Machine.execQueryUnknownItem sender target item argument s

end Sys2Proof.Machine
end

