-- ==== Sys2Proof/Machine/Step.lean ====
section
/-!
DEFINITION. One step of the station: the command at the front of the queue, or, on an empty queue, what the station does of
itself.
-/

namespace Sys2Proof.Machine

/-- One step: the command that waits longest is taken and has its effect; with none waiting the station ticks (log entry 2). -/
def step (s : State) : Host.Outcome State Fault Refusal :=
  match s.pending with
  | [] => .next (tick s)
  | c :: rest => exec c { s with pending := rest }

/-- The command that a word spells is put at the front of the queue; no word spells one, so the state is unchanged. -/
def State.withFetchWord (s : State) (nbits w : Nat) : State :=
  match decodeTableWord nbits w with
  | some c => { s with pending := c :: s.pending }
  | none => s

end Sys2Proof.Machine
end

