-- ==== Sys2Proof/Safety.lean ====
section
/-!
DEFINITION. What counts as a safe run: the invariants of the station that every step keeps, and the words in which statements say
what a command leaves as it was.
-/

namespace Sys2Proof.Machine

/-! ### What a command leaves as it was -/

/-- The parts of State, one per field. -/
inductive Part
  | start | time | backup | cal | flash | lib | rows | mixer | out | drivers | mon | safety | inputs | line | counters
  | pending
deriving DecidableEq, Repr

/-- A part is the same in two states. -/
def Part.same (s t : State) : Part → Prop
  | .start => t.start = s.start
  | .time => t.time = s.time
  | .backup => t.backup = s.backup
  | .cal => t.cal = s.cal
  | .flash => t.flash = s.flash
  | .lib => t.lib = s.lib
  | .rows => t.rows = s.rows
  | .mixer => t.mixer = s.mixer
  | .out => t.out = s.out
  | .drivers => t.drivers = s.drivers
  | .mon => t.mon = s.mon
  | .safety => t.safety = s.safety
  | .inputs => t.inputs = s.inputs
  | .line => t.line = s.line
  | .counters => t.counters = s.counters
  | .pending => t.pending = s.pending

/-- Every part but those listed is the same. -/
def OnlyChanges (parts : List Part) (s t : State) : Prop := ∀ p : Part, p ∉ parts → p.same s t

/-- Every counter but those listed is the same. -/
def OnlyCounts (counters : List Counter) (s t : State) : Prop := ∀ c : Counter, c ∉ counters → count t c = count s c

/-- A counter has counted `n`, holding at 65,535 (R181). -/
def Counted (n : Nat) (c : Counter) (s t : State) : Prop :=
  (count t c).toNat = min 65535 ((count s c).toNat + n)

/-- A row as it stands but for the refill its player asks for. -/
def Row.noAsk (r : Row) : Row := { r with ctx := { r.ctx with refillAsked := false } }

/-- The rows are the same but for refills asked for. -/
def SameInstances (s t : State) : Prop := ∀ p : Fin 4, t.rows[p].map Row.noAsk = s.rows[p].map Row.noAsk

/-- A player's window holds fewer than 16 cues and its read point has cues left to read (R78): END has not been read, or the instance will
loop after it and the window has not been emptied at an END that begins no pass (R83). -/
abbrev NeedsRefill (r : Row) : Prop :=
  r.ctx.window.length < 16 ∧ (r.ctx.endRead = false ∨ (r.mode = .loop ∧ r.passes ≠ 1 ∧ r.ctx.window ≠ []))

/-- Every player that needs a refill has one outstanding: asked for, or at the port and not withdrawn (R78, R125). -/
def RefillsAsked (s : State) : Prop :=
  ∀ (p : Fin 4) (r : Row), s.rows[p] = some r → NeedsRefill r → r.ctx.refillAsked = true ∨ s.lib.port = some (.refill p true)

/-- A player asks for a refill, or has asked, with `port` the unit in progress (R78). -/
abbrev AskedFor (port : Option PortUnit) (p : Fin 4) (r : Row) : Prop :=
  r.ctx.refillAsked = true ∨ (NeedsRefill r ∧ port ≠ some (.refill p true))

/-- The library is the same but for the unit the memory port is doing. -/
def SameLibrary (s t : State) : Prop := t.lib = { s.lib with port := t.lib.port }

/-- The Frame Mixer is the same but for flush requests not yet taken, of which there are `n` more. -/
def FlushesAsked (n : Nat) (s t : State) : Prop := t.mixer = { s.mixer with flushAsked := s.mixer.flushAsked + n }

/-- A sense is the same but for its raw reading and the deglitch timer that follows it (R140, R141). -/
def OnlyRead (x y : Sense) : Prop := y = { x with raw := y.raw, deglitch := y.deglitch }

/-- The quantities sensed on the links and in the station are the same. -/
def SameQuantities (s t : State) : Prop :=
  t.mon.temperature = s.mon.temperature ∧
    ∀ l : Fin 4, t.mon.links[l].microamps = s.mon.links[l].microamps ∧ t.mon.links[l].millivolts = s.mon.links[l].millivolts

/-- What a stop makes of a row at tower frame `now` for a show of `attack` and `release` frames (R58): an ARMED row, and one whose
show has no release, becomes IDLE; a RUNNING or GATED row becomes RELEASING from the next frame, at its attack weight there;
a RELEASING row stays. SUSPENDED rows are judged by their prior state; that one whose show has no release becomes IDLE at once is the
model's choice (log entry 39). -/
def stoppedRow (now attack release : Nat) (r : Row) : Option Row :=
  match r.phase with
  | .armed => none
  | .releasing _ _ => some r
  | .running | .gated _ =>
    if release = 0 then none
    else some { r with phase := .releasing (now + 1) (attackWeight r.tag attack (now + 1)), announcer := false }

/-! ### What an ENTRY WRITE carries (2.1) -/

/-- The entry that an ENTRY WRITE with every field in range carries, field by field (R27, R42, R174): priorities and the exempt priority
clamped; no skip list, levels and ceiling 0, and nothing derived. -/
def writtenEntry (f : EntryImage) : Entry :=
  let b6 := f.day6.toNat
  let b7 := f.day7.toNat
  let anchor := f.anchor.toNat
  let minutes : Nat := anchor % 2 ^ 16
  let day : BitVec 16 → Option Nat := fun d => if d.toNat = 0xFFFF then none else some d.toNat
  let clamped : Nat → Byte → Nat := fun most b => max 1 (min most b.toNat)
  { id := f.id.toNat
    enabled := f.enabled
    recurrence := match f.recurrence.toNat with
      | 0 => .once (b6 * 256 + b7)
      | 1 => .daily
      | 2 => .weekly (BitVec.ofNat 7 b6)
      | 3 => .yearly b6 b7
      | _ => .nth b6 (b7 % 8) (if b7 / 16 % 8 = 7 then none else some (b7 / 16 % 8))
    anchor :=
      if anchor < 2 ^ 23 then .clock (anchor % 2 ^ 17)
      else .dusk (if minutes < 2 ^ 15 then minutes else (minutes : Int) - 2 ^ 16)
    validFrom := day f.validFrom
    validUntil := day f.validUntil
    skips := []
    duration := f.duration.toNat
    kind := match f.kind.toNat with
      | 0 => .playShow f.byte18.toNat (clamped 15 f.byte19) (if f.byte20.toNat / 16 = 0 then .once else .loop) (f.byte20.toNat % 16)
      | 1 => .curfew 0 (clamped 16 f.byte18)
      | _ => .base (clamped 15 f.byte18) Levels.zero
    nextFire := none
    windowEnd := none }

/-! ### What the items of an advance make of a context (4) -/

/-- The record that an item of a cue with effective frame `e` writes over a track's record (R76, R80, R81): its from-level is
the value the track gave at show frame `e - 1`, 0 where it was transparent, and that of a record that took effect at
`e` or later where the item replaces one. -/
def recordOver (c : Cue) (e : Int) (old : Option ZoneRecord) : ZoneRecord :=
  { fromLevels := match old with
      | none => Levels.zero
      | some o => if o.effective < e then recordValue o (e - 1) else o.fromLevels
    toLevels := c.levels, effective := e, fade := c.fade }

/-- The zone state table after the local zones of `hit` have taken an item of a cue, and no other zone or track anything. -/
def ZonesTake (c : Cue) (e : Int) (hit : Nat → Prop) (before after : List ZoneTracks) : Prop :=
  after.length = before.length ∧
  ∀ (i : Nat) (z : ZoneTracks), before[i]? = some z → ∃ z', after[i]? = some z' ∧
    ∀ k : Fin 4, (hit i ∧ c.track = k → z'[k] = some (recordOver c e z[k])) ∧ (¬ (hit i ∧ c.track = k) → z'[k] = z[k])

/-- A cue touches the local zone at a place of the zone map (R80). -/
def touchesAt (zmap : List ZoneBoot) (c : Cue) (i : Nat) : Prop :=
  ∃ b, zmap[i]? = some b ∧ c.zoneLow ≤ b.tower.toNat ∧ b.tower.toNat ≤ c.zoneHigh

/-- The effective frame of a SWEEP cue's item for the local zone at a place of the zone map: its cue time and a quarter of its
pace for each tower zone from the end of its span that it starts at, truncated (R81). -/
def reachedAt (zmap : List ZoneBoot) (c : Cue) (i : Nat) : Nat :=
  let tower := ((zmap[i]?).map (·.tower.toNat)).getD 0
  c.time + c.pace * (if c.action = .sweepDown then c.zoneHigh - tower else tower - c.zoneLow) / 4

/-- What taking the SET, FADE or SWEEP cue at the head of the window makes of a context but for its position (R78, R80, R81): a
SWEEP takes the zones it reaches at once and joins the sweep list with the rest in the order it reaches them, a full list
first completing its oldest sweep at the new one's cue time. -/
def CueTaken (zmap : List ZoneBoot) (c : Cue) (later : List Cue) (x x' : Context) : Prop :=
  if c.action = .set ∨ c.action = .fade then
    ∃ zs, ZonesTake c c.time (touchesAt zmap c) x.zones zs ∧ x' = { x with window := later, zones := zs }
  else
    ∃ zs todo, todo.Nodup ∧ todo.Pairwise (fun i j => reachedAt zmap c i ≤ reachedAt zmap c j) ∧
      (∀ i, i ∈ todo ↔ touchesAt zmap c i ∧ reachedAt zmap c i ≠ c.time) ∧
      if todo = [] then
        ZonesTake c c.time (touchesAt zmap c) x.zones zs ∧ x' = { x with window := later, zones := zs }
      else
        ∃ kept mid,
          (x.sweeps.length < 8 → kept = x.sweeps ∧ mid = x.zones) ∧
          (∀ old rest, 8 ≤ x.sweeps.length → x.sweeps = old :: rest →
            kept = rest ∧ ZonesTake old.cue c.time (fun i => i ∈ old.todo ∧ i < zmap.length) x.zones mid) ∧
          ZonesTake c c.time (fun i => touchesAt zmap c i ∧ reachedAt zmap c i = c.time) mid zs ∧
          x' = { x with window := later, zones := zs, sweeps := kept ++ [{ cue := c, todo := todo }] }

/-- A cue writes track records: SET, FADE and the two SWEEPs (R80, R81). -/
def writesZones (c : Cue) : Prop := c.action = .set ∨ c.action = .fade ∨ c.action = .sweepUp ∨ c.action = .sweepDown

/-- The effective frame that a cue has for the local zone at a place of the zone map (R102). -/
def itemFrame (zmap : List ZoneBoot) (c : Cue) (i : Nat) : Nat :=
  if c.action = .set ∨ c.action = .fade then c.time else reachedAt zmap c i

/-- The cues of a window that come before its first END and, where gates are not passed, before its first GATE (R83, R88). -/
def cuesOpen (passGates : Bool) (window : List Cue) : List Cue :=
  window.takeWhile (fun c => c.action != .endShow && (passGates || c.action != .gate))

/-- An item of track `k` for the local zone at place `i` is still to be taken at or before show frame `y`: one of a sweep in progress, or of
a cue of the window before END and the gate that is not passed; the item is its cue and effective frame (R76, R102). -/
def itemOpen (zmap : List ZoneBoot) (passGates : Bool) (x : Context) (y : Int) (i : Nat) (k : Fin 4) (e : Cue × Nat) : Prop :=
  e.1.track = k ∧ e.2 = itemFrame zmap e.1 i ∧ (e.2 : Int) ≤ y ∧
    ((∃ w ∈ x.sweeps, w.cue = e.1 ∧ i ∈ w.todo) ∨ (e.1 ∈ cuesOpen passGates x.window ∧ writesZones e.1 ∧ touchesAt zmap e.1 i))

/-- What taking every item up to show frame `y` makes of a zone state table (R76, R80, R102): a track's record is written by its items in
ascending effective frame and then stored order, so that the last of them governs, and a track with no item keeps what it held. -/
def ItemsTaken (zmap : List ZoneBoot) (passGates : Bool) (x : Context) (y : Int) (zones : List ZoneTracks) : Prop :=
  zones.length = x.zones.length ∧
  ∀ (i : Nat) (z : ZoneTracks), x.zones[i]? = some z → ∃ z', zones[i]? = some z' ∧
    ∀ k : Fin 4, ∃ items : List (Cue × Nat),
      (∀ e, e ∈ items ↔ itemOpen zmap passGates x y i k e) ∧
      items.Pairwise (fun a b => a.2 < b.2 ∨ (a.2 = b.2 ∧ a.1.index < b.1.index)) ∧
      z'[k] = items.foldl (fun old e => some (recordOver e.1 e.2 old)) z[k]

/-- The cues that a context holds are as a player reads them (R76, R78, R81): its sweeps in progress, of SWEEP cues, name each zone once and
in the order they reach it; these cues and then the window's, up to END and the gate that is not passed, stand in stored order, and the
window's in ascending cue time; the cue they stop at does not lie before the position; and the sweep list has room for the SWEEPs. -/
structure CuesInOrder (zmap : List ZoneBoot) (passGates : Bool) (x : Context) : Prop where
  zones : x.zones.length = zmap.length
  sweeps : ∀ w ∈ x.sweeps, (w.cue.action = .sweepUp ∨ w.cue.action = .sweepDown) ∧ w.todo ≠ [] ∧ w.todo.Nodup ∧
    w.todo.Pairwise (fun i j => reachedAt zmap w.cue i ≤ reachedAt zmap w.cue j) ∧ ∀ i ∈ w.todo, touchesAt zmap w.cue i
  stored : (x.sweeps.map (·.cue) ++ cuesOpen passGates x.window).Pairwise (fun a b => a.index < b.index)
  timed : (cuesOpen passGates x.window).Pairwise (fun a b => a.time ≤ b.time)
  stop : ∀ c later, x.window = cuesOpen passGates x.window ++ c :: later → x.position ≤ c.time
  room : x.sweeps.length + ((cuesOpen passGates x.window).filter (fun c => c.action == .sweepUp || c.action == .sweepDown)).length ≤ 8

/-- No sweep in progress has an item at or before show frame `k`. -/
def sweepsBeyond (zmap : List ZoneBoot) (sweeps : List Sweep) (k : Int) : Prop :=
  ∀ w ∈ sweeps, ∀ i ∈ w.todo, k < reachedAt zmap w.cue i

/-- The cues of a window all stand beyond show frame `k` and tell every item up to it: the first lies beyond it, and either END
is among them or the last lies beyond it (R78, R79). -/
def cuesBeyond (window : List Cue) (k : Int) : Prop :=
  (∀ d, window.head? = some d → k < d.time) ∧
    ((∃ d ∈ window, d.action = .endShow) ∨ ∃ d, window.getLast? = some d ∧ k < d.time)

/-- With a cue taken from the head of a window, nothing up to show frame `k` is left in it or wanting: the cues after it lie beyond `k`,
or it was the last and stands at `k` itself (R79). -/
def cuesAfter (c : Cue) (later : List Cue) (k : Int) : Prop := cuesBeyond later k ∨ (later = [] ∧ (c.time : Int) = k)

/-- A row whose announcer flag is clear takes the duty at the boundary of frame `n` when it has heard none for 480 frames (R65). -/
def takesDuty (number n : Nat) (r : Row) : Row :=
  if aliveRow r = true ∧ r.announcer = false ∧ number ≠ 0 ∧ r.lastHeard + 480 ≤ n then
    { r with announcer := true, lastHeard := n }
  else r

/-- The player advances at the boundary of frame `n` (R75, R77, R91): it is RUNNING or RELEASING, or ARMED and reaching its
anchor, not in catch-up, its row's end frame ahead and its release not over; SUSPENDED, it advances by its prior state. -/
def advancesAt (release n : Nat) (r : Row) : Prop :=
  match r.phase with
  | .armed => r.suspended = false ∧ r.ctx.catchUp = none ∧ r.anchor ≤ n ∧ ∀ e, r.endFrame = some e → n < e
  | .running => (r.suspended = true ∨ r.ctx.catchUp = none) ∧ ∀ e, r.endFrame = some e → n < e
  | .gated _ => False
  | .releasing start _ => r.suspended = true ∨ (r.ctx.catchUp = none ∧ n < start + release)

/-- The gate a row meets in a GATE cue (R84). -/
def gateOf (c : Cue) (anchor : Nat) : Gate :=
  { time := c.time, mark := c.gateMark, timeout := c.gateTimeout, due := anchor + c.time
    timeoutFrame := anchor + c.time + c.gateTimeout * 40 }

/-- The frame at which a gate is released when it is evaluated at frame `now` (R84): by a mark the row's list holds, at 4 frames
after the mark's release frame or at the due frame; or by timeout; and the late watch that leaves. -/
def GateReleased (g : Gate) (now : Nat) (r : Row) (q : Nat) (watch : Option Nat) : Prop :=
  (g.mark ≠ 0 ∧ watch = none ∧ ∃ before f after, r.marks = before ++ (g.mark, f) :: after ∧
    (∀ e ∈ before, e.1 ≠ g.mark) ∧ q = max (f + 4) g.due) ∨
  ((g.mark = 0 ∨ ∀ e ∈ r.marks, e.1 ≠ g.mark) ∧ g.timeoutFrame ≤ now ∧ q = g.timeoutFrame ∧
    watch = (if g.mark = 0 then none else some g.mark))

/-- A gate evaluated at frame `now` is not released (R84). -/
def GateWaits (g : Gate) (now : Nat) (r : Row) : Prop :=
  (g.mark = 0 ∨ ∀ e ∈ r.marks, e.1 ≠ g.mark) ∧ now < g.timeoutFrame

/-- The mark list and late watch of a row in which a new pair is filed while its player is not GATED on the number (R67, R85a). -/
def markFiled (m release : Nat) (r : Row) : Row :=
  if r.marks.any (fun e => e.1 == m) then r
  else { r with marks := (if 16 ≤ r.marks.length then r.marks.tail else r.marks) ++ [(m, release)]
                ctx := { r.ctx with lateWatch := if r.ctx.lateWatch = some m then none else r.ctx.lateWatch } }

/-- A mark of a SUSPENDED player is kept pending, at most four, the oldest given up for a fifth (R82, R91). -/
def markPended (m due : Nat) (x : Context) : Context :=
  { x with pendingMarks := (if 4 ≤ x.pendingMarks.length then x.pendingMarks.tail else x.pendingMarks) ++ [(m, due)] }

/-- What END makes of a row that goes on to a new pass (R70, R83): the anchor a pass later, one pass fewer of those that end, the marks
of the old pass removed, the sweep list emptied, no late watch, and the records of the zone state table where they stood. -/
def nextPass (length : Nat) (later : List Cue) (r : Row) : Row :=
  { r with
    anchor := r.anchor + length, passes := r.passes - 1, marks := r.marks.filter (fun e => r.anchor + length ≤ e.2)
    ctx := { r.ctx with
      window := later, sweeps := [], lateWatch := none, endRead := false
      nextCue := if r.ctx.endRead then 0 else r.ctx.nextCue
      zones := r.ctx.zones.map (fun z => z.map (fun t => t.map (fun o => { o with effective := o.effective - length }))) } }

/-- What END makes of the context of a player that plays no further pass (R83, R87). -/
def lastEnd (length : Nat) (x : Context) : Context := { x with position := length, window := [], endRead := true }


/-- The flushes a player asks for when a cue, the last its window holds, is taken or, a gate, stops it (R88, R89): one where its projection
limit rises from the frame before the cue and it has answered past that frame. -/
def emptiedAsks (c : Cue) (r : Row) : Nat :=
  match r.ctx.lastAnswer with
  | some a => if r.ctx.position < c.time ∧ r.anchor + c.time ≤ a.frame then 1 else 0
  | none => 0

/-- A change of a player raises its projection limit, and its last answered frame lies beyond the limit before (R88, R89). -/
def risesPast (before after : Row) : Prop :=
  projectionLimit before < projectionLimit after ∧
    ∃ a, before.ctx.lastAnswer = some a ∧ projectionLimit before < (a.frame : Int) - before.anchor

/-- What the boundary of frame `n` makes of the row of player `p`, whatever the other players do (R63, R65, R75 to R87, R91), and the
number `asked` of flushes the player asks for (R89). The cases name what is due at the boundary: nothing, one item, a gate, END, an end
frame, the end of a release, or cues that the window does not hold; `k` is the player's target show frame. -/
def BoundaryCase (n : Nat) (p : Fin 4) (r : Row) (asked : Nat) (s t : State) : Prop :=
  let zmap := zonesOf s
  let h := headerOr s r.showNo
  let x := r.ctx
  let k : Int := (n : Int) - r.anchor
  let becomes : Row → Nat → Prop := fun r' m => t.rows[p].map Row.noAsk = some (takesDuty s.start.number n r').noAsk ∧ asked = m
  let idle : Nat → Prop := fun m => t.rows[p] = none ∧ asked = m
  let emptied : Cue → List Cue → Nat := fun c later => if later = [] then emptiedAsks c r else 0
  let begun : Row := if r.phase = .armed then { r with phase := .running } else r
  let stands : Context → Int → Row := fun x' y => { begun with ctx := { x' with position := y, starved := false } }
  let free : Prop := r.suspended = false ∧ x.catchUp = none
  let releasing : Prop := ∃ start w, r.phase = .releasing start w
  let ended : Prop := ∃ e, r.endFrame = some e ∧ e ≤ n
  let toFrame : Prop := advancesAt h.release n r ∧ x.position < k
  -- the release is over, or an ARMED row meets its end frame (R77)
  (free → (∃ start w, r.phase = .releasing start w ∧ start + h.release ≤ n) → idle 0) ∧
  (free → r.phase = .armed → ended → idle 1) ∧
  -- no work at this boundary (R77, R90, R91)
  ((r.suspended = true ∧ (r.phase = .armed ∨ ∃ g, r.phase = .gated g)) ∨ (r.suspended = false ∧ x.catchUp.isSome = true) ∨
    (free ∧ ¬ ended ∧ ((r.phase = .armed ∧ n < r.anchor) ∨ ∃ g, r.phase = .gated g ∧ n < g.timeoutFrame)) → becomes r 0) ∧
  -- a RUNNING or GATED row meets its end frame (R86)
  (∀ e, free → r.endFrame = some e → e ≤ n → r.phase = .running ∨ (∃ g, r.phase = .gated g) →
    (h.release = 0 ∨ e + h.release ≤ n → idle 1) ∧
    (0 < h.release → n < e + h.release →
      (k ≤ x.position → becomes { r with phase := .releasing e (attackWeight r.tag h.attack e)
                                         ctx := { x with starved := false } } 1) ∧
      (x.position < k → sweepsBeyond zmap x.sweeps k → cuesBeyond x.window k →
        becomes { r with phase := .releasing e (attackWeight r.tag h.attack e)
                         ctx := { x with position := k, starved := false } } 1))) ∧
  -- the position holds, or moves with no item due (R75)
  (advancesAt h.release n r → k ≤ x.position → becomes (stands x x.position) 0) ∧
  (toFrame → sweepsBeyond zmap x.sweeps k → cuesBeyond x.window k → becomes (stands x k) 0) ∧
  -- the last END has been taken (R83, R87)
  (toFrame → sweepsBeyond zmap x.sweeps k → x.window = [] → x.endRead = true → becomes (stands x x.position) 0) ∧
  -- a SUSPENDED row of prior state RUNNING is past its end frame, whose show frame it stops at (R76, R91)
  (∀ e, r.suspended = true → r.phase = .running → r.endFrame = some e → e ≤ n →
    let y : Int := (e : Int) - r.anchor
    (y ≤ x.position → becomes (stands x x.position) 0) ∧
    (x.position < y → sweepsBeyond zmap x.sweeps y → cuesBeyond x.window y → becomes (stands x y) 0) ∧
    ∀ c later, x.position < y → x.window = c :: later → x.position ≤ c.time → c.time ≤ y → sweepsBeyond zmap x.sweeps y →
      cuesAfter c later y → c.action = .set ∨ c.action = .fade →
      ∃ x', CueTaken zmap c later x x' ∧ becomes (stands x' y) (emptied c later)) ∧
  -- a sweep in progress reaches a zone (R81)
  (∀ c i todo, toFrame → x.sweeps = [{ cue := c, todo := i :: todo }] → reachedAt zmap c i ≤ k →
    (∀ j ∈ todo, k < reachedAt zmap c j) → cuesBeyond x.window k →
    ∃ zs, ZonesTake c (reachedAt zmap c i) (fun j => j = i ∧ j < zmap.length) x.zones zs ∧
      becomes (stands { x with zones := zs, sweeps := if todo = [] then [] else [{ cue := c, todo := todo }] } k) 0) ∧
  -- one cue other than END is due (R80, R81, R82, R84)
  (∀ c later, toFrame → x.window = c :: later → x.position ≤ c.time → c.time ≤ k → sweepsBeyond zmap x.sweeps k →
    cuesAfter c later k →
    (c.action = .set ∨ c.action = .fade ∨ ((c.action = .sweepUp ∨ c.action = .sweepDown) ∧ c.time = k) →
      ∃ x', CueTaken zmap c later x x' ∧ becomes (stands x' k) (emptied c later)) ∧
    (c.action = .mark →
      (releasing → becomes (stands { x with window := later } k) (emptied c later)) ∧
      (¬ releasing → r.suspended = true →
        becomes (stands { markPended c.param (r.anchor + c.time) x with window := later } k) (emptied c later)) ∧
      (¬ releasing → r.suspended = false →
        becomes (markFiled c.param (r.anchor + c.time) (stands { x with window := later } k)) (emptied c later))) ∧
    (c.action = .gate →
      (releasing → becomes (stands { x with window := later, lateWatch := none } k) (emptied c later)) ∧
      (¬ releasing → r.suspended = true → becomes (stands x c.time) (emptied c later)) ∧
      (¬ releasing → r.suspended = false →
        (GateWaits (gateOf c r.anchor) n r →
          becomes { stands { x with window := later, lateWatch := none } c.time with phase := .gated (gateOf c r.anchor) }
            (emptied c later)) ∧
        ∀ q watch, GateReleased (gateOf c r.anchor) n r q watch →
          let passed : Int → Row := fun y =>
            { stands { x with window := later, lateWatch := watch } y with anchor := q - c.time }
          ∃ m, becomes (passed (max c.time ((n : Int) - (q - c.time : Nat)))) m ∧
            (q ≠ r.anchor + c.time → m = 1) ∧
            (q = r.anchor + c.time → (risesPast r (passed c.time) → m = 1) ∧ (¬ risesPast r (passed c.time) → m = 0))))) ∧
  -- a gate that waits, among cues of its own frame that are the last held, raises the projection limit to it (R88, R89)
  (∀ c later a, toFrame → ¬ releasing → x.window = c :: later → c.action = .gate → x.position < c.time → c.time = k →
    sweepsBeyond zmap x.sweeps k → (∀ d ∈ later, d.action ≠ .endShow ∧ d.time = c.time) →
    x.lastAnswer = some a → r.anchor + c.time ≤ a.frame →
    (r.suspended = true → becomes (stands x c.time) 1) ∧
    (r.suspended = false → GateWaits (gateOf c r.anchor) n r →
      becomes { stands { x with window := later, lateWatch := none } c.time with phase := .gated (gateOf c r.anchor) } 1)) ∧
  -- END is due (R70, R83, R87, R91)
  (∀ c later, toFrame → x.window = c :: later → x.position ≤ c.time → c.time ≤ k → sweepsBeyond zmap x.sweeps k →
    c.action = .endShow →
    (r.suspended = true → becomes (stands x c.time) 0) ∧
    (releasing → r.suspended = false → becomes (stands (lastEnd c.time x) c.time) 0) ∧
    (¬ releasing → r.suspended = false →
      (r.mode = .loop → r.passes ≠ 1 → cuesBeyond later (k - c.time) →
        becomes { nextPass c.time later begun with
          ctx := { (nextPass c.time later begun).ctx with position := k - c.time, starved := false } } 1) ∧
      (r.mode = .once ∨ r.passes = 1 →
        (h.release = 0 → idle 1) ∧
        (0 < h.release → becomes { stands (lastEnd c.time x) c.time with
          phase := .releasing (r.anchor + c.time) (attackWeight r.tag h.attack (r.anchor + c.time)) } 1)))) ∧
  -- a gate is released by timeout, and the cues stored after it are taken at this boundary (R85)
  (∀ g, free → ¬ ended → r.phase = .gated g → g.timeoutFrame ≤ n →
    let y : Int := (n : Int) - (g.timeoutFrame - g.time : Nat)
    let watched : Context := { x with lateWatch := if g.mark = 0 then none else some g.mark }
    let opened : Context → Row := fun x' =>
      { r with anchor := g.timeoutFrame - g.time, phase := .running
               ctx := { x' with position := max x.position y, starved := false } }
    (sweepsBeyond zmap x.sweeps y → cuesBeyond x.window y → becomes (opened watched) 1) ∧
    ∀ c later, x.window = c :: later → c.action = .set ∨ c.action = .fade → c.time ≤ y → sweepsBeyond zmap x.sweeps y →
      cuesAfter c later y → ∃ x', CueTaken zmap c later watched x' ∧ becomes (opened x') 1) ∧
  -- the window ends before the target (R79)
  (toFrame → sweepsBeyond zmap x.sweeps k → x.window = [] → x.endRead = false →
    becomes { begun with ctx := { x with starved := true } } 0) ∧
  ∀ last : Nat, toFrame → sweepsBeyond zmap x.sweeps k → x.window ≠ [] → x.catchUp = none →
    (∀ c ∈ x.window, c.action ≠ .endShow ∧ c.time = last) → last < k →
    becomes { begun with ctx := { x with position := max x.position ((last : Int) - 1), starved := true } } 0

/-! ### Several items due at one boundary (R75, R76) -/

/-- What passing a cue makes of a row but for its window, zones and sweeps: a MARK is filed in the row, or, of a SUSPENDED player, kept
pending, and in RELEASING passed over (R69, R82, R91); a GATE passed in RELEASING leaves no late watch (R84). -/
def cuePassed (r : Row) (c : Cue) : Row :=
  match c.action, r.phase with
  | .mark, .releasing _ _ => r
  | .mark, _ =>
    if r.suspended then { r with ctx := markPended c.param (r.anchor + c.time) r.ctx } else markFiled c.param (r.anchor + c.time) r
  | .gate, _ => { r with ctx := { r.ctx with lateWatch := none } }
  | _, _ => r

/-- A row whose gates are passed at their due frame (R84). -/
def isReleasing (r : Row) : Bool :=
  match r.phase with
  | .releasing _ _ => true
  | _ => false

/-- The cues of a row's window that are taken up to show frame `y`: those not beyond it that stand before END and, but in RELEASING,
before the first GATE (R76, R83, R84). -/
def dueCues (y : Int) (r : Row) : List Cue :=
  (cuesOpen (isReleasing r) r.ctx.window).takeWhile (fun c => decide ((c.time : Int) ≤ y))

/-- The sweeps in progress once every item up to show frame `y` is taken (R81): in stored order, those of the list and those of the SWEEP
cues among the cues taken that still have zones to reach, each with these zones, once, in the order it reaches them. -/
def SweepsLeft (zmap : List ZoneBoot) (y : Int) (before : List Sweep) (taken : List Cue) (after : List Sweep) : Prop :=
  after.Pairwise (fun a b => a.cue.index < b.cue.index) ∧
  (∀ w ∈ after, w.todo ≠ [] ∧ w.todo.Nodup ∧ w.todo.Pairwise (fun i j => reachedAt zmap w.cue i ≤ reachedAt zmap w.cue j)) ∧
  ∀ c i, (∃ w ∈ after, w.cue = c ∧ i ∈ w.todo) ↔
    y < reachedAt zmap c i ∧
      ((∃ w ∈ before, w.cue = c ∧ i ∈ w.todo) ∨ (c ∈ taken ∧ (c.action = .sweepUp ∨ c.action = .sweepDown) ∧ touchesAt zmap c i))

/-- What taking every item up to show frame `y`, in the order of R76, makes of a row: its zone state table and sweep list, its marks cue by
cue, and the window without the cues taken; the position moves at the end of the advance, and with the last cue held (R75, R79). -/
def DueTaken (zmap : List ZoneBoot) (y : Int) (r r' : Row) : Prop :=
  let taken := dueCues y r
  let later := r.ctx.window.drop taken.length
  let passed := taken.foldl cuePassed r
  ∃ zones sweeps, ItemsTaken zmap (isReleasing r) r.ctx y zones ∧ SweepsLeft zmap y r.ctx.sweeps taken sweeps ∧
    r' = { passed with ctx := { passed.ctx with
      window := later, zones := zones, sweeps := sweeps, position := if later = [] then y else r.ctx.position } }

/-- The items of a row up to show frame `y` are taken on the way to its target `k` (R75, R76, R79): its cues stand in order, its window tells
what comes up to `y`, and no GATE that stops the player, nor END, stands before `y`. -/
structure ItemsDue (zmap : List ZoneBoot) (k y : Int) (r : Row) : Prop where
  order : CuesInOrder zmap (isReleasing r) r.ctx
  reached : y ≤ k
  window : r.ctx.window ≠ []
  told : (∃ c ∈ r.ctx.window, c.action = .endShow) ∨ ∃ c, r.ctx.window.getLast? = some c ∧ (y < c.time ∨ k ≤ c.time)
  stop : ∀ c later, r.ctx.window = cuesOpen (isReleasing r) r.ctx.window ++ c :: later → y ≤ c.time

/-- What the boundary of frame `n` makes of the row of a player that advances, with as many items as are due: the items up to any show frame
`y` on the way are taken in order, and the row that leaves goes on as BoundaryCase has it (R75, R76). -/
def BoundaryAdvance (n : Nat) (p : Fin 4) (r : Row) (asked : Nat) (s t : State) : Prop :=
  let k : Int := (n : Int) - r.anchor
  BoundaryCase n p r asked s t ∧
  ∀ y, advancesAt (headerOr s r.showNo).release n r → r.ctx.position < k → ItemsDue (zonesOf s) k y r →
    ∃ r' later, DueTaken (zonesOf s) y r r' ∧ BoundaryCase n p r' later s t ∧
      asked = later + if r'.ctx.window = [] then (match r.ctx.window.getLast? with | some c => emptiedAsks c r | none => 0) else 0

/-- What the boundary of frame `n` makes of the row of player `p`, whatever is due, and the flushes it asks for: a RUNNING or GATED row that
meets its end frame asks for one and goes on as the RELEASING row it becomes (R77, R86). -/
def BoundaryRow (n : Nat) (p : Fin 4) (r : Row) (asked : Nat) (s t : State) : Prop :=
  let h := headerOr s r.showNo
  BoundaryAdvance n p r asked s t ∧
  ∀ e, r.suspended = false → r.ctx.catchUp = none → r.endFrame = some e → e ≤ n → n < e + h.release →
    r.phase = .running ∨ (∃ g, r.phase = .gated g) →
    ∃ later, asked = later + 1 ∧
      BoundaryAdvance n p { r with phase := .releasing e (attackWeight r.tag h.attack e) } later s t

/-- The row whose ANNOUNCE RUNNING is queued at the boundary of frame `n`, given the row before it and after it: an announcer's on its
schedule, or one that takes the duty (R63, R65). -/
def announcesAt (number n : Nat) (before after : Option Row) : Option Row :=
  match before, after with
  | some r, some r' =>
    if aliveRow r' = true ∧
        (if r.announcer = true then r'.tag ≤ n ∧ (n - r'.tag) % 160 = 0 else number ≠ 0 ∧ r.lastHeard + 480 ≤ n) then some r'
    else none
  | _, _ => none

/-- The announcements of the boundary of frame `n` are queued in ascending row on a transmit queue that stands as in `u`. -/
def announcedOn (n : Nat) (s t u : State) : LineInterface :=
  ((List.finRange 4).foldl (fun v p => match announcesAt s.start.number n s.rows[p] t.rows[p] with
    | some r => send (newFrame 2 (announceData 2 r)) v
    | none => v) u).line

/-- How many of a run of cues count, each judged with the row as the cues before it have left it. -/
def tallied (counts : Row → Cue → Bool) : Row → List Cue → Nat
  | _, [] => 0
  | r, c :: cs => (if counts r c then 1 else 0) + tallied counts (cuePassed r c) cs

/-- What the boundary of frame `n` counts, and sends, for the one player that is not IDLE (R69, R79, R81, R82, R85a): for one item that is
due, and for several taken in order with nothing due after them, or a gate or END that emits nothing. -/
def BoundaryEffects (n : Nat) (r : Row) (s t : State) : Prop :=
  let zmap := zonesOf s
  let x := r.ctx
  let k : Int := (n : Int) - r.anchor
  let toFrame : Prop := advancesAt (headerOr s r.showNo).release n r ∧ x.position < k ∧ sweepsBeyond zmap x.sweeps k
  (toFrame → (x.window = [] ∧ x.endRead = false) ∨
      (∃ last : Nat, x.window ≠ [] ∧ x.catchUp = none ∧
        (∀ c ∈ x.window, c.action ≠ .endShow ∧ c.time = last) ∧ last < k) →
    Counted (if x.starved then 0 else 1) .cueStarved s t) ∧
  (∀ y, advancesAt (headerOr s r.showNo).release n r → x.position < k → ItemsDue zmap k y r →
    let taken := dueCues y r
    let later := x.window.drop taken.length
    let marks := taken.filter (fun c => c.action == .mark)
    let emits : Bool := !r.suspended && !isReleasing r
    let fresh : Row → Cue → Bool := fun r c => c.action == .mark && !r.marks.any (fun e => e.1 == c.param)
    (later = [] ∨ cuesBeyond later k ∨ ∃ c rest, later = c :: rest ∧
      ((c.action = .gate ∧ c.time = y ∧ isReleasing r = false ∧
          (r.suspended = true ∨ GateWaits (gateOf c r.anchor) n (taken.foldl cuePassed r))) ∨
        (c.action = .endShow ∧ (r.suspended = true ∨ isReleasing r = true ∨ r.mode = .once ∨ r.passes = 1)))) →
    t.line = announcedOn n s t ((if emits then marks else []).foldl
      (fun v c => send (newFrame 3 (markData r.showNo r.tag c.param (r.anchor + c.time))) v) s) ∧
    count t .sweepOverflow = count s .sweepOverflow ∧ count t .cueStarved = count s .cueStarved ∧
    Counted (if r.suspended = true ∧ isReleasing r = false then min marks.length (x.pendingMarks.length + marks.length - 4) else 0)
      .marksUnsent s t ∧
    Counted (if emits then tallied (fun r c => fresh r c && decide (16 ≤ r.marks.length)) r taken else 0) .marksDropped s t ∧
    Counted (if emits then tallied (fun r c => fresh r c && r.ctx.lateWatch == some c.param) r taken else 0) .marksLate s t) ∧
  ∀ c later, toFrame → x.window = c :: later → c.time ≤ k → cuesAfter c later k →
    (c.action = .sweepUp ∨ c.action = .sweepDown → c.time = k →
      (8 ≤ x.sweeps.length → (∃ i, touchesAt zmap c i ∧ reachedAt zmap c i ≠ c.time) → Counted 1 .sweepOverflow s t) ∧
      (x.sweeps.length < 8 ∨ (∀ i, touchesAt zmap c i → reachedAt zmap c i = c.time) →
        count t .sweepOverflow = count s .sweepOverflow)) ∧
    (c.action = .mark → r.suspended = true → r.phase = .running →
      Counted (if 4 ≤ x.pendingMarks.length then 1 else 0) .marksUnsent s t ∧ t.line = announcedOn n s t s) ∧
    (c.action = .mark → r.suspended = false → (∀ start w, r.phase ≠ .releasing start w) →
      Counted (if (r.marks.any (fun e => e.1 == c.param)) = false ∧ 16 ≤ r.marks.length then 1 else 0) .marksDropped s t ∧
      Counted (if (r.marks.any (fun e => e.1 == c.param)) = false ∧ x.lateWatch = some c.param then 1 else 0) .marksLate s t ∧
      t.line = announcedOn n s t (send (newFrame 3 (markData r.showNo r.tag c.param (r.anchor + c.time))) s))

/-! ### What a request, a new pair and a correction notice make of a row (3, 4) -/

/-- The row that a request creates at frame `now` on a station of `zones` local zones (R57, R74, R90): ARMED or RUNNING by its anchor, in
a JOIN catch-up when RUNNING, SUSPENDED while the hold list is not empty; an own request's row announces. -/
def createdRow (zones number now : Nat) (suspended : Bool) (q : Request) : Row :=
  { phase := if now < q.anchor then .armed else .running, suspended := suspended, showNo := q.showNo, priority := q.priority
    tag := q.tag, anchor := q.anchor, endFrame := q.endFrame, mode := q.mode, passes := q.passes, origin := q.origin
    announcer := q.origin.isOwn && number != 0, lastHeard := now, marks := []
    ctx := { freshContext zones with
      catchUp := if q.anchor ≤ now ∧ suspended = false then some { kind := .join, held := List.replicate zones none } else none } }

/-- A row that adopts a request's pair and fields, before its player repositions (R55); an own request's row announces. -/
def adoptedRow (number : Nat) (q : Request) (r : Row) : Row :=
  { r with
    tag := q.tag, anchor := q.anchor, priority := q.priority, endFrame := q.endFrame, mode := q.mode, passes := q.passes
    origin := q.origin, marks := if q.tag = r.tag then r.marks else [], announcer := r.announcer || (q.origin.isOwn && number != 0) }

/-- Row `p` is the one that allocation evicts for a priority when no row is IDLE (R56): of the rows of lower priority that of the
lowest, then of the smallest tag, then of the highest player index. -/
def Evicted (s : State) (priority : Nat) (p : Fin 4) : Prop :=
  ∃ r, s.rows[p] = some r ∧ r.priority < priority ∧
    ∀ (i : Fin 4) (o : Row), i ≠ p → s.rows[i] = some o → o.priority < priority →
      r.priority < o.priority ∨ (r.priority = o.priority ∧ (r.tag < o.tag ∨ (r.tag = o.tag ∧ i < p)))

/-- A context at the show's start (R74, R90). -/
def rewound (zones : Nat) (x : Context) : Context :=
  { x with position := -1, window := [], nextCue := 0, endRead := false, refillAsked := false, starved := false, sweeps := []
           zones := List.replicate zones (Vector.replicate 4 none) }

/-- A player begins a catch-up (R90): one of kind JOIN from the show's start, another from its position; the values held are those of
the catch-up it replaces, or those last answered, or transparent. -/
def inCatchUp (zones : Nat) (kind : CatchKind) (r : Row) : Row :=
  let held := match r.ctx.catchUp, r.ctx.lastAnswer with
    | some u, _ => u.held
    | none, some a => a.values
    | none, none => List.replicate zones none
  { r with ctx := { (if kind = .join then rewound zones r.ctx else r.ctx) with
      catchUp := some { kind := kind, held := held }, starved := false } }

/-- JOIN from the show's start, FORWARD from a kept position (R90, R93, R94). -/
def forwardKind (r : Row) : CatchKind := if r.ctx.position = -1 then .join else .forward

/-- The player of a row that has adopted a new pair repositions at frame `now` (R93). -/
def Repositioned (zones now : Nat) (newTag : Bool) (r r' : Row) : Prop :=
  let start : Context := { rewound zones r.ctx with lateWatch := none, pendingMarks := [] }
  let phase : Phase := if now < r.anchor then .armed else .running
  if newTag = true then
    if r.suspended = true then r' = { r with phase := phase, ctx := start }
    else if now < r.anchor then r' = { r with phase := .armed, ctx := { start with catchUp := none } }
    else r' = inCatchUp zones .join { r with phase := .running, ctx := start }
  else
    match r.phase with
    | .armed =>
      r' = (if r.suspended = true ∨ now < r.anchor then r else inCatchUp zones (forwardKind r) { r with phase := .running })
    | .running =>
      r' = (if r.suspended = true then r
            else if now < r.anchor then { r with phase := .armed, ctx := { r.ctx with catchUp := none } }
            else inCatchUp zones .forward r)
    | .gated g =>
      let moved : Gate := { g with due := r.anchor + g.time, timeoutFrame := r.anchor + g.time + g.timeout * 40 }
      (r.suspended = true ∨ GateWaits moved now r → r' = { r with phase := .gated moved }) ∧
      ∀ q watch, r.suspended = false → GateReleased moved now r q watch →
        r' = inCatchUp zones .forward
          { r with anchor := q - g.time, phase := .running, ctx := { r.ctx with lateWatch := watch } }
    | .releasing _ _ => r' = r

/-! ### Resumption (R92) -/

/-- A row that is SUSPENDED no more, its pending marks filed in the order taken (R67, R69, R92). -/
def freedRow (r : Row) : Row :=
  let filed := r.ctx.pendingMarks.foldl (fun r e => markFiled e.1 e.2 r) r
  { filed with suspended := false, ctx := { filed.ctx with pendingMarks := [] } }

/-- What resumption makes of a SUSPENDED row at frame `now`, on a station of `zones` local zones and for a show of `attack` and `release`
frames (R92): its pending marks are filed, and its prior state is evaluated again at `now`. -/
def Resumed (zones now attack release : Nat) (r : Row) (becomes : Option Row → Prop) : Prop :=
  let free := freedRow r
  let ended : Prop := ∃ e, r.endFrame = some e ∧ e ≤ now
  (r.phase = .armed →
    (ended → becomes none) ∧
    (¬ ended → becomes (some
      (if now < r.anchor then free else inCatchUp zones (forwardKind r) { free with phase := .running })))) ∧
  (r.phase = .running → becomes (some (inCatchUp zones .resume free))) ∧
  (∀ start w, r.phase = .releasing start w →
    becomes (if start + release ≤ now then none else some (inCatchUp zones .resume free))) ∧
  ∀ g, r.phase = .gated g →
    (∀ e, r.endFrame = some e → e ≤ now →
      becomes (if release = 0 ∨ e + release ≤ now then none
               else some { free with phase := .releasing e (attackWeight r.tag attack e) })) ∧
    (¬ ended →
      (GateWaits g now free → becomes (some free)) ∧
      ∀ q watch, GateReleased g now free q watch →
        becomes (some (inCatchUp zones .resume
          { free with anchor := q - g.time, phase := .running, ctx := { free.ctx with lateWatch := watch } })))

/-- The MARK frames of the players that resume, queued on a transmit queue that stands as in `v`: players ascending, and each player's
in the order taken (R69, R92). -/
def marksResumed (s v : State) : State :=
  (List.finRange 4).foldl (fun v p => match s.rows[p] with
    | some r =>
      if r.suspended then
        r.ctx.pendingMarks.foldl (fun v e => send (newFrame 3 (markData r.showNo r.tag e.1 e.2)) v) v
      else v
    | none => v) v

/-- The hold list has become `list`, and the change is reported as R158 states: from empty to not empty every player that is
not IDLE stands SUSPENDED (R91), from not empty to empty every SUSPENDED one resumes (R92), with a flush asked either time,
and a change that leaves it not empty, or empty, on both sides is not reported. -/
structure HoldListBecomes (list : List Nat) (s t : State) : Prop where
  held : t.safety.holdList = list
  quiet : (s.safety.holdList = [] ↔ list = []) → SameInstances s t ∧ SameLibrary s t ∧ t.mixer = s.mixer
  began : s.safety.holdList = [] → list ≠ [] →
    s.mixer.flushAsked < t.mixer.flushAsked ∧ SameLibrary s t ∧
    ∀ p : Fin 4, t.rows[p].map Row.noAsk = s.rows[p].map (fun r =>
      (if r.suspended then r else { r with suspended := true, ctx := { r.ctx with catchUp := none } }).noAsk)
  ended : s.safety.holdList ≠ [] → list = [] →
    s.mixer.flushAsked < t.mixer.flushAsked ∧ SameLibrary s t ∧ RefillsAsked t ∧
    ∀ p : Fin 4, (s.rows[p] = none → t.rows[p] = none) ∧ ∀ r, s.rows[p] = some r →
      (r.suspended = false → t.rows[p].map Row.noAsk = some r.noAsk) ∧
      (r.suspended = true →
        Resumed (zonesOf s).length (frameNow s) (headerOr s r.showNo).attack (headerOr s r.showNo).release r
          (fun x => t.rows[p].map Row.noAsk = x.map Row.noAsk))
  counted : Counted (if s.safety.holdList = [] ∧ list ≠ [] then 1 else 0) .safetyHolds s t

/-! ### Steps, stops and corrections (1, 3, 4) -/

/-- What a STEP FORWARD that lands on frame `now` makes of a row, for a show of `release` frames (R94). -/
def steppedForward (zones now release : Nat) (r : Row) : Option Row :=
  if r.suspended = true ∨ r.ctx.catchUp.isSome = true then some r
  else
    match r.phase with
    | .armed => some (if r.anchor ≤ now then inCatchUp zones (forwardKind r) { r with phase := .running } else r)
    | .running => some (inCatchUp zones .forward r)
    | .gated g =>
      some (if g.timeoutFrame ≤ now then
          inCatchUp zones .forward { r with
            anchor := g.timeoutFrame - g.time, phase := .running
            ctx := { r.ctx with lateWatch := if g.mark = 0 then none else some g.mark } }
        else r)
    | .releasing start _ => if start + release ≤ now then none else some (inCatchUp zones .forward r)

/-- What a STEP BACKWARD that lands on frame `now` makes of a row (R90, R94): a catch-up whose target has fallen to its position ends, and
a RUNNING row whose anchor lies ahead is ARMED again. -/
def steppedBackward (now : Nat) (r : Row) : Row :=
  let r := if (now : Int) - r.anchor ≤ r.ctx.position then { r with ctx := { r.ctx with catchUp := none } } else r
  if r.phase = .running ∧ now < r.anchor then { r with phase := .armed } else r

/-- A row's last announcement heard moves with a step of `amount` µs (R71). -/
def heardMoved (amount : Int) (r : Row) : Row := { r with lastHeard := r.lastHeard + amount.tdiv 25000 }

/-- What a correction of `amount` µs makes of the peers and the reference's latest offset (R4): samples and previous samples less the
amount, and, at a step, last arrivals more by it. -/
def correctedTime (amount : Int) (step : Bool) (t : TimeUnit) : TimeUnit :=
  { t with
    peers := t.peers.map (fun p => { p with
      previous := p.previous.map (fun x => x - amount), sample := p.sample.map (fun x => { x with value := x.value - amount })
      lastArrival := if step = true then p.lastArrival + amount else p.lastArrival })
    ref := { t.ref with offset := t.ref.offset.map (fun x => x - amount) }, stepFlags := 8 }

/-- The counter lands on `ns`, whose frame and second count as reached (R1). -/
def landedOn (ns : Nat) (t : TimeUnit) : TimeUnit :=
  { t with ns := ns, lastBoundary := ns / 25000000, lastSecond := ns / 1000000000 }

/-! ### What a second, a request and a catch-up make of the station (2 to 4) -/

/-- What whole second `n` makes of an entry while time is valid and nothing steps it (R33 to R35, R38): an entry that acts is
recomputed, and the window it opens ends at the later of that firing's end and the end its look-back finds (log entry 15); a
window whose end has come closes, and the start of a day recomputes an entry that has no next-fire. -/
def secondPassed (dusk : List (Nat × Nat)) (seasons : List Season) (n : Nat) (e : Entry) : Entry :=
  let found := e.recompute dusk seasons true n
  let fin := (n + e.duration) * 40
  let acted :=
    if e.enabled = true ∧ e.nextFire = some (n * 40) then
      if e.isShow = true ∨ e.duration = 0 then found
      else { found with windowEnd := some (match found.windowEnd with | some w => max w fin | none => fin) }
    else e
  let closed := if ∃ w, acted.windowEnd = some w ∧ w ≤ n * 40 then { acted with windowEnd := none } else acted
  if n % 86400 = 0 ∧ closed.nextFire = none then closed.recompute dusk seasons true n else closed

/-- What whole second `n` makes of an entry when its discipline event corrects the counter or sets or clears time-valid, with `valid` and
`current` the flag and the current second that leaves (R33 to R38): it is recomputed, and an entry that was due at `n` opens its window,
unless the time has left it, beside what the look-back finds (log entry 15); the start of a day recomputes an entry that has no
next-fire. -/
def correctedEntry (dusk : List (Nat × Nat)) (seasons : List Season) (valid : Bool) (n current : Nat) (e : Entry) : Entry :=
  let found := e.recompute dusk seasons valid current
  let fin := (n + e.duration) * 40
  let acted :=
    if valid = true ∧ e.enabled = true ∧ e.isShow = false ∧ e.nextFire = some (n * 40) ∧ n ≤ current ∧ current < n + e.duration then
      { found with windowEnd := some (match found.windowEnd with | some w => max w fin | none => fin) }
    else found
  if n % 86400 = 0 ∧ acted.nextFire = none then acted.recompute dusk seasons valid current else acted

/-- The tables are recomputed as of a second, and the selection made on them is handed over (R33, R40). -/
def RecomputedAt (current : Nat) (s t : State) : Prop :=
  t.cal.entries = s.cal.entries.map (fun e => e.recompute s.cal.dusk s.cal.seasons t.time.timeValid current) ∧
  t.mixer.curfew = (selectCurfew t.cal.entries).map (·.2) ∧ t.mixer.base = (selectBase t.cal.entries).map (·.2)

/-- The recurrence day of an enabled SHOW entry whose firing instant lies among the seconds after `before` up to `now` (R37). -/
def skippedOn (s : State) (before now : Nat) (e : Entry) (day : Nat) : Prop :=
  e ∈ s.cal.entries ∧ e.enabled = true ∧ e.isShow = true ∧ e.recursOn day = true ∧ day ≤ 36524 ∧
    before / 86400 ≤ day + 1 ∧ day ≤ now / 86400 + 1 ∧ before < instantOf s.cal.dusk s.cal.seasons e.anchor day ∧
    instantOf s.cal.dusk s.cal.seasons e.anchor day ≤ now

/-- What taking an accepted request makes of the station (R54 to R57): `becomes p x` tells that row `p` becomes `x`, `asks k` that `k`
flushes are asked, and `tells x` that the own station announces the start of row `x`, or with none nothing. -/
def RequestTaken (q : Request) (s t : State) (becomes : Fin 4 → Option Row → Prop) (asks : Nat → Prop)
    (tells : Option Row → Prop) : Prop :=
  let now := frameNow s
  let zones := (zonesOf s).length
  let new := createdRow zones s.start.number now (s.safety.holdList != []) q
  let said : Row → Prop := fun r => tells (if q.origin.isOwn then some r else none)
  let others : Fin 4 → Prop := fun p => ∀ i : Fin 4, i ≠ p → becomes i s.rows[i]
  let sameCounts : Prop := count t .evictions = count s .evictions ∧ count t .instanceFull = count s .instanceFull
  let unheld : Prop := ∀ (i : Fin 4) (r : Row), s.rows[i] = some r → r.showNo ≠ q.showNo
  -- not held: the lowest IDLE row, else the row that gives way, else FULL (R56)
  (∀ p : Fin 4, unheld → s.rows[p] = none → (∀ i : Fin 4, i < p → s.rows[i] ≠ none) →
    becomes p (some new) ∧ others p ∧ asks 1 ∧ said new ∧ sameCounts) ∧
  (∀ p : Fin 4, unheld → (∀ i : Fin 4, s.rows[i] ≠ none) → Evicted s q.priority p →
    becomes p (some new) ∧ others p ∧ asks 2 ∧ said new ∧ Counted 1 .evictions s t ∧
      count t .instanceFull = count s .instanceFull) ∧
  (unheld → (∀ i : Fin 4, ∃ r, s.rows[i] = some r ∧ q.priority ≤ r.priority) →
    (∀ i : Fin 4, becomes i s.rows[i]) ∧ asks 0 ∧ tells none ∧ Counted 1 .instanceFull s t ∧
      count t .evictions = count s .evictions) ∧
  -- held: a RELEASING row is cut, another settles on the smaller pair (R54, R55, R93)
  ∀ (p : Fin 4) (r : Row), s.rows[p] = some r → r.showNo = q.showNo →
    (∀ (i : Fin 4) (o : Row), i < p → s.rows[i] = some o → o.showNo ≠ q.showNo) →
    others p ∧ sameCounts ∧
    ((∃ start w, r.phase = .releasing start w) → becomes p (some new) ∧ asks 2 ∧ said new) ∧
    ((∀ start w, r.phase ≠ .releasing start w) →
      (q.tag < r.tag ∨ (q.tag = r.tag ∧ q.anchor < r.anchor) →
        (∃ r', Repositioned zones now (q.tag != r.tag) (adoptedRow s.start.number q r) r' ∧ becomes p (some r')) ∧
          (∃ k, 1 ≤ k ∧ asks k) ∧ said (adoptedRow s.start.number q r)) ∧
      (¬ (q.tag < r.tag ∨ (q.tag = r.tag ∧ q.anchor < r.anchor)) → becomes p (some r) ∧ asks 0 ∧ tells none))

/-- What a run of the catch-up of player `p` makes of its row (R86, R89, R90): it takes the items up to its target show frame `k` and
completes, or ends with its release, or waits for cues. The cases name what is left up to the target. -/
def CatchUpRun (p : Fin 4) (r : Row) (u : CatchUp) (s t : State) : Prop :=
  let zmap := zonesOf s
  let h := headerOr s r.showNo
  let now := frameNow s
  let x := r.ctx
  let k : Int := (now : Int) - r.anchor
  let becomes : Row → Prop := fun r' => t.rows[p].map Row.noAsk = some r'.noAsk
  let completes : Context → Context := fun x' => { x' with catchUp := none }
  let reaches : Context → Row := fun x' => { r with ctx := completes { x' with position := k } }
  let releasing : Prop := ∃ start w, r.phase = .releasing start w ∧ now < start + h.release
  let goesOn : Prop := (r.phase = .running ∧ ∀ e, r.endFrame = some e → now < e) ∨ releasing
  let weightAt : Nat → Nat := attackWeight r.tag h.attack
  -- the release is over (R77)
  (∀ start w, r.phase = .releasing start w → start + h.release ≤ now → t.rows[p] = none ∧ FlushesAsked 1 s t) ∧
  -- nothing is left (R90)
  (goesOn → k ≤ x.position → (∀ i, nextItem zmap x = some i → k < i.frame) →
    becomes { r with ctx := completes x } ∧ FlushesAsked 1 s t) ∧
  (goesOn → x.position < k → sweepsBeyond zmap x.sweeps k → cuesBeyond x.window k → becomes (reaches x) ∧ FlushesAsked 1 s t) ∧
  (releasing → x.position < k → sweepsBeyond zmap x.sweeps k → x.window = [] → x.endRead = true →
    becomes { r with ctx := completes x } ∧ FlushesAsked 1 s t) ∧
  -- cues are wanting (R79)
  (goesOn → x.position < k → sweepsBeyond zmap x.sweeps k → x.window = [] → x.endRead = false →
    becomes r ∧ t.mixer = s.mixer) ∧
  -- the last cue held is a SET or FADE: the run completes at it, or waits beyond it for cues (R79, R89)
  (∀ c, goesOn → x.position < k → x.window = [c] → x.position ≤ c.time → c.time ≤ k → sweepsBeyond zmap x.sweeps k →
    c.action = .set ∨ c.action = .fade → ∃ x', CueTaken zmap c [] x x' ∧
      (c.time = k → becomes (reaches x') ∧ FlushesAsked (emptiedAsks c r + 1) s t) ∧
      (c.time < k → x.endRead = false →
        becomes { r with ctx := { x' with position := c.time } } ∧ FlushesAsked (emptiedAsks c r) s t)) ∧
  -- a sweep in progress reaches a zone (R81)
  (∀ c i todo, goesOn → x.position < k → x.sweeps = [{ cue := c, todo := i :: todo }] → reachedAt zmap c i ≤ k →
    (∀ j ∈ todo, k < reachedAt zmap c j) → cuesBeyond x.window k →
    FlushesAsked 1 s t ∧ ∃ zs, ZonesTake c (reachedAt zmap c i) (fun j => j = i ∧ j < zmap.length) x.zones zs ∧
      becomes (reaches { x with zones := zs, sweeps := if todo = [] then [] else [{ cue := c, todo := todo }] })) ∧
  -- one cue other than END (R80, R81, R82, R84)
  (∀ c later, goesOn → x.position < k → x.window = c :: later → x.position ≤ c.time → c.time ≤ k →
    sweepsBeyond zmap x.sweeps k → cuesBeyond later k →
    (c.action = .set ∨ c.action = .fade ∨ ((c.action = .sweepUp ∨ c.action = .sweepDown) ∧ c.time = k) →
      FlushesAsked 1 s t ∧ ∃ x', CueTaken zmap c later x x' ∧ becomes (reaches x')) ∧
    (c.action = .mark → FlushesAsked 1 s t ∧
      (releasing ∨ u.kind ≠ .resume → becomes (reaches { x with window := later }) ∧ t.line = s.line) ∧
      (r.phase = .running → u.kind = .resume →
        becomes (markFiled c.param (r.anchor + c.time) (reaches { x with window := later })) ∧
        t.line = (send (newFrame 3 (markData r.showNo r.tag c.param (r.anchor + c.time))) s).line)) ∧
    (c.action = .gate →
      (releasing → becomes (reaches { x with window := later, lateWatch := none }) ∧ FlushesAsked 1 s t) ∧
      (r.phase = .running →
        (GateWaits (gateOf c r.anchor) now r → FlushesAsked 1 s t ∧
          becomes { r with phase := .gated (gateOf c r.anchor)
                           ctx := completes { x with window := later, lateWatch := none, position := c.time } }) ∧
        ∀ q watch, GateReleased (gateOf c r.anchor) now r q watch → s.mixer.flushAsked < t.mixer.flushAsked ∧
          becomes { r with
            anchor := q - c.time
            ctx := completes { x with window := later, lateWatch := watch
                                      position := max c.time ((now : Int) - (q - c.time : Nat)) } }))) ∧
  -- END (R70, R83, R87)
  (∀ c later, goesOn → x.position < k → x.window = c :: later → x.position ≤ c.time → c.time ≤ k →
    sweepsBeyond zmap x.sweeps k → c.action = .endShow →
    (releasing → becomes { r with ctx := completes (lastEnd c.time x) } ∧ FlushesAsked 1 s t) ∧
    (r.phase = .running →
      (r.mode = .loop → r.passes ≠ 1 → cuesBeyond later (k - c.time) → FlushesAsked 2 s t ∧
        becomes { nextPass c.time later r with
          ctx := completes { (nextPass c.time later r).ctx with position := k - c.time } }) ∧
      (r.mode = .once ∨ r.passes = 1 → FlushesAsked 2 s t ∧
        (h.release = 0 ∨ r.anchor + c.time + h.release ≤ now → t.rows[p] = none) ∧
        (0 < h.release → now < r.anchor + c.time + h.release →
          becomes { r with phase := .releasing (r.anchor + c.time) (weightAt (r.anchor + c.time))
                           ctx := completes (lastEnd c.time x) })))) ∧
  -- the end frame lies behind (R86)
  ∀ e, r.phase = .running → r.endFrame = some e → e ≤ now → x.position < k → sweepsBeyond zmap x.sweeps k →
    let released : Context → Row := fun x' => { reaches x' with phase := .releasing e (weightAt e) }
    (h.release = 0 ∨ e + h.release ≤ now → cuesBeyond x.window k → t.rows[p] = none ∧ FlushesAsked 2 s t) ∧
    (0 < h.release → now < e + h.release →
      (cuesBeyond x.window k → becomes (released x) ∧ FlushesAsked 2 s t) ∧
      ∀ c later, x.window = c :: later → x.position ≤ c.time → c.time ≤ k → cuesBeyond later k →
        (c.action = .set ∨ c.action = .fade → FlushesAsked 2 s t ∧
          ∃ x', CueTaken zmap c later x x' ∧ becomes (released x')) ∧
        (c.action = .mark → (e : Int) < r.anchor + c.time → FlushesAsked 2 s t ∧
          becomes (released { x with window := later }) ∧ t.line = s.line))

/-! ### Refills (6) -/

/-- What a refill makes of the context of a player's row: cues are read from the read point in stored order until the window holds 32 or END
has been read, and on from the show's first cue where the instance will loop (R78, R125). One whose read point has no cue left reads
none. -/
def CuesRead (s : State) (slot : Fin 32) (r : Row) (x' : Context) : Prop :=
  let x := r.ctx
  let loops : Prop := r.mode = .loop ∧ r.passes ≠ 1
  let again : Prop := x.endRead = true ∧ loops ∧ x.window ≠ []
  (x.endRead = true → ¬ again → x' = x) ∧
  (x.endRead = false ∨ again → ∃ (m : Nat) (point : Nat → Nat) (new : List Cue),
    x' = { x with window := x.window ++ new, nextCue := point m, endRead := x'.endRead } ∧ new.length = m ∧
    point 0 = (if again then 0 else x.nextCue) ∧
    (∀ j, j < m → ∃ cue, cueOfSlot s slot (point j) = some cue ∧ new[j]? = some cue ∧
      (cue.action = .endShow → loops → point (j + 1) = 0) ∧
      (cue.action = .endShow → ¬ loops → point (j + 1) = point j + 1 ∧ j + 1 = m ∧ x'.endRead = true) ∧
      (cue.action ≠ .endShow → point (j + 1) = point j + 1)) ∧
    (x'.endRead = false → 32 ≤ x'.window.length) ∧
    (x'.endRead = true → cueOfSlot s slot (point m) = none ∨ ∃ cue, new.getLast? = some cue ∧ cue.action = .endShow))

/-- What the cues read make of the row of a starved player, and what it asks for (R79): every item up to the target `k` is taken at once and a
flush asked, or the player stays starved while its window still falls short. -/
def StarvedRefilled (p : Fin 4) (r : Row) (s t : State) : Prop :=
  let zmap := zonesOf s
  let x := r.ctx
  let now : Int := (frameNow s : Int) - r.anchor
  let k : Int := match r.endFrame with
    | some e => if r.suspended = true ∧ r.phase = .running then min now ((e : Int) - r.anchor) else now
    | none => now
  let becomes : Context → Prop := fun x' => t.rows[p].map Row.noAsk = some { r with ctx := x' }.noAsk
  s.mixer.flushAsked < t.mixer.flushAsked ∧
  (x.position < k → sweepsBeyond zmap x.sweeps k → cuesBeyond x.window k → becomes { x with position := k, starved := false }) ∧
  (∀ c later, x.position < k → x.window = c :: later → x.position ≤ c.time → c.time ≤ k → sweepsBeyond zmap x.sweeps k →
    cuesAfter c later k → c.action = .set ∨ c.action = .fade →
    ∃ x', CueTaken zmap c later x x' ∧ becomes { x' with position := k, starved := false }) ∧
  (x.position < k → sweepsBeyond zmap x.sweeps k → x.window = [] → x.endRead = false →
    becomes x ∧ count t .cueStarved = count s .cueStarved)

/-! ### The frames among the commands -/

/-- The sender of a command that a checked line frame brings. -/
def frameSender : Instr → Option LineNumber
  | .restart n _ | .beacon n _ _ _ | .timeSet n _ _ _ | .entryWrite n _ _ | .entryExtra n _ _ | .entryDelete n _ _ => some n
  | .calendarClear n _ | .duskBlock n _ _ _ | .seasonWrite n _ _ _ | .seasonClear n _ | .startShow n _ _ => some n
  | .announceStart n _ | .announceRunning n _ | .stopShow n _ _ | .stopAll n _ | .announceStop n _ => some n
  | .mark n _ _ _ _ | .clearFaults n _ | .safetySet n | .safetyClear n | .safetyClearAll n _ => some n
  | .showBegin n _ _ _ | .showBlock n _ _ _ _ | .showDelete n _ _ => some n
  | .queryStatusPage n _ _ | .queryTime n _ _ | .queryPeer n _ _ | .queryInstance n _ _ | .querySlot n _ _ => some n
  | .queryReceivedSet n _ _ | .queryEntry n _ _ | .queryCalendar n _ _ | .queryLink n _ _ => some n
  | .queryHoldList n _ _ | .queryInputs n _ _ | .queryBoot n _ _ | .queryUnknownItem n _ _ _ => some n
  | .powerStart _ _ _ | .restartPinFall _ | .restartPinRise _ _ | .restartTimeout | .towerFrameBoundary => none
  | .wholeSecond | .holdEnd | .referencePulse | .referenceMessage _ | .referenceMessageTimeout | .referenceSilence => none
  | .catchUpComplete _ | .flushRequest | .renderBegin | .renderComplete | .linkFrameEnd _ | .refreshExpiry => none
  | .senseChange _ | .deglitchExpiry _ | .retryExpiry _ _ | .inputChange _ _ | .debounceExpiry _ | .resendExpiry => none
  | .refillComplete | .sectorEraseComplete | .tagWriteComplete | .deadMarkWriteComplete | .blockWriteComplete => none
  | .checkReadComplete | .lineIdle | .arbitrationLost | .dataFieldContention | .frameSent | .lineFault => none
  | .frameReceived _ | .mainPowerLoss _ | .backupSecond => none

/-- The target byte of a console frame, and whether its target must be the station's own number (RESTART and QUERY, R178, R180). -/
def frameTarget : Instr → Option (Byte × Bool)
  | .restart _ t => some (t, true)
  | .timeSet _ t _ _ | .entryWrite _ t _ | .entryExtra _ t _ | .entryDelete _ t _ | .calendarClear _ t => some (t, false)
  | .duskBlock _ t _ _ | .seasonWrite _ t _ _ | .seasonClear _ t | .startShow _ t _ | .stopShow _ t _ => some (t, false)
  | .stopAll _ t | .clearFaults _ t | .safetyClearAll _ t => some (t, false)
  | .showBegin _ t _ _ | .showBlock _ t _ _ _ | .showDelete _ t _ => some (t, false)
  | .queryStatusPage _ t _ | .queryTime _ t _ | .queryPeer _ t _ | .queryInstance _ t _ | .querySlot _ t _ => some (t, true)
  | .queryReceivedSet _ t _ | .queryEntry _ t _ | .queryCalendar _ t _ | .queryLink _ t _ => some (t, true)
  | .queryHoldList _ t _ | .queryInputs _ t _ | .queryBoot _ t _ | .queryUnknownItem _ t _ _ => some (t, true)
  | .beacon _ _ _ _ | .announceStart _ _ | .announceRunning _ _ | .announceStop _ _ | .mark _ _ _ _ _ => none
  | .safetySet _ | .safetyClear _ => none
  | .powerStart _ _ _ | .restartPinFall _ | .restartPinRise _ _ | .restartTimeout | .towerFrameBoundary => none
  | .wholeSecond | .holdEnd | .referencePulse | .referenceMessage _ | .referenceMessageTimeout | .referenceSilence => none
  | .catchUpComplete _ | .flushRequest | .renderBegin | .renderComplete | .linkFrameEnd _ | .refreshExpiry => none
  | .senseChange _ | .deglitchExpiry _ | .retryExpiry _ _ | .inputChange _ _ | .debounceExpiry _ | .resendExpiry => none
  | .refillComplete | .sectorEraseComplete | .tagWriteComplete | .deadMarkWriteComplete | .blockWriteComplete => none
  | .checkReadComplete | .lineIdle | .arbitrationLost | .dataFieldContention | .frameSent | .lineFault => none
  | .frameReceived _ | .mainPowerLoss _ | .backupSecond => none

/-- The data bytes of the checked line frame that brings a command (R174); 0 for an event of the part itself. -/
def dataBytes : Instr → Nat
  | .safetySet _ | .safetyClear _ => 1
  | .safetyClearAll _ _ | .stopAll _ _ | .clearFaults _ _ | .restart _ _ | .calendarClear _ _ | .seasonClear _ _ => 2
  | .stopShow _ _ _ | .showDelete _ _ _ => 3
  | .entryDelete _ _ _ => 4
  | .showBegin _ _ _ _ => 5
  | .queryStatusPage _ _ _ | .queryTime _ _ _ | .queryPeer _ _ _ | .queryInstance _ _ _ | .querySlot _ _ _ => 5
  | .queryReceivedSet _ _ _ | .queryEntry _ _ _ | .queryCalendar _ _ _ | .queryLink _ _ _ => 5
  | .queryHoldList _ _ _ | .queryInputs _ _ _ | .queryBoot _ _ _ | .queryUnknownItem _ _ _ _ => 5
  | .seasonWrite _ _ _ _ => 7
  | .timeSet _ _ _ _ => 9
  | .mark _ _ _ _ _ => 12
  | .beacon _ _ _ _ => 13
  | .startShow _ _ _ => 14
  | .announceStart _ _ | .announceRunning _ _ | .announceStop _ _ => 17
  | .duskBlock _ _ _ _ => 20
  | .entryWrite _ _ _ | .entryExtra _ _ _ | .showBlock _ _ _ _ _ => 21
  | .powerStart _ _ _ | .restartPinFall _ | .restartPinRise _ _ | .restartTimeout | .towerFrameBoundary => 0
  | .wholeSecond | .holdEnd | .referencePulse | .referenceMessage _ | .referenceMessageTimeout | .referenceSilence => 0
  | .catchUpComplete _ | .flushRequest | .renderBegin | .renderComplete | .linkFrameEnd _ | .refreshExpiry => 0
  | .senseChange _ | .deglitchExpiry _ | .retryExpiry _ _ | .inputChange _ _ | .debounceExpiry _ | .resendExpiry => 0
  | .refillComplete | .sectorEraseComplete | .tagWriteComplete | .deadMarkWriteComplete | .blockWriteComplete => 0
  | .checkReadComplete | .lineIdle | .arbitrationLost | .dataFieldContention | .frameSent | .lineFault => 0
  | .frameReceived _ | .mainPowerLoss _ | .backupSecond => 0

/-- A target byte that a station of this number takes (R174): its own number, or 0 for every station where the command
allows it. A listen-only station, number 0, takes no frame that must be targeted at it by number. -/
def targetTaken (s : State) (t : Byte × Bool) : Bool := if t.2 then targeted t.1 s else concerns t.1 s

/-- The commands that can begin a start or end one power period: what they do to the whole station is said of each. -/
def canStart : Instr → Bool
  | .powerStart _ _ _ | .restartPinFall _ | .restartPinRise _ _ | .restartTimeout | .mainPowerLoss _ | .frameSent => true
  | _ => false

/-- The commands that act without main power or while the restart pin is held low: the starts, the backup clock, the counter
(R178), and the world's own quantities. -/
def actsAsleep : Instr → Bool
  | .powerStart _ _ _ | .restartPinRise _ _ | .mainPowerLoss _ | .backupSecond | .towerFrameBoundary | .wholeSecond => true
  | .senseChange _ | .inputChange _ _ => true
  | _ => false

/-! ### Show memory in its canonical form -/

/-- A list of numbers is strictly ascending. -/
def ascending (xs : List Nat) : Bool := decide (xs.Pairwise (· < ·))

/-- A slot of show memory lists its presence marks and its written positions in strictly ascending index (R114). -/
def FlashSlot.wf (f : FlashSlot) : Bool := ascending f.marks && ascending (f.data.map (·.1))

/-- Show memory is in its canonical form. -/
def Memory.wf (m : Vector FlashSlot 32) : Bool := m.toList.all FlashSlot.wf

/-! ### Starts -/

/-- The raw reading of a sense in a station `t` that has left STARTING, for a class whose deglitched condition is `present` (R140). -/
def sensedIn (t : State) (present : Bool) : SenseClass → Bool
  | .link l .short => linkDriven t l && decide (180000 < t.mon.links[l].microamps)
  | .link l .openLine => linkDriven t l && decide (t.mon.links[l].microamps < 3000)
  | .link l .feedLow => started t && decide (t.mon.links[l].millivolts < if present then 19000 else 18000)
  | .station .hotWarn => started t && decide ((if present then 900 else 1050) ≤ t.mon.temperature)
  | .station .hotShutdown => started t && decide ((if present then 1100 else 1250) ≤ t.mon.temperature)

/-- What leaving STARTING makes of a station that stands as `s` (R177): the start state, the tables recomputed and the selection made
(R47, R40), the safe frames computed (R132), every sense read (R140, R141) and every contact input read (R153). -/
structure LeavesStarting (s t : State) : Prop where
  only : OnlyChanges [.start, .cal, .mixer, .drivers, .mon, .inputs, .lib, .rows] s t ∧ SameLibrary s t ∧ SameInstances s t
  start : t.start = { s.start with state := if s.start.reason.isSome then .configFault else .running }
  tables : RecomputedAt (secondNow s) s t ∧ t.cal.dusk = s.cal.dusk ∧ t.cal.seasons = s.cal.seasons
  mixer : t.mixer = { s.mixer with
    curfew := t.mixer.curfew, base := t.mixer.base
    flushAsked := s.mixer.flushAsked + if t.mixer.curfew = s.mixer.curfew ∧ t.mixer.base = s.mixer.base then 0 else 1 }
  drivers : ∀ l : Fin 4, ∃ frame, t.drivers[l] = { s.drivers[l] with safeFrame := some frame } ∧ frame.length = 256 ∧
    ∀ k : Fin 256,
      let mapped : Nat := ((zonesOf s).map (fun z => (z.slots.filter (fun m => m.1 == l)).length)).sum
      let total := safeLevelOf s l * mapped
      let level := if 0 < budgetOf s l ∧ budgetOf s l < total then safeLevelOf s l * budgetOf s l / total else safeLevelOf s l
      frame[k.val]? = some (if ∃ z ∈ zonesOf s, (l, k) ∈ z.slots then level else 0)
  quantities : SameQuantities s t
  senses : ∀ k : SenseClass,
    let x := s.mon.sense k
    let raw := sensedIn t x.present k
    t.mon.sense k = { x with raw := raw, deglitch := if raw = x.present then none else some (x.deglitch.getD 100000) }
  inputs : ∀ i : Fin 8,
    let x := s.inputs[i]
    let closed := if x.millivolts < 800 then true else if 2000 < x.millivolts then false else x.closed
    let active := if senseOf s i = .activeOpen then !closed else closed
    t.inputs[i] = { x with
      closed := closed
      timer := match x.state with
        | .unsettled => some (if closed = x.closed then x.timer.getD 20000 else 20000)
        | .active => if active then none else some (x.timer.getD 20000)
        | .inactive => if active then some (x.timer.getD 20000) else none }

/-- Some slot's check is under way (R116, R126). -/
def checksLeft (s : State) : Prop := ∃ (i : Fin 32) (m n : Nat) (received : List Nat) (k : Nat),
  s.lib.dir[i] = .loading m n received (some k)

/-- A station in STARTING stays there while a check is left, and leaves it when none is (R177). -/
def StartSettled (s t : State) : Prop :=
  (checksLeft s → OnlyChanges [.rows, .lib] s t ∧ SameLibrary s t ∧ SameInstances s t) ∧ (¬ checksLeft s → LeavesStarting s t)

/-- What show memory holds once the unit of port work in progress at a start has run to its end (R114, R126). -/
def UnitFinished (s : State) (flash : Vector FlashSlot 32) : Prop :=
  match s.lib.port with
  | none | some (.refill _ _) | some (.checkRead _ _) => flash = s.flash
  | some (.deadMark i) =>
    flash = s.flash.set i { s.flash[i] with tag := s.flash[i].tag.map (fun g => { g with dead := true }) }
  | some (.tagWrite i m b) => flash = s.flash.set i { s.flash[i] with tag := some { showNo := m, blocks := b, dead := false } }
  | some (.sectorErase i k _) =>
    flash = s.flash.set i (if k = 0 then { s.flash[i] with tag := none, marks := [] }
      else { s.flash[i] with data := s.flash[i].data.filter (fun e => e.1 / 256 + 1 != k) })
  | some (.blockWrite i b _) =>
    (∀ j : Fin 32, j ≠ i → flash[j] = s.flash[j]) ∧ flash[i].tag = s.flash[i].tag ∧ readBlock flash[i] b.index = b.data ∧
      (∀ k, k ≠ b.index → readBlock flash[i] k = readBlock s.flash[i] k) ∧
      (∀ k, k ∈ flash[i].data.map (·.1) ↔ k = b.index ∨ k ∈ s.flash[i].data.map (·.1)) ∧
      ∀ k, k ∈ flash[i].marks ↔ k = b.index ∨ k ∈ s.flash[i].marks

/-- What the rebuild at a start makes of slot `i`, from its contents `f`: its directory entry `d` and contents `f'`, with a check begun when
its presence marks are all written; `taken` tells the shows that lower-numbered slots hold (R126). -/
def SlotRebuilt (f : FlashSlot) (taken : Nat → Prop) (d : SlotState) (f' : FlashSlot) : Prop :=
  let found : SlotState → Prop := fun x => d = x ∧ f' = f
  (f.tag = none → found .empty) ∧
  ∀ g, f.tag = some g →
    let bad : Prop := g.dead = true ∨ g.showNo = 0 ∨ g.blocks < 3 ∨ 1024 < g.blocks
    let received := f.marks.filter (fun k => k < g.blocks)
    (bad → found .empty) ∧
    (¬ bad → taken g.showNo → d = .empty ∧ f' = { f with tag := some { g with dead := true } }) ∧
    (¬ bad → ¬ taken g.showNo →
      (received.length = g.blocks → found (.loading g.showNo g.blocks received (some 0))) ∧
      (received.length ≠ g.blocks → (∃ e ∈ f.data, e.1 ∉ f.marks) → found (.invalid g.showNo g.blocks received .tornBlock)) ∧
      (received.length ≠ g.blocks → (∀ e ∈ f.data, e.1 ∈ f.marks) → found (.loading g.showNo g.blocks received none)))

/-- The directory and show memory of `w` are those that the rebuild makes of the contents `flash`, the lowest slot first (R126). -/
def DirectoryRebuilt (flash : Vector FlashSlot 32) (w : State) : Prop :=
  ∀ i : Fin 32, SlotRebuilt flash[i] (fun n => ∃ j : Fin 32, j < i ∧ slotShow w.lib.dir[j] = some n) w.lib.dir[i] w.flash[i]

/-- A station in STARTING with every block at its start values, the straps and the boot record read, and the directory rebuilt from show
memory that holds `flash`: what comes of a station that stood as `s` and whose retained tables are now `tables` (R24, R25, R46, R72, R100,
R126, R139, R152, R161, R173, R175, R177). -/
structure StartsUp (straps : LineNumber) (image : BootImage) (tables : CalendarUnit) (flash : Vector FlashSlot 32) (s w : State) :
    Prop where
  number : w.start.number = straps.toNat
  read : w.start.straps = straps ∧ w.start.image = image
  reason : w.start.reason = bootFault image
  boot : w.start.boot = if (bootFault image).isSome then none else image
  state : w.start.state = .starting ∧ w.start.powered = true ∧ w.start.pinLow = false
  reports : w.start.page = 0 ∧ w.start.restart = none
  tables : w.cal = { tables with entries := tables.entries.map Entry.underive, curfew := none, base := none }
  rows : w.rows = Vector.replicate 4 none
  mixer : w.mixer = { cursor := none, render := none, curfew := none, base := none, flushAsked := 0 }
  out : w.out = { records := [], primed := false, lowWater := false, underrun := false }
  drivers : ∀ l : Fin 4, w.drivers[l] = { lastLevels := List.replicate 256 0, lastKind := .held, lastCount := 0, safeFrame := none,
                                          refresh := none, sending := none, waiting := none }
  quantities : SameQuantities s w
  senses : ∀ k : SenseClass, w.mon.sense k =
    { raw := false, present := false, deglitch := none, sticky := false, retry := none, cause := false }
  safety : w.safety = { holdList := [], ownHold := false, resend := none }
  inputs : ∀ i : Fin 8, w.inputs[i] = { millivolts := s.inputs[i].millivolts, closed := false, state := .unsettled, timer := none }
  line : w.line = { tx := [], wire := .busy, duplicate := false, fault := false, sinceIdle := 0 }
  counters : ∀ c : Counter, c ≠ .showsInvalid → count w c = 0
  torn : (count w .showsInvalid).toNat =
    ((List.finRange 32).filter (fun i => match w.lib.dir[i] with | .invalid _ _ _ _ => true | _ => false)).length
  library : w.lib.queue = [] ∧ w.lib.erase = [] ∧ w.lib.deadMarks = []
  directory : DirectoryRebuilt flash w
  idlePort : ¬ checksLeft w → w.lib.port = none
  port : ∀ (i : Fin 32) (m n : Nat) (received : List Nat), w.lib.dir[i] = .loading m n received (some 0) →
    (∀ (j : Fin 32) (a b : Nat) (r : List Nat) (k : Nat), j < i → w.lib.dir[j] ≠ .loading a b r (some k)) →
    w.lib.port = some (.checkRead i 0)

/-- What a warm restart that reads `straps` and `image` makes of the station (R25, R47, R178): tower time, trim, hops, time-valid,
retained memory and RETAIN LOST continue, and every other block takes its start values, with the directory rebuilt once the unit of port
work in progress has run to its end (R126); with no check to make STARTING is left at once (R177). -/
structure WarmRestarted (straps : LineNumber) (image : BootImage) (s t : State) : Prop where
  time : t.time = { s.time with slew := 0, hold := none, discipline := .acquire, stepFlags := 0, holdoverRun := 0, peers := [],
                                ref := Reference.start (if referenceFitted t then .absent else .notFitted) }
  backup : t.backup = s.backup
  retained : t.start.retainLost = s.start.retainLost
  blocks : ∃ flash w, UnitFinished s flash ∧ StartsUp straps image s.cal flash s w ∧ StartSettled w t ∧ t.lib.port = w.lib.port

/-! ### Invariants -/

/-- Without main power, and while the restart pin is held low, the blocks that could act hold their start values (R178). -/
def Asleep (s : State) : Prop :=
  awake s = false →
    s.line.tx = [] ∧ s.time.peers = [] ∧ s.rows = Vector.replicate 4 none ∧ s.out.records = [] ∧ s.mixer.render = none ∧
      s.mixer.cursor = none ∧ s.lib.queue = [] ∧ s.safety.holdList = []

/-- The limits and orders that the tables, the queues and the counts of the station keep (R2, R6, R12, R26, R29, R30, R36, R121,
R154, R165, R179). -/
structure WithinLimits (s : State) : Prop where
  number : s.start.number ≤ 63
  page : s.start.page ≤ 5
  trimLow : -200000 ≤ s.time.trim
  trimHigh : s.time.trim ≤ 200000
  hops : s.time.hops ≤ 15
  peers : s.time.peers.length ≤ 48
  peerOrder : (s.time.peers.map (·.number)).Pairwise (· < ·)
  peerNumbers : ∀ p ∈ s.time.peers, p.number ≠ 0 ∧ p.number ≠ s.start.number
  entries : s.cal.entries.length ≤ 96
  entryOrder : (s.cal.entries.map (·.id)).Pairwise (· < ·)
  skips : ∀ e ∈ s.cal.entries, e.skips.length ≤ 4
  derived : ∀ e ∈ s.cal.entries, s.time.timeValid = false ∨ e.enabled = false → e.nextFire = none ∧ e.windowEnd = none
  noWindow : ∀ e ∈ s.cal.entries, e.isShow = true → e.windowEnd = none
  duskOrder : (s.cal.dusk.map (·.1)).Pairwise (· < ·)
  duskValues : ∀ e ∈ s.cal.dusk, 1 ≤ e.1 ∧ e.1 ≤ 366 ∧ e.2 ≤ 1439
  seasons : s.cal.seasons.length ≤ 16
  seasonOrder : (s.cal.seasons.map (·.instant)).Pairwise (· < ·)
  holdOrder : s.safety.holdList.Pairwise (· < ·)
  holdNumbers : ∀ n ∈ s.safety.holdList, n ≤ 63
  transmit : s.line.tx.length ≤ 12
  transmitOrder : s.line.tx.Pairwise (fun a b => a.cls ≤ b.cls)
  writeQueue : s.lib.queue.length ≤ 8
  asleep : Asleep s

/-- A row's anchor is at or after its tag (R48), its gate record agrees with its anchor (R84), and its lists keep their limits
(R67, R74, R78, R81, R82). -/
structure RowGood (r : Row) : Prop where
  anchor : r.tag ≤ r.anchor
  gate : ∀ g, r.phase = .gated g → g.due = r.anchor + g.time ∧ g.timeoutFrame = g.due + g.timeout * 40
  marks : r.marks.length ≤ 16
  markNumbers : (r.marks.map (·.1)).Nodup
  window : r.ctx.window.length ≤ 32
  sweeps : r.ctx.sweeps.length ≤ 8
  pendingMarks : r.ctx.pendingMarks.length ≤ 4

/-- The laws of the instance table and the slot directory (R48, R72, R113): no show is held twice, every show held is COMPLETE,
no show has two slots, and outside RUNNING every row is IDLE. -/
structure ShowsHeld (s : State) : Prop where
  row : ∀ (p : Fin 4) (r : Row), s.rows[p] = some r → RowGood r
  distinct : ∀ (p q : Fin 4) (a b : Row), s.rows[p] = some a → s.rows[q] = some b → a.showNo = b.showNo → p = q
  complete : ∀ (p : Fin 4) (r : Row), s.rows[p] = some r →
    ∃ (i : Fin 32) (n : Nat) (received : List Nat) (h : ShowHeader), s.lib.dir[i] = .complete r.showNo n received h
  oneSlot : ∀ (i j : Fin 32) (n : Nat), slotShow s.lib.dir[i] = some n → slotShow s.lib.dir[j] = some n → i = j
  idle : isRunning s = false → s.rows = Vector.replicate 4 none

/-- The Output Queue holds at most its depth of records, in strictly increasing frame number, none beyond the render cursor, and
a render in progress is for a frame beyond it with room for its record (R97, R98, R127). -/
structure RecordsInOrder (s : State) : Prop where
  depth : s.out.records.length ≤ depthOf s
  order : (s.out.records.map (·.frame)).Pairwise (· < ·)
  cursor : ∀ r ∈ s.out.records, ∃ k, s.mixer.cursor = some k ∧ r.frame ≤ k
  render : ∀ r, s.mixer.render = some r →
    s.out.records.length < depthOf s ∧ ∀ k, s.mixer.cursor = some k → k < r.frame
  asleep : Asleep s

/-- A station strapped 0 has nothing to transmit (R168). -/
def ListensOnly (s : State) : Prop := (s.start.number = 0 → s.line.tx = []) ∧ Asleep s

/-- What holds of the station in a safe run, after every command. -/
structure SafeState (s : State) : Prop where
  limits : WithinLimits s
  shows : ShowsHeld s
  records : RecordsInOrder s
  silent : ListensOnly s
  memory : Memory.wf s.flash = true

/-- A run is safe when every state on it is. -/
def SafeRun (s : State) : Prop := ∀ (k : Nat) (t : State), Host.Core.run Sys2Proof.core k s = .next t → SafeState t

end Sys2Proof.Machine
end

