-- ==== Sys2Proof/Certificates/Slice0/Obligations.lean ====
section
/-!
DEFINITION. What is claimed of the station: statements for the provers, from the numbered rules of the manual. Where a statement
names a choice of the model, its docstring names the log entry. A frame command acts on the state after the Line
Interface has looked at its sender (`noteSender`, R169), which OwnNumberIsDuplicate states.
-/

section

open Sys2Proof Sys2Proof.Machine

/-! ### The machine -/

/-- A step takes the command that waits longest and runs its effect with the rest of the queue (the interface of a block). -/
def Obligations.StepTakesTheFront : Prop :=
  ∀ (c : Instr) (rest : List Instr) (s : State), s.pending = c :: rest → step s = exec c { s with pending := rest }

/-- What a station does while no command waits, the model's choice (log entry 2): without power nothing; otherwise the event that
is due is raised, and when none is, a microsecond of oscillator time passes, over which the counter advances as R1 states
in an increment of at most 2 µs, or a hold runs down (R5). -/
def Obligations.IdleStationTicks : Prop :=
  ∀ s : State, s.pending = [] →
    (s.start.powered = false → step s = .next s) ∧
    (∀ c, dueEvent s = some c → step s = .next { s with pending := [c] }) ∧
    (s.start.powered = true → dueEvent s = none →
      ∃ t, step s = .next t ∧
        OnlyChanges [.time, .drivers, .mon, .inputs, .safety, .start, .line] s t ∧
        (∀ n, s.time.hold = some n → t.time.ns = s.time.ns ∧ t.time.hold = some (n - 1)) ∧
        (s.time.hold = none → -200000 ≤ s.time.trim → s.time.trim ≤ 200000 → -500 ≤ s.time.slew → s.time.slew ≤ 500 →
          s.time.fraction < 1000000 →
          ((t.time.ns * 1000000 + t.time.fraction : Nat) : Int) =
              s.time.ns * 1000000 + s.time.fraction + (1000000000 + s.time.trim + 1000 * s.time.slew) ∧
            s.time.ns ≤ t.time.ns ∧ t.time.ns ≤ s.time.ns + 2000))

/-- Every command has an effect in every state: it answers a next state and leaves the queue of waiting commands alone. That an event
without its cause, or without power, is answered with no effect and no fault is the model's choice (log entries 8, 9). -/
def Obligations.EveryCommandAnswersNext : Prop :=
  ∀ (c : Instr) (s : State), ∃ t, exec c s = .next t ∧ t.pending = s.pending

/-- Without main power, and while the restart pin is held low, no command does anything but a start, the loss of power, the
backup clock's and the counter's own counting, and the world's own quantities (R176, R178). That a command which the manual does not
name there does nothing is the model's reading (log entry 9). -/
def Obligations.NothingWithoutPower : Prop :=
  ∀ (c : Instr) (s : State), awake s = false → actsAsleep c = false → exec c s = .next s

/-- A console frame for another station is ignored; a RESTART or a QUERY is ignored unless targeted by number (R21, R41, R52, R59,
R117, R150, R157, R178, R180). -/
def Obligations.FramesForOthersIgnored : Prop :=
  ∀ (c : Instr) (n : LineNumber) (target : Byte × Bool) (s : State),
    frameSender c = some n → frameTarget c = some target → awake s = true → targetTaken s target = false →
    exec c s = .next (noteSender n (dataBytes c) s)

/-- In STARTING every frame is discarded but SAFETY SET and SAFETY CLEAR; a MARK counts MARKS DISCARDED and an announcement of a start or a
running show ANNOUNCE IGNORED (R19, R21, R41, R52, R53, R61, R66, R72, R117, R150, R156, R177). That an announcement discarded by R72 is one
that R53 counts is the model's reading (log entry 29). -/
def Obligations.StartingDiscardsFrames : Prop :=
  ∀ (c : Instr) (n : LineNumber) (s : State),
    frameSender c = some n → awake s = true → s.start.state = .starting →
    match c with
    | .safetySet _ | .safetyClear _ => True
    | .mark _ _ _ _ _ => exec c s = .next (bump .marksDiscarded (noteSender n (dataBytes c) s))
    | .announceStart _ _ | .announceRunning _ _ => exec c s = .next (bump .announceIgnored (noteSender n (dataBytes c) s))
    | _ => exec c s = .next (noteSender n (dataBytes c) s)

/-- A frame under the own number, which is not 0, sets DUPLICATE and counts DUPLICATE FRAMES; any other frame does neither (R169). -/
def Obligations.OwnNumberIsDuplicate : Prop :=
  ∀ (c : Instr) (n : LineNumber) (s : State), frameSender c = some n → awake s = true →
    ∃ t, exec c s = .next t ∧
      if n.toNat = s.start.number ∧ s.start.number ≠ 0 then
        t.line.duplicate = true ∧ Counted 1 .duplicateFrames s t
      else t.line.duplicate = s.line.duplicate ∧ count t .duplicateFrames = count s .duplicateFrames

/-! ### Invariants -/

/-- Every step keeps the limits and orders of the station's tables, queues and counts. -/
def Obligations.LimitsKept : Prop := ∀ s t : State, WithinLimits s → step s = .next t → WithinLimits t

/-- Every step keeps the three laws of the instance table (R48) and the law of the slot directory (R113), with the limits of each row. -/
def Obligations.ShowsHeldKept : Prop := ∀ s t : State, ShowsHeld s → step s = .next t → ShowsHeld t

/-- Every step keeps the Output Queue at most at its depth and in strictly increasing frame number (R127). -/
def Obligations.RecordsInOrderKept : Prop := ∀ s t : State, RecordsInOrder s → step s = .next t → RecordsInOrder t

/-- Every step leaves a listen-only station with nothing to transmit (R168). -/
def Obligations.ListenOnlyIsSilent : Prop := ∀ s t : State, ListensOnly s → step s = .next t → ListensOnly t

/-- Every step keeps show memory in its canonical form (R114). -/
def Obligations.ShowMemoryKept : Prop :=
  ∀ s t : State, Memory.wf s.flash = true → step s = .next t → Memory.wf t.flash = true

/-- No command but a start, or a loss of power, lowers a counter; so none leaves 65,535 (R181). -/
def Obligations.CountersNeverFall : Prop :=
  ∀ (c : Instr) (s t : State) (k : Counter), canStart c = false → exec c s = .next t →
    (count s k).toNat ≤ (count t k).toNat

/-- The state after reset is safe: every invariant holds of it. -/
def Obligations.ResetIsSafe : Prop := SafeState State.reset

/-! ### Laws of the computations -/

/-- The propagation delay of R8, what the own position is, and the sample of a new peer's first beacon, which uses it (R7), for
positions in the range of R8. -/
def Obligations.DelayFromPositions : Prop :=
  (∀ a b : Nat, delayUs a b = ((max a b - min a b) * 5 + 500) / 1000) ∧
  (∀ a b : Nat, a ≤ 1023 → b ≤ 1023 → delayUs a b ≤ 5) ∧
  delayUs 540 120 = 2 ∧ delayUs 0 1023 = 5 ∧
  (∀ s : State, s.start.boot = none → positionOf s = 0) ∧
  (∀ (s : State) (b : BootRecord), s.start.boot = some b → positionOf s = b.position) ∧
  ∀ (valid : Bool) (n own arrival stamp : Nat) (body : BeaconBody), own ≤ 1023 → body.position.toNat ≤ 1023 →
    (Peer.hear false valid own arrival stamp body (newPeer n body arrival)).previous =
      some ((stamp : Int) + delayUs own body.position.toNat - arrival)

/-- The lock filter (R9): every row of its table, for a peer that has a previous sample and for one that has none. -/
def Obligations.LockFilter : Prop :=
  ∀ (x : Int) (p : Peer),
    (p.previous = none → p.filter x = ({ p with previous := some x }, false)) ∧
    ∀ q : Int, p.previous = some q →
      (p.lock = .seeking → (x - q).natAbs ≤ 400 → p.filter x =
        ({ p with previous := some x, consistentRun := p.consistentRun + 1, inconsistentRun := 0,
                  lock := if p.consistentRun + 1 < 6 then .seeking else .locked }, true)) ∧
      (p.lock = .seeking → 400 < (x - q).natAbs → p.filter x =
        ({ p with previous := some x, consistentRun := 0, inconsistentRun := min 12 (p.inconsistentRun + 1) }, false)) ∧
      (p.lock = .locked → (x - q).natAbs ≤ 400 → p.filter x =
        ({ p with previous := some x, consistentRun := 6, inconsistentRun := 0 }, true)) ∧
      (p.lock = .locked → 400 < (x - q).natAbs → p.inconsistentRun + 1 < 12 → p.filter x =
        ({ p with previous := some x, inconsistentRun := p.inconsistentRun + 1 }, false)) ∧
      (p.lock = .locked → 400 < (x - q).natAbs → 12 ≤ p.inconsistentRun + 1 → p.filter x =
        ({ p with previous := some x, lock := .seeking, consistentRun := 0, inconsistentRun := 0, sample := none }, false))

/-- A record's value (R101): the three cases of the fade, and that it lies between its from-level and its to-level. -/
def Obligations.FadeBetweenLevels : Prop :=
  (∀ (r : ZoneRecord) (x : Int) (j : Nat),
    (recordValue r x).get j = fadeLevel r.fade (x - r.effective + 1) (r.fromLevels.get j) (r.toLevels.get j)) ∧
  ∀ (d : Nat) (k : Int) (f t : Nat), 1 ≤ k →
    (d = 0 → fadeLevel d k f t = t) ∧ ((d : Int) ≤ k → fadeLevel d k f t = t) ∧
      (k < d → ((fadeLevel d k f t : Nat) : Int) = f + (((t : Int) - f) * k).tdiv d) ∧
      min f t ≤ fadeLevel d k f t ∧ fadeLevel d k f t ≤ max f t

/-- The attack and release weights (R104, R105): their cases, and that an attack never falls and a release never rises. -/
def Obligations.WeightsRiseAndFall : Prop :=
  (∀ tag attack n : Nat,
    (n < tag → attackWeight tag attack n = 0) ∧ (tag ≤ n → attack = 0 → attackWeight tag attack n = 256) ∧
      (tag + attack ≤ n → attackWeight tag attack n = 256) ∧
      (tag ≤ n → n < tag + attack → attackWeight tag attack n = 256 * (n - tag) / attack) ∧
      attackWeight tag attack n ≤ 256 ∧ attackWeight tag attack n ≤ attackWeight tag attack (n + 1)) ∧
  ∀ tag attack start weight release n : Nat, 1 ≤ release →
    (n < start → releaseWeight tag attack start weight release n = attackWeight tag attack n) ∧
      (start ≤ n → n < start + release → releaseWeight tag attack start weight release n =
        weight * (release - (n - start)) / release) ∧
      (start + release ≤ n → releaseWeight tag attack start weight release n = 0) ∧
      releaseWeight tag attack start weight release start = weight ∧
      (start ≤ n → releaseWeight tag attack start weight release (n + 1) ≤
        releaseWeight tag attack start weight release n)

/-- The mix without a curfew (R107): it starts at the base look or 0, each layer in turn takes one mix step, and a step lies between
the old level and the layer's value. -/
def Obligations.MixStepByWeight : Prop :=
  (∀ (base : Option Levels) (layers : List Layer) (j : Nat),
    mixSlot none base layers j =
      layers.foldl (fun out l => mixStep out (l.values.get j) l.weight) (match base with | some b => b.get j | none => 0)) ∧
  (∀ out v w : Nat, w ≤ 256 →
    ((mixStep out v w : Nat) : Int) = out + (((v : Int) - out) * w).tdiv 256 ∧
      min out v ≤ mixStep out v w ∧ mixStep out v w ≤ max out v ∧
      (w = 256 → mixStep out v w = v) ∧ (w = 0 → mixStep out v w = out)) ∧
  mixStep 3000 1000 100 = 2219

/-- Layers are placed by ascending priority, then ascending tag, then descending player (R106). With a curfew the mix is made in three parts:
the layers of priority below the exempt one over the base look or 0, the minimum with the ceiling, and the layers of exempt priority; so the
level exceeds the ceiling only when a layer of exempt priority has weight (R108). A level stays within 4,095 when its inputs do (R111). -/
def Obligations.CurfewCapsTheMix : Prop :=
  (∀ a b : Layer, layerBefore a b = true ↔
    a.priority < b.priority ∨ (a.priority = b.priority ∧ (a.tag < b.tag ∨ (a.tag = b.tag ∧ b.player < a.player)))) ∧
  (∀ (ceiling exempt : Nat) (base : Option Levels) (layers : List Layer) (j : Nat),
    let mixed : Nat → List Layer → Nat := fun out ls => ls.foldl (fun out l => mixStep out (l.values.get j) l.weight) out
    mixSlot (some (ceiling, exempt)) base layers j =
      mixed (min ceiling (mixed (match base with | some b => b.get j | none => 0) (layers.filter (fun l => l.priority < exempt))))
        (layers.filter (fun l => exempt ≤ l.priority))) ∧
  (∀ layers : List Layer,
    (orderLayers layers).Perm layers ∧ (orderLayers layers).Pairwise (fun a b => layerBefore b a = false)) ∧
  (∀ (ceiling exempt : Nat) (base : Option Levels) (layers : List Layer) (j : Nat),
    (∀ l ∈ layers, exempt ≤ l.priority → l.weight = 0) → mixSlot (some (ceiling, exempt)) base layers j ≤ ceiling) ∧
  ∀ (curfew : Option (Nat × Nat)) (base : Option Levels) (layers : List Layer) (j : Nat),
    (∀ b, base = some b → b.get j ≤ 4095) → (∀ l ∈ layers, l.values.get j ≤ 4095 ∧ l.weight ≤ 256) →
    mixSlot curfew base layers j ≤ 4095

/-- A link scaled to its budget sums to at most the budget, no level grows, and a link within its budget, or without one, keeps its
levels (R110); the safe frame is scaled alike (R132). -/
def Obligations.BudgetIsKept : Prop :=
  (∀ (budget : Nat) (levels : List Nat),
    (scaleLink budget levels).length = levels.length ∧
      (0 < budget → (scaleLink budget levels).sum ≤ budget) ∧
      (budget = 0 ∨ levels.sum ≤ budget → scaleLink budget levels = levels) ∧
      (0 < budget → budget < levels.sum → scaleLink budget levels = levels.map (fun v => v * budget / levels.sum)) ∧
      ∀ k : Nat, ((scaleLink budget levels)[k]?).getD 0 ≤ (levels[k]?).getD 0) ∧
  ∀ (s : State) (l : Fin 4), 0 < budgetOf s l → safeSlot s l * mappedCount (zonesOf s) l ≤ budgetOf s l

/-- The consensus of a selection is its lower median: the selection sorted ascending, at index (count - 1) / 2 (R12). -/
def Obligations.ConsensusIsLowerMedian : Prop :=
  (∀ xs : List Int, xs ≠ [] →
    ∃ ys : List Int, ys.Perm xs ∧ ys.Pairwise (· ≤ ·) ∧ ys[(xs.length - 1) / 2]? = some (lowerMedian xs)) ∧
  ∀ xs : List PeriodSample, xs ≠ [] → (∀ x ∈ xs, x.hops ≤ 15) →
    ∃ h : Nat, (∃ x ∈ xs, x.hops = h) ∧ (∀ x ∈ xs, h ≤ x.hops) ∧
      (consensusOf xs).samples = xs.filter (fun x => x.hops == h) ∧
      (consensusOf xs).c =
        lowerMedian ((xs.filter (fun x => x.hops == h)).map (·.value) ++ (if h = 15 then [0] else [])) ∧
      (consensusOf xs).hops = if 15 < h + 1 then 15 else h + 1

/-- The firing instant of a CLOCK anchor is the earliest standard second at which civil time is at or past its target, with the
offset in force that of the latest transition at or before it (R30, R31). -/
def Obligations.ClockInstantIsEarliest : Prop :=
  ∀ (seasons : List Season) (dusk : List (Nat × Nat)) (day seconds : Nat),
    (seasons.map (·.instant)).Pairwise (· < ·) →
    let offsetAt : Nat → Int := fun t =>
      (((seasons.filter (fun w => w.instant * 60 ≤ t)).getLast?).map (·.offset)).getD 0
    let target : Int := (day * 86400 + seconds : Nat)
    let fires := instantOf dusk seasons (.clock seconds) day
    target ≤ fires + offsetAt fires * 60 ∧ ∀ t : Nat, target ≤ t + offsetAt t * 60 → fires ≤ t

/-- The checks of an ENTRY WRITE: it is refused exactly when a field is out of range (R27, R174); otherwise the entry is the one the frame
carries, in every field: kind with its settings clamped, enabled, recurrence and days, anchor, validity and duration (R42). That id 0 is
accepted is the model's choice (log entry 16). -/
def Obligations.EntryChecks : Prop :=
  ∀ f : EntryImage, (∀ new, entryOf f = some new → new = writtenEntry f) ∧ (entryOf f = none ↔
    2 < f.kind.toNat ∨ 4 < f.recurrence.toNat ∨
    (f.recurrence.toNat = 0 ∧ 36524 < f.day6.toNat * 256 + f.day7.toNat) ∨
    (f.recurrence.toNat = 2 ∧ f.day6.toNat % 128 = 0) ∨
    (f.recurrence.toNat = 3 ∧
      (f.day6.toNat = 0 ∨ 12 < f.day6.toNat ∨ f.day7.toNat = 0 ∨
        ([31, 29, 31, 30, 31, 30, 31, 31, 30, 31, 30, 31][f.day6.toNat - 1]?).getD 0 < f.day7.toNat)) ∨
    (f.recurrence.toNat = 4 ∧
      (f.day6.toNat = 0 ∨ 12 < f.day6.toNat ∨ f.day7.toNat % 8 = 7 ∨
        f.day7.toNat / 16 % 8 ∈ [0, 5, 6])) ∨
    (f.anchor.toNat < 2 ^ 23 ∧ 86399 < f.anchor.toNat % 2 ^ 17) ∨
    (2 ^ 23 ≤ f.anchor.toNat ∧ 180 < f.anchor.toNat % 2 ^ 16 ∧ f.anchor.toNat % 2 ^ 16 < 2 ^ 16 - 180) ∨
    (f.validFrom.toNat ≠ 0xFFFF ∧ 36524 < f.validFrom.toNat) ∨ (f.validUntil.toNat ≠ 0xFFFF ∧ 36524 < f.validUntil.toNat) ∨
    (f.validFrom.toNat ≠ 0xFFFF ∧ f.validUntil.toNat ≠ 0xFFFF ∧ f.validUntil.toNat < f.validFrom.toNat) ∨
    345600 < f.duration.toNat ∨ (f.kind.toNat ≠ 0 ∧ f.duration.toNat = 0) ∨
    (f.kind.toNat = 0 ∧
      (f.byte18.toNat = 0 ∨ 1 < f.byte20.toNat / 16 ∨ (f.byte20.toNat / 16 = 0 ∧ f.byte20.toNat % 16 ≠ 0))))

/-- The selection of the active curfew and base look among the open entries, kept in ascending id: the lowest ceiling, the highest
priority, and of equals the lowest id; what is handed over are the ceiling and exempt priority of the curfew selected and the levels of the
base look selected, and a change of what is handed over asks for one flush (R40). -/
def Obligations.SelectionAmongOpen : Prop :=
  (∀ es : List Entry, (es.map (·.id)).Pairwise (· < ·) →
    (selectCurfew es = none ↔ ∀ e ∈ es, ∀ c x, e.kind = .curfew c x → e.windowEnd = none) ∧
    (∀ id c x, selectCurfew es = some (id, c, x) →
      (∃ e ∈ es, e.id = id ∧ e.kind = .curfew c x ∧ e.windowEnd.isSome = true) ∧
      ∀ e ∈ es, ∀ d y, e.kind = .curfew d y → e.windowEnd.isSome = true → c < d ∨ (c = d ∧ id ≤ e.id)) ∧
    (selectBasePriority es = none ↔ ∀ e ∈ es, ∀ p l, e.kind = .base p l → e.windowEnd = none) ∧
    (∀ id p l, selectBasePriority es = some (id, p, l) →
      (∃ e ∈ es, e.id = id ∧ e.kind = .base p l ∧ e.windowEnd.isSome = true) ∧
      ∀ e ∈ es, ∀ q m, e.kind = .base q m → e.windowEnd.isSome = true → q < p ∨ (q = p ∧ id ≤ e.id))) ∧
  (∀ es : List Entry,
    (selectBase es = none ↔ selectBasePriority es = none) ∧
    ∀ id p l, selectBasePriority es = some (id, p, l) → selectBase es = some (id, l)) ∧
  ∀ s : State,
    OnlyChanges [.cal, .mixer] s (selectWindows s) ∧
      (selectWindows s).cal = { s.cal with curfew := selectCurfew s.cal.entries, base := selectBase s.cal.entries } ∧
      (selectWindows s).mixer.curfew = (selectCurfew s.cal.entries).map (·.2) ∧
      (selectWindows s).mixer.base = (selectBase s.cal.entries).map (·.2) ∧
      (selectWindows s).mixer.cursor = s.mixer.cursor ∧ (selectWindows s).mixer.render = s.mixer.render ∧
      (selectWindows s).mixer.flushAsked = s.mixer.flushAsked +
        (if (selectWindows s).mixer.curfew = s.mixer.curfew ∧ (selectWindows s).mixer.base = s.mixer.base then 0 else 1)

/-- Queueing a frame (R165, R166): with room it takes its place by class, after its equals; in a full queue, which is in class order,
the newest waiting frame of the largest class gives way to a frame of lower class, and otherwise the new one is dropped. That the last in
queue order counts as the newest of two waiting BEACONs is the model's choice (log entry 24). -/
def Obligations.FullQueueDisplaces : Prop :=
  ∀ (f : TxFrame) (s : State),
    (s.line.tx.length < 12 → enqueue f s = setTx
      (s.line.tx.takeWhile (fun g => g.cls ≤ f.cls) ++ f :: s.line.tx.dropWhile (fun g => g.cls ≤ f.cls)) s) ∧
    (12 ≤ s.line.tx.length → (∀ g ∈ s.line.tx, g.sending = true) → enqueue f s = bump .txDropped s) ∧
    ∀ (before after : List TxFrame) (g : TxFrame), 12 ≤ s.line.tx.length →
      s.line.tx.Pairwise (fun a b => a.cls ≤ b.cls) → s.line.tx = before ++ g :: after → g.sending = false →
      (∀ x ∈ after, x.sending = true) →
      (∀ x ∈ s.line.tx, x.sending = false → x.cls ≤ g.cls) ∧
      (g.cls ≤ f.cls → enqueue f s = bump .txDropped s) ∧
      (f.cls < g.cls → enqueue f s = bump .txDisplaced (setTx
        ((before ++ after).takeWhile (fun x => x.cls ≤ f.cls) ++ f :: (before ++ after).dropWhile (fun x => x.cls ≤ f.cls)) s))

/-- The memory port (R124): a free port takes the refill of the lowest-numbered player that asks; then a dead mark; the tag write of the head
of the erase list once its five sectors are erased (R119); the oldest queued block whose slot is LOADING (R121); a block read of the
lowest-numbered slot with a check (R116); then the head's next sector erase. Serving the port first has each player ask for a refill whose
window holds fewer than 16 cues with cues left to read and no refill outstanding (R78); the refill the arbiter takes is asked for no more;
and nothing else changes. -/
def Obligations.PortServesInOrder : Prop :=
  ∀ s : State,
    (s.lib.port.isSome = true → arbitrate s = s) ∧
    (∀ (p : Fin 4) (r : Row), s.lib.port = none → s.rows[p] = some r → r.ctx.refillAsked = true →
      (∀ (q : Fin 4) (r' : Row), q < p → s.rows[q] = some r' → r'.ctx.refillAsked = false) →
      (arbitrate s).lib.port = some (.refill p true) ∧
        (arbitrate s).rows[p] = some { r with ctx := { r.ctx with refillAsked := false } } ∧
        ∀ q : Fin 4, q ≠ p → (arbitrate s).rows[q] = s.rows[q]) ∧
    -- refills asked for (R78)
    (∀ (p : Fin 4) (r : Row), s.rows[p] = some r →
      let asks : Fin 4 → Row → Prop := AskedFor s.lib.port
      let becomes : Bool → Prop := fun b => (servePort s).rows[p] = some { r with ctx := { r.ctx with refillAsked := b } }
      let first : Prop := ∀ (q : Fin 4) (o : Row), q < p → s.rows[q] = some o → ¬ asks q o
      (¬ asks p r → becomes false) ∧
      (s.lib.port.isSome = true ∨ ¬ first → asks p r → becomes true) ∧
      (s.lib.port = none → first → asks p r → becomes false ∧ (servePort s).lib.port = some (.refill p true))) ∧
    RefillsAsked (servePort s) ∧
    (s.lib.port = none → (∀ (p : Fin 4) (r : Row), s.rows[p] = some r → r.ctx.refillAsked = false) →
      (∀ i rest, s.lib.deadMarks = i :: rest → (arbitrate s).lib.port = some (.deadMark i)) ∧
      (s.lib.deadMarks = [] →
        let given : Option PortUnit → Prop := fun u => (arbitrate s).lib.port = u
        let tags : Prop := ∃ e rest m b, s.lib.erase = e :: rest ∧ 5 ≤ e.erased ∧ s.lib.dir[e.slot] = .erasing m b
        -- the slot that holds a queued block's show is LOADING
        let writable : QueuedBlock → Fin 32 → Prop := fun b i =>
          (∃ m received check, s.lib.dir[i] = .loading b.showNo m received check) ∧
            ∀ j : Fin 32, j < i → slotShow s.lib.dir[j] ≠ some b.showNo
        let writes : Prop := ∃ b ∈ s.lib.queue, ∃ i, writable b i
        (∀ e rest m b, s.lib.erase = e :: rest → 5 ≤ e.erased → s.lib.dir[e.slot] = .erasing m b →
          given (some (.tagWrite e.slot m b))) ∧
        (∀ before b after i, ¬ tags → s.lib.queue = before ++ b :: after → writable b i →
          (∀ x ∈ before, ∀ j, ¬ writable x j) → given (some (.blockWrite i b true))) ∧
        (∀ (i : Fin 32) (m n : Nat) (received : List Nat) (k : Nat), ¬ tags → ¬ writes →
          s.lib.dir[i] = .loading m n received (some k) →
          (∀ (j : Fin 32) (x y : Nat) (r : List Nat) (l : Nat), j < i → s.lib.dir[j] ≠ .loading x y r (some l)) →
          given (some (.checkRead i k))) ∧
        (¬ tags → ¬ writes → ¬ checksLeft s →
          (∀ e rest, s.lib.erase = e :: rest → e.erased < 5 → given (some (.sectorErase e.slot e.erased true))) ∧
          ((∀ e rest, s.lib.erase = e :: rest → 5 ≤ e.erased) → given none)))) ∧
    OnlyChanges [.rows, .lib] s (servePort s) ∧ SameInstances s (servePort s) ∧ SameLibrary s (servePort s)

/-- A recompute (R26, R33, R36, R39): while time-valid is set and the entry is enabled, its next fire is the earliest firing instant after the
current second among the recurrence days of the look-ahead, and the window end of a CURFEW or BASE entry the latest among the open
windows of the look-back; otherwise both are absent; a SHOW entry has no window end; nothing else of the entry changes. The recurrence days
are spelled out for every date and each recurrence, with the validity range and the skip list (R28), and the instant of a DUSK anchor over
the dusk table (R29, R32). -/
def Obligations.RecomputeLooksAheadAndBack : Prop :=
  ∀ (dusk : List (Nat × Nat)) (seasons : List Season) (current : Nat) (e : Entry),
    let recurs : Int → Nat → Prop := fun day t =>
      0 ≤ day ∧ day ≤ 36524 ∧ e.recursOn day.toNat = true ∧ t = instantOf dusk seasons e.anchor day.toNat
    let ahead : Nat → Prop := fun t => current < t ∧
      ∃ day : Int, (current / 86400 : Nat) - 1 ≤ day ∧ day ≤ (current / 86400 : Nat) + 400 ∧ recurs day t
    let back : Nat → Prop := fun t => t ≤ current ∧ current < t + e.duration ∧
      ∃ day : Int, (current / 86400 : Nat) - 5 ≤ day ∧ day ≤ (current / 86400 : Nat) ∧ recurs day t
    (∀ frame, nextFireOf dusk seasons current e = some frame ↔
      ∃ t, frame = t * 40 ∧ ahead t ∧ ∀ t', ahead t' → t ≤ t') ∧
    (nextFireOf dusk seasons current e = none ↔ ∀ t, ¬ ahead t) ∧
    (∀ frame, windowEndOf dusk seasons current e = some frame ↔
      ∃ t, frame = (t + e.duration) * 40 ∧ back t ∧ ∀ t', back t' → t' ≤ t) ∧
    (windowEndOf dusk seasons current e = none ↔ ∀ t, ¬ back t) ∧
    (∀ valid : Bool,
      let made : Option Nat → Option Nat → Prop := fun next fin =>
        e.recompute dusk seasons valid current = { e with nextFire := next, windowEnd := fin }
      (valid = false ∨ e.enabled = false → made none none) ∧
      (valid = true → e.enabled = true →
        (∀ show' priority mode passes, e.kind = .playShow show' priority mode passes →
          made (nextFireOf dusk seasons current e) none) ∧
        ((∀ show' priority mode passes, e.kind ≠ .playShow show' priority mode passes) →
          made (nextFireOf dusk seasons current e) (windowEndOf dusk seasons current e)))) ∧
    -- the days, their dates and weekdays, and the recurrence days of an entry (R28)
    let lengths : Nat → List Nat := fun y => [31, if y % 4 = 0 then 29 else 28, 31, 30, 31, 30, 31, 31, 30, 31, 30, 31]
    let last : Nat → Nat → Nat := fun y m => ((lengths y)[m - 1]?).getD 0
    let weekday : Nat → Nat := fun day => (day + 5) % 7
    ∀ day y m d : Nat, y ≤ 99 → 1 ≤ m → m ≤ 12 → 1 ≤ d → d ≤ last y m →
      day = 365 * y + (y + 3) / 4 + ((lengths y).take (m - 1)).sum + (d - 1) →
      (e.recursOn day = true ↔
        (∀ a, e.validFrom = some a → a ≤ day) ∧ (∀ b, e.validUntil = some b → day ≤ b) ∧ day ∉ e.skips ∧
          match e.recurrence with
          | .once named => day = named
          | .daily => True
          | .weekly days => days.getLsbD (weekday day) = true
          | .yearly month date => m = month ∧ d = date
          | .nth month w (some k) => m = month ∧ weekday day = w ∧
              ((List.range d).filter (fun j => decide (weekday (day - j) = w))).length = k
          | .nth month w none => m = month ∧ weekday day = w ∧ ∀ j, 1 ≤ j → d + j ≤ last y m → weekday (day + j) ≠ w) ∧
      -- the instant of a DUSK anchor (R29, R32)
      let index := ((lengths 0).take (m - 1)).sum + d
      ∀ (o : Int) (v : Nat),
        (((index, v) ∈ dusk ∧ ∀ v', (index, v') ∈ dusk → v' = v) ∨ ((∀ v', (index, v') ∉ dusk) ∧ v = 1080)) →
        (instantOf dusk seasons (.dusk o) day : Int) = (day : Int) * 86400 + max 0 (min 86399 ((v : Int) * 60 + o * 60))

/-! ### Starts (11.1 to 11.3) -/

/-- POWER_START (R24, R46, R126, R139, R152, R161, R175, R176, R177, R178): the Time Unit, retained memory, the tables and the start state as
the marker and the boot record have them, every other block at its start values, and the slot directory rebuilt; STARTING is left at once
when no check is to be made. A backup cell that did not hold is a marker that is bad (log entry 17), and a POWER_START of a station that has
power first loses it (log entry 26): both are the model's choices. -/
def Obligations.PowerStartTakesStartValues : Prop :=
  ∀ (straps : LineNumber) (image : BootImage) (held : Bool) (s : State),
    let good : Bool := held && s.backup.intact
    let ns := if good then s.backup.seconds * 1000000000 else 0
    let tables : CalendarUnit := if good then s.cal else { entries := [], dusk := [], seasons := [], curfew := none, base := none }
    ∃ t flash w, exec (.powerStart straps image held) s = .next t ∧
      t.start.retainLost = !good ∧
      t.time = { ns := ns, fraction := 0, lastBoundary := ns / 25000000, lastSecond := ns / 1000000000, trim := 0, slew := 0,
                 hold := none, discipline := .acquire, hops := 15, timeValid := good && s.backup.timeValid, stepFlags := 0,
                 holdoverRun := 0, peers := [],
                 ref := Reference.start (if referenceFitted t then .absent else .notFitted) } ∧
      t.backup = (if good then s.backup else { seconds := 0, timeValid := false, intact := true }) ∧
      (s.start.powered = true → flash = s.flash) ∧ (s.start.powered = false → UnitFinished s flash) ∧
      StartsUp straps image tables flash s w ∧ StartSettled w t ∧ t.lib.port = w.lib.port

/-- The restart pin (R178): a pulse shorter than 10 µs does nothing; a longer one holds the station at its start values while tower
time stands as it was, and when the pin rises the warm restart is made. -/
def Obligations.RestartPinRestarts : Prop :=
  (∀ (lowUs : Nat) (s : State), awake s = true → lowUs < 10 → exec (.restartPinFall lowUs) s = .next s) ∧
  (∀ (lowUs : Nat) (straps : LineNumber) (image : BootImage) (s : State), awake s = true → 10 ≤ lowUs →
    ∃ u t, exec (.restartPinFall lowUs) s = .next u ∧ awake u = false ∧ u.start.state = .starting ∧
      u.time.ns = s.time.ns ∧ u.time.trim = s.time.trim ∧ u.backup = s.backup ∧ u.rows = Vector.replicate 4 none ∧
      u.line = LineInterface.start ∧ u.out = OutputQueue.start ∧ u.safety = SafetyHold.start ∧
      exec (.restartPinRise straps image) u = .next t ∧ WarmRestarted straps image s t) ∧
  ∀ (straps : LineNumber) (image : BootImage) (s : State), s.start.powered = true → s.start.pinLow = true →
    ∃ t, exec (.restartPinRise straps image) s = .next t ∧ t.start.pinLow = false ∧ t.start.number = straps.toNat ∧
      t.start.reason = bootFault image ∧ t.backup = s.backup ∧ t.line = s.line ∧ SameInstances s t ∧
      t.time = { s.time with ref := Reference.start (if referenceFitted t then .absent else .notFitted) }

/-- RESTART queues its RESULT and arms the warm restart for 100,000 µs; the warm restart begins at RESTART_TIMEOUT, or when FRAME_SENT
tells that the RESULT has been sent (R178). STARTING then reads the straps and boot memory again (R175);
that what they present to each such reading is a free value, the next one of `Config.presented`, is the model's choice (log entry 25). -/
def Obligations.RestartCommandRestarts : Prop :=
  (∀ (n : LineNumber) (target : Byte) (s : State), started s = true → targeted target s = true →
    exec (.restart n target) s = .next
      { send { newFrame 5 (resultData n.toNat 4 6 .accepted 0) with restart := true } (noteSender n 2 s) with
        start := { s.start with restart := some (s.start.restart.getD 100000) } }) ∧
  ∀ s : State, awake s = true →
    let restarts : Instr → Prop := fun c => ∃ t, exec c s = .next t ∧ t.start.readings = s.start.readings + 1 ∧
      WarmRestarted (Config.presented s.start.readings).1 (Config.presented s.start.readings).2 s t
    (s.start.restart.isSome = true → restarts .restartTimeout) ∧
    ∀ f : TxFrame, sendingFrame s = some f → f.restart = true → restarts .frameSent

/-- MAIN_POWER_LOSS (R45, R114, R126, R176): retained memory and its tables stay, and flash keeps what the unit in progress had written: of
a block write nothing, the bytes without the mark, or both; of a tag write, a dead mark or a sector erase nothing or all of it; and a refill
or a read of a check writes nothing. Where a unit is cut, and that volatile state takes its start values at the loss, are the model's choices
(log entry 26). -/
def Obligations.PowerLossKeepsRetained : Prop :=
  ∀ (cut : CutPoint) (s : State), s.start.powered = true →
    ∃ t, exec (.mainPowerLoss cut) s = .next t ∧ t.start.powered = false ∧ t.backup = s.backup ∧
      t.cal.entries.map Entry.underive = s.cal.entries.map Entry.underive ∧ t.cal.dusk = s.cal.dusk ∧
      t.cal.seasons = s.cal.seasons ∧ t.rows = Vector.replicate 4 none ∧ t.line = LineInterface.start ∧
      t.counters = Counters.zero ∧
      (cut = .nothing ∨ s.lib.port = none → t.flash = s.flash) ∧
      (∀ u, s.lib.port = some u → (∀ i b live, u ≠ .blockWrite i b live) → cut = .dataOnly → t.flash = s.flash) ∧
      (cut = .whole →
        (∀ p live, s.lib.port = some (.refill p live) → t.flash = s.flash) ∧
        (∀ i k, s.lib.port = some (.checkRead i k) → t.flash = s.flash) ∧
        (∀ i m b, s.lib.port = some (.tagWrite i m b) →
          t.flash = s.flash.set i { s.flash[i] with tag := some { showNo := m, blocks := b, dead := false } }) ∧
        (∀ i, s.lib.port = some (.deadMark i) →
          t.flash = s.flash.set i { s.flash[i] with tag := s.flash[i].tag.map (fun g => { g with dead := true }) }) ∧
        ∀ i k live, s.lib.port = some (.sectorErase i k live) →
          t.flash = s.flash.set i (if k = 0 then { s.flash[i] with tag := none, marks := [] }
            else { s.flash[i] with data := s.flash[i].data.filter (fun e => e.1 / 256 + 1 != k) })) ∧
      ∀ (i : Fin 32) (b : QueuedBlock) (live : Bool), s.lib.port = some (.blockWrite i b live) →
        (cut = .dataOnly → t.flash = s.flash.set i (s.flash[i].writeData b.index b.data)) ∧
        (cut = .whole → t.flash = s.flash.set i ((s.flash[i].writeData b.index b.data).writeMark b.index))

/-! ### Tower time (1) -/

/-- TOWER_FRAME_BOUNDARY (R1). At the Output Queue and the Link Drivers (R129, R130, R132, R133, R135, R137): stale records go, low water
and underrun are noted when primed, and every driver takes the record of its frame or the fallback, and sends it on an enabled link in
RUNNING, or lets it wait for the frame being sent (R136). At the players and the announcer: what is due in each row, one item or several
taken in the order of R75 and R76, the flushes each row asks for (R89), the MARK frames emitted in order, the announcements and the refills
asked for (R63, R65, R69, R75 to R87, R91). While the restart pin is held low only the counter counts (R178); during a hold no boundary
arises (R5). The model's choices: which boundary a commanded one is and the counter put at it (log entry 10); the order of the blocks at
one boundary (log entry 11); that an END taken in RELEASING asks for no flush (log entry 21); how records stand across a new pass (log entry
22); when an advance is made and which rises of the projection limit ask for a flush (log entry 23); how long a starvation lasts and when a
window falls short (log entry 29); that rows announce in ascending order (log entry 38); and that a link in no state to send keeps the
count of the boundary too (log entry 20). -/
def Obligations.BoundaryHandsOver : Prop :=
  ∀ s : State, s.start.powered = true →
    let n := max (s.time.lastBoundary + 1) (frameNow s)
    let time := { s.time with ns := max s.time.ns (n * 25000000), lastBoundary := n }
    let kept := s.out.records.dropWhile (fun r => r.frame < n)
    let given : Option Record := match kept with | r :: _ => if r.frame = n then some r else none | [] => none
    let fallback : Fin 4 → FrameKind × List Nat := fun l =>
      if s.safety.holdList = [] then (.held, s.drivers[l].lastLevels) else (.safe, s.drivers[l].safeLevels)
    let chosen : Fin 4 → FrameKind × List Nat := fun l =>
      match given with
      | none => fallback l
      | some r => if r.safe then (.safe, r.levels[l]) else if s.safety.holdList = [] then (.live, r.levels[l]) else fallback l
    (s.time.hold.isSome = true → exec .towerFrameBoundary s = .next s) ∧
    (s.time.hold = none → s.start.pinLow = true → exec .towerFrameBoundary s = .next { s with time := time }) ∧
    (s.time.hold = none → s.start.pinLow = false →
      ∃ t, exec .towerFrameBoundary s = .next t ∧
        OnlyChanges [.time, .rows, .lib, .mixer, .out, .drivers, .mon, .line, .counters] s t ∧ t.time = time ∧
        t.out.records = (if given.isSome then kept.tail else kept) ∧ t.out.primed = (s.out.primed || given.isSome) ∧
        t.out.lowWater = (s.out.lowWater || (s.out.primed && decide (kept.length ≤ 1))) ∧
        t.out.underrun = (s.out.underrun || (s.out.primed && given.isNone)) ∧
        Counted (s.out.records.length - kept.length) .staleRecords s t ∧
        Counted (if s.out.primed && decide (kept.length ≤ 1) then 1 else 0) .lowWater s t ∧
        Counted (if s.out.primed && given.isNone then 1 else 0) .underruns s t ∧
        (s.start.state = .starting → t.drivers = s.drivers) ∧
        (s.start.state ≠ .starting → ∀ l : Fin 4,
          t.drivers[l].lastKind = (chosen l).1 ∧ t.drivers[l].lastLevels = (chosen l).2 ∧
          t.drivers[l].lastCount = BitVec.ofNat 16 n ∧ t.drivers[l].safeFrame = s.drivers[l].safeFrame ∧
          (isRunning s = true → t.drivers[l].refresh = some 30000) ∧
          (isRunning s = true → linkEnabled s l = true → s.drivers[l].sending = none →
            t.drivers[l].sending =
              some { kind := (chosen l).1, count := BitVec.ofNat 16 n, levels := (chosen l).2 }) ∧
          (isRunning s = true → linkEnabled s l = true → ∀ f, s.drivers[l].sending = some f →
            t.drivers[l].sending = some f ∧
            t.drivers[l].waiting = some { kind := (chosen l).1, count := BitVec.ofNat 16 n, levels := (chosen l).2 }) ∧
          (isRunning s = false ∨ linkEnabled s l = false ∨ s.drivers[l].sending = none →
            t.drivers[l].waiting = s.drivers[l].waiting) ∧
          (isRunning s = false → t.drivers[l].refresh = s.drivers[l].refresh) ∧
          (isRunning s = false ∨ linkEnabled s l = false → t.drivers[l].sending = s.drivers[l].sending)) ∧
        SameLibrary s t ∧ RefillsAsked t ∧
        (∃ asked : Fin 4 → Nat, FlushesAsked (asked 0 + asked 1 + asked 2 + asked 3) s t ∧
          (∀ p : Fin 4, s.rows[p] = none → t.rows[p] = none ∧ asked p = 0) ∧
          ∀ (p : Fin 4) (r : Row), s.rows[p] = some r → BoundaryRow n p r (asked p) s t) ∧
        (∀ (p : Fin 4) (r : Row), s.rows[p] = some r → (∀ q : Fin 4, q ≠ p → s.rows[q] = none) → BoundaryEffects n r s t) ∧
        ((∀ (p : Fin 4) (r : Row), s.rows[p] = some r → ∀ c ∈ r.ctx.window, c.action ≠ .mark) →
          t.line = announcedOn n s t s))

/-- WHOLE_SECOND loads the backup seconds counter and, outside STARTING, queues the BEACON with what R19 gives it, field by field in the
layout of R174, in place of one that waits (R1, R19, R23, R167); the entries due act, a firing that plays a show being taken as a request (R54 to R57, R93), windows open and
close, and the start of a day recomputes (R34 to R36, R38); and the station's STATUS of the second is queued last (R179). In STARTING and
while the pin is held low it does no more than load; during a hold none arises (R5). BACKUP_SECOND counts one. Which second a commanded
one is and the counter put at it (log entry 10), the order of the blocks at one second (log entries 11, 15), the window of a firing that
the look-back does not reach (log entry 15), what a beacon carries in the bits of no field (log entry 6) and in its stamp until R20 writes
it (log entry 24), which of two waiting beacons is replaced (log entry 24), and what a merge makes of a RUNNING
(log entry 23) or GATED row (log entry 34) whose adopted anchor lies ahead, are the model's choices. -/
def Obligations.WholeSecondLoadsBackup : Prop :=
  (∀ s : State, s.start.powered = true →
    let n := max (s.time.lastSecond + 1) (secondNow s)
    let time := { s.time with ns := max s.time.ns (n * 1000000000), lastSecond := n }
    (s.time.hold.isSome = true → exec .wholeSecond s = .next s) ∧
    (s.time.hold = none → s.start.pinLow = true ∨ s.start.state = .starting →
      exec .wholeSecond s = .next { s with time := time, backup := { s.backup with seconds := n } }) ∧
    (s.time.hold = none → started s = true →
      let reached : State := { s with time := time }
      let beacon := newFrame 1 (bytesBE 7 0 ++
        [byteOf (s.time.hops % 16 + 16 * match s.time.discipline with | .acquire => 0 | .track => 1 | .coast => 2 | .holdover => 3),
         byteOf ((if s.time.timeValid then 1 else 0) + (if s.time.stepFlags ≠ 0 then 2 else 0) +
           if s.safety.holdList ≠ [] then 4 else 0),
         faultSummary s, byteOf (s.rows.toList.filter (·.isSome)).length] ++ bytesBE 2 (positionOf s))
      let due : Entry → Prop := fun e => e.enabled = true ∧ e.nextFire = some (n * 40)
      let before : TimeUnit := { time with peers := measureSilence (time.ns / 1000) s.time.peers }
      let steady : Prop := ∀ k, consensus before = some k →
        coastHolds (coastOf s) s.line.fault k = true ∨ k.c.natAbs ≤ (if s.time.discipline = .track then 50000 else 2000)
      ∃ t v, exec .wholeSecond s = .next t ∧ t.backup.seconds = n ∧ t.flash = s.flash ∧ t.drivers = s.drivers ∧
        t.inputs = s.inputs ∧ t.safety = s.safety ∧ t.mon = s.mon ∧ t.out = s.out ∧ t.pending = s.pending ∧ RefillsAsked t ∧
        -- the beacon stands in the transmit queue of `v` (R19, R167)
        (s.start.number = 0 → v = s ∧ t.line = s.line) ∧
        (s.start.number ≠ 0 → (∀ g ∈ s.line.tx, g.cls = 1 → g.sending = true) → v = enqueue beacon s) ∧
        (∀ ahead g after, s.start.number ≠ 0 → s.line.tx = ahead ++ g :: after → g.cls = 1 → g.sending = false →
          (∀ f ∈ ahead, f.cls = 1 → f.sending = true) →
          v = bump .beaconsReplaced (setTx (ahead ++ beacon :: after) s) ∧ Counted 1 .beaconsReplaced s t) ∧
        -- STATUS (R179)
        (let status := newFrame 5 ([byteOf 1, stationByte t, faultSummary t, byteOf s.start.page] ++
            (List.range 10).flatMap (fun i => bytesBE 2 (counterAt t (s.start.page * 10 + i))))
         let reports : Prop := s.start.number ≠ 0 ∧ n % 10 = s.start.number % 10
         let closed : State → LineInterface := fun w => if reports then (send status w).line else w.line
         t.start = (if reports then { s.start with page := if s.start.page = 5 then 0 else s.start.page + 1 } else s.start) ∧
         (steady → s.line.tx.length ≤ 10 → (∀ e ∈ s.cal.entries, due e → e.isShow = false) → t.line = closed v) ∧
         -- an entry that plays a show and is due alone (R35)
         ∀ (e : Entry) (show' priority passes : Nat) (mode : PlayMode), steady → s.time.timeValid = true →
           e.kind = .playShow show' priority mode passes → (s.cal.entries.filter (fun f => f.isShow && f.enabled &&
             f.nextFire == some (n * 40))) = [e] →
           let request : Request :=
             { showNo := show', priority := priority, tag := n * 40 + 80, anchor := n * 40 + 80
               endFrame := if e.duration = 0 then none else some (n * 40 + 80 + e.duration * 40)
               mode := mode, passes := passes, origin := .calendar e.id }
           (isRunning s = false → SameInstances s t) ∧
           (isRunning s = true → headerOf s show' = none → Counted 1 .showAbsent s t ∧ SameInstances s t) ∧
           (isRunning s = true → (headerOf s show').isSome = true →
             RequestTaken request reached t (fun p x => t.rows[p].map Row.noAsk = x.map Row.noAsk) (fun _ => True)
               (fun x => s.line.tx.length ≤ 9 →
                 t.line = closed (match x with | some r => send (newFrame 2 (announceData 1 r)) v | none => v)))) ∧
        -- the calendar (R34, R35, R38, R40)
        (steady → s.time.timeValid = true →
          Counted (s.cal.entries.filter (fun f => f.isShow && f.enabled && f.nextFire == some (n * 40))).length
            .showFirings s t ∧
          ((s.cal.entries.map (·.id)).Pairwise (· < ·) →
            t.cal.entries = s.cal.entries.map (secondPassed s.cal.dusk s.cal.seasons n)) ∧
          t.cal.dusk = s.cal.dusk ∧ t.cal.seasons = s.cal.seasons ∧
          t.mixer.curfew = (selectCurfew t.cal.entries).map (·.2) ∧ t.mixer.base = (selectBase t.cal.entries).map (·.2) ∧
          (t.mixer.curfew ≠ s.mixer.curfew ∨ t.mixer.base ≠ s.mixer.base → s.mixer.flushAsked < t.mixer.flushAsked) ∧
          ((∀ e ∈ s.cal.entries, due e → e.isShow = false) → SameInstances s t)) ∧
        -- while time is not valid no entry acts (R36)
        (s.time.timeValid = false → consensus before = none →
          t.cal = s.cal ∧ SameInstances s t ∧ t.mixer = s.mixer ∧ count t .showFirings = count s .showFirings))) ∧
  ∀ s : State, exec .backupSecond s = .next { s with backup := { s.backup with seconds := s.backup.seconds + 1 } }

/-- The discipline event of WHOLE_SECOND (R11 to R16), from the consensus of the samples left after silence is measured: COAST when a
chosen condition holds; TRACK's slew and trim up to the threshold of the state; above it ACQUIRE's step, hold or backward
step; and with no consensus HOLDOVER. A correction moves the samples and last arrivals (R4), the tables are recomputed and the
selection made (R36, R37), with the window of an entry due at that second beside what its look-back finds (R38), the rows' last
announcements move (R71) and the players act on the notice (R94). At which second the event falls (log entry 10), its place among the
second's work (log entry 11), the window of a firing that the look-back does not reach (log entry 15), and its own open points (log entries
12, 14), are the model's choices. -/
def Obligations.DisciplineEventActs : Prop :=
  ∀ s : State, started s = true → s.time.hold = none →
    let n := max (s.time.lastSecond + 1) (secondNow s)
    let ns := max s.time.ns (n * 1000000000)
    let peers := measureSilence (ns / 1000) s.time.peers
    let before : TimeUnit := { s.time with ns := ns, lastSecond := n, peers := peers }
    let spent : TimeUnit → TimeUnit := fun u => { u with peers := u.peers.map (fun p => { p with sample := none }) }
    let threshold := if s.time.discipline = .track then 50000 else 2000
    -- the tables after a correction or a change of time-valid (R36 to R38, R40), where no two entries have one id (R26) and, while
    -- time-valid was clear, no entry had a next-fire or a window (R36)
    let tables : State → Prop := fun t =>
      (s.cal.entries.map (·.id)).Pairwise (· < ·) →
      (s.time.timeValid = false → ∀ e ∈ s.cal.entries, e.nextFire = none ∧ e.windowEnd = none) →
      t.cal.entries = s.cal.entries.map (correctedEntry s.cal.dusk s.cal.seasons t.time.timeValid n (secondNow t)) ∧
        ((∀ e ∈ s.cal.entries, e.enabled = true → e.isShow = false → e.nextFire ≠ some (n * 40)) → RecomputedAt (secondNow t) s t) ∧
        t.mixer.curfew = (selectCurfew t.cal.entries).map (·.2) ∧ t.mixer.base = (selectBase t.cal.entries).map (·.2)
    ∃ t, exec .wholeSecond s = .next t ∧
      (consensus before = none →
        t.time = spent { before with
          discipline := .holdover, slew := 0, holdoverRun := s.time.holdoverRun + 1
          hops := if 60 ≤ s.time.holdoverRun + 1 then 15 else s.time.hops }) ∧
      ∀ k, consensus before = some k →
        let heard := k.reference || k.samples.any (·.timeValid)
        let settled : TimeUnit := { before with holdoverRun := 0, hops := k.hops }
        let acquiring : TimeUnit := { settled with discipline := .acquire, slew := 0 }
        (coastHolds (coastOf s) s.line.fault k = true →
          t.time = spent { settled with discipline := .coast, slew := 0 }) ∧
        (coastHolds (coastOf s) s.line.fault k = false →
          (k.c.natAbs ≤ threshold →
            t.time = spent { settled with
              discipline := .track, slew := max (-500) (min 500 (k.c.tdiv 4))
              trim := max (-200000) (min 200000 (s.time.trim + (k.c * 1000).tdiv 256))
              timeValid := s.time.timeValid || heard }) ∧
          (threshold < k.c.natAbs →
            (0 < k.c → Counted 1 .steps s t ∧
              t.time = spent { correctedTime k.c true (landedOn ((ns : Int) + k.c * 1000).toNat acquiring) with
                timeValid := s.time.timeValid || heard }) ∧
            (k.c < 0 → -60000000 ≤ k.c → Counted 1 .holds s t ∧
              t.time = spent { correctedTime k.c false acquiring with
                hold := some k.c.natAbs, timeValid := s.time.timeValid || heard }) ∧
            (k.c < -60000000 → Counted 1 .steps s t ∧
              t.time = spent { correctedTime k.c true (landedOn ((ns : Int) + k.c * 1000).toNat acquiring) with
                timeValid := heard }) ∧
            s.mixer.flushAsked < t.mixer.flushAsked ∧
            (s.time.timeValid = true ∨ t.time.timeValid = true → tables t) ∧
            ((∀ e ∈ s.cal.entries, e.isShow = false) → ∀ p : Fin 4,
              t.rows[p].map Row.noAsk = (s.rows[p].bind (fun r =>
                if 0 < k.c then
                  steppedForward (zonesOf s).length (frameNow t) (headerOr s r.showNo).release (heardMoved k.c r)
                else if k.c < -60000000 then some (steppedBackward (frameNow t) (heardMoved k.c r))
                else some r)).map Row.noAsk)) ∧
          (s.time.timeValid = false → t.time.timeValid = true → tables t) ∧
          (t.time.timeValid ≠ s.time.timeValid → t.backup.timeValid = t.time.timeValid ∧ t.backup.intact = true))

/-- HOLD_END lets the counter run (R5); the reference input takes a pulse, its message, a message that fails, and silence (R17, R18). That
a HOLD_END with no hold does nothing (log entry 8), and that the silence timer starts at an acceptance and a message is judged during a hold
as at any time (log entry 13), are the model's choices. -/
def Obligations.HoldEndAndReference : Prop :=
  ∀ s : State, awake s = true →
    exec .holdEnd s = .next { s with time := { s.time with hold := none } } ∧
    (s.time.ref.state ≠ .notFitted → s.time.hold = none → s.time.ref.waiting = none →
      exec .referencePulse s = .next
        { s with time := { s.time with ref := { s.time.ref with waiting := some { stamp := towerUs s, left := 500000 } } } }) ∧
    (s.time.ref.state = .notFitted ∨ s.time.hold.isSome = true → exec .referencePulse s = .next s) ∧
    (∀ (w : WaitingPulse) (x : Int), s.time.ref.waiting = some w → 0 ≤ x → x < 3155760000 →
      s.time.ref.run = 0 ∨ x = s.time.ref.lastSecond + 1 →
      exec (.referenceMessage (some x)) s = .next
        { s with time := { s.time with
            ref := { s.time.ref with
              run := s.time.ref.run + 1, lastSecond := x, offset := some (x * 1000000 - w.stamp), waiting := none
              state := if s.time.ref.state = .valid ∨ 3 ≤ s.time.ref.run + 1 then .valid else s.time.ref.state
              silence := if s.time.ref.state = .valid ∨ 3 ≤ s.time.ref.run + 1 then some 2000000
                         else s.time.ref.silence } } }) ∧
    (∀ (w : WaitingPulse) (x : Int), s.time.ref.waiting = some w → 0 ≤ x → x < 3155760000 →
      s.time.ref.run ≠ 0 → x ≠ s.time.ref.lastSecond + 1 →
      exec (.referenceMessage (some x)) s = .next
        { s with time := { s.time with
            ref := { s.time.ref with
              run := 1, lastSecond := x, offset := some (x * 1000000 - w.stamp), waiting := none, silence := none
              state := if s.time.ref.state = .valid then .absent else s.time.ref.state } } }) ∧
    (∀ (w : WaitingPulse) (x : Option Int), s.time.ref.waiting = some w →
      (∀ y, x = some y → y < 0 ∨ 3155760000 ≤ y) →
      ∀ c ∈ [Instr.referenceMessage x, .referenceMessageTimeout], exec c s = .next
        { s with time := { s.time with
            ref := { s.time.ref with
              run := 0, waiting := none, silence := none
              state := if s.time.ref.state = .valid then .absent else s.time.ref.state } } }) ∧
    (s.time.ref.silence.isSome = true → s.time.hold = none →
      exec .referenceSilence s = .next
        { s with time := { s.time with ref := { s.time.ref with state := .absent, run := 0, silence := none } } })

/-- BEACON (R6, R7): a new station gets an entry in its place, a known one takes the beacon, and with 48 entries held a new one is
counted and dropped; a beacon under number 0 or the own number is not taken, and a hold gives no sample (R5). That a position
above 1,023 goes into the delay as it is, is the model's choice (log entry 35). -/
def Obligations.BeaconTaken : Prop :=
  ∀ (n : LineNumber) (arrival : Nat) (stamp : BitVec 56) (body : BeaconBody) (s : State), started s = true →
    let known := s.time.peers.any (fun p => p.number == n.toNat)
    let x : Int := (stamp.toNat : Int) + delayUs (positionOf s) body.position.toNat - arrival
    (n.toNat = 0 ∨ n.toNat = s.start.number → exec (.beacon n arrival stamp body) s = .next (noteSender n 13 s)) ∧
    (n.toNat ≠ 0 → n.toNat ≠ s.start.number →
      (known = false → s.time.peers.length < 48 →
        ∃ before after, s.time.peers = before ++ after ∧ (∀ p ∈ before, p.number < n.toNat) ∧
          (∀ p, after.head? = some p → n.toNat < p.number) ∧
          exec (.beacon n arrival stamp body) s = .next
            { noteSender n 13 s with time := { s.time with
                peers := before ++ { number := n.toNat, body := body, lock := .seeking, consistentRun := 0,
                                     inconsistentRun := 0, previous := if s.time.hold.isSome then none else some x,
                                     sample := none, lastArrival := arrival } :: after } }) ∧
      (known = false → 48 ≤ s.time.peers.length →
        exec (.beacon n arrival stamp body) s = .next (bump .peerTableFull (noteSender n 13 s))) ∧
      (known = true →
        exec (.beacon n arrival stamp body) s = .next
          { noteSender n 13 s with time := { s.time with
              peers := s.time.peers.map (fun p =>
                if p.number = n.toNat then
                  let q := { p with body := body, lastArrival := arrival }
                  let q := if p.lock = .lapsed then
                      { q with lock := .seeking, consistentRun := 0, inconsistentRun := 0, previous := none, sample := none }
                    else q
                  if s.time.hold.isSome then q
                  else
                    let (r, consistent) := q.filter x
                    if r.lock = .locked ∧ consistent = true ∧ (body.timeValid = true ∨ s.time.timeValid = false) then
                      { r with sample := some { value := x, hops := body.hops.toNat, timeValid := body.timeValid,
                                                stepFlag := body.stepFlag } }
                    else r
                else p) } }))

/-- TIME_SET (R21, R22): the outcomes in the order of the table and the correction of each, with the actions of R4 on the counter, the
peers, the step flag countdown and the counters, for the difference between the value carried and the arrival stamp; what the notice makes of
the calendar, with a skipped firing that is missed, or late and taken as a request (R37, R54 to R57, R93), of the rows (R71) and of the players
(R94). That a hold ends even at a refused TIME SET, and how the nanoseconds are loaded (log entry 14), and what a merge makes of a RUNNING
(log entry 23) or GATED row (log entry 34) whose adopted anchor lies ahead, are the model's choices. -/
def Obligations.TimeSetCorrects : Prop :=
  ∀ (n : LineNumber) (target : Byte) (arrival : Nat) (value : BitVec 56) (s : State),
    started s = true → concerns target s = true →
    let c := Instr.timeSet n target arrival value
    let d : Int := (value.toNat : Int) - (if s.time.hold.isSome then towerUs s else arrival : Nat)
    let u := noteSender n 9 s
    let freed := { s.time with hold := none }
    let refused : Verdict → State := fun v => servePort (answerResult n target 4 5 v 0
      (bump .timeSetRefused { u with time := freed }))
    (3155760000000000 ≤ value.toNat → exec c s = .next (refused .invalid)) ∧
    (value.toNat < 3155760000000000 →
      (s.time.hops = 0 ∧ s.time.ref.state = .valid → exec c s = .next (refused .notNow)) ∧
      (¬ (s.time.hops = 0 ∧ s.time.ref.state = .valid) →
        (d < -2000000 → s.time.timeValid = true → exec c s = .next (refused .notNow)) ∧
        (¬ (d < -2000000 ∧ s.time.timeValid = true) →
          ∃ t, exec c s = .next t ∧ t.backup.seconds = s.backup.seconds ∧ t.flash = s.flash ∧ t.drivers = s.drivers ∧
            t.safety = s.safety ∧ t.mon = s.mon ∧ t.inputs = s.inputs ∧ t.start = s.start ∧ t.out = s.out ∧
            RefillsAsked t ∧ (s.time.timeValid = false → t.backup.timeValid = true ∧ t.backup.intact = true) ∧
            -- the Time Unit (R4, R5, R22)
            (0 < d → Counted 1 .steps s t ∧ count t .holds = count s .holds ∧
              t.time = { correctedTime d true (landedOn ((s.time.ns : Int) + d * 1000).toNat freed) with timeValid := true }) ∧
            (d = 0 → t.time = { freed with timeValid := true } ∧ count t .steps = count s .steps ∧
              count t .holds = count s .holds) ∧
            (-2000000 ≤ d → d < 0 → Counted 1 .holds s t ∧ count t .steps = count s .steps ∧
              t.time = { correctedTime d false freed with hold := some d.natAbs, slew := 0, timeValid := true }) ∧
            (d < -2000000 → Counted 1 .steps s t ∧ count t .holds = count s .holds ∧
              t.time = { correctedTime d true (landedOn (value.toNat * 1000) freed) with timeValid := true }) ∧
            -- the notice (R36, R37, R71, R94)
            (d ≠ 0 → s.mixer.flushAsked < t.mixer.flushAsked) ∧
            (d ≠ 0 ∨ s.time.timeValid = false → RecomputedAt (secondNow t) s t) ∧
            (let noticed : Row → Option Row := fun r =>
               if 0 < d then steppedForward (zonesOf s).length (frameNow t) (headerOr s r.showNo).release (heardMoved d r)
               else if d < -2000000 then some (steppedBackward (frameNow t) (heardMoved d r))
               else some r
             let skipped : Entry → Nat → Prop := skippedOn s (secondNow s) (secondNow t)
             (d ≤ 0 ∨ s.time.timeValid = false ∨ (∀ e day, ¬ skipped e day) →
               count t .lateFirings = count s .lateFirings ∧ count t .missedFirings = count s .missedFirings ∧
               t.line = (answerResult n target 4 5 .accepted 0 u).line ∧
               ∀ p : Fin 4, t.rows[p].map Row.noAsk = (s.rows[p].bind noticed).map Row.noAsk) ∧
             ∀ (e : Entry) (day show' priority passes : Nat) (mode : PlayMode), 0 < d → s.time.timeValid = true →
               (s.cal.entries.map (·.id)).Pairwise (· < ·) → skipped e day →
               (∀ e' day', skipped e' day' → e' = e ∧ day' = day) → e.kind = .playShow show' priority mode passes →
               let instant := instantOf s.cal.dusk s.cal.seasons e.anchor day
               let request : Request :=
                 { showNo := show', priority := priority, tag := instant * 40 + 80, anchor := instant * 40 + 80
                   endFrame := if e.duration = 0 then none else some (instant * 40 + 80 + e.duration * 40)
                   mode := mode, passes := passes, origin := .calendar e.id }
               (instant * 1000000 + 60000000 < towerUs t →
                 Counted 1 .missedFirings s t ∧ count t .lateFirings = count s .lateFirings ∧
                 ∀ p : Fin 4, t.rows[p].map Row.noAsk = (s.rows[p].bind noticed).map Row.noAsk) ∧
               (towerUs t ≤ instant * 1000000 + 60000000 →
                 Counted 1 .lateFirings s t ∧ count t .missedFirings = count s .missedFirings ∧
                 (isRunning s = false →
                   ∀ p : Fin 4, t.rows[p].map Row.noAsk = (s.rows[p].bind noticed).map Row.noAsk) ∧
                 (isRunning s = true → headerOf s show' = none → Counted 1 .showAbsent s t ∧
                   ∀ p : Fin 4, t.rows[p].map Row.noAsk = (s.rows[p].bind noticed).map Row.noAsk) ∧
                 (isRunning s = true → (headerOf s show').isSome = true →
                   RequestTaken request { s with time := t.time } t
                     (fun p x => t.rows[p].map Row.noAsk = (x.bind noticed).map Row.noAsk) (fun _ => True)
                     (fun x => t.line = (answerResult n target 4 5 .accepted 0
                       (match x with | some r => send (newFrame 2 (announceData 1 r)) u | none => u)).line)))))))

/-! ### The calendar (2) -/

/-- ENTRY_WRITE and ENTRY_EXTRA (R42, R43, R45): the refusals INVALID, FULL and UNKNOWN, and what an accepted write puts in the entry's
place, recomputed: every field as the frame carries it, priorities clamped (R27, R174); a write of the same kind keeps the skip list, the
levels and the ceiling, and another empties them. That id 0 is accepted (log entry 16), and that every accepted frame makes the marker intact and RETAIN LOST fall (R41, R176, log entry 17), are the
model's choices. -/
def Obligations.EntryWrittenInPlace : Prop :=
  (∀ (n : LineNumber) (target : Byte) (f : EntryImage) (s : State), started s = true → concerns target s = true →
    let u := noteSender n 21 s
    let refused : Verdict → State := fun v => answerResult n target 6 1 v f.id.toNat (bump .scheduleRefused u)
    let accepted : List Entry → State := fun es =>
      answerResult n target 6 1 .accepted f.id.toNat (noteAccepted (selectWindows (setEntries es u)))
    (entryOf f = none → exec (.entryWrite n target f) s = .next (refused .invalid)) ∧
    ∀ new, entryOf f = some new →
      ((∀ e ∈ s.cal.entries, e.id ≠ f.id.toNat) → 96 ≤ s.cal.entries.length →
        exec (.entryWrite n target f) s = .next (refused .full)) ∧
      ((∀ e ∈ s.cal.entries, e.id ≠ f.id.toNat) → s.cal.entries.length < 96 →
        ∃ before after, s.cal.entries = before ++ after ∧ (∀ e ∈ before, e.id < f.id.toNat) ∧
          (∀ e, after.head? = some e → f.id.toNat < e.id) ∧
          exec (.entryWrite n target f) s = .next (accepted (before ++ recomputeEntry s new :: after))) ∧
      ∀ before old after, s.cal.entries = before ++ old :: after → old.id = f.id.toNat → (∀ e ∈ before, e.id < f.id.toNat) →
        exec (.entryWrite n target f) s = .next (accepted (before ++ recomputeEntry s (keepExtras old new) :: after))) ∧
  (∀ old new : Entry, old.kind.code = new.kind.code →
    (keepExtras old new).skips = old.skips ∧ (keepExtras old new).kind.levels = old.kind.levels ∧
      (keepExtras old new).kind.ceiling = old.kind.ceiling ∧ (keepExtras old new).kind.code = new.kind.code) ∧
  (∀ (f : EntryImage) (new : Entry), entryOf f = some new →
    new = writtenEntry f ∧
      ∀ old : Entry,
        (old.kind.code ≠ new.kind.code → keepExtras old new = new) ∧
        (old.kind.code = new.kind.code →
          keepExtras old new = { new with
            skips := old.skips
            kind := match old.kind, new.kind with
              | .curfew ceiling _, .curfew _ exempt => .curfew ceiling exempt
              | .base _ levels, .base priority _ => .base priority levels
              | _, k => k })) ∧
  ∀ (n : LineNumber) (target : Byte) (f : ExtraImage) (s : State), started s = true → concerns target s = true →
    let u := noteSender n 21 s
    let days := (f.skips.toList.take f.skipCount.toNat).map BitVec.toNat
    let refused : Verdict → State := fun v => answerResult n target 6 2 v f.id.toNat (bump .scheduleRefused u)
    ((∀ e ∈ s.cal.entries, e.id ≠ f.id.toNat) → exec (.entryExtra n target f) s = .next (refused .unknown)) ∧
    ∀ before old after, s.cal.entries = before ++ old :: after → old.id = f.id.toNat → (∀ e ∈ before, e.id < f.id.toNat) →
      (4 < f.skipCount.toNat ∨ (∃ d ∈ days, 36524 < d) → exec (.entryExtra n target f) s = .next (refused .invalid)) ∧
      (f.skipCount.toNat ≤ 4 → (∀ d ∈ days, d ≤ 36524) →
        exec (.entryExtra n target f) s = .next
          (answerResult n target 6 2 .accepted f.id.toNat (noteAccepted (selectWindows (setEntries
            (before ++ recomputeEntry s
              { old with
                skips := days
                kind := match old.kind with
                  | .playShow show' p m k => .playShow show' p m k
                  | .curfew _ exempt => .curfew f.ceiling.toNat exempt
                  | .base p _ => .base p (unpackLevels f.levels.toNat) } :: after) u)))))

/-- ENTRY_DELETE and CALENDAR_CLEAR (R44): the entry, or every entry, is removed, the other tables stay, and the selection is made
again; an id that is not there is refused UNKNOWN; the RESULT and the count are those of R41 and R45, and that an accepted frame makes the
marker intact and RETAIN LOST fall (R176) as it does is the model's choice (log entry 17). -/
def Obligations.EntriesRemoved : Prop :=
  (∀ (n : LineNumber) (target : Byte) (id : BitVec 16) (s : State), started s = true → concerns target s = true →
    let u := noteSender n 4 s
    ((∀ e ∈ s.cal.entries, e.id ≠ id.toNat) →
      exec (.entryDelete n target id) s = .next
        (answerResult n target 6 3 .unknown id.toNat (bump .scheduleRefused u))) ∧
    ((∃ e ∈ s.cal.entries, e.id = id.toNat) →
      exec (.entryDelete n target id) s = .next
        (answerResult n target 6 3 .accepted id.toNat (noteAccepted (selectWindows
          (setEntries (s.cal.entries.filter (fun e => e.id != id.toNat)) u)))))) ∧
  (∀ (n : LineNumber) (target : Byte) (s : State), started s = true → concerns target s = true →
    exec (.calendarClear n target) s = .next
      (answerResult n target 6 4 .accepted 0 (noteAccepted (selectWindows (setEntries [] (noteSender n 2 s)))))) ∧
  ∀ (es : List Entry) (s : State),
    (selectWindows (setEntries es s)).cal.dusk = s.cal.dusk ∧ (selectWindows (setEntries es s)).cal.seasons = s.cal.seasons ∧
      (selectWindows (setEntries es s)).cal.entries = es ∧
      (es = [] → (selectWindows (setEntries es s)).mixer.curfew = none ∧ (selectWindows (setEntries es s)).mixer.base = none ∧
        (selectWindows (setEntries es s)).mixer.flushAsked =
          s.mixer.flushAsked + (if s.mixer.curfew = none ∧ s.mixer.base = none then 0 else 1))

/-- DUSK_BLOCK, SEASON_WRITE and SEASON_CLEAR (R29, R30, R34): refusals, what the tables then hold, and that every entry is recomputed
against them; the RESULT and the count are those of R41 and R45, and that an accepted frame makes the marker intact and RETAIN LOST fall
(R176) as it does is the model's choice (log entry 17). -/
def Obligations.DuskAndSeasonsWritten : Prop :=
  ∀ (n : LineNumber) (target : Byte) (s : State), started s = true → concerns target s = true →
    let u : Nat → State := fun bytes => noteSender n bytes s
    let duskAt : List (Nat × Nat) → Nat → Option Nat := fun table i => (table.find? (fun e => e.1 == i)).map (·.2)
    let recomputed : State → State → Prop := fun t v =>
      t.cal.entries = s.cal.entries.map (fun e => e.recompute t.cal.dusk t.cal.seasons s.time.timeValid (secondNow s)) ∧
      OnlyChanges [.cal, .mixer, .backup, .start, .line, .counters] s t ∧ t.backup = { s.backup with intact := true } ∧
      t.start = { s.start with retainLost := false } ∧ t.line = v.line
    (∀ (first : BitVec 16) (values : Vector (BitVec 16) 8),
      let bad := first.toNat = 0 ∨ 366 < first.toNat ∨ ∃ k : Fin 8, first.toNat + k ≤ 366 ∧ 1439 < values[k].toNat
      (bad → exec (.duskBlock n target first values) s = .next
        (answerResult n target 6 5 .invalid 0 (bump .scheduleRefused (u 20)))) ∧
      (¬ bad → ∃ t, exec (.duskBlock n target first values) s = .next t ∧
        recomputed t (answerResult n target 6 5 .accepted 0 (u 20)) ∧ t.cal.seasons = s.cal.seasons ∧
        (∀ k : Fin 8, first.toNat + k ≤ 366 → duskAt t.cal.dusk (first.toNat + k) = some values[k].toNat) ∧
        ∀ i : Nat, i < first.toNat ∨ first.toNat + 8 ≤ i ∨ 366 < i → duskAt t.cal.dusk i = duskAt s.cal.dusk i)) ∧
    (∀ (instant : BitVec 32) (offset : Byte),
      let held := s.cal.seasons.any (fun w => w.instant == instant.toNat)
      let bad := 52596000 ≤ instant.toNat ∨ offset.toInt < -120 ∨ 120 < offset.toInt
      (bad → exec (.seasonWrite n target instant offset) s = .next
        (answerResult n target 6 6 .invalid 0 (bump .scheduleRefused (u 7)))) ∧
      (¬ bad → held = false → 16 ≤ s.cal.seasons.length → exec (.seasonWrite n target instant offset) s = .next
        (answerResult n target 6 6 .full 0 (bump .scheduleRefused (u 7)))) ∧
      (¬ bad → held = true ∨ s.cal.seasons.length < 16 → (s.cal.seasons.map (·.instant)).Pairwise (· < ·) →
        ∃ t, exec (.seasonWrite n target instant offset) s = .next t ∧
          recomputed t (answerResult n target 6 6 .accepted 0 (u 7)) ∧ t.cal.dusk = s.cal.dusk ∧
          (t.cal.seasons.map (·.instant)).Pairwise (· < ·) ∧
          ∀ w, w ∈ t.cal.seasons ↔ w = { instant := instant.toNat, offset := offset.toInt } ∨
            (w ∈ s.cal.seasons ∧ w.instant ≠ instant.toNat))) ∧
    ∃ t, exec (.seasonClear n target) s = .next t ∧ recomputed t (answerResult n target 6 7 .accepted 0 (u 2)) ∧
      t.cal.dusk = s.cal.dusk ∧ t.cal.seasons = []

/-! ### Show instances (3) -/

/-- START_SHOW (R52, R54 to R57, R93): a refusal counts and reports; an accepted request is taken: a show not held into the lowest IDLE row,
or by evicting the row that gives way, ARMED or in catch-up by its tag; a show held is merged, or its RELEASING row cut; the start is
announced and the RESULT follows; and with no row IDLE and none of lower priority it is refused FULL. What a merge makes of a row whose
adopted anchor lies ahead is the model's choice for a RUNNING row (log entry 23) and a GATED one (log entry 34). -/
def Obligations.StartShowTakesPlayer : Prop :=
  ∀ (n : LineNumber) (target : Byte) (f : StartImage) (s : State), started s = true → concerns target s = true →
    let c := Instr.startShow n target f
    let u := noteSender n 14 s
    let now := frameNow s
    let tag := if f.tag = 0 then now + 81 else f.tag.toNat
    let endFrame := if f.duration = 0 then none else some (tag + f.duration.toNat * 40)
    let priority := max 1 (min 15 f.priority.toNat)
    let bad : Prop := f.showNo = 0 ∨ (f.mode ≠ 0 ∧ f.mode ≠ 1) ∨ (f.mode = 0 ∧ f.passes ≠ 0) ∨ 15 < f.passes.toNat ∨
      345600 < f.duration.toNat ∨ 126230400000 ≤ f.tag.toNat
    let final : Nat → Option Nat := fun length =>
      match endFrame, (if f.mode = 0 then some (tag + length)
                       else if f.passes = 0 then none else some (tag + f.passes.toNat * length)) with
      | some e, some x => some (min e x)
      | some e, none => some e
      | none, x => x
    let refused : Verdict → Counter → State := fun v k =>
      servePort (answerResult n target 4 1 v f.showNo.toNat (bump k u))
    (s.start.state = .configFault → exec c s = .next (refused .notNow .startRefused)) ∧
    (s.start.state ≠ .configFault →
      (bad → exec c s = .next (refused .invalid .startRefused)) ∧
      (¬ bad → s.time.timeValid = false → exec c s = .next (refused .notNow .startRefused)) ∧
      (¬ bad → s.time.timeValid = true →
        (headerOf s f.showNo.toNat = none → exec c s = .next (refused .unknown .showAbsent)) ∧
        ∀ h, headerOf s f.showNo.toNat = some h →
          (∀ e, final h.length = some e → e ≤ now → exec c s = .next (refused .notNow .startRefused)) ∧
          ((∀ e, final h.length = some e → now < e) →
            let request : Request :=
              { showNo := f.showNo.toNat, priority := priority, tag := tag, anchor := tag, endFrame := endFrame
                mode := if f.mode = 1 then .loop else .once, passes := f.passes.toNat, origin := .console n.toNat }
            let full : Prop := (∀ (p : Fin 4) (r : Row), s.rows[p] = some r → r.showNo ≠ f.showNo.toNat) ∧
              ∀ p : Fin 4, ∃ r, s.rows[p] = some r ∧ priority ≤ r.priority
            (full → exec c s = .next (refused .full .instanceFull)) ∧
            ∃ t, exec c s = .next t ∧ OnlyChanges [.rows, .lib, .mixer, .line, .counters] s t ∧ SameLibrary s t ∧ RefillsAsked t ∧
              count t .startRefused = count s .startRefused ∧ count t .showAbsent = count s .showAbsent ∧
              RequestTaken request s t (fun p x => t.rows[p].map Row.noAsk = x.map Row.noAsk) (fun k => FlushesAsked k s t)
                (fun x => ¬ full → t.line = (answerResult n target 4 1 .accepted f.showNo.toNat
                  (match x with | some r => send (newFrame 2 (announceData 1 r)) u | none => u)).line))))

/-- ANNOUNCE_START and ANNOUNCE_RUNNING (R53 to R57, R64, R93): the conditions for acting on one; one that fails them is counted and
still heard; one that passes is taken as a request, by allocation, eviction or merge, its show's row in any state; a lower-numbered sender of the
row's own pair ends the duty, and a row of a smaller pair is announced as the correction. The model's choices: which announcements move
last heard (log entry 29), a RUNNING or GATED row whose adopted anchor lies ahead (log entries 23, 34), and the announced passes kept
with mode ONCE (log entry 40). -/
def Obligations.AnnouncementsMerge : Prop :=
  (∀ (q : Request) (s : State), announceActedOn q s = true ↔
    isRunning s = true ∧ s.time.timeValid = true ∧ ∃ h, headerOf s q.showNo = some h ∧
      (∃ z ∈ zonesOf s, h.low ≤ z.tower.toNat ∧ z.tower.toNat ≤ h.high) ∧ q.tag ≤ q.anchor ∧
      ∀ e, nominalFinal q h.length = some e → frameNow s < e) ∧
  ∀ (n : LineNumber) (a : Announcement) (s : State), started s = true → ShowsHeld s →
    let q : Request :=
      { showNo := a.showNo.toNat, priority := max 1 (min 15 a.priority.toNat), tag := a.tag.toNat, anchor := a.anchor.toNat
        endFrame := if a.duration = 0 then none else some (a.tag.toNat + a.duration.toNat)
        mode := a.mode, passes := a.passes.toNat, origin := .peer n.toNat }
    let u := noteSender n 17 s
    let heard : Row → Row := fun r =>
      if r.showNo = a.showNo.toNat ∧ r.tag = a.tag.toNat then { r with lastHeard := frameNow s } else r
    let ruled : Row → Row := fun r =>
      if r.showNo = a.showNo.toNat ∧ r.tag = a.tag.toNat ∧ r.anchor = a.anchor.toNat ∧ n.toNat < s.start.number then
        { r with announcer := false }
      else r
    ∀ c ∈ [Instr.announceStart n a, .announceRunning n a],
      (announceActedOn q s = false →
        ∃ t, exec c s = .next t ∧ OnlyChanges [.rows, .line, .counters] s t ∧ Counted 1 .announceIgnored s t ∧
          t.line = u.line ∧ ∀ p : Fin 4, t.rows[p] = s.rows[p].map heard) ∧
      (announceActedOn q s = true →
        ∃ t, exec c s = .next t ∧ OnlyChanges [.rows, .lib, .mixer, .line, .counters] s t ∧ SameLibrary s t ∧ RefillsAsked t ∧
          RequestTaken q { s with rows := s.rows.map (fun x => x.map heard) } t
            (fun p x => t.rows[p].map Row.noAsk = (x.map ruled).map Row.noAsk) (fun k => FlushesAsked k s t) (fun _ => True) ∧
          ((∀ (p : Fin 4) (r : Row), t.rows[p] = some r → r.showNo ≠ a.showNo.toNat) → t.line = u.line) ∧
          ∀ (p : Fin 4) (r : Row), t.rows[p] = some r → r.showNo = a.showNo.toNat →
            t.line = (if r.tag < a.tag.toNat ∨ (r.tag = a.tag.toNat ∧ r.anchor < a.anchor.toNat)
              then (send (newFrame 2 (announceData 2 r)) u).line else u.line))

/-- STOP_SHOW, STOP_ALL and ANNOUNCE_STOP (R58, R59, R61, R89): each row stopped becomes what its state makes of it and asks for one flush unless
it was RELEASING, the others stay, and the outcome is reported; an ANNOUNCE STOP of an earlier instance, or of a show not held, has no effect.
That a suspended RUNNING or GATED row whose show has no release becomes IDLE at once is the model's choice (log entry 39). -/
def Obligations.StopsRelease : Prop :=
  ∀ (n : LineNumber) (s : State), started s = true → ShowsHeld s →
    let u : Nat → State := fun bytes => noteSender n bytes s
    let stopped : Option Row → Option Row := fun x =>
      x.bind (fun r => (stoppedRow (frameNow s) (headerOr s r.showNo).attack (headerOr s r.showNo).release r).map Row.noAsk)
    let shape : State → Prop := fun t =>
      OnlyChanges [.rows, .lib, .mixer, .line, .counters] s t ∧ SameLibrary s t ∧ RefillsAsked t
    let asks : Option Row → Nat := fun x => match x with
      | some r => match r.phase with | .releasing _ _ => 0 | .armed | .running | .gated _ => 1
      | none => 0
    (∀ (target show' : Byte), concerns target s = true →
      (show' = 0 → exec (.stopShow n target show') s = .next (servePort (answerResult n target 4 2 .invalid 0 (u 3)))) ∧
      (show' ≠ 0 → (∀ (p : Fin 4) (r : Row), s.rows[p] = some r → r.showNo ≠ show'.toNat) →
        exec (.stopShow n target show') s = .next (servePort (answerResult n target 4 2 .unknown show'.toNat (u 3)))) ∧
      ∀ (p : Fin 4) (r : Row), show' ≠ 0 → s.rows[p] = some r → r.showNo = show'.toNat →
        ∃ t, exec (.stopShow n target show') s = .next t ∧ shape t ∧
          t.line = (answerResult n target 4 2 .accepted show'.toNat (u 3)).line ∧ FlushesAsked (asks (some r)) s t ∧
          t.rows[p].map Row.noAsk = stopped (some r) ∧
          ∀ q : Fin 4, q ≠ p → t.rows[q].map Row.noAsk = s.rows[q].map Row.noAsk) ∧
    (∀ target : Byte, concerns target s = true →
      ∃ t, exec (.stopAll n target) s = .next t ∧ shape t ∧ t.line = (answerResult n target 4 3 .accepted 0 (u 2)).line ∧
        FlushesAsked (s.rows.toList.map asks).sum s t ∧
        ∀ p : Fin 4, t.rows[p].map Row.noAsk = stopped s.rows[p]) ∧
    ∀ a : Announcement,
      ((∀ (p : Fin 4) (r : Row), s.rows[p] = some r → r.showNo = a.showNo.toNat → a.tag.toNat < r.tag) →
        exec (.announceStop n a) s = .next (u 17)) ∧
      ∀ (p : Fin 4) (r : Row), s.rows[p] = some r → r.showNo = a.showNo.toNat → r.tag ≤ a.tag.toNat →
        ∃ t, exec (.announceStop n a) s = .next t ∧ shape t ∧ t.line = (u 17).line ∧ FlushesAsked (asks (some r)) s t ∧
          t.rows[p].map Row.noAsk = stopped (some r) ∧
          ∀ q : Fin 4, q ≠ p → t.rows[q].map Row.noAsk = s.rows[q].map Row.noAsk

/-- MARK (R66, R67, R68, R85, R89): what is discarded; the GO mark, which releases every player GATED on mark 0, each with one flush asked; and a
numbered mark, which is filed in its row, first pair kept and oldest pair dropped, and releases its player when it is GATED on that number. -/
def Obligations.MarksFiledAndOffered : Prop :=
  ∀ (n : LineNumber) (show' : Byte) (tag : BitVec 40) (number : Byte) (release : BitVec 40) (s : State), awake s = true →
    let c := Instr.mark n show' tag number release
    let released : Gate → Row → Row := fun g r =>
      { r with anchor := max (release.toNat + 4) (max g.due (frameNow s + 1)) - g.time, phase := .running }
    (isRunning s = false → exec c s = .next (bump .marksDiscarded (noteSender n 12 s))) ∧
    (isRunning s = true → number = 0 → show' ≠ 0 ∨ tag ≠ 0 → exec c s = .next (bump .marksDiscarded (noteSender n 12 s))) ∧
    (isRunning s = true → number ≠ 0 →
      (∀ (p : Fin 4) (r : Row), s.rows[p] = some r → ¬ (r.showNo = show'.toNat ∧ r.tag = tag.toNat)) →
      exec c s = .next (bump .marksDiscarded (noteSender n 12 s))) ∧
    (isRunning s = true → number = 0 → show' = 0 → tag = 0 →
      ∃ t, exec c s = .next t ∧ OnlyChanges [.rows, .mixer, .line, .counters] s t ∧ t.line.tx = s.line.tx ∧
        FlushesAsked (s.rows.toList.filter (fun x => match x with
          | some r => (match r.phase with | .gated g => !r.suspended && g.mark == 0 | _ => false)
          | none => false)).length s t ∧
        ∀ p : Fin 4, t.rows[p] = s.rows[p].map (fun r =>
          match r.phase with
          | .gated g => if r.suspended = false ∧ g.mark = 0 then released g r else r
          | _ => r)) ∧
    (isRunning s = true → number ≠ 0 → ShowsHeld s →
      ∀ (p : Fin 4) (r : Row), s.rows[p] = some r → r.showNo = show'.toNat → r.tag = tag.toNat →
        ∃ t r', exec c s = .next t ∧ OnlyChanges [.rows, .mixer, .line, .counters] s t ∧ t.line.tx = s.line.tx ∧
          (∀ q : Fin 4, q ≠ p → t.rows[q] = s.rows[q]) ∧ t.rows[p] = some r' ∧
          (r.marks.any (fun e => e.1 == number.toNat) = true → r' = r) ∧
          (r.marks.any (fun e => e.1 == number.toNat) = false →
            r'.marks = (if 16 ≤ r.marks.length then r.marks.tail else r.marks) ++ [(number.toNat, release.toNat)] ∧
            Counted (if 16 ≤ r.marks.length then 1 else 0) .marksDropped s t ∧
            (∀ g, r.phase = .gated g → r.suspended = false → g.mark = number.toNat →
              r' = { released g r with marks := r'.marks } ∧ FlushesAsked 1 s t) ∧
            ((∀ g, r.phase = .gated g → r.suspended = true ∨ g.mark ≠ number.toNat) →
              r' = { r with
                marks := r'.marks
                ctx := { r.ctx with
                  lateWatch := (if r.ctx.lateWatch = some number.toNat then none else r.ctx.lateWatch) } } ∧
              Counted (if r.ctx.lateWatch = some number.toNat then 1 else 0) .marksLate s t)))

/-- CATCH_UP_COMPLETE (R86, R89, R90): the catch-up takes the items up to its target and completes: the held values are dropped and a flush is
asked; or it ends with its release, or waits for cues. The model's choices: a player with no catch-up is left as it was (log entry 8); a
catch-up takes all its items at its completion, one that takes the last pass's END completes at it, and an END taken in RELEASING asks no
flush of its own (log entry 21); records across a new pass stand as in log entry 22; a gate taken unreleased asks no flush for the
rise of the projection limit past it, so that only the completion's is asked there (log entry 23); and a catch-up waits once its target lies past the last cue held (log entry 29). -/
def Obligations.CatchUpCompletes : Prop :=
  ∀ (p : Fin 4) (r : Row) (s : State), awake s = true → s.rows[p] = some r →
    (r.ctx.catchUp = none → exec (.catchUpComplete p) s = .next (servePort s)) ∧
    ∀ u, r.ctx.catchUp = some u → r.suspended = false →
      ∃ t, exec (.catchUpComplete p) s = .next t ∧ OnlyChanges [.rows, .lib, .mixer, .line, .counters] s t ∧ SameLibrary s t ∧
        RefillsAsked t ∧
        (∃ k, FlushesAsked k s t) ∧ (∀ q : Fin 4, q ≠ p → t.rows[q].map Row.noAsk = s.rows[q].map Row.noAsk) ∧
        ((∀ c ∈ r.ctx.window, c.action ≠ .mark) → t.line = s.line) ∧ CatchUpRun p r u s t

/-! ### Frame computation and the links (5, 7) -/

/-- FLUSH_REQUEST, RENDER_BEGIN and RENDER_COMPLETE (R96, R97, R98, R99, R109, R110): a flush empties the queue and clears the cursor;
a render begins when R97 allows it, for the frame R97 gives, with the safe level or the mix on every mapped slot and 0 elsewhere;
its record, scaled link by link, joins the tail of the queue, or is discarded as late. Each player answers by its state (R88, R90): its held
values in catch-up, the values at its position, at its gate, or at the render frame's show frame up to its projection limit, on a copy that has
taken the items up to there, of which the last of each track governs (R80, R102); the highest track that holds a record gives a zone's value
(R103); and a layer carries its row's priority, tag and weight (R104 to R106). That a completion with no render does nothing (log
entry 8), that a flush is taken whether asked or not (log entry 18), that a render reads all it needs at its begin (log entry 19), and that a
loop's later pass is not projected (log entry 23) are the model's choices. -/
def Obligations.RendersAndFlushes : Prop :=
  -- the values at a show frame (R101, R103)
  (∀ (zones : List ZoneTracks) (y : Int), valuesAt zones y = zones.map (fun z => zoneValue z y)) ∧
  (∀ (z : ZoneTracks) (y : Int),
    (zoneValue z y = none ↔ ∀ k : Fin 4, z[k] = none) ∧
    ∀ (k : Fin 4) (o : ZoneRecord), z[k] = some o → (∀ m : Fin 4, k < m → z[m] = none) → zoneValue z y = some (recordValue o y)) ∧
  -- the projection limit (R88)
  (∀ r : Row, (r.ctx.window = [] → projectionLimit r = r.ctx.position) ∧
    let passGates : Prop := ∃ start w, r.phase = .releasing start w
    let bound : Int → Prop := fun b =>
      (∃ before c after, r.ctx.window = before ++ c :: after ∧ (∀ d ∈ before, d.action ≠ .endShow ∧ d.action ≠ .gate) ∧
        c.action = .gate ∧ ¬ passGates ∧ b = c.time) ∨
      (∃ before c after, r.ctx.window = before ++ c :: after ∧ (∀ d ∈ before, d.action ≠ .endShow) ∧ c.action = .endShow ∧ b = c.time) ∨
      ((∀ d ∈ r.ctx.window, d.action ≠ .endShow) ∧ ∃ c, r.ctx.window.getLast? = some c ∧ b = (c.time : Int) - 1)
    r.ctx.window ≠ [] → ∃ b, bound b ∧ (∀ b', bound b' → b ≤ b') ∧ projectionLimit r = max r.ctx.position b) ∧
  -- the answers (R88, R90)
  (∀ (zmap : List ZoneBoot) (r : Row) (n : Nat),
    let x := r.ctx
    let k : Int := (n : Int) - r.anchor
    let answers : Option (List (Option Levels)) → Prop := fun vs => playerAnswer zmap r n = vs
    (∀ u, x.catchUp = some u → answers (some u.held)) ∧
    (x.catchUp = none → r.suspended = true → answers (some (valuesAt x.zones x.position))) ∧
    (x.catchUp = none → r.suspended = false →
      (r.phase = .armed → n < r.anchor → answers none) ∧
      (∀ g, r.phase = .gated g → answers (some (valuesAt x.zones g.time))) ∧
      ((r.phase = .armed ∧ r.anchor ≤ n) ∨ r.phase = .running ∨ (∃ start w, r.phase = .releasing start w) →
        (k ≤ x.position → answers (some (valuesAt x.zones x.position))) ∧
        ∀ passGates : Bool, (passGates = true ↔ ∃ start w, r.phase = .releasing start w) → x.position < k →
          let y := min k (projectionLimit r)
          (CuesInOrder zmap passGates x → ∃ zones, ItemsTaken zmap passGates x y zones ∧ answers (some (valuesAt zones y))) ∧
          ∀ c later, x.window = c :: later → c.action = .sweepUp ∨ c.action = .sweepDown → (c.time : Int) = y →
            sweepsBeyond zmap x.sweeps y → (∀ d, later.head? = some d → y < d.time) →
            ∃ x', CueTaken zmap c later x x' ∧ answers (some (valuesAt x'.zones y))))) ∧
  -- the layers of a local zone (R104 to R106)
  (∀ (s : State) (n i : Nat),
    (zoneLayers s n i).Pairwise (fun a b => layerBefore a b = true) ∧
    ∀ l, l ∈ zoneLayers s n i ↔ ∃ (p : Fin 4) (r : Row) (vs : List (Option Levels)) (v : Levels),
      s.rows[p] = some r ∧ playerAnswer (zonesOf s) r n = some vs ∧ vs[i]? = some (some v) ∧
      let h := headerOr s r.showNo
      l = { priority := r.priority, tag := r.tag, player := p, values := v
            weight := match r.phase with
              | .releasing start w => releaseWeight r.tag h.attack start w h.release n
              | _ => attackWeight r.tag h.attack n }) ∧
  (∀ s : State, awake s = true →
    (∃ t, exec .flushRequest s = .next t ∧ OnlyChanges [.mixer, .out, .counters] s t ∧
      t.mixer = { s.mixer with cursor := none, render := none, flushAsked := s.mixer.flushAsked - 1 } ∧
      t.out = { s.out with records := [] } ∧ Counted 1 .flushes s t ∧ OnlyCounts [.flushes] s t) ∧
    (isRunning s = false ∨ s.mixer.render.isSome = true ∨ depthOf s ≤ s.out.records.length →
      exec .renderBegin s = .next s) ∧
    (isRunning s = true → s.mixer.render = none → s.out.records.length < depthOf s →
      let n := match s.mixer.cursor with | none => frameNow s + 1 | some k => max (k + 1) (frameNow s + 1)
      ∃ (t : State) (levels : LinkLevels), exec .renderBegin s = .next t ∧ OnlyChanges [.mixer, .rows] s t ∧
        t.mixer = { s.mixer with render := some { frame := n, safe := s.safety.holdList != [], levels := levels } } ∧
        (∀ p : Fin 4, t.rows[p] = s.rows[p].map (fun r =>
          { r with ctx := { r.ctx with
              lastAnswer := match playerAnswer (zonesOf s) r n with
                | some vs => some { frame := n, values := vs }
                | none => r.ctx.lastAnswer } })) ∧
        (∀ l : Fin 4, levels[l].length = 256) ∧
        (∀ (l : Fin 4) (k : Fin 256), (∀ z ∈ zonesOf s, (l, k) ∉ z.slots) → levels[l][k.val]? = some 0) ∧
        ∀ (i j : Nat) (z : ZoneBoot) (l : Fin 4) (k : Fin 256), (zonesOf s)[i]? = some z → z.slots[j]? = some (l, k) →
          (∀ (i' j' : Nat) (z' : ZoneBoot), (zonesOf s)[i']? = some z' → z'.slots[j']? = some (l, k) → i' = i ∧ j' = j) →
          levels[l][k.val]? = some
            (if s.safety.holdList = [] then mixSlot s.mixer.curfew s.mixer.base (zoneLayers s n i) j
             else safeLevelOf s l))) ∧
  ∀ s : State, awake s = true →
    (s.mixer.render = none → exec .renderComplete s = .next s) ∧
    ∀ r, s.mixer.render = some r →
      ∃ t, exec .renderComplete s = .next t ∧ OnlyChanges [.mixer, .out, .counters] s t ∧
        OnlyCounts [.budgetScaled, .renderLate] s t ∧
        t.mixer = { s.mixer with render := none, cursor := some r.frame } ∧
        Counted ((List.finRange 4).filter (fun l =>
          decide (0 < budgetOf s l ∧ budgetOf s l < (r.levels[l]).sum))).length .budgetScaled s t ∧
        Counted (if frameNow s < r.frame then 0 else 1) .renderLate s t ∧
        (r.frame ≤ frameNow s → t.out = s.out) ∧
        (frameNow s < r.frame →
          ∃ new : Record, t.out = { s.out with records := s.out.records ++ [new] } ∧ new.frame = r.frame ∧ new.safe = r.safe ∧
            ∀ l : Fin 4, new.levels[l] = scaleLink (budgetOf s l) r.levels[l])

/-- The link frame as it goes out (R135): line break, start code, kind, count, levels and check, bit by bit. LINK_FRAME_END and
REFRESH_EXPIRY (R136, R137): a link's frame ends and the one that waits starts if the link may send; at a refresh every enabled link of a
RUNNING station sends its fallback under the count of its last boundary frame, or lets it wait. That an end with no frame on the link
does nothing (log entry 8), that one refresh serves all four links, replaces a frame that waits and carries the count of the last boundary
taken (log entry 20), and that each µs of a break is a symbol of its own (log entry 41), are the model's choices. -/
def Obligations.LinkFramesEndAndRefresh : Prop :=
  (let bits : Nat → Nat → List Bool := fun width v => (List.range width).map (fun i => v.testBit (width - 1 - i))
   ∀ f : LinkFrame, f.levels.length = 256 →
     let body := bits 8 (match f.kind with | .live => 0 | .held => 1 | .safe => 2) ++ bits 16 f.count.toNat ++ f.levels.flatMap (bits 12)
     linkFrameSent f = List.replicate 100 .lineBreak ++ (bits 8 1 ++ body ++ bits 16 (crcBits body).toNat).map .bit ∧
     (linkFrameSent f).length = 3220 ∧
     ∀ (s : State) (l : Fin 4), (s.drivers[l].sending = some f → linkSent s l = some (linkFrameSent f)) ∧
       (s.drivers[l].sending = none → linkSent s l = none)) ∧
  (∀ (l : Fin 4) (s : State), awake s = true →
    (s.drivers[l].sending = none → exec (.linkFrameEnd l) s = .next s) ∧
    (s.drivers[l].sending.isSome = true →
      ∃ t, exec (.linkFrameEnd l) s = .next t ∧ OnlyChanges [.drivers, .mon] s t ∧
        t.drivers[l] = { s.drivers[l] with
          sending := if isRunning s = true ∧ linkEnabled s l = true then s.drivers[l].waiting else none, waiting := none } ∧
        (∀ m : Fin 4, m ≠ l → t.drivers[m] = s.drivers[m]) ∧ SameQuantities s t ∧
        ∀ k, OnlyRead (s.mon.sense k) (t.mon.sense k))) ∧
  ∀ s : State, awake s = true →
    ((∀ l : Fin 4, s.drivers[l].refresh = none) → exec .refreshExpiry s = .next s) ∧
    ((∃ l : Fin 4, s.drivers[l].refresh.isSome = true) →
      ∃ t, exec .refreshExpiry s = .next t ∧ OnlyChanges [.drivers, .mon, .counters] s t ∧ OnlyCounts [.refreshes] s t ∧
        SameQuantities s t ∧ (∀ k, OnlyRead (s.mon.sense k) (t.mon.sense k)) ∧
        (isRunning s = true → (∃ l : Fin 4, s.drivers[l].refresh.isSome = true ∧ linkEnabled s l = true) →
          Counted 1 .refreshes s t) ∧
        ((∀ l : Fin 4, s.drivers[l].refresh.isSome = true → isRunning s = false ∨ linkEnabled s l = false) →
          count t .refreshes = count s .refreshes) ∧
        ∀ l : Fin 4,
          let d := s.drivers[l]
          let frame : LinkFrame :=
            { kind := if s.safety.holdList = [] then .held else .safe, count := d.lastCount
              levels := if s.safety.holdList = [] then d.lastLevels else d.safeLevels }
          (d.refresh = none → t.drivers[l] = d) ∧
          (d.refresh.isSome = true → isRunning s = false ∨ linkEnabled s l = false →
            t.drivers[l] = { d with refresh := some 25000 }) ∧
          (d.refresh.isSome = true → isRunning s = true → linkEnabled s l = true →
            t.drivers[l] = (if d.sending = none then { d with refresh := some 25000, sending := some frame }
                            else { d with refresh := some 25000, waiting := some frame })))

/-! ### Link Monitors (8) -/

/-- SENSE_CHANGE (R140, R141): the quantity is taken, every raw sense reads by the thresholds of R140, its hysteresis and what is
driven, and the deglitch timer runs while raw sense and condition differ. In STARTING nothing is sensed. That the quantity is kept and
nothing sensed without power or with the pin low (log entry 9), and that SHORT and OPEN are sensed on a driven link only (log entry 30), are
the model's choices. -/
def Obligations.SensesRead : Prop :=
  ∀ (reading : Reading) (s : State),
    ∃ t, exec (.senseChange reading) s = .next t ∧ OnlyChanges [.mon] s t ∧
      (∀ l : Fin 4,
        t.mon.links[l].microamps = (match reading with | .current k a => if k = l then a else s.mon.links[l].microamps
                                                       | _ => s.mon.links[l].microamps) ∧
        t.mon.links[l].millivolts = (match reading with | .feed k v => if k = l then v else s.mon.links[l].millivolts
                                                        | _ => s.mon.links[l].millivolts)) ∧
      t.mon.temperature = (match reading with | .temperature x => x | _ => s.mon.temperature) ∧
      (started s = false → ∀ k, t.mon.sense k = s.mon.sense k) ∧
      (started s = true → ∀ k,
        let x := s.mon.sense k
        let raw : Bool := match k with
          | .link l .short => linkDriven s l && decide (180000 < t.mon.links[l].microamps)
          | .link l .openLine => linkDriven s l && decide (t.mon.links[l].microamps < 3000)
          | .link l .feedLow => decide (t.mon.links[l].millivolts < if x.present then 19000 else 18000)
          | .station .hotWarn => decide ((if x.present then 900 else 1050) ≤ t.mon.temperature)
          | .station .hotShutdown => decide ((if x.present then 1100 else 1250) ≤ t.mon.temperature)
        t.mon.sense k = { x with
          raw := raw, deglitch := if raw = x.present then none else some (x.deglitch.getD 100000) })

/-- DEGLITCH_EXPIRY, RETRY_EXPIRY and CLEAR_FAULTS (R141, R143, R145 to R150): the condition takes the raw sense; a detection sets the
flag, counts and adds the cause its mode names, a removal takes a RECOVER cause away; a retry ends the cause; and a clear
takes flag, retry and latched causes of every class whose condition is ABSENT, with the two flags of the Output Queue (R131). That an
expiry with no timer does nothing (log entry 8), and that a mode of no name acts as OFF (log entry 30), are the model's choices. -/
def Obligations.FaultsDetectedAndCleared : Prop :=
  (∀ (k : SenseClass) (s : State), awake s = true →
    let x := s.mon.sense k
    let mode := modeOf s k
    (x.deglitch = none → exec (.deglitchExpiry k) s = .next s) ∧
    (x.deglitch.isSome = true →
      ∃ t, exec (.deglitchExpiry k) s = .next t ∧ OnlyChanges [.mon, .counters] s t ∧ OnlyCounts [detectionCounter k] s t ∧
        SameQuantities s t ∧ (∀ j, j ≠ k → OnlyRead (s.mon.sense j) (t.mon.sense j)) ∧
        let y := t.mon.sense k
        y.present = x.raw ∧ (y.deglitch = none ∨ y.deglitch = some 100000) ∧
        (x.raw = false → y.sticky = x.sticky ∧ y.retry = x.retry ∧ y.cause = (if mode = .recover then false else x.cause) ∧
          count t (detectionCounter k) = count s (detectionCounter k)) ∧
        (x.raw = true → mode = .off ∨ mode = .unknown →
          y.sticky = x.sticky ∧ y.retry = x.retry ∧ y.cause = x.cause ∧
            count t (detectionCounter k) = count s (detectionCounter k)) ∧
        (x.raw = true → mode ≠ .off → mode ≠ .unknown →
          y.sticky = true ∧ Counted 1 (detectionCounter k) s t ∧ y.cause = (x.cause || mode != .warn) ∧
            y.retry = (if mode = .retry then some 1000000 else x.retry)))) ∧
  (∀ (l : Fin 4) (cls : LinkClass) (s : State), awake s = true →
    let k := SenseClass.link l cls
    ((s.mon.sense k).retry = none → exec (.retryExpiry l cls) s = .next s) ∧
    ((s.mon.sense k).retry.isSome = true →
      ∃ t, exec (.retryExpiry l cls) s = .next t ∧ OnlyChanges [.mon, .counters] s t ∧ OnlyCounts [.retries] s t ∧
        Counted 1 .retries s t ∧ SameQuantities s t ∧ (∀ j, j ≠ k → OnlyRead (s.mon.sense j) (t.mon.sense j)) ∧
        OnlyRead { s.mon.sense k with retry := none, cause := false } (t.mon.sense k))) ∧
  ∀ (n : LineNumber) (target : Byte) (s : State), started s = true → concerns target s = true →
    ∃ t, exec (.clearFaults n target) s = .next t ∧ OnlyChanges [.mon, .out, .line, .counters] s t ∧
      Counted 1 .clearsTaken s t ∧ t.out = { s.out with lowWater := false, underrun := false } ∧
      t.line = (answerResult n target 4 4 .accepted 0 (noteSender n 2 s)).line ∧ SameQuantities s t ∧
      ∀ k,
        let x := s.mon.sense k
        (x.present = true → OnlyRead x (t.mon.sense k)) ∧
        (x.present = false →
          OnlyRead { x with sticky := false, retry := none,
                            cause := x.cause && modeOf s k != .latched && modeOf s k != .retry } (t.mon.sense k))

/-! ### Contact Inputs and Safety Hold (9) -/

/-- INPUT_CHANGE, and DEBOUNCE_EXPIRY of an input of no function, of GO and of STOP ALL (R58, R68, R89, R153, R159, R160): the reading and
its timer, the debounced state, and what an activation, and no settle or release, raises, with the flushes it asks. That an expiry with no
timer does nothing (log entry 8), that a contact is only read while the station has power and its pin is not low (log entry 9), the
sense of an input where the boot record failed its checks (log entry 27), and what STOP ALL makes of a suspended RUNNING or GATED row whose
show has no release (log entry 39), are the model's choices. -/
def Obligations.ContactsDebounced : Prop :=
  ∀ (i : Fin 8) (s : State),
    let x := s.inputs[i]
    let activeAt : Bool → Bool := fun closed => if senseOf s i = .activeOpen then !closed else closed
    (∀ millivolts : Nat,
      (started s = false → exec (.inputChange i millivolts) s = .next
        { s with inputs := s.inputs.set i { x with millivolts := millivolts } }) ∧
      (started s = true →
        let closed := if millivolts < 800 then true else if 2000 < millivolts then false else x.closed
        let timer := match x.state with
          | .unsettled => some (if closed = x.closed then x.timer.getD 20000 else 20000)
          | .active => if activeAt closed then none else some (x.timer.getD 20000)
          | .inactive => if activeAt closed then some (x.timer.getD 20000) else none
        exec (.inputChange i millivolts) s = .next { s with
          inputs := s.inputs.set i { millivolts := millivolts, closed := closed, state := x.state, timer := timer } })) ∧
    (awake s = true → x.timer = none → exec (.debounceExpiry i) s = .next (servePort s)) ∧
    (awake s = true → x.timer.isSome = true →
      let active := activeAt x.closed
      let settled : State :=
        { s with inputs := s.inputs.set i { x with state := if active then .active else .inactive, timer := none } }
      (functionOf s i = .noFunction ∨ functionOf s i = .unknown → exec (.debounceExpiry i) s = .next (servePort settled)) ∧
      (functionOf s i = .go ∨ functionOf s i = .stopAll → x.state = .unsettled ∨ active = false →
        exec (.debounceExpiry i) s = .next (servePort settled)) ∧
      (functionOf s i = .go → x.state = .inactive → active = true →
        ∃ t, exec (.debounceExpiry i) s = .next t ∧ OnlyChanges [.inputs, .rows, .lib, .mixer, .line, .counters] s t ∧
          t.inputs = settled.inputs ∧ SameLibrary s t ∧ Counted 1 .activations s t ∧ Counted 1 .goRaised s t ∧
          t.line = (send (newFrame 3 (markData 0 0 0 (frameNow s))) s).line ∧
          FlushesAsked (s.rows.toList.filter (fun x => match x with
            | some r => (match r.phase with | .gated g => isRunning s && !r.suspended && g.mark == 0 | _ => false)
            | none => false)).length s t ∧
          ∀ p : Fin 4, t.rows[p].map Row.noAsk = s.rows[p].map (fun r =>
            (match r.phase with
             | .gated g =>
               if isRunning s = true ∧ r.suspended = false ∧ g.mark = 0 then
                 { r with anchor := max (frameNow s + 4) (max g.due (frameNow s + 1)) - g.time, phase := .running }
               else r
             | _ => r).noAsk)) ∧
      (functionOf s i = .stopAll → x.state = .inactive → active = true →
        ∃ t, exec (.debounceExpiry i) s = .next t ∧ OnlyChanges [.inputs, .rows, .lib, .mixer, .line, .counters] s t ∧
          t.inputs = settled.inputs ∧ SameLibrary s t ∧ Counted 1 .activations s t ∧ Counted 1 .stopAllRaised s t ∧
          t.line = ((s.rows.toList.filterMap (fun r => r.filter aliveRow)).foldl
            (fun u r => send (newFrame 2 (announceData 3 r)) u) s).line ∧
          FlushesAsked (s.rows.toList.filter (fun x => match x with | some r => aliveRow r | none => false)).length s t ∧
          ∀ p : Fin 4, t.rows[p].map Row.noAsk = s.rows[p].bind (fun r =>
            (stoppedRow (frameNow s) (headerOr s r.showNo).attack (headerOr s r.showNo).release r).map Row.noAsk)))

/-- DEBOUNCE_EXPIRY of a SAFETY input and RESEND_EXPIRY (R155, R158): the own hold begins at an activation or an ACTIVE settle, ends at the
release that leaves no SAFETY input ACTIVE, with the players' resumption where the list empties (R92), and an INACTIVE settle without it sends
one SAFETY CLEAR. That a resend or debounce expiry without its timer, or its own hold, does nothing (log entry 8), and that the MARK frames
of players that resume are queued before the SAFETY CLEAR (log entry 36), are the model's choices. -/
def Obligations.OwnHoldBeginsAndEnds : Prop :=
  (∀ (i : Fin 8) (s : State), awake s = true → functionOf s i = .safety → s.inputs[i].timer.isSome = true →
    let x := s.inputs[i]
    let active : Bool := if senseOf s i = .activeOpen then !x.closed else x.closed
    let settled : State :=
      { s with inputs := s.inputs.set i { x with state := if active then .active else .inactive, timer := none } }
    let others : Prop := ∃ j : Fin 8, j ≠ i ∧ functionOf s j = .safety ∧ s.inputs[j].state = .active
    (active = true → s.safety.ownHold = true → exec (.debounceExpiry i) s = .next
      (servePort (if x.state = .unsettled then settled else bump .activations settled))) ∧
    (active = true → s.safety.ownHold = false →
      ∃ t list, exec (.debounceExpiry i) s = .next t ∧ HoldListBecomes list s t ∧
        OnlyChanges [.inputs, .safety, .rows, .lib, .mixer, .line, .counters] s t ∧ t.inputs = settled.inputs ∧
        (∀ m, m ∈ list ↔ m = s.start.number ∨ m ∈ s.safety.holdList) ∧ t.safety.ownHold = true ∧
        t.safety.resend = (if s.start.number = 0 then s.safety.resend else some 2000000) ∧
        t.line = (send (newFrame 0 [1]) s).line ∧
        Counted (if x.state = .unsettled then 0 else 1) .activations s t) ∧
    (active = false → x.state = .unsettled → exec (.debounceExpiry i) s = .next
      (servePort (if s.safety.ownHold then settled else send (newFrame 0 [2]) settled))) ∧
    (active = false → x.state ≠ .unsettled → s.safety.ownHold = false ∨ others →
      exec (.debounceExpiry i) s = .next (servePort settled)) ∧
    (active = false → x.state ≠ .unsettled → s.safety.ownHold = true → ¬ others →
      let list := s.safety.holdList.filter (fun m => m != s.start.number)
      ∃ t, exec (.debounceExpiry i) s = .next t ∧ HoldListBecomes list s t ∧
        OnlyChanges [.inputs, .safety, .rows, .lib, .mixer, .line, .counters] s t ∧ t.inputs = settled.inputs ∧
        t.safety.ownHold = false ∧ t.safety.resend = none ∧
        t.line = (send (newFrame 0 [2]) (if s.safety.holdList ≠ [] ∧ list = [] then marksResumed s s else s)).line)) ∧
  ∀ s : State, awake s = true →
    (s.safety.resend = none → exec .resendExpiry s = .next s) ∧
    (s.safety.resend.isSome = true → s.safety.ownHold = true → s.start.number ≠ 0 →
      exec .resendExpiry s = .next
        { send (newFrame 0 [1]) s with safety := { s.safety with resend := some 2000000 } }) ∧
    (s.safety.resend.isSome = true → s.safety.ownHold = false →
      exec .resendExpiry s = .next { s with safety := { s.safety with resend := none } })

/-- SAFETY_SET and SAFETY_CLEAR (R156, R158), in every start state: one from sender 0 or the own number is discarded and counted;
another's number joins the list, or leaves it, with the players' suspension and resumption (R91, R92); and no report answers either. -/
def Obligations.SafetyFramesChangeTheList : Prop :=
  ∀ (n : LineNumber) (s : State), awake s = true →
    (n.toNat = 0 ∨ n.toNat = s.start.number →
      exec (.safetySet n) s = .next (bump .safetyDiscarded (noteSender n 1 s)) ∧
        exec (.safetyClear n) s = .next (bump .safetyDiscarded (noteSender n 1 s))) ∧
    (n.toNat ≠ 0 → n.toNat ≠ s.start.number → s.safety.holdList.Pairwise (· < ·) →
      (∃ t list, exec (.safetySet n) s = .next t ∧ HoldListBecomes list s t ∧
        OnlyChanges [.safety, .rows, .lib, .mixer, .line, .counters] s t ∧ t.line = (noteSender n 1 s).line ∧
        list.Pairwise (· < ·) ∧ (∀ m, m ∈ list ↔ m = n.toNat ∨ m ∈ s.safety.holdList) ∧
        (n.toNat ∈ s.safety.holdList → list = s.safety.holdList) ∧
        t.safety.ownHold = s.safety.ownHold ∧ t.safety.resend = s.safety.resend) ∧
      ∃ t list, exec (.safetyClear n) s = .next t ∧ HoldListBecomes list s t ∧
        OnlyChanges [.safety, .rows, .lib, .mixer, .line, .counters] s t ∧ list.Pairwise (· < ·) ∧
        (∀ m, m ∈ list ↔ m ≠ n.toNat ∧ m ∈ s.safety.holdList) ∧
        (n.toNat ∉ s.safety.holdList → list = s.safety.holdList) ∧
        t.safety.ownHold = s.safety.ownHold ∧ t.safety.resend = s.safety.resend ∧
        t.line = (if s.safety.holdList ≠ [] ∧ list = [] then marksResumed s (noteSender n 1 s) else noteSender n 1 s).line)

/-- SAFETY_CLEAR_ALL (R157, R158): refused from a sender that beacons; else every number but an own hold's leaves the list, a station that
holds sends its SET again, the players resume where the list empties (R92), and the outcome is reported. -/
def Obligations.ClearAllEmptiesTheList : Prop :=
  ∀ (n : LineNumber) (target : Byte) (s : State), started s = true → concerns target s = true →
    let u := noteSender n 2 s
    let list := if s.safety.ownHold then s.safety.holdList.filter (fun m => m == s.start.number) else []
    ((∃ p ∈ s.time.peers, p.number = n.toNat) →
      exec (.safetyClearAll n target) s = .next
        (servePort (answerResult n target 0 3 .invalid 0 (bump .clearAllRefused u)))) ∧
    ((∀ p ∈ s.time.peers, p.number ≠ n.toNat) →
      ∃ t, exec (.safetyClearAll n target) s = .next t ∧ HoldListBecomes list s t ∧
        OnlyChanges [.safety, .rows, .lib, .mixer, .line, .counters] s t ∧ Counted 1 .clearAllTaken s t ∧
        t.safety.ownHold = s.safety.ownHold ∧
        t.safety.resend = (if s.safety.ownHold = true ∧ s.start.number ≠ 0 then some 2000000 else s.safety.resend) ∧
        let told := if s.safety.holdList ≠ [] ∧ list = [] then marksResumed s u else u
        t.line = (answerResult n target 0 3 .accepted 0 (if s.safety.ownHold then send (newFrame 0 [1]) told else told)).line)

/-! ### The show library (6) -/

/-- SHOW_BEGIN and SHOW_DELETE (R117, R118, R119, R122): every case of their tables, for a show number that at most one slot holds, with
what the directory, the write queue, the erase list and the dead marks become; a block write or a sector erase in progress for the slot
runs to its end and no longer counts for the slot (R119, R121). -/
def Obligations.ShowsBegunAndDeleted : Prop :=
  ∀ (n : LineNumber) (target showNo : Byte) (s : State), started s = true → concerns target s = true →
    let u : Nat → State := fun sub => noteSender n (if sub = 1 then 5 else 3) s
    let refused : Nat → Verdict → State := fun sub v =>
      servePort (answerResult n target 7 sub v showNo.toNat (bump .libraryRefused (u sub)))
    let accepted : Nat → State → Prop := fun sub t =>
      OnlyChanges [.rows, .lib, .line, .counters] s t ∧ SameInstances s t ∧
        t.line = (answerResult n target 7 sub .accepted showNo.toNat (u sub)).line ∧
        count t .libraryRefused = count s .libraryRefused
    let unqueued := s.lib.queue.filter (fun b => b.showNo != showNo.toNat)
    let tagging : Fin 32 → Prop := fun i => ∃ a b, s.lib.port = some (.tagWrite i a b)
    let portKept : State → Prop := fun t => ∀ u, s.lib.port = some u → t.lib.port = some u
    let unitWithdrawn : Fin 32 → State → Prop := fun i t =>
      (∀ b live, s.lib.port = some (.blockWrite i b live) → t.lib.port = some (.blockWrite i b false)) ∧
      (∀ k live, s.lib.port = some (.sectorErase i k live) → t.lib.port = some (.sectorErase i k false)) ∧
      ∀ u, s.lib.port = some u → (∀ b live, u ≠ .blockWrite i b live) → (∀ k live, u ≠ .sectorErase i k live) →
        t.lib.port = some u
    let free : Prop := ∀ i : Fin 32, slotShow s.lib.dir[i] ≠ some showNo.toNat
    let held : Fin 32 → Prop := fun i =>
      slotShow s.lib.dir[i] = some showNo.toNat ∧ ∀ j : Fin 32, slotShow s.lib.dir[j] = some showNo.toNat → j = i
    let erasing : Fin 32 → Prop := fun i => ∃ m b, s.lib.dir[i] = .erasing m b
    (∀ blocks : BitVec 16,
      let c := Instr.showBegin n target showNo blocks
      let bad : Prop := showNo = 0 ∨ blocks.toNat < 3 ∨ 1024 < blocks.toNat
      (bad → exec c s = .next (refused 1 .invalid)) ∧
      (¬ bad → free → (∀ i : Fin 32, slotShow s.lib.dir[i] ≠ none) → exec c s = .next (refused 1 .full)) ∧
      (∀ i : Fin 32, ¬ bad → free → slotShow s.lib.dir[i] = none → (∀ j : Fin 32, j < i → slotShow s.lib.dir[j] ≠ none) →
        ∃ t, exec c s = .next t ∧ accepted 1 t ∧ t.lib.dir = s.lib.dir.set i (.erasing showNo.toNat blocks.toNat) ∧
          t.lib.queue = s.lib.queue ∧ t.lib.erase = s.lib.erase ++ [{ slot := i, erased := 0 }] ∧
          t.lib.deadMarks = s.lib.deadMarks ∧ portKept t) ∧
      ∀ i : Fin 32, ¬ bad → held i →
        (0 < inUse s showNo.toNat → exec c s = .next (refused 1 .inUse)) ∧
        (inUse s showNo.toNat = 0 →
          ∃ t, exec c s = .next t ∧ accepted 1 t ∧ t.lib.dir = s.lib.dir.set i (.erasing showNo.toNat blocks.toNat) ∧
            t.lib.queue = unqueued ∧ t.lib.deadMarks = s.lib.deadMarks ∧
            (¬ erasing i → t.lib.erase = s.lib.erase ++ [{ slot := i, erased := 0 }]) ∧
            (erasing i → tagging i →
              t.lib.erase = s.lib.erase.map (fun e => if e.slot = i then { e with erased := 0 } else e)) ∧
            (erasing i → ¬ tagging i → t.lib.erase = s.lib.erase) ∧ (erasing i → portKept t) ∧
            (¬ erasing i → unitWithdrawn i t))) ∧
    let c := Instr.showDelete n target showNo
    (showNo = 0 → exec c s = .next (refused 3 .invalid)) ∧
    (showNo ≠ 0 → free → exec c s = .next (refused 3 .unknown)) ∧
    ∀ i : Fin 32, showNo ≠ 0 → held i →
      (0 < inUse s showNo.toNat → exec c s = .next (refused 3 .inUse)) ∧
      (inUse s showNo.toNat = 0 →
        ∃ t, exec c s = .next t ∧ accepted 3 t ∧ t.lib.dir = s.lib.dir.set i .empty ∧ t.lib.queue = unqueued ∧ unitWithdrawn i t ∧
          (¬ erasing i → t.lib.erase = s.lib.erase) ∧
          (erasing i → t.lib.erase = s.lib.erase.filter (fun e => e.slot != i)) ∧
          (erasing i → ¬ tagging i → t.lib.deadMarks = s.lib.deadMarks) ∧
          (¬ erasing i ∨ tagging i → t.lib.deadMarks = s.lib.deadMarks ++ [i]))

/-- SHOW_BLOCK (R120): every case of its table, in order, for a show number that at most one slot holds; a refusal counts in LIBRARY
REFUSED besides (R117). -/
def Obligations.ShowBlockJudged : Prop :=
  ∀ (n : LineNumber) (target showNo : Byte) (index : BitVec 16) (data : Block) (s : State),
    started s = true → concerns target s = true →
    let c := Instr.showBlock n target showNo index data
    let judged : Verdict → State → State := fun v w =>
      servePort (answerResult n target 7 2 v index.toNat (if v = .accepted then w else bump .libraryRefused w))
    let u := noteSender n 21 s
    (showNo = 0 → exec c s = .next (judged .invalid u)) ∧
    (showNo ≠ 0 → (∀ (i : Fin 32) (m : Nat), s.lib.dir[i] ≠ .erasing showNo.toNat m ∧
        ∀ received check, s.lib.dir[i] ≠ .loading showNo.toNat m received check) →
      exec c s = .next (judged .unknown (bump .blocksUnknown u))) ∧
    ∀ (i : Fin 32) (m : Nat) (received : List Nat), showNo ≠ 0 →
      (s.lib.dir[i] = .erasing showNo.toNat m ∧ received = []) ∨
        (∃ check, s.lib.dir[i] = .loading showNo.toNat m received check) →
      (∀ j : Fin 32, slotShow s.lib.dir[j] = some showNo.toNat → j = i) →
      let present : Prop := index.toNat ∈ received ∨ ∃ b ∈ s.lib.queue, b.showNo = showNo.toNat ∧ b.index = index.toNat
      (m ≤ index.toNat → exec c s = .next (judged .invalid (bump .blocksOutOfRange u))) ∧
      (index.toNat < m → present → exec c s = .next (judged .accepted (bump .blocksDuplicate u))) ∧
      (index.toNat < m → ¬ present → 8 ≤ s.lib.queue.length →
        exec c s = .next (judged .full (bump .blocksDropped u))) ∧
      (index.toNat < m → ¬ present → s.lib.queue.length < 8 →
        exec c s = .next (judged .accepted { u with lib := { u.lib with
          queue := u.lib.queue ++ [{ showNo := showNo.toNat, index := index.toNat, data := data }] } }))

/-- The completions of the memory port (R114, R116, R119, R121, R122, R125): what each unit leaves in flash, in the directory, the queue
and the lists, and in a player's window: a starved player (R79), a catch-up that waits (R90) and a show that will loop (R78) among them; and
STARTING is left with the last check (R126, R177). The show check is spelled out over the bytes in flash: for which it passes, which
fault the first failed test gives in the order of R115, and the header copy (R113, R174). The model's choices: with another unit in
progress, or none, a completion does nothing (log entry 8); what a position never written reads as (log entries 5, 28); a catch-up that
waits takes its items at the REFILL_COMPLETE that ends its wait (log entry 21), with records across a new pass as in log entry 22 and the
flushes of its gates and ENDs as in log entries 21 and 23; how long a starvation lasts (log entry 29); and a refill reads by the window,
mode and passes its row has when its unit ends (log entry 33). -/
def Obligations.PortUnitsComplete : Prop :=
  -- the show check over the bytes in flash (R115, R174)
  (∀ (f : FlashSlot) (showNo blocks : Nat), 3 ≤ blocks →
    -- `width` bytes of block `k` from byte `i`, most significant first
    let field : Nat → Nat → Nat → Nat := fun k i width => (readBlock f k).toNat / 2 ^ (8 * (16 - i - width)) % 2 ^ (8 * width)
    let length := field 0 3 3
    let isCue : Nat → Prop := fun k => 2 ≤ k ∧ k < blocks
    let time : Nat → Nat := fun k => field k 0 3
    let action : Nat → Nat := fun k => field k 3 1 / 16
    let low : Nat → Nat := fun k => field k 4 2
    let high : Nat → Nat := fun k => field k 6 2
    let showCheck := crcBits ((List.range (blocks - 2)).flatMap (fun k => (List.range 128).map (fun i =>
      (readBlock f (k + 2)).toNat.testBit (127 - i))))
    let fails : ShowFault → Prop := fun fault => match fault with
      | .showNumber => field 0 0 1 ≠ showNo
      | .cueCount => field 0 1 2 ≠ blocks - 2
      | .length => length = 0 ∨ 1440000 < length
      | .span => field 0 8 2 = 0 ∨ field 0 10 2 = 0 ∨ field 0 10 2 < field 0 8 2
      | .showCheck => field 0 12 2 ≠ showCheck.toNat
      | .action => ∃ k, isCue k ∧ 6 < action k
      | .track => ∃ k, isCue k ∧ 3 < field k 3 1 % 16
      | .order => ∃ k, isCue k ∧ isCue (k + 1) ∧ time (k + 1) < time k
      | .time => ∃ k, isCue k ∧ action k ≠ 6 ∧ (length < time k ∨ 1439999 < time k)
      | .zones => ∃ k, isCue k ∧ action k ≤ 3 ∧ (low k = 0 ∨ high k < low k ∨ low k < field 0 8 2 ∨ field 0 10 2 < high k)
      | .markNumber => ∃ k, isCue k ∧ action k = 5 ∧ (field k 8 2 = 0 ∨ 255 < field k 8 2)
      | .sweepReach => ∃ k, isCue k ∧ (action k = 2 ∨ action k = 3) ∧ length < time k + field k 9 1 * (high k - low k) / 4
      | .endCue => action (blocks - 1) ≠ 6 ∨ (∃ k, isCue k ∧ k + 1 < blocks ∧ action k = 6) ∨ time (blocks - 1) ≠ length
      | .tornBlock => False
    let order : List ShowFault := [.showNumber, .cueCount, .length, .span, .showCheck, .action, .track, .order, .time, .zones,
      .markNumber, .sweepReach, .endCue]
    (showFault f showNo blocks = none ↔ ∀ fault, ¬ fails fault) ∧
    (∀ before fault after, order = before ++ fault :: after →
      (showFault f showNo blocks = some fault ↔ fails fault ∧ ∀ e ∈ before, ¬ fails e)) ∧
    headerCopy f = { length := length, attack := field 0 6 1, release := field 0 7 1, low := field 0 8 2, high := field 0 10 2 }) ∧
  ∀ s : State, awake s = true →
    let shape : State → Prop := fun t => OnlyChanges [.rows, .flash, .lib, .counters] s t ∧ SameInstances s t ∧ RefillsAsked t
    ((∀ p live, s.lib.port ≠ some (.refill p live)) → exec .refillComplete s = .next s) ∧
    ((∀ i k live, s.lib.port ≠ some (.sectorErase i k live)) → exec .sectorEraseComplete s = .next s) ∧
    ((∀ i m b, s.lib.port ≠ some (.tagWrite i m b)) → exec .tagWriteComplete s = .next s) ∧
    ((∀ i, s.lib.port ≠ some (.deadMark i)) → exec .deadMarkWriteComplete s = .next s) ∧
    ((∀ i b live, s.lib.port ≠ some (.blockWrite i b live)) → exec .blockWriteComplete s = .next s) ∧
    ((∀ i k, s.lib.port ≠ some (.checkRead i k)) → exec .checkReadComplete s = .next s) ∧
    (∀ i k live, s.lib.port = some (.sectorErase i k live) →
      ∃ t, exec .sectorEraseComplete s = .next t ∧ shape t ∧
        t.flash = s.flash.set i (if k = 0 then { s.flash[i] with tag := none, marks := [] }
          else { s.flash[i] with data := s.flash[i].data.filter (fun e => e.1 / 256 + 1 != k) }) ∧
        t.lib.dir = s.lib.dir ∧ t.lib.queue = s.lib.queue ∧ t.lib.deadMarks = s.lib.deadMarks ∧
        t.lib.erase = (if live then s.lib.erase.map (fun e => if e.slot = i then { e with erased := k + 1 } else e)
          else s.lib.erase)) ∧
    (∀ i m b, s.lib.port = some (.tagWrite i m b) →
      ∃ t, exec .tagWriteComplete s = .next t ∧ shape t ∧
        t.flash = s.flash.set i { s.flash[i] with tag := some { showNo := m, blocks := b, dead := false } } ∧
        t.lib.queue = s.lib.queue ∧ t.lib.deadMarks = s.lib.deadMarks ∧
        ((∀ e ∈ s.lib.erase, e.slot = i → e.erased < 5) → t.lib.dir = s.lib.dir ∧ t.lib.erase = s.lib.erase) ∧
        ∀ e rest x y, s.lib.erase = e :: rest → e.slot = i → 5 ≤ e.erased → s.lib.dir[i] = .erasing x y →
          t.lib.dir = s.lib.dir.set i (.loading x y [] none) ∧ t.lib.erase = rest.filter (fun f => f.slot != i)) ∧
    (∀ i, s.lib.port = some (.deadMark i) →
      ∃ t, exec .deadMarkWriteComplete s = .next t ∧ shape t ∧
        t.flash = s.flash.set i { s.flash[i] with tag := s.flash[i].tag.map (fun g => { g with dead := true }) } ∧
        t.lib.dir = s.lib.dir ∧ t.lib.queue = s.lib.queue ∧ t.lib.erase = s.lib.erase ∧
        t.lib.deadMarks = s.lib.deadMarks.erase i) ∧
    (∀ i b live, s.lib.port = some (.blockWrite i b live) →
      ∃ t, exec .blockWriteComplete s = .next t ∧ shape t ∧
        (∀ j : Fin 32, j ≠ i → t.flash[j] = s.flash[j]) ∧ t.flash[i].tag = s.flash[i].tag ∧
        readBlock t.flash[i] b.index = b.data ∧
        (∀ k, k ≠ b.index → readBlock t.flash[i] k = readBlock s.flash[i] k) ∧
        (∀ k, k ∈ t.flash[i].marks ↔ k = b.index ∨ k ∈ s.flash[i].marks) ∧
        t.lib.erase = s.lib.erase ∧ t.lib.deadMarks = s.lib.deadMarks ∧
        (live = false → t.lib.dir = s.lib.dir ∧ t.lib.queue = s.lib.queue) ∧
        (live = true →
          t.lib.queue = s.lib.queue.filter (fun q => !(q.showNo == b.showNo && q.index == b.index)) ∧
          ∀ x y received check, s.lib.dir[i] = .loading x y received check →
            ∃ now, (∀ k, k ∈ now ↔ k = b.index ∨ k ∈ received) ∧
              t.lib.dir = s.lib.dir.set i (.loading x y now (if now.length = y then some 0 else check)))) ∧
    (∀ i x y received k, s.lib.port = some (.checkRead i k) → s.lib.dir[i] = .loading x y received (some k) →
      (k + 1 < y → ∃ t, exec .checkReadComplete s = .next t ∧ shape t ∧ t.flash = s.flash ∧
        t.lib.dir = s.lib.dir.set i (.loading x y received (some (k + 1))) ∧ t.counters = s.counters) ∧
      (y ≤ k + 1 → ∃ t v, exec .checkReadComplete s = .next t ∧ OnlyChanges [.lib, .counters] s v ∧
        (showFault s.flash[i] x y = none → Counted 1 .showsLoaded s v ∧ OnlyCounts [.showsLoaded] s v ∧
          v.lib = { s.lib with port := none, dir := s.lib.dir.set i (.complete x y received (headerCopy s.flash[i])) }) ∧
        (∀ f, showFault s.flash[i] x y = some f → Counted 1 .showsInvalid s v ∧ OnlyCounts [.showsInvalid] s v ∧
          v.lib = { s.lib with port := none, dir := s.lib.dir.set i (.invalid x y received f) }) ∧
        (s.start.state ≠ .starting → OnlyChanges [.rows, .lib] v t ∧ SameInstances v t ∧ SameLibrary v t) ∧
        (s.start.state = .starting → StartSettled v t))) ∧
    (∀ p, s.lib.port = some (.refill p false) → ∃ t, exec .refillComplete s = .next t ∧ shape t ∧ t.flash = s.flash ∧
      SameLibrary s t) ∧
    ∀ (p : Fin 4) (r : Row) (slot : Fin 32), s.lib.port = some (.refill p true) → s.rows[p] = some r →
      slotOf s r.showNo = some slot →
      ∃ t x', exec .refillComplete s = .next t ∧ OnlyChanges [.rows, .lib, .mixer, .line, .counters] s t ∧ SameLibrary s t ∧
        RefillsAsked t ∧ (∀ q : Fin 4, q ≠ p → t.rows[q].map Row.noAsk = s.rows[q].map Row.noAsk) ∧ CuesRead s slot r x' ∧
        let filled : Row := { r with ctx := x' }
        let advancing : Prop := r.phase = .running ∨ ∃ start w, r.phase = .releasing start w
        (r.ctx.catchUp = none → r.ctx.starved = false ∨ ¬ advancing →
          t.rows[p].map Row.noAsk = some filled.noAsk ∧ t.line = s.line ∧ t.counters = s.counters ∧ ∃ j, j ≤ 1 ∧ FlushesAsked j s t) ∧
        (r.ctx.catchUp = none → r.ctx.starved = true → advancing → StarvedRefilled p filled s t) ∧
        ∀ u, r.ctx.catchUp = some u → r.suspended = false → ∃ v j, j ≤ 1 ∧ OnlyChanges [.rows, .mixer, .lib] s v ∧
          FlushesAsked j s v ∧ SameLibrary s v ∧ v.rows[p] = some filled ∧ CatchUpRun p filled u v t

/-! ### The tower line (10) -/

/-- LINE_IDLE, ARBITRATION_LOST, DATA_FIELD_CONTENTION, FRAME_SENT and LINE_FAULT (R20, R163, R164, R170), and FRAME_RECEIVED (R171,
R172): what is sent, under the station's own number, bit by bit with its check (R162, R168); the lengths of R174 and the tests of a
received frame in their order; a checked frame acting as the command it carries; and a frame that ended an idle line leaving the time
since idle at its own bits of 4 µs. That a frame starts at a LINE_IDLE alone, which an idle line raises of itself while a frame waits, and
that a frame that breaks off had come for a free count of µs up to its whole length (log entry 24); that a line event of an attempt with
no frame being sent does nothing (log entry 8); and that the step flag countdown stays 0 at a flagged BEACON that finds it 0 (log entry
37), are the model's choices. -/
def Obligations.LineSendsAndReceives : Prop :=
  (∀ s : State, awake s = true →
    let lineBecomes : Instr → LineInterface → Prop := fun c l => exec c s = .next { s with line := l }
    let sending : Prop := ∃ f ∈ s.line.tx, f.sending = true
    (s.start.number = 0 ∨ sending ∨ s.line.tx = [] →
      (sending → lineBecomes .lineIdle { s.line with fault := false, sinceIdle := 0, wire := .busy }) ∧
      (¬ sending → lineBecomes .lineIdle { s.line with fault := false, sinceIdle := 0, wire := .idle })) ∧
    (∀ f rest, s.start.number ≠ 0 → ¬ sending → s.line.tx = f :: rest →
      let sent := { f with sending := true,
                           data := if f.cls = 1 then bytesBE 7 (towerUs s) ++ f.data.drop 7 else f.data }
      lineBecomes .lineIdle { s.line with fault := false, sinceIdle := 0, wire := .busy, tx := sent :: rest } ∧
      ∃ t, exec .lineIdle s = .next t ∧ sentBits t = some (lineFrameSent f.cls s.start.number sent.data)) ∧
    (s.pending = [] → s.line.wire = .idle → s.start.number ≠ 0 → s.line.tx ≠ [] → ¬ sending →
      (∃ c, step s = .next { s with pending := [c] }) ∧
      (dueEvent { s with line := { s.line with tx := [] } } = none → step s = .next { s with pending := [.lineIdle] })) ∧
    (sending → lineBecomes .arbitrationLost { s.line with
      wire := .receiving, tx := s.line.tx.map (fun f => { f with sending := false }) }) ∧
    (¬ sending → exec .arbitrationLost s = .next s ∧ exec .dataFieldContention s = .next s ∧
      exec .frameSent s = .next s) ∧
    (∀ before f after, s.line.tx = before ++ f :: after → f.sending = true →
      (∀ g ∈ before ++ after, g.sending = false) →
      (f.contention + 1 < 3 → lineBecomes .dataFieldContention { s.line with
        wire := .receiving, tx := before ++ { f with sending := false, contention := f.contention + 1 } :: after }) ∧
      (3 ≤ f.contention + 1 → exec .dataFieldContention s = .next
        (bump .contentionDrops { s with line := { s.line with
          wire := .receiving, tx := before ++ after, duplicate := true } })) ∧
      (f.restart = false → exec .frameSent s = .next
        { s with line := { s.line with tx := before ++ after }
                 time := if f.cls = 1 ∧ ((f.data[8]?).getD 0).getLsbD 1 = true
                         then { s.time with stepFlags := s.time.stepFlags - 1 } else s.time })) ∧
    (s.line.fault = true → exec .lineFault s = .next s) ∧
    (s.line.fault = false → exec .lineFault s = .next
      (bump .lineFaults { s with line := { s.line with
        fault := true, wire := if s.line.wire = .idle then .busy else s.line.wire } }))) ∧
  -- the check, bit by bit, the bits sent and the lengths of R174 (R162)
  (let bits : Nat → Nat → List Bool := fun width v => (List.range width).map (fun i => v.testBit (width - 1 - i))
   (∀ i, i < 16 → (crcBits []).getLsbD i = true) ∧
   (∀ (sent : List Bool) (bit : Bool) (i : Nat), i < 16 →
     let feedback := (crcBits sent).getLsbD 15 != bit
     (crcBits (sent ++ [bit])).getLsbD i =
       (if i = 0 then feedback
        else if i = 5 ∨ i = 12 then (crcBits sent).getLsbD (i - 1) != feedback
        else (crcBits sent).getLsbD (i - 1))) ∧
   ∀ (cls sender : Nat) (data : List Byte),
     let run := bits 3 cls ++ bits 6 sender ++ bits 5 data.length ++ data.flatMap (fun b => bits 8 b.toNat)
     lineCheck cls sender data.length data = crcBits run ∧
     lineFrameSent cls sender data = [false] ++ run ++ bits 16 (crcBits run).toNat ++ [true, true, true]) ∧
  (∀ f : LineFrame,
    -- class, subcode if the class has any, least and greatest length (R174)
    let formats : List (Nat × Option Nat × Nat × Nat) :=
      [(0, some 1, 1, 1), (0, some 2, 1, 1), (0, some 3, 2, 2), (1, none, 13, 13),
       (2, some 1, 17, 17), (2, some 2, 17, 17), (2, some 3, 17, 17), (3, none, 12, 12),
       (4, some 1, 14, 14), (4, some 2, 3, 3), (4, some 3, 2, 2), (4, some 4, 2, 2), (4, some 5, 9, 9), (4, some 6, 2, 2),
       (4, some 7, 5, 5), (5, some 1, 24, 24), (5, some 2, 7, 7), (5, some 3, 6, 24),
       (6, some 1, 21, 21), (6, some 2, 21, 21), (6, some 3, 4, 4), (6, some 4, 2, 2), (6, some 5, 20, 20), (6, some 6, 7, 7),
       (6, some 7, 2, 2), (7, some 1, 5, 5), (7, some 2, 21, 21), (7, some 3, 3, 3)]
    let good := f.check = lineCheck f.cls.toNat f.sender.toNat f.length.toNat f.data ∧ f.endGood = true
    (∀ lo hi, lengthsOf f = some (lo, hi) ↔
      (f.cls.toNat, none, lo, hi) ∈ formats ∨ ∃ b rest, f.data = b :: rest ∧ (f.cls.toNat, some b.toNat, lo, hi) ∈ formats) ∧
    (24 < f.length.toNat → receiveFault f = some .formatErrors) ∧
    (f.length.toNat ≤ 24 → ¬ good → receiveFault f = some .checkErrors) ∧
    (f.length.toNat ≤ 24 → good → lengthsOf f = none → receiveFault f = some .formatErrors) ∧
    ∀ lo hi, f.length.toNat ≤ 24 → good → lengthsOf f = some (lo, hi) →
      (f.length.toNat < lo ∨ hi < f.length.toNat → receiveFault f = some .formatErrors) ∧
      (lo ≤ f.length.toNat → f.length.toNat ≤ hi →
        receiveFault f = if f.cls.toNat = 2 ∧ 2 ≤ (byteAt f.data 16).toNat / 16 then some .formatErrors else none)) ∧
  ∀ (f : LineFrame) (s : State), awake s = true →
    -- a frame of `bytes` data bytes, or one that came for `us` µs, has been heard (R162, R170)
    let whole : Nat → Nat := fun bytes => 4 * (1 + 3 + 6 + 5 + 8 * bytes + 16 + 3)
    let heard : Nat → LineInterface := fun us =>
      { s.line with wire := .busy, sinceIdle := if s.line.wire = .idle then us else s.line.sinceIdle }
    let readings := s.start.readings
    (∀ (n : LineNumber) (bytes : Nat), (noteSender n bytes s).line =
      (if n.toNat = s.start.number ∧ s.start.number ≠ 0 then { heard (whole bytes) with duplicate := true }
       else heard (whole bytes))) ∧
    (∀ k, receiveFault f = some k →
      (f.endGood = true → exec (.frameReceived f) s = .next (bump k { s with line := heard (whole f.length.toNat) })) ∧
      (f.endGood = false → exec (.frameReceived f) s = .next (bump k { s with
        line := heard (min (whole f.length.toNat) (Config.frameUs readings))
        start := { s.start with readings := readings + 1 } }))) ∧
    (receiveFault f = none → f.cls.toNat = 5 →
      exec (.frameReceived f) s = .next (noteSender f.sender f.length.toNat s)) ∧
    (receiveFault f = none → f.cls.toNat ≠ 5 →
      ∃ c, decodeFrame f = some c ∧ frameSender c = some f.sender ∧ dataBytes c = f.length.toNat ∧
        exec (.frameReceived f) s = exec c s)

/-- The frames the station builds are frames it takes (R162, R171, R174): a BEACON, an ANNOUNCE, a MARK and a SAFETY frame, as built, pass
every test of R171 and decode to the command of the values they were built of, and a STATUS, a RESULT and a REPLY pass them. -/
def Obligations.BuiltFramesDecode : Prop :=
  ∀ (n : LineNumber) (arrival : Nat),
    let framed : BitVec 3 → List Byte → LineFrame := fun cls data =>
      { cls := cls, sender := n, length := BitVec.ofNat 5 data.length, data := data
        check := lineCheck cls.toNat n.toNat data.length data, endGood := true, arrival := arrival }
    let carries : BitVec 3 → List Byte → Instr → Prop := fun cls data c =>
      receiveFault (framed cls data) = none ∧ decodeFrame (framed cls data) = some c
    (∀ (stamp : BitVec 56) (body : BeaconBody), carries 1 (beaconData stamp.toNat body) (.beacon n arrival stamp body)) ∧
    (∀ (a : Announcement) (r : Row), r.showNo = a.showNo.toNat → r.priority = a.priority.toNat → r.tag = a.tag.toNat →
      r.anchor = a.anchor.toNat → r.mode = a.mode → r.passes = a.passes.toNat →
      ((r.endFrame = none ∧ a.duration = 0) ∨ r.endFrame = some (r.tag + a.duration.toNat)) →
      carries 2 (announceData 1 r) (.announceStart n a) ∧ carries 2 (announceData 2 r) (.announceRunning n a) ∧
        carries 2 (announceData 3 r) (.announceStop n a)) ∧
    (∀ (showNo number : Byte) (tag release : BitVec 40),
      carries 3 (markData showNo.toNat tag.toNat number.toNat release.toNat) (.mark n showNo tag number release)) ∧
    carries 0 [1] (.safetySet n) ∧ carries 0 [2] (.safetyClear n) ∧
    (∀ s : State, receiveFault (framed 5 (statusData s)) = none) ∧
    (∀ (cls sub : Nat) (v : Verdict) (subject : Nat), receiveFault (framed 5 (resultData n.toNat cls sub v subject)) = none) ∧
    ∀ (item : Nat) (argument : BitVec 16) (last part : Nat) (data : List Byte), data.length ≤ 18 →
      receiveFault (framed 5 (replyFrame n item argument last part data)) = none

/-! ### Queries (11.5) -/

/-- The QUERY commands (R180): which argument is answered, with each item's data field by field, the station byte, the fault summary
and the counters of a page bit by bit and in order (R151, R174, R179), which is refused INVALID or UNKNOWN and
counted; and the parts of a reply, 18 bytes each but the last, queued in part order. That QUERY ENTRY 0 is refused INVALID (log entry 16),
that a named value, a set and a flag carry an open code (log entry 3), what a field with nothing to send carries (log entry 4), the width
and packing of a field whose width R180 does not give (log entry 6), and the zeros of an ENTRY's fields that its kind does not store
(log entry 7), are the model's choices. -/
def Obligations.QueriesAnswered : Prop :=
  let code : Config.ReplyField → Nat → List Byte := fun f k => [Config.replyCode f k]
  let flag : Config.ReplyField → Bool → List Byte := fun f b => [Config.replyCode f (if b then 1 else 0)]
  let absent : Config.ReplyField → Nat → List Byte := fun f width => bytesBE width (Config.replyAbsent f)
  let frame : Option Nat → List Byte := fun m => bytesBE 5 (m.getD 0xFFFFFFFFFF)
  let timeItem : State → List Byte := fun u =>
    bytesBE 7 (towerUs u) ++ signedBE 4 u.time.trim ++ [byteOf u.time.hops, byteOf (disciplineCode u.time.discipline)] ++
      flag .timeValid u.time.timeValid ++ [byteOf u.time.stepFlags] ++
      (if u.time.holdoverRun < 256 then [byteOf u.time.holdoverRun] else absent .holdoverRun 1) ++
      code .referenceState (refStateNo u.time.ref.state) ++
      (match u.time.ref.offset with
       | some k => if -2147483648 ≤ k ∧ k ≤ 2147483647 then signedBE 4 k else absent .referenceOffset 4
       | none => absent .referenceOffset 4)
  let peerItem : Peer → List Byte := fun p =>
    code .lockState (lockNo p.lock) ++ [byteOf p.consistentRun, byteOf p.inconsistentRun] ++
      signedBE 4 (match p.previous with | some k => max (-2147483648) (min k 2147483647) | none => 0x7FFFFFFF) ++
      signedBE 7 p.lastArrival ++ [byteOf (p.body.hops.toNat + disciplineCode p.body.discipline * 16),
        byteOf (bitAt p.body.timeValid 0 + bitAt p.body.stepFlag 1 + bitAt p.body.safetyFlag 2), p.body.faults,
        p.body.instances] ++ bytesBE 2 p.body.position.toNat
  let originItem : Origin → List Byte := fun o =>
    match o with
    | .calendar e => code .originKind 0 ++ bytesBE 2 e
    | .console m => code .originKind 1 ++ bytesBE 2 m
    | .peer m => code .originKind 2 ++ bytesBE 2 m
  let rowItem : Row → List Byte := fun r =>
    code .playerState (if r.suspended then 5 else phaseNo r.phase) ++
      (if r.suspended then code .priorState (phaseNo r.phase) else absent .priorState 1) ++
      [byteOf r.showNo, byteOf r.priority] ++ bytesBE 5 r.tag ++ bytesBE 5 r.anchor ++ frame r.endFrame ++
      [byteOf (modeCode r.mode * 16 + r.passes)] ++ originItem r.origin ++ flag .announcer r.announcer ++
      signedBE 5 r.lastHeard ++
      (match r.phase with
       | .releasing start weight => bytesBE 5 start ++ bytesBE 2 weight
       | _ => frame none ++ absent .releaseWeight 2) ++
      signedBE 3 r.ctx.position ++ [byteOf r.marks.length] ++ r.marks.flatMap (fun m => byteOf m.1 :: bytesBE 5 m.2)
  let idleItem : List Byte :=
    code .playerState 0 ++ absent .priorState 1 ++ absent .instanceShow 1 ++ absent .instancePriority 1 ++ frame none ++ frame none ++
      frame none ++ absent .modeAndPasses 1 ++ absent .originKind 1 ++ absent .originNumber 2 ++ flag .announcer false ++
      frame none ++ frame none ++ absent .releaseWeight 2 ++ absent .instancePosition 3 ++ [byteOf 0]
  let slotItem : SlotState → State → List Byte := fun d u =>
    let fields : Nat → List Byte → List Byte → Bool → List Byte → Nat → Nat → List Byte :=
      fun state show' blocks validating fault used received =>
        code .slotState state ++ show' ++ blocks ++ flag .slotValidating validating ++ fault ++ [byteOf used] ++ bytesBE 2 received
    match d with
    | .empty => fields 0 (absent .slotShow 1) (absent .slotBlocks 2) false (absent .slotFault 1) 0 0
    | .erasing m b => fields 1 [byteOf m] (bytesBE 2 b) false (absent .slotFault 1) (inUse u m) 0
    | .loading m b got check => fields 2 [byteOf m] (bytesBE 2 b) check.isSome (absent .slotFault 1) (inUse u m) got.length
    | .complete m b got _ => fields 3 [byteOf m] (bytesBE 2 b) false (absent .slotFault 1) (inUse u m) got.length
    | .invalid m b got f => fields 4 [byteOf m] (bytesBE 2 b) false (code .slotFault (showFaultNo f)) (inUse u m) got.length
  let receivedItem : SlotState → List Byte := fun d =>
    let got : List Nat := match d with | .loading _ _ g _ => g | .complete _ _ g _ => g | .invalid _ _ g _ => g | _ => []
    (List.range 128).map (fun i => byteOf (((List.range 8).map (fun j => bitAt (got.contains (8 * i + j)) (7 - j))).sum))
  let entryItem : Entry → List Byte := fun e =>
    let recurrence : List Byte := match e.recurrence with
      | .once d => byteOf 0 :: bytesBE 2 d
      | .daily => [1, 0, 0]
      | .weekly days => [2, byteOf days.toNat, 0]
      | .yearly m d => [3, byteOf m, byteOf d]
      | .nth m w k => [4, byteOf m, byteOf (k.getD 7 * 16 + w)]
    let anchor : List Byte := match e.anchor with | .clock at' => bytesBE 3 at' | .dusk o => 0x80 :: signedBE 2 o
    let setting : List Byte := match e.kind with
      | .playShow m pr mode k => [byteOf m, byteOf pr, byteOf (modeCode mode * 16 + k)]
      | .curfew _ exempt => [byteOf exempt, 0, 0]
      | .base pr _ => [byteOf pr, 0, 0]
    bytesBE 2 e.id ++ [byteOf (e.kind.code * 16 + bitAt e.enabled 0)] ++ recurrence ++ anchor ++
      bytesBE 2 (e.validFrom.getD 0xFFFF) ++ bytesBE 2 (e.validUntil.getD 0xFFFF) ++ bytesBE 3 e.duration ++ setting ++
      [byteOf e.skips.length] ++ (List.range 4).flatMap (fun i => bytesBE 2 ((e.skips[i]?).getD 0)) ++
      packLevels (match e.kind with | .base _ l => l | _ => Levels.zero) ++
      bytesBE 2 (match e.kind with | .curfew c _ => c | _ => 0) ++ frame e.nextFire ++ frame e.windowEnd
  let linkItem : Fin 4 → State → List Byte := fun l u =>
    let m := u.mon.links[l]
    flag .linkEnable (linkEnabled u l) ++
      code .linkCauses (bitAt m.short.cause 0 + bitAt m.openLine.cause 1 + bitAt m.feedLow.cause 2 +
        bitAt u.mon.hotShutdown.cause 3) ++
      flag .linkCondition m.short.present ++ flag .linkCondition m.openLine.present ++ flag .linkCondition m.feedLow.present ++
      flag .linkFlag m.short.sticky ++ flag .linkFlag m.openLine.sticky ++ flag .linkFlag m.feedLow.sticky ++
      code .retryRunning (bitAt m.short.retry.isSome 0 + bitAt m.openLine.retry.isSome 1) ++
      (match u.start.boot with
       | some b => bytesBE 2 b.links[l].safeLevel.toNat ++ bytesBE 3 b.links[l].budget.toNat
       | none => absent .safeLevel 2 ++ absent .budget 3) ++
      flag .hotState u.mon.hotShutdown.cause ++ flag .hotCondition u.mon.hotWarn.present ++
      flag .hotCondition u.mon.hotShutdown.present ++ flag .hotFlag u.mon.hotWarn.sticky ++ flag .hotFlag u.mon.hotShutdown.sticky
  let inputsItem : State → List Byte := fun u =>
    (List.finRange 8).flatMap (fun i =>
      code .inputFunction (functionNo (functionOf u i)) ++ code .inputSense (senseNo (senseOf u i)) ++
        flag .rawReading u.inputs[i].closed ++ code .debouncedState (debouncedNo u.inputs[i].state))
  let bootItem : State → List Byte := fun u =>
    [byteOf u.start.number] ++ code .faultReason (reasonNo u.start.reason) ++
      (match u.start.boot with | some b => [byteOf b.depth] | none => absent .depth 1) ++ bytesBE 2 (positionOf u) ++
      code .coastSet (bitAt (coastOf u).spread 0 + bitAt (coastOf u).solo 1 + bitAt (coastOf u).line 2 +
        bitAt (coastOf u).steppedPeer 3) ++
      flag .referenceFitted (referenceFitted u) ++ [byteOf (zonesOf u).length]
  -- the station byte (R174, R179), the fault summary (R151) and the counters of the pages in order (R179)
  let stationBit : State → Nat → Bool := fun u i => match i with
    | 0 => u.start.state == .running
    | 1 => u.start.state == .configFault
    | 2 => u.start.retainLost
    | 3 => u.line.duplicate
    | 4 => u.line.fault
    | 5 => u.out.lowWater
    | 6 => u.time.timeValid
    | _ => u.safety.holdList != []
  let faultBit : State → Nat → Bool := fun u i =>
    let someLink : (LinkMonitor → Bool) → Bool := fun q => (List.finRange 4).any (fun l => q u.mon.links[l])
    let mode : SenseClass → Bool := fun k => modeOf u k == .warn
    match i with
    | 7 => someLink (fun m => m.short.cause || m.openLine.cause || m.feedLow.cause) || u.mon.hotShutdown.cause ||
        u.start.state == .configFault
    | 6 => (List.finRange 4).any (fun l => [LinkClass.short, .openLine, .feedLow].any (fun c =>
          mode (.link l c) && (u.mon.sense (.link l c)).sticky)) || (mode (.station .hotWarn) && u.mon.hotWarn.sticky)
    | 5 => someLink (fun m => m.short.sticky)
    | 4 => someLink (fun m => m.openLine.sticky)
    | 3 => someLink (fun m => m.feedLow.sticky)
    | 2 => u.mon.hotWarn.sticky || u.mon.hotShutdown.sticky
    | 1 => u.out.underrun
    | _ => u.start.reason.isSome
  let pages : List Counter :=
    [.checkErrors, .formatErrors, .txDropped, .txDisplaced, .beaconsReplaced, .contentionDrops, .duplicateFrames, .lineFaults,
     .peerTableFull, .steps,
     .holds, .timeSetRefused, .showFirings, .lateFirings, .missedFirings, .scheduleRefused, .instanceFull, .evictions, .showAbsent,
     .startRefused,
     .announceIgnored, .marksDiscarded, .marksDropped, .cueStarved, .sweepOverflow, .marksLate, .marksUnsent, .flushes,
     .renderLate, .budgetScaled,
     .libraryRefused, .blocksUnknown, .blocksOutOfRange, .blocksDuplicate, .blocksDropped, .showsLoaded, .showsInvalid,
     .staleRecords, .lowWater, .underruns,
     .refreshes, .shorts, .opens, .feedLows, .hotWarnings, .hotShutdowns, .retries, .clearsTaken, .safetyHolds,
     .safetyDiscarded,
     .clearAllTaken, .clearAllRefused, .activations, .goRaised, .stopAllRaised, .queriesRefused]
  (∀ (n : LineNumber) (target : Byte) (argument : BitVec 16) (s : State), started s = true → targeted target s = true →
    let u := noteSender n 5 s
    let a := argument.toNat
    let replied : Instr → Nat → List Byte → Prop := fun c item data => exec c s = .next (sendReplies n item argument data u)
    let refused : Instr → Nat → Verdict → Prop := fun c item v =>
      exec c s = .next (answerResult n target 4 7 v item (bump .queriesRefused u))
    let atZero : Instr → Nat → List Byte → Prop := fun c item data =>
      (a = 0 → replied c item data) ∧ (a ≠ 0 → refused c item .invalid)
    (a ≤ 5 → replied (.queryStatusPage n target argument) 1 (stationByte u :: faultSummary u ::
      (List.range 10).flatMap (fun i => bytesBE 2 (counterAt u (a * 10 + i))))) ∧
    (∀ i : Nat, i < 8 → (stationByte u).getLsbD i = stationBit u i ∧ (faultSummary u).getLsbD i = faultBit u i) ∧
    (∀ i : Nat, counterAt u i = ((pages[i]?).map (fun c => (count u c).toNat)).getD 0) ∧
    (5 < a → refused (.queryStatusPage n target argument) 1 .invalid) ∧
    atZero (.queryTime n target argument) 2 (timeItem u) ∧
    (a = 0 ∨ 63 < a → refused (.queryPeer n target argument) 3 .invalid) ∧
    (1 ≤ a → a ≤ 63 → (∀ p ∈ s.time.peers, p.number ≠ a) → refused (.queryPeer n target argument) 3 .unknown) ∧
    (∀ before p after, 1 ≤ a → a ≤ 63 → s.time.peers = before ++ p :: after → p.number = a →
      (∀ q ∈ before, q.number ≠ a) → replied (.queryPeer n target argument) 3 (peerItem p)) ∧
    (∀ p : Fin 4, a = p → replied (.queryInstance n target argument) 4
      (match s.rows[p] with | some r => rowItem r | none => idleItem)) ∧
    (4 ≤ a → refused (.queryInstance n target argument) 4 .invalid) ∧
    (∀ i : Fin 32, a = i → replied (.querySlot n target argument) 5 (slotItem s.lib.dir[i] s) ∧
      replied (.queryReceivedSet n target argument) 6 (receivedItem s.lib.dir[i])) ∧
    (32 ≤ a → refused (.querySlot n target argument) 5 .invalid ∧ refused (.queryReceivedSet n target argument) 6 .invalid) ∧
    (a = 0 → refused (.queryEntry n target argument) 7 .invalid) ∧
    (a ≠ 0 → (∀ e ∈ s.cal.entries, e.id ≠ a) → refused (.queryEntry n target argument) 7 .unknown) ∧
    (∀ before e after, a ≠ 0 → s.cal.entries = before ++ e :: after → e.id = a → (∀ f ∈ before, f.id ≠ a) →
      replied (.queryEntry n target argument) 7 (entryItem e)) ∧
    atZero (.queryCalendar n target argument) 8 ([byteOf s.cal.entries.length, byteOf s.cal.seasons.length] ++
      bytesBE 2 ((s.cal.curfew.map (·.1)).getD 0) ++ bytesBE 2 ((s.cal.base.map (·.1)).getD 0)) ∧
    (∀ l : Fin 4, a = l → replied (.queryLink n target argument) 9 (linkItem l u)) ∧
    (4 ≤ a → refused (.queryLink n target argument) 9 .invalid) ∧
    atZero (.queryHoldList n target argument) 10 (s.safety.holdList.map byteOf) ∧
    atZero (.queryInputs n target argument) 11 (inputsItem u) ∧
    atZero (.queryBoot n target argument) 12 (bootItem u) ∧
    ∀ item : Byte, refused (.queryUnknownItem n target item argument) item.toNat .invalid) ∧
  (∀ data : List Byte, data.length ≤ 288 →
    (cutParts 15 data).flatten = data ∧ (cutParts 15 data).length = max 1 ((data.length + 17) / 18) ∧
      (∀ part ∈ (cutParts 15 data).dropLast, part.length = 18) ∧ ∀ part ∈ cutParts 15 data, part.length ≤ 18) ∧
  ∀ (n : LineNumber) (item : Nat) (argument : BitVec 16) (data : List Byte) (s : State), s.start.number ≠ 0 →
    s.line.tx.length + (cutParts 15 data).length ≤ 12 → (∀ f ∈ s.line.tx, f.cls ≤ 5) →
    sendReplies n item argument data s = setTx (s.line.tx ++ (cutParts 15 data).zipIdx.map (fun e =>
      newFrame 5 ([3, byteOf n.toNat, byteOf item] ++ bytesBE 2 argument.toNat ++
        [byteOf (e.2 * 16 + ((cutParts 15 data).length - 1))] ++ e.1))) s

end
end

