-- ==== Sys2Proof/Laws/State.lean ====
section
/-!
SUPPORT. What each named update of State leaves as it was: one lemma for each field an update does not write, and one for the
field it writes where that is a plain value. A later proof cites these instead of unfolding a record update.
-/

namespace Sys2Proof.Machine

variable (s : State)

/-! ### `setRow` -/

@[simp] theorem setRow_start (p : Fin 4) (r : Option Row) : (setRow p r s).start = s.start := rfl
@[simp] theorem setRow_time (p : Fin 4) (r : Option Row) : (setRow p r s).time = s.time := rfl
@[simp] theorem setRow_backup (p : Fin 4) (r : Option Row) : (setRow p r s).backup = s.backup := rfl
@[simp] theorem setRow_cal (p : Fin 4) (r : Option Row) : (setRow p r s).cal = s.cal := rfl
@[simp] theorem setRow_flash (p : Fin 4) (r : Option Row) : (setRow p r s).flash = s.flash := rfl
@[simp] theorem setRow_lib (p : Fin 4) (r : Option Row) : (setRow p r s).lib = s.lib := rfl
@[simp] theorem setRow_mixer (p : Fin 4) (r : Option Row) : (setRow p r s).mixer = s.mixer := rfl
@[simp] theorem setRow_out (p : Fin 4) (r : Option Row) : (setRow p r s).out = s.out := rfl
@[simp] theorem setRow_drivers (p : Fin 4) (r : Option Row) : (setRow p r s).drivers = s.drivers := rfl
@[simp] theorem setRow_mon (p : Fin 4) (r : Option Row) : (setRow p r s).mon = s.mon := rfl
@[simp] theorem setRow_safety (p : Fin 4) (r : Option Row) : (setRow p r s).safety = s.safety := rfl
@[simp] theorem setRow_inputs (p : Fin 4) (r : Option Row) : (setRow p r s).inputs = s.inputs := rfl
@[simp] theorem setRow_line (p : Fin 4) (r : Option Row) : (setRow p r s).line = s.line := rfl
@[simp] theorem setRow_counters (p : Fin 4) (r : Option Row) : (setRow p r s).counters = s.counters := rfl
@[simp] theorem setRow_pending (p : Fin 4) (r : Option Row) : (setRow p r s).pending = s.pending := rfl
@[simp] theorem setRow_rows (p : Fin 4) (r : Option Row) : (setRow p r s).rows = s.rows.set p r := rfl

/-! ### `setTx` -/

@[simp] theorem setTx_start (q : List TxFrame) : (setTx q s).start = s.start := rfl
@[simp] theorem setTx_time (q : List TxFrame) : (setTx q s).time = s.time := rfl
@[simp] theorem setTx_backup (q : List TxFrame) : (setTx q s).backup = s.backup := rfl
@[simp] theorem setTx_cal (q : List TxFrame) : (setTx q s).cal = s.cal := rfl
@[simp] theorem setTx_flash (q : List TxFrame) : (setTx q s).flash = s.flash := rfl
@[simp] theorem setTx_lib (q : List TxFrame) : (setTx q s).lib = s.lib := rfl
@[simp] theorem setTx_rows (q : List TxFrame) : (setTx q s).rows = s.rows := rfl
@[simp] theorem setTx_mixer (q : List TxFrame) : (setTx q s).mixer = s.mixer := rfl
@[simp] theorem setTx_out (q : List TxFrame) : (setTx q s).out = s.out := rfl
@[simp] theorem setTx_drivers (q : List TxFrame) : (setTx q s).drivers = s.drivers := rfl
@[simp] theorem setTx_mon (q : List TxFrame) : (setTx q s).mon = s.mon := rfl
@[simp] theorem setTx_safety (q : List TxFrame) : (setTx q s).safety = s.safety := rfl
@[simp] theorem setTx_inputs (q : List TxFrame) : (setTx q s).inputs = s.inputs := rfl
@[simp] theorem setTx_counters (q : List TxFrame) : (setTx q s).counters = s.counters := rfl
@[simp] theorem setTx_pending (q : List TxFrame) : (setTx q s).pending = s.pending := rfl
@[simp] theorem setTx_line (q : List TxFrame) : (setTx q s).line = { s.line with tx := q } := rfl

/-! ### `hearFrame` -/

@[simp] theorem hearFrame_start : (hearFrame us s).start = s.start := rfl
@[simp] theorem hearFrame_time : (hearFrame us s).time = s.time := rfl
@[simp] theorem hearFrame_backup : (hearFrame us s).backup = s.backup := rfl
@[simp] theorem hearFrame_cal : (hearFrame us s).cal = s.cal := rfl
@[simp] theorem hearFrame_flash : (hearFrame us s).flash = s.flash := rfl
@[simp] theorem hearFrame_lib : (hearFrame us s).lib = s.lib := rfl
@[simp] theorem hearFrame_rows : (hearFrame us s).rows = s.rows := rfl
@[simp] theorem hearFrame_mixer : (hearFrame us s).mixer = s.mixer := rfl
@[simp] theorem hearFrame_out : (hearFrame us s).out = s.out := rfl
@[simp] theorem hearFrame_drivers : (hearFrame us s).drivers = s.drivers := rfl
@[simp] theorem hearFrame_mon : (hearFrame us s).mon = s.mon := rfl
@[simp] theorem hearFrame_safety : (hearFrame us s).safety = s.safety := rfl
@[simp] theorem hearFrame_inputs : (hearFrame us s).inputs = s.inputs := rfl
@[simp] theorem hearFrame_counters : (hearFrame us s).counters = s.counters := rfl
@[simp] theorem hearFrame_pending : (hearFrame us s).pending = s.pending := rfl
@[simp] theorem hearFrame_tx : (hearFrame us s).line.tx = s.line.tx := rfl
@[simp] theorem hearFrame_wire : (hearFrame us s).line.wire = .busy := rfl
@[simp] theorem hearFrame_duplicate : (hearFrame us s).line.duplicate = s.line.duplicate := rfl
@[simp] theorem hearFrame_fault : (hearFrame us s).line.fault = s.line.fault := rfl
theorem hearFrame_sinceIdle_busy (h : s.line.wire ≠ .idle) : (hearFrame us s).line.sinceIdle = s.line.sinceIdle := if_neg h
theorem hearFrame_sinceIdle_idle (h : s.line.wire = .idle) : (hearFrame us s).line.sinceIdle = us := if_pos h

/-! ### `setPort` -/

@[simp] theorem setPort_start (u : Option PortUnit) : (setPort u s).start = s.start := rfl
@[simp] theorem setPort_time (u : Option PortUnit) : (setPort u s).time = s.time := rfl
@[simp] theorem setPort_backup (u : Option PortUnit) : (setPort u s).backup = s.backup := rfl
@[simp] theorem setPort_cal (u : Option PortUnit) : (setPort u s).cal = s.cal := rfl
@[simp] theorem setPort_flash (u : Option PortUnit) : (setPort u s).flash = s.flash := rfl
@[simp] theorem setPort_rows (u : Option PortUnit) : (setPort u s).rows = s.rows := rfl
@[simp] theorem setPort_mixer (u : Option PortUnit) : (setPort u s).mixer = s.mixer := rfl
@[simp] theorem setPort_out (u : Option PortUnit) : (setPort u s).out = s.out := rfl
@[simp] theorem setPort_drivers (u : Option PortUnit) : (setPort u s).drivers = s.drivers := rfl
@[simp] theorem setPort_mon (u : Option PortUnit) : (setPort u s).mon = s.mon := rfl
@[simp] theorem setPort_safety (u : Option PortUnit) : (setPort u s).safety = s.safety := rfl
@[simp] theorem setPort_inputs (u : Option PortUnit) : (setPort u s).inputs = s.inputs := rfl
@[simp] theorem setPort_line (u : Option PortUnit) : (setPort u s).line = s.line := rfl
@[simp] theorem setPort_counters (u : Option PortUnit) : (setPort u s).counters = s.counters := rfl
@[simp] theorem setPort_pending (u : Option PortUnit) : (setPort u s).pending = s.pending := rfl
@[simp] theorem setPort_lib (u : Option PortUnit) : (setPort u s).lib = { s.lib with port := u } := rfl

/-! ### `setDir` -/

@[simp] theorem setDir_start (i : Fin 32) (d : SlotState) : (setDir i d s).start = s.start := rfl
@[simp] theorem setDir_time (i : Fin 32) (d : SlotState) : (setDir i d s).time = s.time := rfl
@[simp] theorem setDir_backup (i : Fin 32) (d : SlotState) : (setDir i d s).backup = s.backup := rfl
@[simp] theorem setDir_cal (i : Fin 32) (d : SlotState) : (setDir i d s).cal = s.cal := rfl
@[simp] theorem setDir_flash (i : Fin 32) (d : SlotState) : (setDir i d s).flash = s.flash := rfl
@[simp] theorem setDir_rows (i : Fin 32) (d : SlotState) : (setDir i d s).rows = s.rows := rfl
@[simp] theorem setDir_mixer (i : Fin 32) (d : SlotState) : (setDir i d s).mixer = s.mixer := rfl
@[simp] theorem setDir_out (i : Fin 32) (d : SlotState) : (setDir i d s).out = s.out := rfl
@[simp] theorem setDir_drivers (i : Fin 32) (d : SlotState) : (setDir i d s).drivers = s.drivers := rfl
@[simp] theorem setDir_mon (i : Fin 32) (d : SlotState) : (setDir i d s).mon = s.mon := rfl
@[simp] theorem setDir_safety (i : Fin 32) (d : SlotState) : (setDir i d s).safety = s.safety := rfl
@[simp] theorem setDir_inputs (i : Fin 32) (d : SlotState) : (setDir i d s).inputs = s.inputs := rfl
@[simp] theorem setDir_line (i : Fin 32) (d : SlotState) : (setDir i d s).line = s.line := rfl
@[simp] theorem setDir_counters (i : Fin 32) (d : SlotState) : (setDir i d s).counters = s.counters := rfl
@[simp] theorem setDir_pending (i : Fin 32) (d : SlotState) : (setDir i d s).pending = s.pending := rfl
@[simp] theorem setDir_lib (i : Fin 32) (d : SlotState) : (setDir i d s).lib = { s.lib with dir := s.lib.dir.set i d } := rfl

/-! ### `setFlash` -/

@[simp] theorem setFlash_start (i : Fin 32) (f : FlashSlot) : (setFlash i f s).start = s.start := rfl
@[simp] theorem setFlash_time (i : Fin 32) (f : FlashSlot) : (setFlash i f s).time = s.time := rfl
@[simp] theorem setFlash_backup (i : Fin 32) (f : FlashSlot) : (setFlash i f s).backup = s.backup := rfl
@[simp] theorem setFlash_cal (i : Fin 32) (f : FlashSlot) : (setFlash i f s).cal = s.cal := rfl
@[simp] theorem setFlash_lib (i : Fin 32) (f : FlashSlot) : (setFlash i f s).lib = s.lib := rfl
@[simp] theorem setFlash_rows (i : Fin 32) (f : FlashSlot) : (setFlash i f s).rows = s.rows := rfl
@[simp] theorem setFlash_mixer (i : Fin 32) (f : FlashSlot) : (setFlash i f s).mixer = s.mixer := rfl
@[simp] theorem setFlash_out (i : Fin 32) (f : FlashSlot) : (setFlash i f s).out = s.out := rfl
@[simp] theorem setFlash_drivers (i : Fin 32) (f : FlashSlot) : (setFlash i f s).drivers = s.drivers := rfl
@[simp] theorem setFlash_mon (i : Fin 32) (f : FlashSlot) : (setFlash i f s).mon = s.mon := rfl
@[simp] theorem setFlash_safety (i : Fin 32) (f : FlashSlot) : (setFlash i f s).safety = s.safety := rfl
@[simp] theorem setFlash_inputs (i : Fin 32) (f : FlashSlot) : (setFlash i f s).inputs = s.inputs := rfl
@[simp] theorem setFlash_line (i : Fin 32) (f : FlashSlot) : (setFlash i f s).line = s.line := rfl
@[simp] theorem setFlash_counters (i : Fin 32) (f : FlashSlot) : (setFlash i f s).counters = s.counters := rfl
@[simp] theorem setFlash_pending (i : Fin 32) (f : FlashSlot) : (setFlash i f s).pending = s.pending := rfl
@[simp] theorem setFlash_flash (i : Fin 32) (f : FlashSlot) : (setFlash i f s).flash = s.flash.set i f := rfl

/-! ### `modTime` -/

@[simp] theorem modTime_start (f : TimeUnit → TimeUnit) : (modTime f s).start = s.start := rfl
@[simp] theorem modTime_backup (f : TimeUnit → TimeUnit) : (modTime f s).backup = s.backup := rfl
@[simp] theorem modTime_cal (f : TimeUnit → TimeUnit) : (modTime f s).cal = s.cal := rfl
@[simp] theorem modTime_flash (f : TimeUnit → TimeUnit) : (modTime f s).flash = s.flash := rfl
@[simp] theorem modTime_lib (f : TimeUnit → TimeUnit) : (modTime f s).lib = s.lib := rfl
@[simp] theorem modTime_rows (f : TimeUnit → TimeUnit) : (modTime f s).rows = s.rows := rfl
@[simp] theorem modTime_mixer (f : TimeUnit → TimeUnit) : (modTime f s).mixer = s.mixer := rfl
@[simp] theorem modTime_out (f : TimeUnit → TimeUnit) : (modTime f s).out = s.out := rfl
@[simp] theorem modTime_drivers (f : TimeUnit → TimeUnit) : (modTime f s).drivers = s.drivers := rfl
@[simp] theorem modTime_mon (f : TimeUnit → TimeUnit) : (modTime f s).mon = s.mon := rfl
@[simp] theorem modTime_safety (f : TimeUnit → TimeUnit) : (modTime f s).safety = s.safety := rfl
@[simp] theorem modTime_inputs (f : TimeUnit → TimeUnit) : (modTime f s).inputs = s.inputs := rfl
@[simp] theorem modTime_line (f : TimeUnit → TimeUnit) : (modTime f s).line = s.line := rfl
@[simp] theorem modTime_counters (f : TimeUnit → TimeUnit) : (modTime f s).counters = s.counters := rfl
@[simp] theorem modTime_pending (f : TimeUnit → TimeUnit) : (modTime f s).pending = s.pending := rfl
@[simp] theorem modTime_time (f : TimeUnit → TimeUnit) : (modTime f s).time = f s.time := rfl

/-! ### `modStart` -/

@[simp] theorem modStart_time (f : StartController → StartController) : (modStart f s).time = s.time := rfl
@[simp] theorem modStart_backup (f : StartController → StartController) : (modStart f s).backup = s.backup := rfl
@[simp] theorem modStart_cal (f : StartController → StartController) : (modStart f s).cal = s.cal := rfl
@[simp] theorem modStart_flash (f : StartController → StartController) : (modStart f s).flash = s.flash := rfl
@[simp] theorem modStart_lib (f : StartController → StartController) : (modStart f s).lib = s.lib := rfl
@[simp] theorem modStart_rows (f : StartController → StartController) : (modStart f s).rows = s.rows := rfl
@[simp] theorem modStart_mixer (f : StartController → StartController) : (modStart f s).mixer = s.mixer := rfl
@[simp] theorem modStart_out (f : StartController → StartController) : (modStart f s).out = s.out := rfl
@[simp] theorem modStart_drivers (f : StartController → StartController) : (modStart f s).drivers = s.drivers := rfl
@[simp] theorem modStart_mon (f : StartController → StartController) : (modStart f s).mon = s.mon := rfl
@[simp] theorem modStart_safety (f : StartController → StartController) : (modStart f s).safety = s.safety := rfl
@[simp] theorem modStart_inputs (f : StartController → StartController) : (modStart f s).inputs = s.inputs := rfl
@[simp] theorem modStart_line (f : StartController → StartController) : (modStart f s).line = s.line := rfl
@[simp] theorem modStart_counters (f : StartController → StartController) : (modStart f s).counters = s.counters := rfl
@[simp] theorem modStart_pending (f : StartController → StartController) : (modStart f s).pending = s.pending := rfl
@[simp] theorem modStart_start (f : StartController → StartController) : (modStart f s).start = f s.start := rfl

/-! ### `modLine` -/

@[simp] theorem modLine_start (f : LineInterface → LineInterface) : (modLine f s).start = s.start := rfl
@[simp] theorem modLine_time (f : LineInterface → LineInterface) : (modLine f s).time = s.time := rfl
@[simp] theorem modLine_backup (f : LineInterface → LineInterface) : (modLine f s).backup = s.backup := rfl
@[simp] theorem modLine_cal (f : LineInterface → LineInterface) : (modLine f s).cal = s.cal := rfl
@[simp] theorem modLine_flash (f : LineInterface → LineInterface) : (modLine f s).flash = s.flash := rfl
@[simp] theorem modLine_lib (f : LineInterface → LineInterface) : (modLine f s).lib = s.lib := rfl
@[simp] theorem modLine_rows (f : LineInterface → LineInterface) : (modLine f s).rows = s.rows := rfl
@[simp] theorem modLine_mixer (f : LineInterface → LineInterface) : (modLine f s).mixer = s.mixer := rfl
@[simp] theorem modLine_out (f : LineInterface → LineInterface) : (modLine f s).out = s.out := rfl
@[simp] theorem modLine_drivers (f : LineInterface → LineInterface) : (modLine f s).drivers = s.drivers := rfl
@[simp] theorem modLine_mon (f : LineInterface → LineInterface) : (modLine f s).mon = s.mon := rfl
@[simp] theorem modLine_safety (f : LineInterface → LineInterface) : (modLine f s).safety = s.safety := rfl
@[simp] theorem modLine_inputs (f : LineInterface → LineInterface) : (modLine f s).inputs = s.inputs := rfl
@[simp] theorem modLine_counters (f : LineInterface → LineInterface) : (modLine f s).counters = s.counters := rfl
@[simp] theorem modLine_pending (f : LineInterface → LineInterface) : (modLine f s).pending = s.pending := rfl
@[simp] theorem modLine_line (f : LineInterface → LineInterface) : (modLine f s).line = f s.line := rfl

/-! ### `modRef` -/

@[simp] theorem modRef_start (f : Reference → Reference) : (modRef f s).start = s.start := rfl
@[simp] theorem modRef_backup (f : Reference → Reference) : (modRef f s).backup = s.backup := rfl
@[simp] theorem modRef_cal (f : Reference → Reference) : (modRef f s).cal = s.cal := rfl
@[simp] theorem modRef_flash (f : Reference → Reference) : (modRef f s).flash = s.flash := rfl
@[simp] theorem modRef_lib (f : Reference → Reference) : (modRef f s).lib = s.lib := rfl
@[simp] theorem modRef_rows (f : Reference → Reference) : (modRef f s).rows = s.rows := rfl
@[simp] theorem modRef_mixer (f : Reference → Reference) : (modRef f s).mixer = s.mixer := rfl
@[simp] theorem modRef_out (f : Reference → Reference) : (modRef f s).out = s.out := rfl
@[simp] theorem modRef_drivers (f : Reference → Reference) : (modRef f s).drivers = s.drivers := rfl
@[simp] theorem modRef_mon (f : Reference → Reference) : (modRef f s).mon = s.mon := rfl
@[simp] theorem modRef_safety (f : Reference → Reference) : (modRef f s).safety = s.safety := rfl
@[simp] theorem modRef_inputs (f : Reference → Reference) : (modRef f s).inputs = s.inputs := rfl
@[simp] theorem modRef_line (f : Reference → Reference) : (modRef f s).line = s.line := rfl
@[simp] theorem modRef_counters (f : Reference → Reference) : (modRef f s).counters = s.counters := rfl
@[simp] theorem modRef_pending (f : Reference → Reference) : (modRef f s).pending = s.pending := rfl
@[simp] theorem modRef_time (f : Reference → Reference) : (modRef f s).time = { s.time with ref := f s.time.ref } := rfl

/-! ### `setEntries` -/

@[simp] theorem setEntries_start (es : List Entry) : (setEntries es s).start = s.start := rfl
@[simp] theorem setEntries_time (es : List Entry) : (setEntries es s).time = s.time := rfl
@[simp] theorem setEntries_backup (es : List Entry) : (setEntries es s).backup = s.backup := rfl
@[simp] theorem setEntries_flash (es : List Entry) : (setEntries es s).flash = s.flash := rfl
@[simp] theorem setEntries_lib (es : List Entry) : (setEntries es s).lib = s.lib := rfl
@[simp] theorem setEntries_rows (es : List Entry) : (setEntries es s).rows = s.rows := rfl
@[simp] theorem setEntries_mixer (es : List Entry) : (setEntries es s).mixer = s.mixer := rfl
@[simp] theorem setEntries_out (es : List Entry) : (setEntries es s).out = s.out := rfl
@[simp] theorem setEntries_drivers (es : List Entry) : (setEntries es s).drivers = s.drivers := rfl
@[simp] theorem setEntries_mon (es : List Entry) : (setEntries es s).mon = s.mon := rfl
@[simp] theorem setEntries_safety (es : List Entry) : (setEntries es s).safety = s.safety := rfl
@[simp] theorem setEntries_inputs (es : List Entry) : (setEntries es s).inputs = s.inputs := rfl
@[simp] theorem setEntries_line (es : List Entry) : (setEntries es s).line = s.line := rfl
@[simp] theorem setEntries_counters (es : List Entry) : (setEntries es s).counters = s.counters := rfl
@[simp] theorem setEntries_pending (es : List Entry) : (setEntries es s).pending = s.pending := rfl
@[simp] theorem setEntries_cal (es : List Entry) : (setEntries es s).cal = { s.cal with entries := es } := rfl

/-! ### `askFlush` -/

@[simp] theorem askFlush_start : (askFlush s).start = s.start := rfl
@[simp] theorem askFlush_time : (askFlush s).time = s.time := rfl
@[simp] theorem askFlush_backup : (askFlush s).backup = s.backup := rfl
@[simp] theorem askFlush_cal : (askFlush s).cal = s.cal := rfl
@[simp] theorem askFlush_flash : (askFlush s).flash = s.flash := rfl
@[simp] theorem askFlush_lib : (askFlush s).lib = s.lib := rfl
@[simp] theorem askFlush_rows : (askFlush s).rows = s.rows := rfl
@[simp] theorem askFlush_out : (askFlush s).out = s.out := rfl
@[simp] theorem askFlush_drivers : (askFlush s).drivers = s.drivers := rfl
@[simp] theorem askFlush_mon : (askFlush s).mon = s.mon := rfl
@[simp] theorem askFlush_safety : (askFlush s).safety = s.safety := rfl
@[simp] theorem askFlush_inputs : (askFlush s).inputs = s.inputs := rfl
@[simp] theorem askFlush_line : (askFlush s).line = s.line := rfl
@[simp] theorem askFlush_counters : (askFlush s).counters = s.counters := rfl
@[simp] theorem askFlush_pending : (askFlush s).pending = s.pending := rfl
@[simp] theorem askFlush_mixer : (askFlush s).mixer = { s.mixer with flushAsked := s.mixer.flushAsked + 1 } := rfl

/-! ### `bumpBy` -/

@[simp] theorem bumpBy_start (n : Nat) (c : Counter) : (bumpBy n c s).start = s.start := rfl
@[simp] theorem bumpBy_time (n : Nat) (c : Counter) : (bumpBy n c s).time = s.time := rfl
@[simp] theorem bumpBy_backup (n : Nat) (c : Counter) : (bumpBy n c s).backup = s.backup := rfl
@[simp] theorem bumpBy_cal (n : Nat) (c : Counter) : (bumpBy n c s).cal = s.cal := rfl
@[simp] theorem bumpBy_flash (n : Nat) (c : Counter) : (bumpBy n c s).flash = s.flash := rfl
@[simp] theorem bumpBy_lib (n : Nat) (c : Counter) : (bumpBy n c s).lib = s.lib := rfl
@[simp] theorem bumpBy_rows (n : Nat) (c : Counter) : (bumpBy n c s).rows = s.rows := rfl
@[simp] theorem bumpBy_mixer (n : Nat) (c : Counter) : (bumpBy n c s).mixer = s.mixer := rfl
@[simp] theorem bumpBy_out (n : Nat) (c : Counter) : (bumpBy n c s).out = s.out := rfl
@[simp] theorem bumpBy_drivers (n : Nat) (c : Counter) : (bumpBy n c s).drivers = s.drivers := rfl
@[simp] theorem bumpBy_mon (n : Nat) (c : Counter) : (bumpBy n c s).mon = s.mon := rfl
@[simp] theorem bumpBy_safety (n : Nat) (c : Counter) : (bumpBy n c s).safety = s.safety := rfl
@[simp] theorem bumpBy_inputs (n : Nat) (c : Counter) : (bumpBy n c s).inputs = s.inputs := rfl
@[simp] theorem bumpBy_line (n : Nat) (c : Counter) : (bumpBy n c s).line = s.line := rfl
@[simp] theorem bumpBy_pending (n : Nat) (c : Counter) : (bumpBy n c s).pending = s.pending := rfl

/-! ### `bump` -/

@[simp] theorem bump_start (c : Counter) : (bump c s).start = s.start := rfl
@[simp] theorem bump_time (c : Counter) : (bump c s).time = s.time := rfl
@[simp] theorem bump_backup (c : Counter) : (bump c s).backup = s.backup := rfl
@[simp] theorem bump_cal (c : Counter) : (bump c s).cal = s.cal := rfl
@[simp] theorem bump_flash (c : Counter) : (bump c s).flash = s.flash := rfl
@[simp] theorem bump_lib (c : Counter) : (bump c s).lib = s.lib := rfl
@[simp] theorem bump_rows (c : Counter) : (bump c s).rows = s.rows := rfl
@[simp] theorem bump_mixer (c : Counter) : (bump c s).mixer = s.mixer := rfl
@[simp] theorem bump_out (c : Counter) : (bump c s).out = s.out := rfl
@[simp] theorem bump_drivers (c : Counter) : (bump c s).drivers = s.drivers := rfl
@[simp] theorem bump_mon (c : Counter) : (bump c s).mon = s.mon := rfl
@[simp] theorem bump_safety (c : Counter) : (bump c s).safety = s.safety := rfl
@[simp] theorem bump_inputs (c : Counter) : (bump c s).inputs = s.inputs := rfl
@[simp] theorem bump_line (c : Counter) : (bump c s).line = s.line := rfl
@[simp] theorem bump_pending (c : Counter) : (bump c s).pending = s.pending := rfl

/-! ### `setSense` -/

@[simp] theorem setSense_start (c : SenseClass) (x : Sense) : (setSense c x s).start = s.start := rfl
@[simp] theorem setSense_time (c : SenseClass) (x : Sense) : (setSense c x s).time = s.time := rfl
@[simp] theorem setSense_backup (c : SenseClass) (x : Sense) : (setSense c x s).backup = s.backup := rfl
@[simp] theorem setSense_cal (c : SenseClass) (x : Sense) : (setSense c x s).cal = s.cal := rfl
@[simp] theorem setSense_flash (c : SenseClass) (x : Sense) : (setSense c x s).flash = s.flash := rfl
@[simp] theorem setSense_lib (c : SenseClass) (x : Sense) : (setSense c x s).lib = s.lib := rfl
@[simp] theorem setSense_rows (c : SenseClass) (x : Sense) : (setSense c x s).rows = s.rows := rfl
@[simp] theorem setSense_mixer (c : SenseClass) (x : Sense) : (setSense c x s).mixer = s.mixer := rfl
@[simp] theorem setSense_out (c : SenseClass) (x : Sense) : (setSense c x s).out = s.out := rfl
@[simp] theorem setSense_drivers (c : SenseClass) (x : Sense) : (setSense c x s).drivers = s.drivers := rfl
@[simp] theorem setSense_safety (c : SenseClass) (x : Sense) : (setSense c x s).safety = s.safety := rfl
@[simp] theorem setSense_inputs (c : SenseClass) (x : Sense) : (setSense c x s).inputs = s.inputs := rfl
@[simp] theorem setSense_line (c : SenseClass) (x : Sense) : (setSense c x s).line = s.line := rfl
@[simp] theorem setSense_counters (c : SenseClass) (x : Sense) : (setSense c x s).counters = s.counters := rfl
@[simp] theorem setSense_pending (c : SenseClass) (x : Sense) : (setSense c x s).pending = s.pending := rfl
@[simp] theorem setSense_mon (c : SenseClass) (x : Sense) : (setSense c x s).mon = s.mon.setSense c x := rfl

/-! ### `setResend` -/

@[simp] theorem setResend_start (t : Option Nat) : (setResend t s).start = s.start := rfl
@[simp] theorem setResend_time (t : Option Nat) : (setResend t s).time = s.time := rfl
@[simp] theorem setResend_backup (t : Option Nat) : (setResend t s).backup = s.backup := rfl
@[simp] theorem setResend_cal (t : Option Nat) : (setResend t s).cal = s.cal := rfl
@[simp] theorem setResend_flash (t : Option Nat) : (setResend t s).flash = s.flash := rfl
@[simp] theorem setResend_lib (t : Option Nat) : (setResend t s).lib = s.lib := rfl
@[simp] theorem setResend_rows (t : Option Nat) : (setResend t s).rows = s.rows := rfl
@[simp] theorem setResend_mixer (t : Option Nat) : (setResend t s).mixer = s.mixer := rfl
@[simp] theorem setResend_out (t : Option Nat) : (setResend t s).out = s.out := rfl
@[simp] theorem setResend_drivers (t : Option Nat) : (setResend t s).drivers = s.drivers := rfl
@[simp] theorem setResend_mon (t : Option Nat) : (setResend t s).mon = s.mon := rfl
@[simp] theorem setResend_inputs (t : Option Nat) : (setResend t s).inputs = s.inputs := rfl
@[simp] theorem setResend_line (t : Option Nat) : (setResend t s).line = s.line := rfl
@[simp] theorem setResend_counters (t : Option Nat) : (setResend t s).counters = s.counters := rfl
@[simp] theorem setResend_pending (t : Option Nat) : (setResend t s).pending = s.pending := rfl
@[simp] theorem setResend_safety (t : Option Nat) : (setResend t s).safety = { s.safety with resend := t } := rfl

/-! ### `shiftLastHeard` -/

@[simp] theorem shiftLastHeard_start (a : Int) : (shiftLastHeard a s).start = s.start := rfl
@[simp] theorem shiftLastHeard_time (a : Int) : (shiftLastHeard a s).time = s.time := rfl
@[simp] theorem shiftLastHeard_backup (a : Int) : (shiftLastHeard a s).backup = s.backup := rfl
@[simp] theorem shiftLastHeard_cal (a : Int) : (shiftLastHeard a s).cal = s.cal := rfl
@[simp] theorem shiftLastHeard_flash (a : Int) : (shiftLastHeard a s).flash = s.flash := rfl
@[simp] theorem shiftLastHeard_lib (a : Int) : (shiftLastHeard a s).lib = s.lib := rfl
@[simp] theorem shiftLastHeard_mixer (a : Int) : (shiftLastHeard a s).mixer = s.mixer := rfl
@[simp] theorem shiftLastHeard_out (a : Int) : (shiftLastHeard a s).out = s.out := rfl
@[simp] theorem shiftLastHeard_drivers (a : Int) : (shiftLastHeard a s).drivers = s.drivers := rfl
@[simp] theorem shiftLastHeard_mon (a : Int) : (shiftLastHeard a s).mon = s.mon := rfl
@[simp] theorem shiftLastHeard_safety (a : Int) : (shiftLastHeard a s).safety = s.safety := rfl
@[simp] theorem shiftLastHeard_inputs (a : Int) : (shiftLastHeard a s).inputs = s.inputs := rfl
@[simp] theorem shiftLastHeard_line (a : Int) : (shiftLastHeard a s).line = s.line := rfl
@[simp] theorem shiftLastHeard_counters (a : Int) : (shiftLastHeard a s).counters = s.counters := rfl
@[simp] theorem shiftLastHeard_pending (a : Int) : (shiftLastHeard a s).pending = s.pending := rfl

/-! ### `dropQueued` -/

@[simp] theorem dropQueued_start (n : Nat) : (dropQueued n s).start = s.start := rfl
@[simp] theorem dropQueued_time (n : Nat) : (dropQueued n s).time = s.time := rfl
@[simp] theorem dropQueued_backup (n : Nat) : (dropQueued n s).backup = s.backup := rfl
@[simp] theorem dropQueued_cal (n : Nat) : (dropQueued n s).cal = s.cal := rfl
@[simp] theorem dropQueued_flash (n : Nat) : (dropQueued n s).flash = s.flash := rfl
@[simp] theorem dropQueued_rows (n : Nat) : (dropQueued n s).rows = s.rows := rfl
@[simp] theorem dropQueued_mixer (n : Nat) : (dropQueued n s).mixer = s.mixer := rfl
@[simp] theorem dropQueued_out (n : Nat) : (dropQueued n s).out = s.out := rfl
@[simp] theorem dropQueued_drivers (n : Nat) : (dropQueued n s).drivers = s.drivers := rfl
@[simp] theorem dropQueued_mon (n : Nat) : (dropQueued n s).mon = s.mon := rfl
@[simp] theorem dropQueued_safety (n : Nat) : (dropQueued n s).safety = s.safety := rfl
@[simp] theorem dropQueued_inputs (n : Nat) : (dropQueued n s).inputs = s.inputs := rfl
@[simp] theorem dropQueued_line (n : Nat) : (dropQueued n s).line = s.line := rfl
@[simp] theorem dropQueued_counters (n : Nat) : (dropQueued n s).counters = s.counters := rfl
@[simp] theorem dropQueued_pending (n : Nat) : (dropQueued n s).pending = s.pending := rfl

/-! ### `withdrawUnit` -/

@[simp] theorem withdrawUnit_start (i : Fin 32) : (withdrawUnit i s).start = s.start := rfl
@[simp] theorem withdrawUnit_time (i : Fin 32) : (withdrawUnit i s).time = s.time := rfl
@[simp] theorem withdrawUnit_backup (i : Fin 32) : (withdrawUnit i s).backup = s.backup := rfl
@[simp] theorem withdrawUnit_cal (i : Fin 32) : (withdrawUnit i s).cal = s.cal := rfl
@[simp] theorem withdrawUnit_flash (i : Fin 32) : (withdrawUnit i s).flash = s.flash := rfl
@[simp] theorem withdrawUnit_rows (i : Fin 32) : (withdrawUnit i s).rows = s.rows := rfl
@[simp] theorem withdrawUnit_mixer (i : Fin 32) : (withdrawUnit i s).mixer = s.mixer := rfl
@[simp] theorem withdrawUnit_out (i : Fin 32) : (withdrawUnit i s).out = s.out := rfl
@[simp] theorem withdrawUnit_drivers (i : Fin 32) : (withdrawUnit i s).drivers = s.drivers := rfl
@[simp] theorem withdrawUnit_mon (i : Fin 32) : (withdrawUnit i s).mon = s.mon := rfl
@[simp] theorem withdrawUnit_safety (i : Fin 32) : (withdrawUnit i s).safety = s.safety := rfl
@[simp] theorem withdrawUnit_inputs (i : Fin 32) : (withdrawUnit i s).inputs = s.inputs := rfl
@[simp] theorem withdrawUnit_line (i : Fin 32) : (withdrawUnit i s).line = s.line := rfl
@[simp] theorem withdrawUnit_counters (i : Fin 32) : (withdrawUnit i s).counters = s.counters := rfl
@[simp] theorem withdrawUnit_pending (i : Fin 32) : (withdrawUnit i s).pending = s.pending := rfl

/-! ### `pushErase` -/

@[simp] theorem pushErase_start (i : Fin 32) : (pushErase i s).start = s.start := rfl
@[simp] theorem pushErase_time (i : Fin 32) : (pushErase i s).time = s.time := rfl
@[simp] theorem pushErase_backup (i : Fin 32) : (pushErase i s).backup = s.backup := rfl
@[simp] theorem pushErase_cal (i : Fin 32) : (pushErase i s).cal = s.cal := rfl
@[simp] theorem pushErase_flash (i : Fin 32) : (pushErase i s).flash = s.flash := rfl
@[simp] theorem pushErase_rows (i : Fin 32) : (pushErase i s).rows = s.rows := rfl
@[simp] theorem pushErase_mixer (i : Fin 32) : (pushErase i s).mixer = s.mixer := rfl
@[simp] theorem pushErase_out (i : Fin 32) : (pushErase i s).out = s.out := rfl
@[simp] theorem pushErase_drivers (i : Fin 32) : (pushErase i s).drivers = s.drivers := rfl
@[simp] theorem pushErase_mon (i : Fin 32) : (pushErase i s).mon = s.mon := rfl
@[simp] theorem pushErase_safety (i : Fin 32) : (pushErase i s).safety = s.safety := rfl
@[simp] theorem pushErase_inputs (i : Fin 32) : (pushErase i s).inputs = s.inputs := rfl
@[simp] theorem pushErase_line (i : Fin 32) : (pushErase i s).line = s.line := rfl
@[simp] theorem pushErase_counters (i : Fin 32) : (pushErase i s).counters = s.counters := rfl
@[simp] theorem pushErase_pending (i : Fin 32) : (pushErase i s).pending = s.pending := rfl

/-! ### `dropErase` -/

@[simp] theorem dropErase_start (i : Fin 32) : (dropErase i s).start = s.start := rfl
@[simp] theorem dropErase_time (i : Fin 32) : (dropErase i s).time = s.time := rfl
@[simp] theorem dropErase_backup (i : Fin 32) : (dropErase i s).backup = s.backup := rfl
@[simp] theorem dropErase_cal (i : Fin 32) : (dropErase i s).cal = s.cal := rfl
@[simp] theorem dropErase_flash (i : Fin 32) : (dropErase i s).flash = s.flash := rfl
@[simp] theorem dropErase_rows (i : Fin 32) : (dropErase i s).rows = s.rows := rfl
@[simp] theorem dropErase_mixer (i : Fin 32) : (dropErase i s).mixer = s.mixer := rfl
@[simp] theorem dropErase_out (i : Fin 32) : (dropErase i s).out = s.out := rfl
@[simp] theorem dropErase_drivers (i : Fin 32) : (dropErase i s).drivers = s.drivers := rfl
@[simp] theorem dropErase_mon (i : Fin 32) : (dropErase i s).mon = s.mon := rfl
@[simp] theorem dropErase_safety (i : Fin 32) : (dropErase i s).safety = s.safety := rfl
@[simp] theorem dropErase_inputs (i : Fin 32) : (dropErase i s).inputs = s.inputs := rfl
@[simp] theorem dropErase_line (i : Fin 32) : (dropErase i s).line = s.line := rfl
@[simp] theorem dropErase_counters (i : Fin 32) : (dropErase i s).counters = s.counters := rfl
@[simp] theorem dropErase_pending (i : Fin 32) : (dropErase i s).pending = s.pending := rfl

/-! ### `setErased` -/

@[simp] theorem setErased_start (i : Fin 32) (k : Nat) : (setErased i k s).start = s.start := rfl
@[simp] theorem setErased_time (i : Fin 32) (k : Nat) : (setErased i k s).time = s.time := rfl
@[simp] theorem setErased_backup (i : Fin 32) (k : Nat) : (setErased i k s).backup = s.backup := rfl
@[simp] theorem setErased_cal (i : Fin 32) (k : Nat) : (setErased i k s).cal = s.cal := rfl
@[simp] theorem setErased_flash (i : Fin 32) (k : Nat) : (setErased i k s).flash = s.flash := rfl
@[simp] theorem setErased_rows (i : Fin 32) (k : Nat) : (setErased i k s).rows = s.rows := rfl
@[simp] theorem setErased_mixer (i : Fin 32) (k : Nat) : (setErased i k s).mixer = s.mixer := rfl
@[simp] theorem setErased_out (i : Fin 32) (k : Nat) : (setErased i k s).out = s.out := rfl
@[simp] theorem setErased_drivers (i : Fin 32) (k : Nat) : (setErased i k s).drivers = s.drivers := rfl
@[simp] theorem setErased_mon (i : Fin 32) (k : Nat) : (setErased i k s).mon = s.mon := rfl
@[simp] theorem setErased_safety (i : Fin 32) (k : Nat) : (setErased i k s).safety = s.safety := rfl
@[simp] theorem setErased_inputs (i : Fin 32) (k : Nat) : (setErased i k s).inputs = s.inputs := rfl
@[simp] theorem setErased_line (i : Fin 32) (k : Nat) : (setErased i k s).line = s.line := rfl
@[simp] theorem setErased_counters (i : Fin 32) (k : Nat) : (setErased i k s).counters = s.counters := rfl
@[simp] theorem setErased_pending (i : Fin 32) (k : Nat) : (setErased i k s).pending = s.pending := rfl

/-! ### `askDeadMark` -/

@[simp] theorem askDeadMark_start (i : Fin 32) : (askDeadMark i s).start = s.start := rfl
@[simp] theorem askDeadMark_time (i : Fin 32) : (askDeadMark i s).time = s.time := rfl
@[simp] theorem askDeadMark_backup (i : Fin 32) : (askDeadMark i s).backup = s.backup := rfl
@[simp] theorem askDeadMark_cal (i : Fin 32) : (askDeadMark i s).cal = s.cal := rfl
@[simp] theorem askDeadMark_flash (i : Fin 32) : (askDeadMark i s).flash = s.flash := rfl
@[simp] theorem askDeadMark_rows (i : Fin 32) : (askDeadMark i s).rows = s.rows := rfl
@[simp] theorem askDeadMark_mixer (i : Fin 32) : (askDeadMark i s).mixer = s.mixer := rfl
@[simp] theorem askDeadMark_out (i : Fin 32) : (askDeadMark i s).out = s.out := rfl
@[simp] theorem askDeadMark_drivers (i : Fin 32) : (askDeadMark i s).drivers = s.drivers := rfl
@[simp] theorem askDeadMark_mon (i : Fin 32) : (askDeadMark i s).mon = s.mon := rfl
@[simp] theorem askDeadMark_safety (i : Fin 32) : (askDeadMark i s).safety = s.safety := rfl
@[simp] theorem askDeadMark_inputs (i : Fin 32) : (askDeadMark i s).inputs = s.inputs := rfl
@[simp] theorem askDeadMark_line (i : Fin 32) : (askDeadMark i s).line = s.line := rfl
@[simp] theorem askDeadMark_counters (i : Fin 32) : (askDeadMark i s).counters = s.counters := rfl
@[simp] theorem askDeadMark_pending (i : Fin 32) : (askDeadMark i s).pending = s.pending := rfl

/-! ### `removeSent` -/

@[simp] theorem removeSent_start : (removeSent s).start = s.start := rfl
@[simp] theorem removeSent_time : (removeSent s).time = s.time := rfl
@[simp] theorem removeSent_backup : (removeSent s).backup = s.backup := rfl
@[simp] theorem removeSent_cal : (removeSent s).cal = s.cal := rfl
@[simp] theorem removeSent_flash : (removeSent s).flash = s.flash := rfl
@[simp] theorem removeSent_lib : (removeSent s).lib = s.lib := rfl
@[simp] theorem removeSent_rows : (removeSent s).rows = s.rows := rfl
@[simp] theorem removeSent_mixer : (removeSent s).mixer = s.mixer := rfl
@[simp] theorem removeSent_out : (removeSent s).out = s.out := rfl
@[simp] theorem removeSent_drivers : (removeSent s).drivers = s.drivers := rfl
@[simp] theorem removeSent_mon : (removeSent s).mon = s.mon := rfl
@[simp] theorem removeSent_safety : (removeSent s).safety = s.safety := rfl
@[simp] theorem removeSent_inputs : (removeSent s).inputs = s.inputs := rfl
@[simp] theorem removeSent_counters : (removeSent s).counters = s.counters := rfl
@[simp] theorem removeSent_pending : (removeSent s).pending = s.pending := rfl

/-! ### `resense` -/

@[simp] theorem resense_start : (resense s).start = s.start := rfl
@[simp] theorem resense_time : (resense s).time = s.time := rfl
@[simp] theorem resense_backup : (resense s).backup = s.backup := rfl
@[simp] theorem resense_cal : (resense s).cal = s.cal := rfl
@[simp] theorem resense_flash : (resense s).flash = s.flash := rfl
@[simp] theorem resense_lib : (resense s).lib = s.lib := rfl
@[simp] theorem resense_rows : (resense s).rows = s.rows := rfl
@[simp] theorem resense_mixer : (resense s).mixer = s.mixer := rfl
@[simp] theorem resense_out : (resense s).out = s.out := rfl
@[simp] theorem resense_drivers : (resense s).drivers = s.drivers := rfl
@[simp] theorem resense_safety : (resense s).safety = s.safety := rfl
@[simp] theorem resense_inputs : (resense s).inputs = s.inputs := rfl
@[simp] theorem resense_line : (resense s).line = s.line := rfl
@[simp] theorem resense_counters : (resense s).counters = s.counters := rfl
@[simp] theorem resense_pending : (resense s).pending = s.pending := rfl

/-! ### `readInput` -/

@[simp] theorem readInput_start (i : Fin 8) : (readInput i s).start = s.start := rfl
@[simp] theorem readInput_time (i : Fin 8) : (readInput i s).time = s.time := rfl
@[simp] theorem readInput_backup (i : Fin 8) : (readInput i s).backup = s.backup := rfl
@[simp] theorem readInput_cal (i : Fin 8) : (readInput i s).cal = s.cal := rfl
@[simp] theorem readInput_flash (i : Fin 8) : (readInput i s).flash = s.flash := rfl
@[simp] theorem readInput_lib (i : Fin 8) : (readInput i s).lib = s.lib := rfl
@[simp] theorem readInput_rows (i : Fin 8) : (readInput i s).rows = s.rows := rfl
@[simp] theorem readInput_mixer (i : Fin 8) : (readInput i s).mixer = s.mixer := rfl
@[simp] theorem readInput_out (i : Fin 8) : (readInput i s).out = s.out := rfl
@[simp] theorem readInput_drivers (i : Fin 8) : (readInput i s).drivers = s.drivers := rfl
@[simp] theorem readInput_mon (i : Fin 8) : (readInput i s).mon = s.mon := rfl
@[simp] theorem readInput_safety (i : Fin 8) : (readInput i s).safety = s.safety := rfl
@[simp] theorem readInput_line (i : Fin 8) : (readInput i s).line = s.line := rfl
@[simp] theorem readInput_counters (i : Fin 8) : (readInput i s).counters = s.counters := rfl
@[simp] theorem readInput_pending (i : Fin 8) : (readInput i s).pending = s.pending := rfl

/-! ### `recomputeWhere` -/

@[simp] theorem recomputeWhere_start (q : Entry → Bool) : (recomputeWhere q s).start = s.start := rfl
@[simp] theorem recomputeWhere_time (q : Entry → Bool) : (recomputeWhere q s).time = s.time := rfl
@[simp] theorem recomputeWhere_backup (q : Entry → Bool) : (recomputeWhere q s).backup = s.backup := rfl
@[simp] theorem recomputeWhere_flash (q : Entry → Bool) : (recomputeWhere q s).flash = s.flash := rfl
@[simp] theorem recomputeWhere_lib (q : Entry → Bool) : (recomputeWhere q s).lib = s.lib := rfl
@[simp] theorem recomputeWhere_rows (q : Entry → Bool) : (recomputeWhere q s).rows = s.rows := rfl
@[simp] theorem recomputeWhere_mixer (q : Entry → Bool) : (recomputeWhere q s).mixer = s.mixer := rfl
@[simp] theorem recomputeWhere_out (q : Entry → Bool) : (recomputeWhere q s).out = s.out := rfl
@[simp] theorem recomputeWhere_drivers (q : Entry → Bool) : (recomputeWhere q s).drivers = s.drivers := rfl
@[simp] theorem recomputeWhere_mon (q : Entry → Bool) : (recomputeWhere q s).mon = s.mon := rfl
@[simp] theorem recomputeWhere_safety (q : Entry → Bool) : (recomputeWhere q s).safety = s.safety := rfl
@[simp] theorem recomputeWhere_inputs (q : Entry → Bool) : (recomputeWhere q s).inputs = s.inputs := rfl
@[simp] theorem recomputeWhere_line (q : Entry → Bool) : (recomputeWhere q s).line = s.line := rfl
@[simp] theorem recomputeWhere_counters (q : Entry → Bool) : (recomputeWhere q s).counters = s.counters := rfl
@[simp] theorem recomputeWhere_pending (q : Entry → Bool) : (recomputeWhere q s).pending = s.pending := rfl

/-! ### `setSafeFrames` -/

@[simp] theorem setSafeFrames_start : (setSafeFrames s).start = s.start := rfl
@[simp] theorem setSafeFrames_time : (setSafeFrames s).time = s.time := rfl
@[simp] theorem setSafeFrames_backup : (setSafeFrames s).backup = s.backup := rfl
@[simp] theorem setSafeFrames_cal : (setSafeFrames s).cal = s.cal := rfl
@[simp] theorem setSafeFrames_flash : (setSafeFrames s).flash = s.flash := rfl
@[simp] theorem setSafeFrames_lib : (setSafeFrames s).lib = s.lib := rfl
@[simp] theorem setSafeFrames_rows : (setSafeFrames s).rows = s.rows := rfl
@[simp] theorem setSafeFrames_mixer : (setSafeFrames s).mixer = s.mixer := rfl
@[simp] theorem setSafeFrames_out : (setSafeFrames s).out = s.out := rfl
@[simp] theorem setSafeFrames_mon : (setSafeFrames s).mon = s.mon := rfl
@[simp] theorem setSafeFrames_safety : (setSafeFrames s).safety = s.safety := rfl
@[simp] theorem setSafeFrames_inputs : (setSafeFrames s).inputs = s.inputs := rfl
@[simp] theorem setSafeFrames_line : (setSafeFrames s).line = s.line := rfl
@[simp] theorem setSafeFrames_counters : (setSafeFrames s).counters = s.counters := rfl
@[simp] theorem setSafeFrames_pending : (setSafeFrames s).pending = s.pending := rfl

end Sys2Proof.Machine
end

