-- ==== Sys2Proof/Laws/Ops.lean ====
section
/-!
SUPPORT. What the shared operations of Machine/Ops.lean can do, once each: counters, the transmit queue, RESULTs.
-/

namespace Sys2Proof.Machine

/-! ### Counters (R181) -/

theorem place_injective {c d : Counter} (h : c.place = d.place) : c = d := by
  revert h; cases c <;> cases d <;> decide

/-- A counter counts up and holds at 65,535; the others stay. -/
theorem count_bumpBy (n : Nat) (c d : Counter) (s : State) :
    count (bumpBy n c s) d =
      if c = d then BitVec.ofNat 16 (min 65535 ((count s d).toNat + n)) else count s d := by
  unfold count bumpBy
  by_cases h : c = d
  · subst h; simp [count]
  · have : c.place ≠ d.place := fun e => h (place_injective e)
    have hv : (c.place : Nat) ≠ d.place := fun e => this (Fin.ext e)
    simp [h, hv]

/-- No counter falls when one counts (R181). -/
theorem count_le_bumpBy (n : Nat) (c d : Counter) (s : State) :
    (count s d).toNat ≤ (count (bumpBy n c s) d).toNat := by
  rw [count_bumpBy]
  split
  · have := (count s d).isLt
    simp only [BitVec.toNat_ofNat]
    omega
  · exact Nat.le_refl _

/-! ### The transmit queue (R165 to R168) -/

@[simp] theorem txInsert_length (f : TxFrame) (q : List TxFrame) : (txInsert f q).length = q.length + 1 := by
  induction q with
  | nil => rfl
  | cons g gs ih => simp only [txInsert]; split <;> simp [ih]

/-- Removing the candidate of a queue that has one takes exactly one frame out (R166). -/
theorem txRemoveCandidate_length (q : List TxFrame) (h : q.any (fun x => !x.sending) = true) :
    (txRemoveCandidate q).length + 1 = q.length := by
  induction q with
  | nil => simp at h
  | cons g gs ih =>
    simp only [txRemoveCandidate]
    split
    · rename_i h'; simp [ih h']
    · rename_i h'
      split
      · rename_i hs
        simp only [List.any_cons, hs, Bool.not_true, Bool.false_or] at h
        exact absurd h h'
      · rfl

@[simp] theorem txReplace_length (q : TxFrame → Bool) (f : TxFrame) (l : List TxFrame) :
    (txReplace q f l).length = l.length := by
  induction l with
  | nil => rfl
  | cons g gs ih => simp only [txReplace]; split <;> simp [ih]

theorem any_of_txCandidate {q : List TxFrame} {g : TxFrame} (h : txCandidate q = some g) :
    q.any (fun x => !x.sending) = true := by
  have h' := List.find?_some h
  have hm := List.mem_of_find?_eq_some h
  rw [List.any_eq_true]
  exact ⟨g, by simpa using hm, h'⟩

/-- Queueing touches the transmit queue and the counters, never lets the queue pass 12, and lets no counter fall (R165, R166). -/
theorem enqueue_cases (f : TxFrame) (s : State) :
    ∃ (q : List TxFrame) (c : Counters), enqueue f s = { s with line := { s.line with tx := q }, counters := c } ∧
      (s.line.tx.length ≤ 12 → q.length ≤ 12) ∧
      ∀ k : Counter, (count s k).toNat ≤ (count { s with counters := c } k).toNat := by
  have bumped : ∀ k i : Counter, (count s i).toNat ≤ (count { s with counters := (bump k s).counters } i).toNat :=
    fun k i => count_le_bumpBy 1 k i s
  unfold enqueue
  split
  · rename_i h
    exact ⟨_, s.counters, rfl, fun _ => by simp; omega, fun _ => Nat.le_refl _⟩
  · split
    · rename_i g hg
      have hl := txRemoveCandidate_length _ (any_of_txCandidate hg)
      split
      · exact ⟨_, (bump .txDisplaced s).counters, rfl, fun h => by simp; omega, bumped _⟩
      · exact ⟨s.line.tx, (bump .txDropped s).counters, rfl, id, bumped _⟩
    · exact ⟨s.line.tx, (bump .txDropped s).counters, rfl, id, bumped _⟩

/-- Sending touches the transmit queue and the counters; a listen-only station's queue stays (R165 to R168). -/
theorem send_cases (f : TxFrame) (s : State) :
    ∃ (q : List TxFrame) (c : Counters), send f s = { s with line := { s.line with tx := q }, counters := c } ∧
      (s.line.tx.length ≤ 12 → q.length ≤ 12) ∧ (s.start.number = 0 → q = s.line.tx) ∧
      ∀ k : Counter, (count s k).toNat ≤ (count { s with counters := c } k).toNat := by
  unfold send
  split
  · exact ⟨s.line.tx, s.counters, rfl, id, fun _ => rfl, fun _ => Nat.le_refl _⟩
  · rename_i h
    obtain ⟨q, c, e, h1, h2⟩ := enqueue_cases f s
    exact ⟨q, c, e, h1, fun h0 => absurd h0 h, h2⟩

/-! ### Rows (R48) -/

/-- A change of a held row's context. -/
theorem modCtx_eq {p : Fin 4} {s : State} {r : Row} (f : Context → Context) (hr : s.rows[p] = some r) :
    modCtx p f s = setRow p (some { r with ctx := f r.ctx }) s := by
  unfold modCtx modRow; simp only [hr]

theorem setRow_get (p : Fin 4) (r : Option Row) (s : State) : (setRow p r s).rows[p] = r := by simp [setRow]

theorem setRow_other {p : Fin 4} (r : Option Row) (s : State) {i : Fin 4} (h : i ≠ p) : (setRow p r s).rows[i] = s.rows[i] := by
  unfold setRow
  have : (p : Nat) ≠ i := fun e => h (Fin.ext e.symm)
  simp [this]

theorem setRow_setRow (p : Fin 4) (r r' : Option Row) (s : State) : setRow p r (setRow p r' s) = setRow p r s := by
  unfold setRow; simp

end Sys2Proof.Machine
end

