-- ==== Sys2Proof/Laws/Frames.lean ====
section
/-!
SUPPORT. What each function of the machine leaves as it was: one lemma per function, its conclusion the parts of State that it
does not touch, so that no proof unfolds a function to say that it leaves a part alone.
-/

namespace Sys2Proof.Machine

set_option Elab.async false
set_option linter.unusedTactic false
set_option linter.unreachableTactic false

theorem foldl_keeps {α β : Type} (P : State → β) (g : State → α → State) (h : ∀ s a, P (g s a) = P s) (l : List α) (s : State) :
    P (l.foldl g s) = P s := by
  induction l generalizing s with
  | nil => rfl
  | cons a l ih => simp [ih, h]

@[simp] theorem foldl_start {α : Type} (g : State → α → State) (h : ∀ s a, (g s a).start = s.start) (l : List α) (s : State) :
    (l.foldl g s).start = s.start := foldl_keeps (·.start) g h l s
@[simp] theorem foldl_time {α : Type} (g : State → α → State) (h : ∀ s a, (g s a).time = s.time) (l : List α) (s : State) :
    (l.foldl g s).time = s.time := foldl_keeps (·.time) g h l s
@[simp] theorem foldl_backup {α : Type} (g : State → α → State) (h : ∀ s a, (g s a).backup = s.backup) (l : List α) (s : State) :
    (l.foldl g s).backup = s.backup := foldl_keeps (·.backup) g h l s
@[simp] theorem foldl_cal {α : Type} (g : State → α → State) (h : ∀ s a, (g s a).cal = s.cal) (l : List α) (s : State) :
    (l.foldl g s).cal = s.cal := foldl_keeps (·.cal) g h l s
@[simp] theorem foldl_flash {α : Type} (g : State → α → State) (h : ∀ s a, (g s a).flash = s.flash) (l : List α) (s : State) :
    (l.foldl g s).flash = s.flash := foldl_keeps (·.flash) g h l s
@[simp] theorem foldl_lib {α : Type} (g : State → α → State) (h : ∀ s a, (g s a).lib = s.lib) (l : List α) (s : State) :
    (l.foldl g s).lib = s.lib := foldl_keeps (·.lib) g h l s
@[simp] theorem foldl_rows {α : Type} (g : State → α → State) (h : ∀ s a, (g s a).rows = s.rows) (l : List α) (s : State) :
    (l.foldl g s).rows = s.rows := foldl_keeps (·.rows) g h l s
@[simp] theorem foldl_mixer {α : Type} (g : State → α → State) (h : ∀ s a, (g s a).mixer = s.mixer) (l : List α) (s : State) :
    (l.foldl g s).mixer = s.mixer := foldl_keeps (·.mixer) g h l s
@[simp] theorem foldl_out {α : Type} (g : State → α → State) (h : ∀ s a, (g s a).out = s.out) (l : List α) (s : State) :
    (l.foldl g s).out = s.out := foldl_keeps (·.out) g h l s
@[simp] theorem foldl_drivers {α : Type} (g : State → α → State) (h : ∀ s a, (g s a).drivers = s.drivers) (l : List α) (s : State) :
    (l.foldl g s).drivers = s.drivers := foldl_keeps (·.drivers) g h l s
@[simp] theorem foldl_mon {α : Type} (g : State → α → State) (h : ∀ s a, (g s a).mon = s.mon) (l : List α) (s : State) :
    (l.foldl g s).mon = s.mon := foldl_keeps (·.mon) g h l s
@[simp] theorem foldl_safety {α : Type} (g : State → α → State) (h : ∀ s a, (g s a).safety = s.safety) (l : List α) (s : State) :
    (l.foldl g s).safety = s.safety := foldl_keeps (·.safety) g h l s
@[simp] theorem foldl_inputs {α : Type} (g : State → α → State) (h : ∀ s a, (g s a).inputs = s.inputs) (l : List α) (s : State) :
    (l.foldl g s).inputs = s.inputs := foldl_keeps (·.inputs) g h l s
@[simp] theorem foldl_line {α : Type} (g : State → α → State) (h : ∀ s a, (g s a).line = s.line) (l : List α) (s : State) :
    (l.foldl g s).line = s.line := foldl_keeps (·.line) g h l s
@[simp] theorem foldl_counters {α : Type} (g : State → α → State) (h : ∀ s a, (g s a).counters = s.counters) (l : List α) (s : State) :
    (l.foldl g s).counters = s.counters := foldl_keeps (·.counters) g h l s
@[simp] theorem foldl_pending {α : Type} (g : State → α → State) (h : ∀ s a, (g s a).pending = s.pending) (l : List α) (s : State) :
    (l.foldl g s).pending = s.pending := foldl_keeps (·.pending) g h l s

@[simp] theorem askFlushIf_frame (b : Bool) (s : State) :
    (askFlushIf b s).start = s.start ∧ (askFlushIf b s).time = s.time ∧ (askFlushIf b s).backup = s.backup ∧
      (askFlushIf b s).cal = s.cal ∧ (askFlushIf b s).flash = s.flash ∧ (askFlushIf b s).lib = s.lib ∧
      (askFlushIf b s).rows = s.rows ∧ (askFlushIf b s).out = s.out ∧ (askFlushIf b s).drivers = s.drivers ∧
      (askFlushIf b s).mon = s.mon ∧ (askFlushIf b s).safety = s.safety ∧ (askFlushIf b s).inputs = s.inputs ∧
      (askFlushIf b s).line = s.line ∧ (askFlushIf b s).counters = s.counters ∧ (askFlushIf b s).pending = s.pending := by
  unfold askFlushIf
  refine ⟨?_, ?_, ?_, ?_, ?_, ?_, ?_, ?_, ?_, ?_, ?_, ?_, ?_, ?_, ?_⟩ <;>
    first | (simp; done) | ((try dsimp only); (repeat' split) <;> first | (simp; done) | (simp_all; done) | grind)

@[simp] theorem modRow_frame (p : Fin 4) (f : Row → Row) (s : State) :
    (modRow p f s).start = s.start ∧ (modRow p f s).time = s.time ∧ (modRow p f s).backup = s.backup ∧
      (modRow p f s).cal = s.cal ∧ (modRow p f s).flash = s.flash ∧ (modRow p f s).lib = s.lib ∧
      (modRow p f s).mixer = s.mixer ∧ (modRow p f s).out = s.out ∧ (modRow p f s).drivers = s.drivers ∧
      (modRow p f s).mon = s.mon ∧ (modRow p f s).safety = s.safety ∧ (modRow p f s).inputs = s.inputs ∧
      (modRow p f s).line = s.line ∧ (modRow p f s).counters = s.counters ∧ (modRow p f s).pending = s.pending := by
  unfold modRow
  refine ⟨?_, ?_, ?_, ?_, ?_, ?_, ?_, ?_, ?_, ?_, ?_, ?_, ?_, ?_, ?_⟩ <;>
    first | (simp; done) | ((try dsimp only); (repeat' split) <;> first | (simp; done) | (simp_all; done) | grind)

@[simp] theorem modCtx_frame (p : Fin 4) (f : Context → Context) (s : State) :
    (modCtx p f s).start = s.start ∧ (modCtx p f s).time = s.time ∧ (modCtx p f s).backup = s.backup ∧
      (modCtx p f s).cal = s.cal ∧ (modCtx p f s).flash = s.flash ∧ (modCtx p f s).lib = s.lib ∧
      (modCtx p f s).mixer = s.mixer ∧ (modCtx p f s).out = s.out ∧ (modCtx p f s).drivers = s.drivers ∧
      (modCtx p f s).mon = s.mon ∧ (modCtx p f s).safety = s.safety ∧ (modCtx p f s).inputs = s.inputs ∧
      (modCtx p f s).line = s.line ∧ (modCtx p f s).counters = s.counters ∧ (modCtx p f s).pending = s.pending := by
  unfold modCtx
  refine ⟨?_, ?_, ?_, ?_, ?_, ?_, ?_, ?_, ?_, ?_, ?_, ?_, ?_, ?_, ?_⟩ <;>
    first | (simp; done) | ((try dsimp only); (repeat' split) <;> first | (simp; done) | (simp_all; done) | grind)

@[simp] theorem enqueue_frame (f : TxFrame) (s : State) :
    (enqueue f s).start = s.start ∧ (enqueue f s).time = s.time ∧ (enqueue f s).backup = s.backup ∧
      (enqueue f s).cal = s.cal ∧ (enqueue f s).flash = s.flash ∧ (enqueue f s).lib = s.lib ∧ (enqueue f s).rows = s.rows ∧
      (enqueue f s).mixer = s.mixer ∧ (enqueue f s).out = s.out ∧ (enqueue f s).drivers = s.drivers ∧
      (enqueue f s).mon = s.mon ∧ (enqueue f s).safety = s.safety ∧ (enqueue f s).inputs = s.inputs ∧
      (enqueue f s).pending = s.pending := by
  unfold enqueue
  refine ⟨?_, ?_, ?_, ?_, ?_, ?_, ?_, ?_, ?_, ?_, ?_, ?_, ?_, ?_⟩ <;>
    first | (simp; done) | ((try dsimp only); (repeat' split) <;> first | (simp; done) | (simp_all; done) | grind)

@[simp] theorem send_frame (f : TxFrame) (s : State) :
    (send f s).start = s.start ∧ (send f s).time = s.time ∧ (send f s).backup = s.backup ∧ (send f s).cal = s.cal ∧
      (send f s).flash = s.flash ∧ (send f s).lib = s.lib ∧ (send f s).rows = s.rows ∧ (send f s).mixer = s.mixer ∧
      (send f s).out = s.out ∧ (send f s).drivers = s.drivers ∧ (send f s).mon = s.mon ∧ (send f s).safety = s.safety ∧
      (send f s).inputs = s.inputs ∧ (send f s).pending = s.pending := by
  unfold send
  refine ⟨?_, ?_, ?_, ?_, ?_, ?_, ?_, ?_, ?_, ?_, ?_, ?_, ?_, ?_⟩ <;>
    first | (simp; done) | ((try dsimp only); (repeat' split) <;> first | (simp; done) | (simp_all; done) | grind)

@[simp] theorem sendBeacon_frame (f : TxFrame) (s : State) :
    (sendBeacon f s).start = s.start ∧ (sendBeacon f s).time = s.time ∧ (sendBeacon f s).backup = s.backup ∧
      (sendBeacon f s).cal = s.cal ∧ (sendBeacon f s).flash = s.flash ∧ (sendBeacon f s).lib = s.lib ∧
      (sendBeacon f s).rows = s.rows ∧ (sendBeacon f s).mixer = s.mixer ∧ (sendBeacon f s).out = s.out ∧
      (sendBeacon f s).drivers = s.drivers ∧ (sendBeacon f s).mon = s.mon ∧ (sendBeacon f s).safety = s.safety ∧
      (sendBeacon f s).inputs = s.inputs ∧ (sendBeacon f s).pending = s.pending := by
  unfold sendBeacon
  refine ⟨?_, ?_, ?_, ?_, ?_, ?_, ?_, ?_, ?_, ?_, ?_, ?_, ?_, ?_⟩ <;>
    first | (simp; done) | ((try dsimp only); (repeat' split) <;> first | (simp; done) | (simp_all; done) | grind)

@[simp] theorem answerResult_frame (sender : LineNumber) (target : Byte) (cls : Nat) (sub : Nat) (v : Verdict) (subject : Nat) (s : State) :
    (answerResult sender target cls sub v subject s).start = s.start ∧
      (answerResult sender target cls sub v subject s).time = s.time ∧
      (answerResult sender target cls sub v subject s).backup = s.backup ∧
      (answerResult sender target cls sub v subject s).cal = s.cal ∧
      (answerResult sender target cls sub v subject s).flash = s.flash ∧
      (answerResult sender target cls sub v subject s).lib = s.lib ∧
      (answerResult sender target cls sub v subject s).rows = s.rows ∧
      (answerResult sender target cls sub v subject s).mixer = s.mixer ∧
      (answerResult sender target cls sub v subject s).out = s.out ∧
      (answerResult sender target cls sub v subject s).drivers = s.drivers ∧
      (answerResult sender target cls sub v subject s).mon = s.mon ∧
      (answerResult sender target cls sub v subject s).safety = s.safety ∧
      (answerResult sender target cls sub v subject s).inputs = s.inputs ∧
      (answerResult sender target cls sub v subject s).pending = s.pending := by
  unfold answerResult
  refine ⟨?_, ?_, ?_, ?_, ?_, ?_, ?_, ?_, ?_, ?_, ?_, ?_, ?_, ?_⟩ <;>
    first | (simp; done) | ((try dsimp only); (repeat' split) <;> first | (simp; done) | (simp_all; done) | grind)

@[simp] theorem noteSender_frame (sender : LineNumber) (bytes : Nat) (s : State) :
    (noteSender sender bytes s).start = s.start ∧ (noteSender sender bytes s).time = s.time ∧ (noteSender sender bytes s).backup = s.backup ∧
      (noteSender sender bytes s).cal = s.cal ∧ (noteSender sender bytes s).flash = s.flash ∧ (noteSender sender bytes s).lib = s.lib ∧
      (noteSender sender bytes s).rows = s.rows ∧ (noteSender sender bytes s).mixer = s.mixer ∧ (noteSender sender bytes s).out = s.out ∧
      (noteSender sender bytes s).drivers = s.drivers ∧ (noteSender sender bytes s).mon = s.mon ∧
      (noteSender sender bytes s).safety = s.safety ∧ (noteSender sender bytes s).inputs = s.inputs ∧
      (noteSender sender bytes s).pending = s.pending := by
  unfold noteSender
  refine ⟨?_, ?_, ?_, ?_, ?_, ?_, ?_, ?_, ?_, ?_, ?_, ?_, ?_, ?_⟩ <;>
    first | (simp; done) | ((try dsimp only); (repeat' split) <;> first | (simp; done) | (simp_all; done) | grind)

/-- The Line Interface keeps the transmit queue and LINE FAULT when it looks at a sender, which has ended an idle line (R169,
R170). -/
theorem noteSender_line (sender : LineNumber) (bytes : Nat) (s : State) :
    (noteSender sender bytes s).line.tx = s.line.tx ∧ (noteSender sender bytes s).line.fault = s.line.fault ∧
      (noteSender sender bytes s).line.sinceIdle = (hearFrame (frameTime bytes) s).line.sinceIdle ∧ (noteSender sender bytes s).line.wire = .busy := by
  unfold noteSender
  refine ⟨?_, ?_, ?_, ?_⟩ <;> dsimp only <;> split <;> simp

@[simp] theorem announce_frame (sub : Nat) (r : Row) (s : State) :
    (announce sub r s).start = s.start ∧ (announce sub r s).time = s.time ∧ (announce sub r s).backup = s.backup ∧
      (announce sub r s).cal = s.cal ∧ (announce sub r s).flash = s.flash ∧ (announce sub r s).lib = s.lib ∧
      (announce sub r s).rows = s.rows ∧ (announce sub r s).mixer = s.mixer ∧ (announce sub r s).out = s.out ∧
      (announce sub r s).drivers = s.drivers ∧ (announce sub r s).mon = s.mon ∧ (announce sub r s).safety = s.safety ∧
      (announce sub r s).inputs = s.inputs ∧ (announce sub r s).pending = s.pending := by
  unfold announce
  refine ⟨?_, ?_, ?_, ?_, ?_, ?_, ?_, ?_, ?_, ?_, ?_, ?_, ?_, ?_⟩ <;>
    first | (simp; done) | ((try dsimp only); (repeat' split) <;> first | (simp; done) | (simp_all; done) | grind)

@[simp] theorem askRefill_frame (p : Fin 4) (s : State) :
    (askRefill p s).start = s.start ∧ (askRefill p s).time = s.time ∧ (askRefill p s).backup = s.backup ∧
      (askRefill p s).cal = s.cal ∧ (askRefill p s).flash = s.flash ∧ (askRefill p s).lib = s.lib ∧
      (askRefill p s).mixer = s.mixer ∧ (askRefill p s).out = s.out ∧ (askRefill p s).drivers = s.drivers ∧
      (askRefill p s).mon = s.mon ∧ (askRefill p s).safety = s.safety ∧ (askRefill p s).inputs = s.inputs ∧
      (askRefill p s).line = s.line ∧ (askRefill p s).counters = s.counters ∧ (askRefill p s).pending = s.pending := by
  unfold askRefill
  refine ⟨?_, ?_, ?_, ?_, ?_, ?_, ?_, ?_, ?_, ?_, ?_, ?_, ?_, ?_, ?_⟩ <;>
    first | (simp; done) | ((try dsimp only); (repeat' split) <;> first | (simp; done) | (simp_all; done) | grind)

@[simp] theorem askRefills_frame (s : State) :
    (askRefills s).start = s.start ∧ (askRefills s).time = s.time ∧ (askRefills s).backup = s.backup ∧
      (askRefills s).cal = s.cal ∧ (askRefills s).flash = s.flash ∧ (askRefills s).lib = s.lib ∧
      (askRefills s).mixer = s.mixer ∧ (askRefills s).out = s.out ∧ (askRefills s).drivers = s.drivers ∧
      (askRefills s).mon = s.mon ∧ (askRefills s).safety = s.safety ∧ (askRefills s).inputs = s.inputs ∧
      (askRefills s).line = s.line ∧ (askRefills s).counters = s.counters ∧ (askRefills s).pending = s.pending := by
  unfold askRefills
  refine ⟨?_, ?_, ?_, ?_, ?_, ?_, ?_, ?_, ?_, ?_, ?_, ?_, ?_, ?_, ?_⟩ <;>
    first | (simp; done) | ((try dsimp only); (repeat' split) <;> first | (simp; done) | (simp_all; done) | grind)

@[simp] theorem withdrawRefill_frame (p : Fin 4) (s : State) :
    (withdrawRefill p s).start = s.start ∧ (withdrawRefill p s).time = s.time ∧ (withdrawRefill p s).backup = s.backup ∧
      (withdrawRefill p s).cal = s.cal ∧ (withdrawRefill p s).flash = s.flash ∧ (withdrawRefill p s).mixer = s.mixer ∧
      (withdrawRefill p s).out = s.out ∧ (withdrawRefill p s).drivers = s.drivers ∧ (withdrawRefill p s).mon = s.mon ∧
      (withdrawRefill p s).safety = s.safety ∧ (withdrawRefill p s).inputs = s.inputs ∧ (withdrawRefill p s).line = s.line ∧
      (withdrawRefill p s).counters = s.counters ∧ (withdrawRefill p s).pending = s.pending := by
  unfold withdrawRefill
  refine ⟨?_, ?_, ?_, ?_, ?_, ?_, ?_, ?_, ?_, ?_, ?_, ?_, ?_, ?_⟩ <;>
    first | (simp; done) | ((try dsimp only); (repeat' split) <;> first | (simp; done) | (simp_all; done) | grind)

@[simp] theorem toIdle_frame (p : Fin 4) (s : State) :
    (toIdle p s).start = s.start ∧ (toIdle p s).time = s.time ∧ (toIdle p s).backup = s.backup ∧ (toIdle p s).cal = s.cal ∧
      (toIdle p s).flash = s.flash ∧ (toIdle p s).mixer = s.mixer ∧ (toIdle p s).out = s.out ∧
      (toIdle p s).drivers = s.drivers ∧ (toIdle p s).mon = s.mon ∧ (toIdle p s).safety = s.safety ∧
      (toIdle p s).inputs = s.inputs ∧ (toIdle p s).line = s.line ∧ (toIdle p s).counters = s.counters ∧
      (toIdle p s).pending = s.pending := by
  unfold toIdle
  refine ⟨?_, ?_, ?_, ?_, ?_, ?_, ?_, ?_, ?_, ?_, ?_, ?_, ?_, ?_⟩ <;>
    first | (simp; done) | ((try dsimp only); (repeat' split) <;> first | (simp; done) | (simp_all; done) | grind)

@[simp] theorem offerMark_frame (p : Fin 4) (m : Nat) (release : Nat) (s : State) :
    (offerMark p m release s).start = s.start ∧ (offerMark p m release s).time = s.time ∧
      (offerMark p m release s).backup = s.backup ∧ (offerMark p m release s).cal = s.cal ∧
      (offerMark p m release s).flash = s.flash ∧ (offerMark p m release s).lib = s.lib ∧
      (offerMark p m release s).out = s.out ∧ (offerMark p m release s).drivers = s.drivers ∧
      (offerMark p m release s).mon = s.mon ∧ (offerMark p m release s).safety = s.safety ∧
      (offerMark p m release s).inputs = s.inputs ∧ (offerMark p m release s).line = s.line ∧
      (offerMark p m release s).counters = s.counters ∧ (offerMark p m release s).pending = s.pending := by
  unfold offerMark
  refine ⟨?_, ?_, ?_, ?_, ?_, ?_, ?_, ?_, ?_, ?_, ?_, ?_, ?_, ?_⟩ <;>
    first | (simp; done) | ((try dsimp only); (repeat' split) <;> first | (simp; done) | (simp_all; done) | grind)

@[simp] theorem meetMark_frame (p : Fin 4) (m : Nat) (release : Nat) (s : State) :
    (meetMark p m release s).start = s.start ∧ (meetMark p m release s).time = s.time ∧
      (meetMark p m release s).backup = s.backup ∧ (meetMark p m release s).cal = s.cal ∧
      (meetMark p m release s).flash = s.flash ∧ (meetMark p m release s).lib = s.lib ∧ (meetMark p m release s).out = s.out ∧
      (meetMark p m release s).drivers = s.drivers ∧ (meetMark p m release s).mon = s.mon ∧
      (meetMark p m release s).safety = s.safety ∧ (meetMark p m release s).inputs = s.inputs ∧
      (meetMark p m release s).line = s.line ∧ (meetMark p m release s).pending = s.pending := by
  unfold meetMark
  refine ⟨?_, ?_, ?_, ?_, ?_, ?_, ?_, ?_, ?_, ?_, ?_, ?_, ?_⟩ <;>
    first | (simp; done) | ((try dsimp only); (repeat' split) <;> first | (simp; done) | (simp_all; done) | grind)

@[simp] theorem fileMark_frame (p : Fin 4) (m : Nat) (release : Nat) (s : State) :
    (fileMark p m release s).start = s.start ∧ (fileMark p m release s).time = s.time ∧
      (fileMark p m release s).backup = s.backup ∧ (fileMark p m release s).cal = s.cal ∧
      (fileMark p m release s).flash = s.flash ∧ (fileMark p m release s).lib = s.lib ∧ (fileMark p m release s).out = s.out ∧
      (fileMark p m release s).drivers = s.drivers ∧ (fileMark p m release s).mon = s.mon ∧
      (fileMark p m release s).safety = s.safety ∧ (fileMark p m release s).inputs = s.inputs ∧
      (fileMark p m release s).line = s.line ∧ (fileMark p m release s).pending = s.pending := by
  unfold fileMark
  refine ⟨?_, ?_, ?_, ?_, ?_, ?_, ?_, ?_, ?_, ?_, ?_, ?_, ?_⟩ <;>
    first | (simp; done) | ((try dsimp only); (repeat' split) <;> first | (simp; done) | (simp_all; done) | grind)

@[simp] theorem emitMark_frame (p : Fin 4) (m : Nat) (due : Nat) (s : State) :
    (emitMark p m due s).start = s.start ∧ (emitMark p m due s).time = s.time ∧ (emitMark p m due s).backup = s.backup ∧
      (emitMark p m due s).cal = s.cal ∧ (emitMark p m due s).flash = s.flash ∧ (emitMark p m due s).lib = s.lib ∧
      (emitMark p m due s).out = s.out ∧ (emitMark p m due s).drivers = s.drivers ∧ (emitMark p m due s).mon = s.mon ∧
      (emitMark p m due s).safety = s.safety ∧ (emitMark p m due s).inputs = s.inputs ∧
      (emitMark p m due s).pending = s.pending := by
  unfold emitMark
  refine ⟨?_, ?_, ?_, ?_, ?_, ?_, ?_, ?_, ?_, ?_, ?_, ?_⟩ <;>
    first | (simp; done) | ((try dsimp only); (repeat' split) <;> first | (simp; done) | (simp_all; done) | grind)

@[simp] theorem beginRelease_frame (p : Fin 4) (r : Row) (start : Nat) (s : State) :
    (beginRelease p r start s).start = s.start ∧ (beginRelease p r start s).time = s.time ∧
      (beginRelease p r start s).backup = s.backup ∧ (beginRelease p r start s).cal = s.cal ∧
      (beginRelease p r start s).flash = s.flash ∧ (beginRelease p r start s).out = s.out ∧
      (beginRelease p r start s).drivers = s.drivers ∧ (beginRelease p r start s).mon = s.mon ∧
      (beginRelease p r start s).safety = s.safety ∧ (beginRelease p r start s).inputs = s.inputs ∧
      (beginRelease p r start s).line = s.line ∧ (beginRelease p r start s).counters = s.counters ∧
      (beginRelease p r start s).pending = s.pending := by
  unfold beginRelease
  refine ⟨?_, ?_, ?_, ?_, ?_, ?_, ?_, ?_, ?_, ?_, ?_, ?_, ?_⟩ <;>
    first | (simp; done) | ((try dsimp only); (repeat' split) <;> first | (simp; done) | (simp_all; done) | grind)

@[simp] theorem meetEndFrame_frame (p : Fin 4) (s : State) :
    (meetEndFrame p s).start = s.start ∧ (meetEndFrame p s).time = s.time ∧ (meetEndFrame p s).backup = s.backup ∧
      (meetEndFrame p s).cal = s.cal ∧ (meetEndFrame p s).flash = s.flash ∧ (meetEndFrame p s).out = s.out ∧
      (meetEndFrame p s).drivers = s.drivers ∧ (meetEndFrame p s).mon = s.mon ∧ (meetEndFrame p s).safety = s.safety ∧
      (meetEndFrame p s).inputs = s.inputs ∧ (meetEndFrame p s).line = s.line ∧ (meetEndFrame p s).counters = s.counters ∧
      (meetEndFrame p s).pending = s.pending := by
  unfold meetEndFrame
  refine ⟨?_, ?_, ?_, ?_, ?_, ?_, ?_, ?_, ?_, ?_, ?_, ?_, ?_⟩ <;>
    first | (simp; done) | ((try dsimp only); (repeat' split) <;> first | (simp; done) | (simp_all; done) | grind)

@[simp] theorem takeGate_frame (p : Fin 4) (c : Cue) (r : Row) (s : State) :
    (takeGate p c r s).2.start = s.start ∧ (takeGate p c r s).2.time = s.time ∧ (takeGate p c r s).2.backup = s.backup ∧
      (takeGate p c r s).2.cal = s.cal ∧ (takeGate p c r s).2.flash = s.flash ∧ (takeGate p c r s).2.lib = s.lib ∧
      (takeGate p c r s).2.out = s.out ∧ (takeGate p c r s).2.drivers = s.drivers ∧ (takeGate p c r s).2.mon = s.mon ∧
      (takeGate p c r s).2.safety = s.safety ∧ (takeGate p c r s).2.inputs = s.inputs ∧ (takeGate p c r s).2.line = s.line ∧
      (takeGate p c r s).2.counters = s.counters ∧ (takeGate p c r s).2.pending = s.pending := by
  unfold takeGate
  refine ⟨?_, ?_, ?_, ?_, ?_, ?_, ?_, ?_, ?_, ?_, ?_, ?_, ?_, ?_⟩ <;>
    first | (simp; done) | ((try dsimp only); (repeat' split) <;> first | (simp; done) | (simp_all; done) | grind)

@[simp] theorem takeMark_frame (p : Fin 4) (c : Cue) (r : Row) (s : State) :
    (takeMark p c r s).start = s.start ∧ (takeMark p c r s).time = s.time ∧ (takeMark p c r s).backup = s.backup ∧
      (takeMark p c r s).cal = s.cal ∧ (takeMark p c r s).flash = s.flash ∧ (takeMark p c r s).lib = s.lib ∧
      (takeMark p c r s).out = s.out ∧ (takeMark p c r s).drivers = s.drivers ∧ (takeMark p c r s).mon = s.mon ∧
      (takeMark p c r s).safety = s.safety ∧ (takeMark p c r s).inputs = s.inputs ∧ (takeMark p c r s).pending = s.pending := by
  unfold takeMark
  refine ⟨?_, ?_, ?_, ?_, ?_, ?_, ?_, ?_, ?_, ?_, ?_, ?_⟩ <;>
    first | (simp; done) | ((try dsimp only); (repeat' split) <;> first | (simp; done) | (simp_all; done) | grind)

@[simp] theorem newPass_frame (p : Fin 4) (r : Row) (length : Nat) (s : State) :
    (newPass p r length s).start = s.start ∧ (newPass p r length s).time = s.time ∧ (newPass p r length s).backup = s.backup ∧
      (newPass p r length s).cal = s.cal ∧ (newPass p r length s).flash = s.flash ∧ (newPass p r length s).lib = s.lib ∧
      (newPass p r length s).out = s.out ∧ (newPass p r length s).drivers = s.drivers ∧ (newPass p r length s).mon = s.mon ∧
      (newPass p r length s).safety = s.safety ∧ (newPass p r length s).inputs = s.inputs ∧
      (newPass p r length s).line = s.line ∧ (newPass p r length s).counters = s.counters ∧
      (newPass p r length s).pending = s.pending := by
  unfold newPass
  refine ⟨?_, ?_, ?_, ?_, ?_, ?_, ?_, ?_, ?_, ?_, ?_, ?_, ?_, ?_⟩ <;>
    first | (simp; done) | ((try dsimp only); (repeat' split) <;> first | (simp; done) | (simp_all; done) | grind)

@[simp] theorem takeEnd_frame (p : Fin 4) (c : Cue) (r : Row) (s : State) :
    (takeEnd p c r s).2.start = s.start ∧ (takeEnd p c r s).2.time = s.time ∧ (takeEnd p c r s).2.backup = s.backup ∧
      (takeEnd p c r s).2.cal = s.cal ∧ (takeEnd p c r s).2.flash = s.flash ∧ (takeEnd p c r s).2.out = s.out ∧
      (takeEnd p c r s).2.drivers = s.drivers ∧ (takeEnd p c r s).2.mon = s.mon ∧ (takeEnd p c r s).2.safety = s.safety ∧
      (takeEnd p c r s).2.inputs = s.inputs ∧ (takeEnd p c r s).2.line = s.line ∧ (takeEnd p c r s).2.counters = s.counters ∧
      (takeEnd p c r s).2.pending = s.pending := by
  unfold takeEnd
  refine ⟨?_, ?_, ?_, ?_, ?_, ?_, ?_, ?_, ?_, ?_, ?_, ?_, ?_⟩ <;>
    first | (simp; done) | ((try dsimp only); (repeat' split) <;> first | (simp; done) | (simp_all; done) | grind)

@[simp] theorem advanceOne_frame (p : Fin 4) (s : State) :
    (advanceOne p s).2.start = s.start ∧ (advanceOne p s).2.time = s.time ∧ (advanceOne p s).2.backup = s.backup ∧
      (advanceOne p s).2.cal = s.cal ∧ (advanceOne p s).2.flash = s.flash ∧ (advanceOne p s).2.out = s.out ∧
      (advanceOne p s).2.drivers = s.drivers ∧ (advanceOne p s).2.mon = s.mon ∧ (advanceOne p s).2.safety = s.safety ∧
      (advanceOne p s).2.inputs = s.inputs ∧ (advanceOne p s).2.pending = s.pending := by
  unfold advanceOne
  refine ⟨?_, ?_, ?_, ?_, ?_, ?_, ?_, ?_, ?_, ?_, ?_⟩ <;>
    first | (simp; done) | ((try dsimp only); (repeat' split) <;> first | (simp; done) | (simp_all; done) | grind)

@[simp] theorem advanceLoop_frame (p : Fin 4) (k : Nat) (s : State) :
    (advanceLoop p k s).2.start = s.start ∧ (advanceLoop p k s).2.time = s.time ∧ (advanceLoop p k s).2.backup = s.backup ∧
      (advanceLoop p k s).2.cal = s.cal ∧ (advanceLoop p k s).2.flash = s.flash ∧ (advanceLoop p k s).2.out = s.out ∧
      (advanceLoop p k s).2.drivers = s.drivers ∧ (advanceLoop p k s).2.mon = s.mon ∧
      (advanceLoop p k s).2.safety = s.safety ∧ (advanceLoop p k s).2.inputs = s.inputs ∧
      (advanceLoop p k s).2.pending = s.pending := by
  induction k generalizing s with
  | zero => simp [advanceLoop]
  | succ k ih =>
    have one := advanceOne_frame p s
    unfold advanceLoop
    split <;> simp_all

@[simp] theorem advanceAll_frame (p : Fin 4) (s : State) :
    (advanceAll p s).2.start = s.start ∧ (advanceAll p s).2.time = s.time ∧ (advanceAll p s).2.backup = s.backup ∧
      (advanceAll p s).2.cal = s.cal ∧ (advanceAll p s).2.flash = s.flash ∧ (advanceAll p s).2.out = s.out ∧
      (advanceAll p s).2.drivers = s.drivers ∧ (advanceAll p s).2.mon = s.mon ∧ (advanceAll p s).2.safety = s.safety ∧
      (advanceAll p s).2.inputs = s.inputs ∧ (advanceAll p s).2.pending = s.pending := by
  unfold advanceAll
  refine ⟨?_, ?_, ?_, ?_, ?_, ?_, ?_, ?_, ?_, ?_, ?_⟩ <;>
    first | (simp; done) | ((try dsimp only); (repeat' split) <;> first | (simp; done) | (simp_all; done) | grind)

@[simp] theorem noteStarved_frame (p : Fin 4) (h : Halt) (s : State) :
    (noteStarved p h s).start = s.start ∧ (noteStarved p h s).time = s.time ∧ (noteStarved p h s).backup = s.backup ∧
      (noteStarved p h s).cal = s.cal ∧ (noteStarved p h s).flash = s.flash ∧ (noteStarved p h s).lib = s.lib ∧
      (noteStarved p h s).mixer = s.mixer ∧ (noteStarved p h s).out = s.out ∧ (noteStarved p h s).drivers = s.drivers ∧
      (noteStarved p h s).mon = s.mon ∧ (noteStarved p h s).safety = s.safety ∧ (noteStarved p h s).inputs = s.inputs ∧
      (noteStarved p h s).line = s.line ∧ (noteStarved p h s).pending = s.pending := by
  unfold noteStarved
  refine ⟨?_, ?_, ?_, ?_, ?_, ?_, ?_, ?_, ?_, ?_, ?_, ?_, ?_, ?_⟩ <;>
    first | (simp; done) | ((try dsimp only); (repeat' split) <;> first | (simp; done) | (simp_all; done) | grind)

@[simp] theorem noteEmptied_frame (p : Fin 4) (r : Row) (s : State) :
    (noteEmptied p r s).start = s.start ∧ (noteEmptied p r s).time = s.time ∧ (noteEmptied p r s).backup = s.backup ∧
      (noteEmptied p r s).cal = s.cal ∧ (noteEmptied p r s).flash = s.flash ∧ (noteEmptied p r s).lib = s.lib ∧
      (noteEmptied p r s).rows = s.rows ∧ (noteEmptied p r s).out = s.out ∧ (noteEmptied p r s).drivers = s.drivers ∧
      (noteEmptied p r s).mon = s.mon ∧ (noteEmptied p r s).safety = s.safety ∧ (noteEmptied p r s).inputs = s.inputs ∧
      (noteEmptied p r s).line = s.line ∧ (noteEmptied p r s).counters = s.counters ∧
      (noteEmptied p r s).pending = s.pending := by
  unfold noteEmptied
  split <;> simp

@[simp] theorem advanceAtBoundary_frame (p : Fin 4) (s : State) :
    (advanceAtBoundary p s).start = s.start ∧ (advanceAtBoundary p s).time = s.time ∧
      (advanceAtBoundary p s).backup = s.backup ∧ (advanceAtBoundary p s).cal = s.cal ∧
      (advanceAtBoundary p s).flash = s.flash ∧ (advanceAtBoundary p s).out = s.out ∧
      (advanceAtBoundary p s).drivers = s.drivers ∧ (advanceAtBoundary p s).mon = s.mon ∧
      (advanceAtBoundary p s).safety = s.safety ∧ (advanceAtBoundary p s).inputs = s.inputs ∧
      (advanceAtBoundary p s).pending = s.pending := by
  unfold advanceAtBoundary
  refine ⟨?_, ?_, ?_, ?_, ?_, ?_, ?_, ?_, ?_, ?_, ?_⟩ <;>
    first | (simp; done) | ((try dsimp only); (repeat' split) <;> first | (simp; done) | (simp_all; done) | grind)

@[simp] theorem beginCatchUp_frame (kind : CatchKind) (p : Fin 4) (s : State) :
    (beginCatchUp kind p s).start = s.start ∧ (beginCatchUp kind p s).time = s.time ∧
      (beginCatchUp kind p s).backup = s.backup ∧ (beginCatchUp kind p s).cal = s.cal ∧
      (beginCatchUp kind p s).flash = s.flash ∧ (beginCatchUp kind p s).mixer = s.mixer ∧
      (beginCatchUp kind p s).out = s.out ∧ (beginCatchUp kind p s).drivers = s.drivers ∧
      (beginCatchUp kind p s).mon = s.mon ∧ (beginCatchUp kind p s).safety = s.safety ∧
      (beginCatchUp kind p s).inputs = s.inputs ∧ (beginCatchUp kind p s).line = s.line ∧
      (beginCatchUp kind p s).counters = s.counters ∧ (beginCatchUp kind p s).pending = s.pending := by
  unfold beginCatchUp
  refine ⟨?_, ?_, ?_, ?_, ?_, ?_, ?_, ?_, ?_, ?_, ?_, ?_, ?_, ?_⟩ <;>
    first | (simp; done) | ((try dsimp only); (repeat' split) <;> first | (simp; done) | (simp_all; done) | grind)

@[simp] theorem completeCatchUp_frame (p : Fin 4) (s : State) :
    (completeCatchUp p s).start = s.start ∧ (completeCatchUp p s).time = s.time ∧ (completeCatchUp p s).backup = s.backup ∧
      (completeCatchUp p s).cal = s.cal ∧ (completeCatchUp p s).flash = s.flash ∧ (completeCatchUp p s).lib = s.lib ∧
      (completeCatchUp p s).out = s.out ∧ (completeCatchUp p s).drivers = s.drivers ∧ (completeCatchUp p s).mon = s.mon ∧
      (completeCatchUp p s).safety = s.safety ∧ (completeCatchUp p s).inputs = s.inputs ∧
      (completeCatchUp p s).line = s.line ∧ (completeCatchUp p s).counters = s.counters ∧
      (completeCatchUp p s).pending = s.pending := by
  unfold completeCatchUp
  refine ⟨?_, ?_, ?_, ?_, ?_, ?_, ?_, ?_, ?_, ?_, ?_, ?_, ?_, ?_⟩ <;>
    first | (simp; done) | ((try dsimp only); (repeat' split) <;> first | (simp; done) | (simp_all; done) | grind)

@[simp] theorem settleCatchUp_frame (p : Fin 4) (h : Halt) (s : State) :
    (settleCatchUp p h s).start = s.start ∧ (settleCatchUp p h s).time = s.time ∧ (settleCatchUp p h s).backup = s.backup ∧
      (settleCatchUp p h s).cal = s.cal ∧ (settleCatchUp p h s).flash = s.flash ∧ (settleCatchUp p h s).out = s.out ∧
      (settleCatchUp p h s).drivers = s.drivers ∧ (settleCatchUp p h s).mon = s.mon ∧
      (settleCatchUp p h s).safety = s.safety ∧ (settleCatchUp p h s).inputs = s.inputs ∧
      (settleCatchUp p h s).line = s.line ∧ (settleCatchUp p h s).counters = s.counters ∧
      (settleCatchUp p h s).pending = s.pending := by
  unfold settleCatchUp
  refine ⟨?_, ?_, ?_, ?_, ?_, ?_, ?_, ?_, ?_, ?_, ?_, ?_, ?_⟩ <;>
    first | (simp; done) | ((try dsimp only); (repeat' split) <;> first | (simp; done) | (simp_all; done) | grind)

@[simp] theorem runCatchUp_frame (p : Fin 4) (s : State) :
    (runCatchUp p s).start = s.start ∧ (runCatchUp p s).time = s.time ∧ (runCatchUp p s).backup = s.backup ∧
      (runCatchUp p s).cal = s.cal ∧ (runCatchUp p s).flash = s.flash ∧ (runCatchUp p s).out = s.out ∧
      (runCatchUp p s).drivers = s.drivers ∧ (runCatchUp p s).mon = s.mon ∧ (runCatchUp p s).safety = s.safety ∧
      (runCatchUp p s).inputs = s.inputs ∧ (runCatchUp p s).pending = s.pending := by
  unfold runCatchUp
  refine ⟨?_, ?_, ?_, ?_, ?_, ?_, ?_, ?_, ?_, ?_, ?_⟩ <;>
    first | (simp; done) | ((try dsimp only); (repeat' split) <;> first | (simp; done) | (simp_all; done) | grind)

@[simp] theorem timeoutGate_frame (p : Fin 4) (g : Gate) (s : State) :
    (timeoutGate p g s).start = s.start ∧ (timeoutGate p g s).time = s.time ∧ (timeoutGate p g s).backup = s.backup ∧
      (timeoutGate p g s).cal = s.cal ∧ (timeoutGate p g s).flash = s.flash ∧ (timeoutGate p g s).lib = s.lib ∧
      (timeoutGate p g s).out = s.out ∧ (timeoutGate p g s).drivers = s.drivers ∧ (timeoutGate p g s).mon = s.mon ∧
      (timeoutGate p g s).safety = s.safety ∧ (timeoutGate p g s).inputs = s.inputs ∧ (timeoutGate p g s).line = s.line ∧
      (timeoutGate p g s).counters = s.counters ∧ (timeoutGate p g s).pending = s.pending := by
  unfold timeoutGate
  refine ⟨?_, ?_, ?_, ?_, ?_, ?_, ?_, ?_, ?_, ?_, ?_, ?_, ?_, ?_⟩ <;>
    first | (simp; done) | ((try dsimp only); (repeat' split) <;> first | (simp; done) | (simp_all; done) | grind)

@[simp] theorem playerBoundary_frame (n : Nat) (p : Fin 4) (s : State) :
    (playerBoundary n p s).start = s.start ∧ (playerBoundary n p s).time = s.time ∧ (playerBoundary n p s).backup = s.backup ∧
      (playerBoundary n p s).cal = s.cal ∧ (playerBoundary n p s).flash = s.flash ∧ (playerBoundary n p s).out = s.out ∧
      (playerBoundary n p s).drivers = s.drivers ∧ (playerBoundary n p s).mon = s.mon ∧
      (playerBoundary n p s).safety = s.safety ∧ (playerBoundary n p s).inputs = s.inputs ∧
      (playerBoundary n p s).pending = s.pending := by
  unfold playerBoundary
  refine ⟨?_, ?_, ?_, ?_, ?_, ?_, ?_, ?_, ?_, ?_, ?_⟩ <;>
    first | (simp; done) | ((try dsimp only); (repeat' split) <;> first | (simp; done) | (simp_all; done) | grind)

@[simp] theorem playersBoundary_frame (n : Nat) (s : State) :
    (playersBoundary n s).start = s.start ∧ (playersBoundary n s).time = s.time ∧ (playersBoundary n s).backup = s.backup ∧
      (playersBoundary n s).cal = s.cal ∧ (playersBoundary n s).flash = s.flash ∧ (playersBoundary n s).out = s.out ∧
      (playersBoundary n s).drivers = s.drivers ∧ (playersBoundary n s).mon = s.mon ∧
      (playersBoundary n s).safety = s.safety ∧ (playersBoundary n s).inputs = s.inputs ∧
      (playersBoundary n s).pending = s.pending := by
  unfold playersBoundary
  refine ⟨?_, ?_, ?_, ?_, ?_, ?_, ?_, ?_, ?_, ?_, ?_⟩ <;>
    first | (simp; done) | ((try dsimp only); (repeat' split) <;> first | (simp; done) | (simp_all; done) | grind)

@[simp] theorem suspendPlayer_frame (p : Fin 4) (s : State) :
    (suspendPlayer p s).start = s.start ∧ (suspendPlayer p s).time = s.time ∧ (suspendPlayer p s).backup = s.backup ∧
      (suspendPlayer p s).cal = s.cal ∧ (suspendPlayer p s).flash = s.flash ∧ (suspendPlayer p s).lib = s.lib ∧
      (suspendPlayer p s).out = s.out ∧ (suspendPlayer p s).drivers = s.drivers ∧ (suspendPlayer p s).mon = s.mon ∧
      (suspendPlayer p s).safety = s.safety ∧ (suspendPlayer p s).inputs = s.inputs ∧ (suspendPlayer p s).line = s.line ∧
      (suspendPlayer p s).counters = s.counters ∧ (suspendPlayer p s).pending = s.pending := by
  unfold suspendPlayer
  refine ⟨?_, ?_, ?_, ?_, ?_, ?_, ?_, ?_, ?_, ?_, ?_, ?_, ?_, ?_⟩ <;>
    first | (simp; done) | ((try dsimp only); (repeat' split) <;> first | (simp; done) | (simp_all; done) | grind)

@[simp] theorem suspendPlayers_frame (s : State) :
    (suspendPlayers s).start = s.start ∧ (suspendPlayers s).time = s.time ∧ (suspendPlayers s).backup = s.backup ∧
      (suspendPlayers s).cal = s.cal ∧ (suspendPlayers s).flash = s.flash ∧ (suspendPlayers s).lib = s.lib ∧
      (suspendPlayers s).out = s.out ∧ (suspendPlayers s).drivers = s.drivers ∧ (suspendPlayers s).mon = s.mon ∧
      (suspendPlayers s).safety = s.safety ∧ (suspendPlayers s).inputs = s.inputs ∧ (suspendPlayers s).line = s.line ∧
      (suspendPlayers s).counters = s.counters ∧ (suspendPlayers s).pending = s.pending := by
  unfold suspendPlayers
  refine ⟨?_, ?_, ?_, ?_, ?_, ?_, ?_, ?_, ?_, ?_, ?_, ?_, ?_, ?_⟩ <;>
    first | (simp; done) | ((try dsimp only); (repeat' split) <;> first | (simp; done) | (simp_all; done) | grind)

@[simp] theorem reevaluate_frame (p : Fin 4) (s : State) :
    (reevaluate p s).start = s.start ∧ (reevaluate p s).time = s.time ∧ (reevaluate p s).backup = s.backup ∧
      (reevaluate p s).cal = s.cal ∧ (reevaluate p s).flash = s.flash ∧ (reevaluate p s).out = s.out ∧
      (reevaluate p s).drivers = s.drivers ∧ (reevaluate p s).mon = s.mon ∧ (reevaluate p s).safety = s.safety ∧
      (reevaluate p s).inputs = s.inputs ∧ (reevaluate p s).line = s.line ∧ (reevaluate p s).counters = s.counters ∧
      (reevaluate p s).pending = s.pending := by
  unfold reevaluate
  refine ⟨?_, ?_, ?_, ?_, ?_, ?_, ?_, ?_, ?_, ?_, ?_, ?_, ?_⟩ <;>
    first | (simp; done) | ((try dsimp only); (repeat' split) <;> first | (simp; done) | (simp_all; done) | grind)

@[simp] theorem resumePlayer_frame (p : Fin 4) (s : State) :
    (resumePlayer p s).start = s.start ∧ (resumePlayer p s).time = s.time ∧ (resumePlayer p s).backup = s.backup ∧
      (resumePlayer p s).cal = s.cal ∧ (resumePlayer p s).flash = s.flash ∧ (resumePlayer p s).out = s.out ∧
      (resumePlayer p s).drivers = s.drivers ∧ (resumePlayer p s).mon = s.mon ∧ (resumePlayer p s).safety = s.safety ∧
      (resumePlayer p s).inputs = s.inputs ∧ (resumePlayer p s).pending = s.pending := by
  unfold resumePlayer
  refine ⟨?_, ?_, ?_, ?_, ?_, ?_, ?_, ?_, ?_, ?_, ?_⟩ <;>
    first | (simp; done) | ((try dsimp only); (repeat' split) <;> first | (simp; done) | (simp_all; done) | grind)

@[simp] theorem resumePlayers_frame (s : State) :
    (resumePlayers s).start = s.start ∧ (resumePlayers s).time = s.time ∧ (resumePlayers s).backup = s.backup ∧
      (resumePlayers s).cal = s.cal ∧ (resumePlayers s).flash = s.flash ∧ (resumePlayers s).out = s.out ∧
      (resumePlayers s).drivers = s.drivers ∧ (resumePlayers s).mon = s.mon ∧ (resumePlayers s).safety = s.safety ∧
      (resumePlayers s).inputs = s.inputs ∧ (resumePlayers s).pending = s.pending := by
  unfold resumePlayers
  refine ⟨?_, ?_, ?_, ?_, ?_, ?_, ?_, ?_, ?_, ?_, ?_⟩ <;>
    first | (simp; done) | ((try dsimp only); (repeat' split) <;> first | (simp; done) | (simp_all; done) | grind)

@[simp] theorem reposition_frame (p : Fin 4) (newTag : Bool) (s : State) :
    (reposition p newTag s).start = s.start ∧ (reposition p newTag s).time = s.time ∧
      (reposition p newTag s).backup = s.backup ∧ (reposition p newTag s).cal = s.cal ∧
      (reposition p newTag s).flash = s.flash ∧ (reposition p newTag s).out = s.out ∧
      (reposition p newTag s).drivers = s.drivers ∧ (reposition p newTag s).mon = s.mon ∧
      (reposition p newTag s).safety = s.safety ∧ (reposition p newTag s).inputs = s.inputs ∧
      (reposition p newTag s).line = s.line ∧ (reposition p newTag s).counters = s.counters ∧
      (reposition p newTag s).pending = s.pending := by
  unfold reposition
  refine ⟨?_, ?_, ?_, ?_, ?_, ?_, ?_, ?_, ?_, ?_, ?_, ?_, ?_⟩ <;>
    first | (simp; done) | ((try dsimp only); (repeat' split) <;> first | (simp; done) | (simp_all; done) | grind)

@[simp] theorem playerStepForward_frame (p : Fin 4) (s : State) :
    (playerStepForward p s).start = s.start ∧ (playerStepForward p s).time = s.time ∧
      (playerStepForward p s).backup = s.backup ∧ (playerStepForward p s).cal = s.cal ∧
      (playerStepForward p s).flash = s.flash ∧ (playerStepForward p s).out = s.out ∧
      (playerStepForward p s).drivers = s.drivers ∧ (playerStepForward p s).mon = s.mon ∧
      (playerStepForward p s).safety = s.safety ∧ (playerStepForward p s).inputs = s.inputs ∧
      (playerStepForward p s).line = s.line ∧ (playerStepForward p s).counters = s.counters ∧
      (playerStepForward p s).pending = s.pending := by
  unfold playerStepForward
  refine ⟨?_, ?_, ?_, ?_, ?_, ?_, ?_, ?_, ?_, ?_, ?_, ?_, ?_⟩ <;>
    first | (simp; done) | ((try dsimp only); (repeat' split) <;> first | (simp; done) | (simp_all; done) | grind)

@[simp] theorem completeIfReached_frame (p : Fin 4) (s : State) :
    (completeIfReached p s).start = s.start ∧ (completeIfReached p s).time = s.time ∧
      (completeIfReached p s).backup = s.backup ∧ (completeIfReached p s).cal = s.cal ∧
      (completeIfReached p s).flash = s.flash ∧ (completeIfReached p s).lib = s.lib ∧ (completeIfReached p s).out = s.out ∧
      (completeIfReached p s).drivers = s.drivers ∧ (completeIfReached p s).mon = s.mon ∧
      (completeIfReached p s).safety = s.safety ∧ (completeIfReached p s).inputs = s.inputs ∧
      (completeIfReached p s).line = s.line ∧ (completeIfReached p s).counters = s.counters ∧
      (completeIfReached p s).pending = s.pending := by
  unfold completeIfReached
  refine ⟨?_, ?_, ?_, ?_, ?_, ?_, ?_, ?_, ?_, ?_, ?_, ?_, ?_, ?_⟩ <;>
    first | (simp; done) | ((try dsimp only); (repeat' split) <;> first | (simp; done) | (simp_all; done) | grind)

@[simp] theorem playerStepBackward_frame (p : Fin 4) (s : State) :
    (playerStepBackward p s).start = s.start ∧ (playerStepBackward p s).time = s.time ∧
      (playerStepBackward p s).backup = s.backup ∧ (playerStepBackward p s).cal = s.cal ∧
      (playerStepBackward p s).flash = s.flash ∧ (playerStepBackward p s).lib = s.lib ∧ (playerStepBackward p s).out = s.out ∧
      (playerStepBackward p s).drivers = s.drivers ∧ (playerStepBackward p s).mon = s.mon ∧
      (playerStepBackward p s).safety = s.safety ∧ (playerStepBackward p s).inputs = s.inputs ∧
      (playerStepBackward p s).line = s.line ∧ (playerStepBackward p s).counters = s.counters ∧
      (playerStepBackward p s).pending = s.pending := by
  unfold playerStepBackward
  refine ⟨?_, ?_, ?_, ?_, ?_, ?_, ?_, ?_, ?_, ?_, ?_, ?_, ?_, ?_⟩ <;>
    first | (simp; done) | ((try dsimp only); (repeat' split) <;> first | (simp; done) | (simp_all; done) | grind)

@[simp] theorem cutRow_frame (p : Fin 4) (s : State) :
    (cutRow p s).start = s.start ∧ (cutRow p s).time = s.time ∧ (cutRow p s).backup = s.backup ∧ (cutRow p s).cal = s.cal ∧
      (cutRow p s).flash = s.flash ∧ (cutRow p s).out = s.out ∧ (cutRow p s).drivers = s.drivers ∧ (cutRow p s).mon = s.mon ∧
      (cutRow p s).safety = s.safety ∧ (cutRow p s).inputs = s.inputs ∧ (cutRow p s).line = s.line ∧
      (cutRow p s).counters = s.counters ∧ (cutRow p s).pending = s.pending := by
  unfold cutRow
  refine ⟨?_, ?_, ?_, ?_, ?_, ?_, ?_, ?_, ?_, ?_, ?_, ?_, ?_⟩ <;>
    first | (simp; done) | ((try dsimp only); (repeat' split) <;> first | (simp; done) | (simp_all; done) | grind)

@[simp] theorem announceStartOf_frame (p : Fin 4) (s : State) :
    (announceStartOf p s).start = s.start ∧ (announceStartOf p s).time = s.time ∧ (announceStartOf p s).backup = s.backup ∧
      (announceStartOf p s).cal = s.cal ∧ (announceStartOf p s).flash = s.flash ∧ (announceStartOf p s).lib = s.lib ∧
      (announceStartOf p s).mixer = s.mixer ∧ (announceStartOf p s).out = s.out ∧ (announceStartOf p s).drivers = s.drivers ∧
      (announceStartOf p s).mon = s.mon ∧ (announceStartOf p s).safety = s.safety ∧ (announceStartOf p s).inputs = s.inputs ∧
      (announceStartOf p s).pending = s.pending := by
  unfold announceStartOf
  refine ⟨?_, ?_, ?_, ?_, ?_, ?_, ?_, ?_, ?_, ?_, ?_, ?_, ?_⟩ <;>
    first | (simp; done) | ((try dsimp only); (repeat' split) <;> first | (simp; done) | (simp_all; done) | grind)

@[simp] theorem createRow_frame (p : Fin 4) (q : Request) (s : State) :
    (createRow p q s).start = s.start ∧ (createRow p q s).time = s.time ∧ (createRow p q s).backup = s.backup ∧
      (createRow p q s).cal = s.cal ∧ (createRow p q s).flash = s.flash ∧ (createRow p q s).out = s.out ∧
      (createRow p q s).drivers = s.drivers ∧ (createRow p q s).mon = s.mon ∧ (createRow p q s).safety = s.safety ∧
      (createRow p q s).inputs = s.inputs ∧ (createRow p q s).pending = s.pending := by
  unfold createRow
  refine ⟨?_, ?_, ?_, ?_, ?_, ?_, ?_, ?_, ?_, ?_, ?_⟩ <;>
    first | (simp; done) | ((try dsimp only); (repeat' split) <;> first | (simp; done) | (simp_all; done) | grind)

@[simp] theorem mergeRow_frame (p : Fin 4) (q : Request) (s : State) :
    (mergeRow p q s).start = s.start ∧ (mergeRow p q s).time = s.time ∧ (mergeRow p q s).backup = s.backup ∧
      (mergeRow p q s).cal = s.cal ∧ (mergeRow p q s).flash = s.flash ∧ (mergeRow p q s).out = s.out ∧
      (mergeRow p q s).drivers = s.drivers ∧ (mergeRow p q s).mon = s.mon ∧ (mergeRow p q s).safety = s.safety ∧
      (mergeRow p q s).inputs = s.inputs ∧ (mergeRow p q s).pending = s.pending := by
  unfold mergeRow
  refine ⟨?_, ?_, ?_, ?_, ?_, ?_, ?_, ?_, ?_, ?_, ?_⟩ <;>
    first | (simp; done) | ((try dsimp only); (repeat' split) <;> first | (simp; done) | (simp_all; done) | grind)

@[simp] theorem allocate_frame (q : Request) (s : State) :
    (allocate q s).2.start = s.start ∧ (allocate q s).2.time = s.time ∧ (allocate q s).2.backup = s.backup ∧
      (allocate q s).2.cal = s.cal ∧ (allocate q s).2.flash = s.flash ∧ (allocate q s).2.out = s.out ∧
      (allocate q s).2.drivers = s.drivers ∧ (allocate q s).2.mon = s.mon ∧ (allocate q s).2.safety = s.safety ∧
      (allocate q s).2.inputs = s.inputs ∧ (allocate q s).2.pending = s.pending := by
  unfold allocate
  refine ⟨?_, ?_, ?_, ?_, ?_, ?_, ?_, ?_, ?_, ?_, ?_⟩ <;>
    first | (simp; done) | ((try dsimp only); (repeat' split) <;> first | (simp; done) | (simp_all; done) | grind)

@[simp] theorem takeRequest_frame (q : Request) (s : State) :
    (takeRequest q s).2.start = s.start ∧ (takeRequest q s).2.time = s.time ∧ (takeRequest q s).2.backup = s.backup ∧
      (takeRequest q s).2.cal = s.cal ∧ (takeRequest q s).2.flash = s.flash ∧ (takeRequest q s).2.out = s.out ∧
      (takeRequest q s).2.drivers = s.drivers ∧ (takeRequest q s).2.mon = s.mon ∧ (takeRequest q s).2.safety = s.safety ∧
      (takeRequest q s).2.inputs = s.inputs ∧ (takeRequest q s).2.pending = s.pending := by
  unfold takeRequest
  refine ⟨?_, ?_, ?_, ?_, ?_, ?_, ?_, ?_, ?_, ?_, ?_⟩ <;>
    first | (simp; done) | ((try dsimp only); (repeat' split) <;> first | (simp; done) | (simp_all; done) | grind)

@[simp] theorem takeCalendarRequest_frame (q : Request) (s : State) :
    (takeCalendarRequest q s).start = s.start ∧ (takeCalendarRequest q s).time = s.time ∧
      (takeCalendarRequest q s).backup = s.backup ∧ (takeCalendarRequest q s).cal = s.cal ∧
      (takeCalendarRequest q s).flash = s.flash ∧ (takeCalendarRequest q s).out = s.out ∧
      (takeCalendarRequest q s).drivers = s.drivers ∧ (takeCalendarRequest q s).mon = s.mon ∧
      (takeCalendarRequest q s).safety = s.safety ∧ (takeCalendarRequest q s).inputs = s.inputs ∧
      (takeCalendarRequest q s).pending = s.pending := by
  unfold takeCalendarRequest
  refine ⟨?_, ?_, ?_, ?_, ?_, ?_, ?_, ?_, ?_, ?_, ?_⟩ <;>
    first | (simp; done) | ((try dsimp only); (repeat' split) <;> first | (simp; done) | (simp_all; done) | grind)

@[simp] theorem stopRow_frame (p : Fin 4) (s : State) :
    (stopRow p s).start = s.start ∧ (stopRow p s).time = s.time ∧ (stopRow p s).backup = s.backup ∧
      (stopRow p s).cal = s.cal ∧ (stopRow p s).flash = s.flash ∧ (stopRow p s).out = s.out ∧
      (stopRow p s).drivers = s.drivers ∧ (stopRow p s).mon = s.mon ∧ (stopRow p s).safety = s.safety ∧
      (stopRow p s).inputs = s.inputs ∧ (stopRow p s).line = s.line ∧ (stopRow p s).counters = s.counters ∧
      (stopRow p s).pending = s.pending := by
  unfold stopRow
  refine ⟨?_, ?_, ?_, ?_, ?_, ?_, ?_, ?_, ?_, ?_, ?_, ?_, ?_⟩ <;>
    first | (simp; done) | ((try dsimp only); (repeat' split) <;> first | (simp; done) | (simp_all; done) | grind)

@[simp] theorem stopRows_frame (s : State) :
    (stopRows s).start = s.start ∧ (stopRows s).time = s.time ∧ (stopRows s).backup = s.backup ∧ (stopRows s).cal = s.cal ∧
      (stopRows s).flash = s.flash ∧ (stopRows s).out = s.out ∧ (stopRows s).drivers = s.drivers ∧ (stopRows s).mon = s.mon ∧
      (stopRows s).safety = s.safety ∧ (stopRows s).inputs = s.inputs ∧ (stopRows s).line = s.line ∧
      (stopRows s).counters = s.counters ∧ (stopRows s).pending = s.pending := by
  unfold stopRows
  refine ⟨?_, ?_, ?_, ?_, ?_, ?_, ?_, ?_, ?_, ?_, ?_, ?_, ?_⟩ <;>
    first | (simp; done) | ((try dsimp only); (repeat' split) <;> first | (simp; done) | (simp_all; done) | grind)

@[simp] theorem contactStopAll_frame (s : State) :
    (contactStopAll s).start = s.start ∧ (contactStopAll s).time = s.time ∧ (contactStopAll s).backup = s.backup ∧
      (contactStopAll s).cal = s.cal ∧ (contactStopAll s).flash = s.flash ∧ (contactStopAll s).out = s.out ∧
      (contactStopAll s).drivers = s.drivers ∧ (contactStopAll s).mon = s.mon ∧ (contactStopAll s).safety = s.safety ∧
      (contactStopAll s).inputs = s.inputs ∧ (contactStopAll s).pending = s.pending := by
  unfold contactStopAll
  refine ⟨?_, ?_, ?_, ?_, ?_, ?_, ?_, ?_, ?_, ?_, ?_⟩ <;>
    first | (simp; done) | ((try dsimp only); (repeat' split) <;> first | (simp; done) | (simp_all; done) | grind)

@[simp] theorem announcerBoundary_frame (n : Nat) (p : Fin 4) (s : State) :
    (announcerBoundary n p s).start = s.start ∧ (announcerBoundary n p s).time = s.time ∧
      (announcerBoundary n p s).backup = s.backup ∧ (announcerBoundary n p s).cal = s.cal ∧
      (announcerBoundary n p s).flash = s.flash ∧ (announcerBoundary n p s).lib = s.lib ∧
      (announcerBoundary n p s).mixer = s.mixer ∧ (announcerBoundary n p s).out = s.out ∧
      (announcerBoundary n p s).drivers = s.drivers ∧ (announcerBoundary n p s).mon = s.mon ∧
      (announcerBoundary n p s).safety = s.safety ∧ (announcerBoundary n p s).inputs = s.inputs ∧
      (announcerBoundary n p s).pending = s.pending := by
  unfold announcerBoundary
  refine ⟨?_, ?_, ?_, ?_, ?_, ?_, ?_, ?_, ?_, ?_, ?_, ?_, ?_⟩ <;>
    first | (simp; done) | ((try dsimp only); (repeat' split) <;> first | (simp; done) | (simp_all; done) | grind)

@[simp] theorem announcersBoundary_frame (n : Nat) (s : State) :
    (announcersBoundary n s).start = s.start ∧ (announcersBoundary n s).time = s.time ∧
      (announcersBoundary n s).backup = s.backup ∧ (announcersBoundary n s).cal = s.cal ∧
      (announcersBoundary n s).flash = s.flash ∧ (announcersBoundary n s).lib = s.lib ∧
      (announcersBoundary n s).mixer = s.mixer ∧ (announcersBoundary n s).out = s.out ∧
      (announcersBoundary n s).drivers = s.drivers ∧ (announcersBoundary n s).mon = s.mon ∧
      (announcersBoundary n s).safety = s.safety ∧ (announcersBoundary n s).inputs = s.inputs ∧
      (announcersBoundary n s).pending = s.pending := by
  unfold announcersBoundary
  refine ⟨?_, ?_, ?_, ?_, ?_, ?_, ?_, ?_, ?_, ?_, ?_, ?_, ?_⟩ <;>
    first | (simp; done) | ((try dsimp only); (repeat' split) <;> first | (simp; done) | (simp_all; done) | grind)

@[simp] theorem offerGo_frame (release : Nat) (s : State) :
    (offerGo release s).start = s.start ∧ (offerGo release s).time = s.time ∧ (offerGo release s).backup = s.backup ∧
      (offerGo release s).cal = s.cal ∧ (offerGo release s).flash = s.flash ∧ (offerGo release s).lib = s.lib ∧
      (offerGo release s).out = s.out ∧ (offerGo release s).drivers = s.drivers ∧ (offerGo release s).mon = s.mon ∧
      (offerGo release s).safety = s.safety ∧ (offerGo release s).inputs = s.inputs ∧ (offerGo release s).line = s.line ∧
      (offerGo release s).counters = s.counters ∧ (offerGo release s).pending = s.pending := by
  unfold offerGo
  refine ⟨?_, ?_, ?_, ?_, ?_, ?_, ?_, ?_, ?_, ?_, ?_, ?_, ?_, ?_⟩ <;>
    first | (simp; done) | ((try dsimp only); (repeat' split) <;> first | (simp; done) | (simp_all; done) | grind)

@[simp] theorem arbitrate_frame (s : State) :
    (arbitrate s).start = s.start ∧ (arbitrate s).time = s.time ∧ (arbitrate s).backup = s.backup ∧
      (arbitrate s).cal = s.cal ∧ (arbitrate s).flash = s.flash ∧ (arbitrate s).mixer = s.mixer ∧ (arbitrate s).out = s.out ∧
      (arbitrate s).drivers = s.drivers ∧ (arbitrate s).mon = s.mon ∧ (arbitrate s).safety = s.safety ∧
      (arbitrate s).inputs = s.inputs ∧ (arbitrate s).line = s.line ∧ (arbitrate s).counters = s.counters ∧
      (arbitrate s).pending = s.pending := by
  unfold arbitrate
  refine ⟨?_, ?_, ?_, ?_, ?_, ?_, ?_, ?_, ?_, ?_, ?_, ?_, ?_, ?_⟩ <;>
    first | (simp; done) | ((try dsimp only); (repeat' split) <;> first | (simp; done) | (simp_all; done) | grind)

@[simp] theorem servePort_frame (s : State) :
    (servePort s).start = s.start ∧ (servePort s).time = s.time ∧ (servePort s).backup = s.backup ∧
      (servePort s).cal = s.cal ∧ (servePort s).flash = s.flash ∧ (servePort s).mixer = s.mixer ∧ (servePort s).out = s.out ∧
      (servePort s).drivers = s.drivers ∧ (servePort s).mon = s.mon ∧ (servePort s).safety = s.safety ∧
      (servePort s).inputs = s.inputs ∧ (servePort s).line = s.line ∧ (servePort s).counters = s.counters ∧
      (servePort s).pending = s.pending := by
  unfold servePort
  refine ⟨?_, ?_, ?_, ?_, ?_, ?_, ?_, ?_, ?_, ?_, ?_, ?_, ?_, ?_⟩ <;>
    first | (simp; done) | ((try dsimp only); (repeat' split) <;> first | (simp; done) | (simp_all; done) | grind)

@[simp] theorem startEffect_frame (sender : LineNumber) (f : StartImage) (s : State) :
    (startEffect sender f s).2.start = s.start ∧ (startEffect sender f s).2.time = s.time ∧
      (startEffect sender f s).2.backup = s.backup ∧ (startEffect sender f s).2.cal = s.cal ∧
      (startEffect sender f s).2.flash = s.flash ∧ (startEffect sender f s).2.out = s.out ∧
      (startEffect sender f s).2.drivers = s.drivers ∧ (startEffect sender f s).2.mon = s.mon ∧
      (startEffect sender f s).2.safety = s.safety ∧ (startEffect sender f s).2.inputs = s.inputs ∧
      (startEffect sender f s).2.pending = s.pending := by
  unfold startEffect
  refine ⟨?_, ?_, ?_, ?_, ?_, ?_, ?_, ?_, ?_, ?_, ?_⟩ <;>
    first | (simp; done) | ((try dsimp only); (repeat' split) <;> first | (simp; done) | (simp_all; done) | grind)

@[simp] theorem stopShowEffect_frame (showNo : Nat) (s : State) :
    (stopShowEffect showNo s).2.start = s.start ∧ (stopShowEffect showNo s).2.time = s.time ∧
      (stopShowEffect showNo s).2.backup = s.backup ∧ (stopShowEffect showNo s).2.cal = s.cal ∧
      (stopShowEffect showNo s).2.flash = s.flash ∧ (stopShowEffect showNo s).2.out = s.out ∧
      (stopShowEffect showNo s).2.drivers = s.drivers ∧ (stopShowEffect showNo s).2.mon = s.mon ∧
      (stopShowEffect showNo s).2.safety = s.safety ∧ (stopShowEffect showNo s).2.inputs = s.inputs ∧
      (stopShowEffect showNo s).2.line = s.line ∧ (stopShowEffect showNo s).2.counters = s.counters ∧
      (stopShowEffect showNo s).2.pending = s.pending := by
  unfold stopShowEffect
  refine ⟨?_, ?_, ?_, ?_, ?_, ?_, ?_, ?_, ?_, ?_, ?_, ?_, ?_⟩ <;>
    first | (simp; done) | ((try dsimp only); (repeat' split) <;> first | (simp; done) | (simp_all; done) | grind)

@[simp] theorem noteHeard_frame (q : Request) (s : State) :
    (noteHeard q s).start = s.start ∧ (noteHeard q s).time = s.time ∧ (noteHeard q s).backup = s.backup ∧
      (noteHeard q s).cal = s.cal ∧ (noteHeard q s).flash = s.flash ∧ (noteHeard q s).lib = s.lib ∧
      (noteHeard q s).mixer = s.mixer ∧ (noteHeard q s).out = s.out ∧ (noteHeard q s).drivers = s.drivers ∧
      (noteHeard q s).mon = s.mon ∧ (noteHeard q s).safety = s.safety ∧ (noteHeard q s).inputs = s.inputs ∧
      (noteHeard q s).line = s.line ∧ (noteHeard q s).counters = s.counters ∧ (noteHeard q s).pending = s.pending := by
  unfold noteHeard
  refine ⟨?_, ?_, ?_, ?_, ?_, ?_, ?_, ?_, ?_, ?_, ?_, ?_, ?_, ?_, ?_⟩ <;>
    first | (simp; done) | ((try dsimp only); (repeat' split) <;> first | (simp; done) | (simp_all; done) | grind)

@[simp] theorem announcerRules_frame (sender : Nat) (q : Request) (s : State) :
    (announcerRules sender q s).start = s.start ∧ (announcerRules sender q s).time = s.time ∧
      (announcerRules sender q s).backup = s.backup ∧ (announcerRules sender q s).cal = s.cal ∧
      (announcerRules sender q s).flash = s.flash ∧ (announcerRules sender q s).lib = s.lib ∧
      (announcerRules sender q s).mixer = s.mixer ∧ (announcerRules sender q s).out = s.out ∧
      (announcerRules sender q s).drivers = s.drivers ∧ (announcerRules sender q s).mon = s.mon ∧
      (announcerRules sender q s).safety = s.safety ∧ (announcerRules sender q s).inputs = s.inputs ∧
      (announcerRules sender q s).pending = s.pending := by
  unfold announcerRules
  refine ⟨?_, ?_, ?_, ?_, ?_, ?_, ?_, ?_, ?_, ?_, ?_, ?_, ?_⟩ <;>
    first | (simp; done) | ((try dsimp only); (repeat' split) <;> first | (simp; done) | (simp_all; done) | grind)

@[simp] theorem takeAnnouncement_frame (sender : LineNumber) (a : Announcement) (s : State) :
    (takeAnnouncement sender a s).start = s.start ∧ (takeAnnouncement sender a s).time = s.time ∧
      (takeAnnouncement sender a s).backup = s.backup ∧ (takeAnnouncement sender a s).cal = s.cal ∧
      (takeAnnouncement sender a s).flash = s.flash ∧ (takeAnnouncement sender a s).out = s.out ∧
      (takeAnnouncement sender a s).drivers = s.drivers ∧ (takeAnnouncement sender a s).mon = s.mon ∧
      (takeAnnouncement sender a s).safety = s.safety ∧ (takeAnnouncement sender a s).inputs = s.inputs ∧
      (takeAnnouncement sender a s).pending = s.pending := by
  unfold takeAnnouncement
  refine ⟨?_, ?_, ?_, ?_, ?_, ?_, ?_, ?_, ?_, ?_, ?_⟩ <;>
    first | (simp; done) | ((try dsimp only); (repeat' split) <;> first | (simp; done) | (simp_all; done) | grind)

@[simp] theorem takeAnnounceStop_frame (a : Announcement) (s : State) :
    (takeAnnounceStop a s).start = s.start ∧ (takeAnnounceStop a s).time = s.time ∧ (takeAnnounceStop a s).backup = s.backup ∧
      (takeAnnounceStop a s).cal = s.cal ∧ (takeAnnounceStop a s).flash = s.flash ∧ (takeAnnounceStop a s).out = s.out ∧
      (takeAnnounceStop a s).drivers = s.drivers ∧ (takeAnnounceStop a s).mon = s.mon ∧
      (takeAnnounceStop a s).safety = s.safety ∧ (takeAnnounceStop a s).inputs = s.inputs ∧
      (takeAnnounceStop a s).line = s.line ∧ (takeAnnounceStop a s).counters = s.counters ∧
      (takeAnnounceStop a s).pending = s.pending := by
  unfold takeAnnounceStop
  refine ⟨?_, ?_, ?_, ?_, ?_, ?_, ?_, ?_, ?_, ?_, ?_, ?_, ?_⟩ <;>
    first | (simp; done) | ((try dsimp only); (repeat' split) <;> first | (simp; done) | (simp_all; done) | grind)

@[simp] theorem takeMarkFrame_frame (showNo : Nat) (tag : Nat) (number : Nat) (release : Nat) (s : State) :
    (takeMarkFrame showNo tag number release s).start = s.start ∧ (takeMarkFrame showNo tag number release s).time = s.time ∧
      (takeMarkFrame showNo tag number release s).backup = s.backup ∧
      (takeMarkFrame showNo tag number release s).cal = s.cal ∧ (takeMarkFrame showNo tag number release s).flash = s.flash ∧
      (takeMarkFrame showNo tag number release s).lib = s.lib ∧ (takeMarkFrame showNo tag number release s).out = s.out ∧
      (takeMarkFrame showNo tag number release s).drivers = s.drivers ∧
      (takeMarkFrame showNo tag number release s).mon = s.mon ∧
      (takeMarkFrame showNo tag number release s).safety = s.safety ∧
      (takeMarkFrame showNo tag number release s).inputs = s.inputs ∧
      (takeMarkFrame showNo tag number release s).line = s.line ∧
      (takeMarkFrame showNo tag number release s).pending = s.pending := by
  unfold takeMarkFrame
  refine ⟨?_, ?_, ?_, ?_, ?_, ?_, ?_, ?_, ?_, ?_, ?_, ?_, ?_⟩ <;>
    first | (simp; done) | ((try dsimp only); (repeat' split) <;> first | (simp; done) | (simp_all; done) | grind)

@[simp] theorem takeFlush_frame (s : State) :
    (takeFlush s).start = s.start ∧ (takeFlush s).time = s.time ∧ (takeFlush s).backup = s.backup ∧
      (takeFlush s).cal = s.cal ∧ (takeFlush s).flash = s.flash ∧ (takeFlush s).lib = s.lib ∧ (takeFlush s).rows = s.rows ∧
      (takeFlush s).drivers = s.drivers ∧ (takeFlush s).mon = s.mon ∧ (takeFlush s).safety = s.safety ∧
      (takeFlush s).inputs = s.inputs ∧ (takeFlush s).line = s.line ∧ (takeFlush s).pending = s.pending := by
  unfold takeFlush
  refine ⟨?_, ?_, ?_, ?_, ?_, ?_, ?_, ?_, ?_, ?_, ?_, ?_, ?_⟩ <;>
    first | (simp; done) | ((try dsimp only); (repeat' split) <;> first | (simp; done) | (simp_all; done) | grind)

@[simp] theorem beginRender_frame (s : State) :
    (beginRender s).start = s.start ∧ (beginRender s).time = s.time ∧ (beginRender s).backup = s.backup ∧
      (beginRender s).cal = s.cal ∧ (beginRender s).flash = s.flash ∧ (beginRender s).lib = s.lib ∧
      (beginRender s).out = s.out ∧ (beginRender s).drivers = s.drivers ∧ (beginRender s).mon = s.mon ∧
      (beginRender s).safety = s.safety ∧ (beginRender s).inputs = s.inputs ∧ (beginRender s).line = s.line ∧
      (beginRender s).counters = s.counters ∧ (beginRender s).pending = s.pending := by
  unfold beginRender
  refine ⟨?_, ?_, ?_, ?_, ?_, ?_, ?_, ?_, ?_, ?_, ?_, ?_, ?_, ?_⟩ <;>
    first | (simp; done) | ((try dsimp only); (repeat' split) <;> first | (simp; done) | (simp_all; done) | grind)

@[simp] theorem completeRender_frame (r : Render) (s : State) :
    (completeRender r s).start = s.start ∧ (completeRender r s).time = s.time ∧ (completeRender r s).backup = s.backup ∧
      (completeRender r s).cal = s.cal ∧ (completeRender r s).flash = s.flash ∧ (completeRender r s).lib = s.lib ∧
      (completeRender r s).rows = s.rows ∧ (completeRender r s).drivers = s.drivers ∧ (completeRender r s).mon = s.mon ∧
      (completeRender r s).safety = s.safety ∧ (completeRender r s).inputs = s.inputs ∧ (completeRender r s).line = s.line ∧
      (completeRender r s).pending = s.pending := by
  unfold completeRender
  refine ⟨?_, ?_, ?_, ?_, ?_, ?_, ?_, ?_, ?_, ?_, ?_, ?_, ?_⟩ <;>
    first | (simp; done) | ((try dsimp only); (repeat' split) <;> first | (simp; done) | (simp_all; done) | grind)

@[simp] theorem detect_frame (c : SenseClass) (s : State) :
    (detect c s).start = s.start ∧ (detect c s).time = s.time ∧ (detect c s).backup = s.backup ∧ (detect c s).cal = s.cal ∧
      (detect c s).flash = s.flash ∧ (detect c s).lib = s.lib ∧ (detect c s).rows = s.rows ∧ (detect c s).mixer = s.mixer ∧
      (detect c s).out = s.out ∧ (detect c s).drivers = s.drivers ∧ (detect c s).safety = s.safety ∧
      (detect c s).inputs = s.inputs ∧ (detect c s).line = s.line ∧ (detect c s).pending = s.pending := by
  unfold detect
  refine ⟨?_, ?_, ?_, ?_, ?_, ?_, ?_, ?_, ?_, ?_, ?_, ?_, ?_, ?_⟩ <;>
    first | (simp; done) | ((try dsimp only); (repeat' split) <;> first | (simp; done) | (simp_all; done) | grind)

@[simp] theorem remove_frame (c : SenseClass) (s : State) :
    (remove c s).start = s.start ∧ (remove c s).time = s.time ∧ (remove c s).backup = s.backup ∧ (remove c s).cal = s.cal ∧
      (remove c s).flash = s.flash ∧ (remove c s).lib = s.lib ∧ (remove c s).rows = s.rows ∧ (remove c s).mixer = s.mixer ∧
      (remove c s).out = s.out ∧ (remove c s).drivers = s.drivers ∧ (remove c s).safety = s.safety ∧
      (remove c s).inputs = s.inputs ∧ (remove c s).line = s.line ∧ (remove c s).counters = s.counters ∧
      (remove c s).pending = s.pending := by
  unfold remove
  refine ⟨?_, ?_, ?_, ?_, ?_, ?_, ?_, ?_, ?_, ?_, ?_, ?_, ?_, ?_, ?_⟩ <;>
    first | (simp; done) | ((try dsimp only); (repeat' split) <;> first | (simp; done) | (simp_all; done) | grind)

@[simp] theorem deglitch_frame (c : SenseClass) (s : State) :
    (deglitch c s).start = s.start ∧ (deglitch c s).time = s.time ∧ (deglitch c s).backup = s.backup ∧
      (deglitch c s).cal = s.cal ∧ (deglitch c s).flash = s.flash ∧ (deglitch c s).lib = s.lib ∧
      (deglitch c s).rows = s.rows ∧ (deglitch c s).mixer = s.mixer ∧ (deglitch c s).out = s.out ∧
      (deglitch c s).drivers = s.drivers ∧ (deglitch c s).safety = s.safety ∧ (deglitch c s).inputs = s.inputs ∧
      (deglitch c s).line = s.line ∧ (deglitch c s).pending = s.pending := by
  unfold deglitch
  refine ⟨?_, ?_, ?_, ?_, ?_, ?_, ?_, ?_, ?_, ?_, ?_, ?_, ?_, ?_⟩ <;>
    first | (simp; done) | ((try dsimp only); (repeat' split) <;> first | (simp; done) | (simp_all; done) | grind)

@[simp] theorem retryExpire_frame (l : Fin 4) (c : LinkClass) (s : State) :
    (retryExpire l c s).start = s.start ∧ (retryExpire l c s).time = s.time ∧ (retryExpire l c s).backup = s.backup ∧
      (retryExpire l c s).cal = s.cal ∧ (retryExpire l c s).flash = s.flash ∧ (retryExpire l c s).lib = s.lib ∧
      (retryExpire l c s).rows = s.rows ∧ (retryExpire l c s).mixer = s.mixer ∧ (retryExpire l c s).out = s.out ∧
      (retryExpire l c s).drivers = s.drivers ∧ (retryExpire l c s).safety = s.safety ∧
      (retryExpire l c s).inputs = s.inputs ∧ (retryExpire l c s).line = s.line ∧ (retryExpire l c s).pending = s.pending := by
  unfold retryExpire
  refine ⟨?_, ?_, ?_, ?_, ?_, ?_, ?_, ?_, ?_, ?_, ?_, ?_, ?_, ?_⟩ <;>
    first | (simp; done) | ((try dsimp only); (repeat' split) <;> first | (simp; done) | (simp_all; done) | grind)

@[simp] theorem clearSenses_frame (s : State) :
    (clearSenses s).start = s.start ∧ (clearSenses s).time = s.time ∧ (clearSenses s).backup = s.backup ∧
      (clearSenses s).cal = s.cal ∧ (clearSenses s).flash = s.flash ∧ (clearSenses s).lib = s.lib ∧
      (clearSenses s).rows = s.rows ∧ (clearSenses s).mixer = s.mixer ∧ (clearSenses s).out = s.out ∧
      (clearSenses s).drivers = s.drivers ∧ (clearSenses s).safety = s.safety ∧ (clearSenses s).inputs = s.inputs ∧
      (clearSenses s).line = s.line ∧ (clearSenses s).counters = s.counters ∧ (clearSenses s).pending = s.pending := by
  unfold clearSenses
  refine ⟨?_, ?_, ?_, ?_, ?_, ?_, ?_, ?_, ?_, ?_, ?_, ?_, ?_, ?_, ?_⟩ <;>
    first | (simp; done) | ((try dsimp only); (repeat' split) <;> first | (simp; done) | (simp_all; done) | grind)

@[simp] theorem clearFaults_frame (s : State) :
    (clearFaults s).start = s.start ∧ (clearFaults s).time = s.time ∧ (clearFaults s).backup = s.backup ∧
      (clearFaults s).cal = s.cal ∧ (clearFaults s).flash = s.flash ∧ (clearFaults s).lib = s.lib ∧
      (clearFaults s).rows = s.rows ∧ (clearFaults s).mixer = s.mixer ∧ (clearFaults s).drivers = s.drivers ∧
      (clearFaults s).safety = s.safety ∧ (clearFaults s).inputs = s.inputs ∧ (clearFaults s).line = s.line ∧
      (clearFaults s).pending = s.pending := by
  unfold clearFaults
  refine ⟨?_, ?_, ?_, ?_, ?_, ?_, ?_, ?_, ?_, ?_, ?_, ?_, ?_⟩ <;>
    first | (simp; done) | ((try dsimp only); (repeat' split) <;> first | (simp; done) | (simp_all; done) | grind)

@[simp] theorem discardStale_frame (n : Nat) (s : State) :
    (discardStale n s).start = s.start ∧ (discardStale n s).time = s.time ∧ (discardStale n s).backup = s.backup ∧
      (discardStale n s).cal = s.cal ∧ (discardStale n s).flash = s.flash ∧ (discardStale n s).lib = s.lib ∧
      (discardStale n s).rows = s.rows ∧ (discardStale n s).mixer = s.mixer ∧ (discardStale n s).drivers = s.drivers ∧
      (discardStale n s).mon = s.mon ∧ (discardStale n s).safety = s.safety ∧ (discardStale n s).inputs = s.inputs ∧
      (discardStale n s).line = s.line ∧ (discardStale n s).pending = s.pending := by
  unfold discardStale
  refine ⟨?_, ?_, ?_, ?_, ?_, ?_, ?_, ?_, ?_, ?_, ?_, ?_, ?_, ?_⟩ <;>
    first | (simp; done) | ((try dsimp only); (repeat' split) <;> first | (simp; done) | (simp_all; done) | grind)

@[simp] theorem dequeue_frame (n : Nat) (s : State) :
    (dequeue n s).start = s.start ∧ (dequeue n s).time = s.time ∧ (dequeue n s).backup = s.backup ∧
      (dequeue n s).cal = s.cal ∧ (dequeue n s).flash = s.flash ∧ (dequeue n s).lib = s.lib ∧ (dequeue n s).rows = s.rows ∧
      (dequeue n s).mixer = s.mixer ∧ (dequeue n s).drivers = s.drivers ∧ (dequeue n s).mon = s.mon ∧
      (dequeue n s).safety = s.safety ∧ (dequeue n s).inputs = s.inputs ∧ (dequeue n s).line = s.line ∧
      (dequeue n s).pending = s.pending := by
  unfold dequeue
  refine ⟨?_, ?_, ?_, ?_, ?_, ?_, ?_, ?_, ?_, ?_, ?_, ?_, ?_, ?_⟩ <;>
    first | (simp; done) | ((try dsimp only); (repeat' split) <;> first | (simp; done) | (simp_all; done) | grind)

@[simp] theorem outputBoundary_frame (n : Nat) (s : State) :
    (outputBoundary n s).start = s.start ∧ (outputBoundary n s).time = s.time ∧ (outputBoundary n s).backup = s.backup ∧
      (outputBoundary n s).cal = s.cal ∧ (outputBoundary n s).flash = s.flash ∧ (outputBoundary n s).lib = s.lib ∧
      (outputBoundary n s).rows = s.rows ∧ (outputBoundary n s).mixer = s.mixer ∧ (outputBoundary n s).safety = s.safety ∧
      (outputBoundary n s).inputs = s.inputs ∧ (outputBoundary n s).line = s.line ∧ (outputBoundary n s).pending = s.pending := by
  unfold outputBoundary
  refine ⟨?_, ?_, ?_, ?_, ?_, ?_, ?_, ?_, ?_, ?_, ?_, ?_⟩ <;>
    first | (simp; done) | ((try dsimp only); (repeat' split) <;> first | (simp; done) | (simp_all; done) | grind)

@[simp] theorem refreshExpire_frame (s : State) :
    (refreshExpire s).start = s.start ∧ (refreshExpire s).time = s.time ∧ (refreshExpire s).backup = s.backup ∧
      (refreshExpire s).cal = s.cal ∧ (refreshExpire s).flash = s.flash ∧ (refreshExpire s).lib = s.lib ∧
      (refreshExpire s).rows = s.rows ∧ (refreshExpire s).mixer = s.mixer ∧ (refreshExpire s).out = s.out ∧
      (refreshExpire s).safety = s.safety ∧ (refreshExpire s).inputs = s.inputs ∧ (refreshExpire s).line = s.line ∧
      (refreshExpire s).pending = s.pending := by
  unfold refreshExpire
  refine ⟨?_, ?_, ?_, ?_, ?_, ?_, ?_, ?_, ?_, ?_, ?_, ?_, ?_⟩ <;>
    first | (simp; done) | ((try dsimp only); (repeat' split) <;> first | (simp; done) | (simp_all; done) | grind)

@[simp] theorem selectWindows_frame (s : State) :
    (selectWindows s).start = s.start ∧ (selectWindows s).time = s.time ∧ (selectWindows s).backup = s.backup ∧
      (selectWindows s).flash = s.flash ∧ (selectWindows s).lib = s.lib ∧ (selectWindows s).rows = s.rows ∧
      (selectWindows s).out = s.out ∧ (selectWindows s).drivers = s.drivers ∧ (selectWindows s).mon = s.mon ∧
      (selectWindows s).safety = s.safety ∧ (selectWindows s).inputs = s.inputs ∧ (selectWindows s).line = s.line ∧
      (selectWindows s).counters = s.counters ∧ (selectWindows s).pending = s.pending := by
  unfold selectWindows
  refine ⟨?_, ?_, ?_, ?_, ?_, ?_, ?_, ?_, ?_, ?_, ?_, ?_, ?_, ?_⟩ <;>
    first | (simp; done) | ((try dsimp only); (repeat' split) <;> first | (simp; done) | (simp_all; done) | grind)

@[simp] theorem recomputeAll_frame (s : State) :
    (recomputeAll s).start = s.start ∧ (recomputeAll s).time = s.time ∧ (recomputeAll s).backup = s.backup ∧
      (recomputeAll s).flash = s.flash ∧ (recomputeAll s).lib = s.lib ∧ (recomputeAll s).rows = s.rows ∧
      (recomputeAll s).out = s.out ∧ (recomputeAll s).drivers = s.drivers ∧ (recomputeAll s).mon = s.mon ∧
      (recomputeAll s).safety = s.safety ∧ (recomputeAll s).inputs = s.inputs ∧ (recomputeAll s).line = s.line ∧
      (recomputeAll s).counters = s.counters ∧ (recomputeAll s).pending = s.pending := by
  unfold recomputeAll
  refine ⟨?_, ?_, ?_, ?_, ?_, ?_, ?_, ?_, ?_, ?_, ?_, ?_, ?_, ?_⟩ <;>
    first | (simp; done) | ((try dsimp only); (repeat' split) <;> first | (simp; done) | (simp_all; done) | grind)

@[simp] theorem setTimeValid_frame (v : Bool) (s : State) :
    (setTimeValid v s).start = s.start ∧ (setTimeValid v s).flash = s.flash ∧ (setTimeValid v s).lib = s.lib ∧
      (setTimeValid v s).rows = s.rows ∧ (setTimeValid v s).out = s.out ∧ (setTimeValid v s).drivers = s.drivers ∧
      (setTimeValid v s).mon = s.mon ∧ (setTimeValid v s).safety = s.safety ∧ (setTimeValid v s).inputs = s.inputs ∧
      (setTimeValid v s).line = s.line ∧ (setTimeValid v s).counters = s.counters ∧ (setTimeValid v s).pending = s.pending := by
  unfold setTimeValid
  refine ⟨?_, ?_, ?_, ?_, ?_, ?_, ?_, ?_, ?_, ?_, ?_, ?_⟩ <;>
    first | (simp; done) | ((try dsimp only); (repeat' split) <;> first | (simp; done) | (simp_all; done) | grind)

@[simp] theorem fire_frame (c : Counter) (t : Nat) (e : Entry) (s : State) :
    (fire c t e s).start = s.start ∧ (fire c t e s).time = s.time ∧ (fire c t e s).backup = s.backup ∧
      (fire c t e s).cal = s.cal ∧ (fire c t e s).flash = s.flash ∧ (fire c t e s).out = s.out ∧
      (fire c t e s).drivers = s.drivers ∧ (fire c t e s).mon = s.mon ∧ (fire c t e s).safety = s.safety ∧
      (fire c t e s).inputs = s.inputs ∧ (fire c t e s).pending = s.pending := by
  unfold fire
  refine ⟨?_, ?_, ?_, ?_, ?_, ?_, ?_, ?_, ?_, ?_, ?_⟩ <;>
    first | (simp; done) | ((try dsimp only); (repeat' split) <;> first | (simp; done) | (simp_all; done) | grind)

@[simp] theorem windowsAt_frame (t : Nat) (due : List Nat) (s : State) :
    (windowsAt t due s).start = s.start ∧ (windowsAt t due s).time = s.time ∧ (windowsAt t due s).backup = s.backup ∧
      (windowsAt t due s).flash = s.flash ∧ (windowsAt t due s).lib = s.lib ∧ (windowsAt t due s).rows = s.rows ∧
      (windowsAt t due s).out = s.out ∧ (windowsAt t due s).drivers = s.drivers ∧ (windowsAt t due s).mon = s.mon ∧
      (windowsAt t due s).safety = s.safety ∧ (windowsAt t due s).inputs = s.inputs ∧ (windowsAt t due s).line = s.line ∧
      (windowsAt t due s).counters = s.counters ∧ (windowsAt t due s).pending = s.pending := by
  unfold windowsAt
  refine ⟨?_, ?_, ?_, ?_, ?_, ?_, ?_, ?_, ?_, ?_, ?_, ?_, ?_, ?_⟩ <;>
    first | (simp; done) | ((try dsimp only); (repeat' split) <;> first | (simp; done) | (simp_all; done) | grind)

@[simp] theorem showsAt_frame (t : Nat) (due : List Entry) (s : State) :
    (showsAt t due s).start = s.start ∧ (showsAt t due s).time = s.time ∧ (showsAt t due s).backup = s.backup ∧
      (showsAt t due s).flash = s.flash ∧ (showsAt t due s).out = s.out ∧ (showsAt t due s).drivers = s.drivers ∧
      (showsAt t due s).mon = s.mon ∧ (showsAt t due s).safety = s.safety ∧ (showsAt t due s).inputs = s.inputs ∧
      (showsAt t due s).pending = s.pending := by
  unfold showsAt
  refine ⟨?_, ?_, ?_, ?_, ?_, ?_, ?_, ?_, ?_, ?_⟩ <;>
    first | (simp; done) | ((try dsimp only); (repeat' split) <;> first | (simp; done) | (simp_all; done) | grind)

@[simp] theorem calendarSecond_frame (t : Nat) (due : List Entry) (s : State) :
    (calendarSecond t due s).start = s.start ∧ (calendarSecond t due s).time = s.time ∧
      (calendarSecond t due s).backup = s.backup ∧ (calendarSecond t due s).flash = s.flash ∧
      (calendarSecond t due s).out = s.out ∧ (calendarSecond t due s).drivers = s.drivers ∧
      (calendarSecond t due s).mon = s.mon ∧ (calendarSecond t due s).safety = s.safety ∧
      (calendarSecond t due s).inputs = s.inputs ∧ (calendarSecond t due s).pending = s.pending := by
  unfold calendarSecond
  refine ⟨?_, ?_, ?_, ?_, ?_, ?_, ?_, ?_, ?_, ?_⟩ <;>
    first | (simp; done) | ((try dsimp only); (repeat' split) <;> first | (simp; done) | (simp_all; done) | grind)

@[simp] theorem judgeSkipped_frame (s : State) (f : Nat × Entry) :
    (judgeSkipped s f).start = s.start ∧ (judgeSkipped s f).time = s.time ∧ (judgeSkipped s f).backup = s.backup ∧
      (judgeSkipped s f).cal = s.cal ∧ (judgeSkipped s f).flash = s.flash ∧ (judgeSkipped s f).out = s.out ∧
      (judgeSkipped s f).drivers = s.drivers ∧ (judgeSkipped s f).mon = s.mon ∧ (judgeSkipped s f).safety = s.safety ∧
      (judgeSkipped s f).inputs = s.inputs ∧ (judgeSkipped s f).pending = s.pending := by
  unfold judgeSkipped
  refine ⟨?_, ?_, ?_, ?_, ?_, ?_, ?_, ?_, ?_, ?_, ?_⟩ <;>
    first | (simp; done) | ((try dsimp only); (repeat' split) <;> first | (simp; done) | (simp_all; done) | grind)

@[simp] theorem calendarNotice_frame (kind : NoticeKind) (before : Nat) (s : State) :
    (calendarNotice kind before s).start = s.start ∧ (calendarNotice kind before s).time = s.time ∧
      (calendarNotice kind before s).backup = s.backup ∧ (calendarNotice kind before s).flash = s.flash ∧
      (calendarNotice kind before s).out = s.out ∧ (calendarNotice kind before s).drivers = s.drivers ∧
      (calendarNotice kind before s).mon = s.mon ∧ (calendarNotice kind before s).safety = s.safety ∧
      (calendarNotice kind before s).inputs = s.inputs ∧ (calendarNotice kind before s).pending = s.pending := by
  unfold calendarNotice
  refine ⟨?_, ?_, ?_, ?_, ?_, ?_, ?_, ?_, ?_, ?_⟩ <;>
    first | (simp; done) | ((try dsimp only); (repeat' split) <;> first | (simp; done) | (simp_all; done) | grind)

@[simp] theorem noteAccepted_frame (s : State) :
    (noteAccepted s).time = s.time ∧ (noteAccepted s).cal = s.cal ∧ (noteAccepted s).flash = s.flash ∧
      (noteAccepted s).lib = s.lib ∧ (noteAccepted s).rows = s.rows ∧ (noteAccepted s).mixer = s.mixer ∧
      (noteAccepted s).out = s.out ∧ (noteAccepted s).drivers = s.drivers ∧ (noteAccepted s).mon = s.mon ∧
      (noteAccepted s).safety = s.safety ∧ (noteAccepted s).inputs = s.inputs ∧ (noteAccepted s).line = s.line ∧
      (noteAccepted s).counters = s.counters ∧ (noteAccepted s).pending = s.pending := by
  unfold noteAccepted
  refine ⟨?_, ?_, ?_, ?_, ?_, ?_, ?_, ?_, ?_, ?_, ?_, ?_, ?_, ?_⟩ <;>
    first | (simp; done) | ((try dsimp only); (repeat' split) <;> first | (simp; done) | (simp_all; done) | grind)

@[simp] theorem settleSchedule_frame (v : Verdict) (s : State) :
    (settleSchedule v s).time = s.time ∧ (settleSchedule v s).cal = s.cal ∧ (settleSchedule v s).flash = s.flash ∧
      (settleSchedule v s).lib = s.lib ∧ (settleSchedule v s).rows = s.rows ∧ (settleSchedule v s).mixer = s.mixer ∧
      (settleSchedule v s).out = s.out ∧ (settleSchedule v s).drivers = s.drivers ∧ (settleSchedule v s).mon = s.mon ∧
      (settleSchedule v s).safety = s.safety ∧ (settleSchedule v s).inputs = s.inputs ∧ (settleSchedule v s).line = s.line ∧
      (settleSchedule v s).pending = s.pending := by
  unfold settleSchedule
  refine ⟨?_, ?_, ?_, ?_, ?_, ?_, ?_, ?_, ?_, ?_, ?_, ?_, ?_⟩ <;>
    first | (simp; done) | ((try dsimp only); (repeat' split) <;> first | (simp; done) | (simp_all; done) | grind)

@[simp] theorem entryWrite_frame (f : EntryImage) (s : State) :
    (entryWrite f s).2.start = s.start ∧ (entryWrite f s).2.time = s.time ∧ (entryWrite f s).2.backup = s.backup ∧
      (entryWrite f s).2.flash = s.flash ∧ (entryWrite f s).2.lib = s.lib ∧ (entryWrite f s).2.rows = s.rows ∧
      (entryWrite f s).2.out = s.out ∧ (entryWrite f s).2.drivers = s.drivers ∧ (entryWrite f s).2.mon = s.mon ∧
      (entryWrite f s).2.safety = s.safety ∧ (entryWrite f s).2.inputs = s.inputs ∧ (entryWrite f s).2.line = s.line ∧
      (entryWrite f s).2.counters = s.counters ∧ (entryWrite f s).2.pending = s.pending := by
  unfold entryWrite
  refine ⟨?_, ?_, ?_, ?_, ?_, ?_, ?_, ?_, ?_, ?_, ?_, ?_, ?_, ?_⟩ <;>
    first | (simp; done) | ((try dsimp only); (repeat' split) <;> first | (simp; done) | (simp_all; done) | grind)

@[simp] theorem entryExtra_frame (f : ExtraImage) (s : State) :
    (entryExtra f s).2.start = s.start ∧ (entryExtra f s).2.time = s.time ∧ (entryExtra f s).2.backup = s.backup ∧
      (entryExtra f s).2.flash = s.flash ∧ (entryExtra f s).2.lib = s.lib ∧ (entryExtra f s).2.rows = s.rows ∧
      (entryExtra f s).2.out = s.out ∧ (entryExtra f s).2.drivers = s.drivers ∧ (entryExtra f s).2.mon = s.mon ∧
      (entryExtra f s).2.safety = s.safety ∧ (entryExtra f s).2.inputs = s.inputs ∧ (entryExtra f s).2.line = s.line ∧
      (entryExtra f s).2.counters = s.counters ∧ (entryExtra f s).2.pending = s.pending := by
  unfold entryExtra
  refine ⟨?_, ?_, ?_, ?_, ?_, ?_, ?_, ?_, ?_, ?_, ?_, ?_, ?_, ?_⟩ <;>
    first | (simp; done) | ((try dsimp only); (repeat' split) <;> first | (simp; done) | (simp_all; done) | grind)

@[simp] theorem entryDelete_frame (id : Nat) (s : State) :
    (entryDelete id s).2.start = s.start ∧ (entryDelete id s).2.time = s.time ∧ (entryDelete id s).2.backup = s.backup ∧
      (entryDelete id s).2.flash = s.flash ∧ (entryDelete id s).2.lib = s.lib ∧ (entryDelete id s).2.rows = s.rows ∧
      (entryDelete id s).2.out = s.out ∧ (entryDelete id s).2.drivers = s.drivers ∧ (entryDelete id s).2.mon = s.mon ∧
      (entryDelete id s).2.safety = s.safety ∧ (entryDelete id s).2.inputs = s.inputs ∧ (entryDelete id s).2.line = s.line ∧
      (entryDelete id s).2.counters = s.counters ∧ (entryDelete id s).2.pending = s.pending := by
  unfold entryDelete
  refine ⟨?_, ?_, ?_, ?_, ?_, ?_, ?_, ?_, ?_, ?_, ?_, ?_, ?_, ?_⟩ <;>
    first | (simp; done) | ((try dsimp only); (repeat' split) <;> first | (simp; done) | (simp_all; done) | grind)

@[simp] theorem duskBlock_frame (first : Nat) (values : Vector (BitVec 16) 8) (s : State) :
    (duskBlock first values s).2.start = s.start ∧ (duskBlock first values s).2.time = s.time ∧
      (duskBlock first values s).2.backup = s.backup ∧ (duskBlock first values s).2.flash = s.flash ∧
      (duskBlock first values s).2.lib = s.lib ∧ (duskBlock first values s).2.rows = s.rows ∧
      (duskBlock first values s).2.out = s.out ∧ (duskBlock first values s).2.drivers = s.drivers ∧
      (duskBlock first values s).2.mon = s.mon ∧ (duskBlock first values s).2.safety = s.safety ∧
      (duskBlock first values s).2.inputs = s.inputs ∧ (duskBlock first values s).2.line = s.line ∧
      (duskBlock first values s).2.counters = s.counters ∧ (duskBlock first values s).2.pending = s.pending := by
  unfold duskBlock
  refine ⟨?_, ?_, ?_, ?_, ?_, ?_, ?_, ?_, ?_, ?_, ?_, ?_, ?_, ?_⟩ <;>
    first | (simp; done) | ((try dsimp only); (repeat' split) <;> first | (simp; done) | (simp_all; done) | grind)

@[simp] theorem seasonWrite_frame (instant : Nat) (offset : Int) (s : State) :
    (seasonWrite instant offset s).2.start = s.start ∧ (seasonWrite instant offset s).2.time = s.time ∧
      (seasonWrite instant offset s).2.backup = s.backup ∧ (seasonWrite instant offset s).2.flash = s.flash ∧
      (seasonWrite instant offset s).2.lib = s.lib ∧ (seasonWrite instant offset s).2.rows = s.rows ∧
      (seasonWrite instant offset s).2.out = s.out ∧ (seasonWrite instant offset s).2.drivers = s.drivers ∧
      (seasonWrite instant offset s).2.mon = s.mon ∧ (seasonWrite instant offset s).2.safety = s.safety ∧
      (seasonWrite instant offset s).2.inputs = s.inputs ∧ (seasonWrite instant offset s).2.line = s.line ∧
      (seasonWrite instant offset s).2.counters = s.counters ∧ (seasonWrite instant offset s).2.pending = s.pending := by
  unfold seasonWrite
  refine ⟨?_, ?_, ?_, ?_, ?_, ?_, ?_, ?_, ?_, ?_, ?_, ?_, ?_, ?_⟩ <;>
    first | (simp; done) | ((try dsimp only); (repeat' split) <;> first | (simp; done) | (simp_all; done) | grind)

@[simp] theorem setHoldList_frame (list : List Nat) (s : State) :
    (setHoldList list s).start = s.start ∧ (setHoldList list s).time = s.time ∧ (setHoldList list s).backup = s.backup ∧
      (setHoldList list s).cal = s.cal ∧ (setHoldList list s).flash = s.flash ∧ (setHoldList list s).out = s.out ∧
      (setHoldList list s).drivers = s.drivers ∧ (setHoldList list s).mon = s.mon ∧ (setHoldList list s).inputs = s.inputs ∧
      (setHoldList list s).pending = s.pending := by
  unfold setHoldList
  refine ⟨?_, ?_, ?_, ?_, ?_, ?_, ?_, ?_, ?_, ?_⟩ <;>
    first | (simp; done) | ((try dsimp only); (repeat' split) <;> first | (simp; done) | (simp_all; done) | grind)

@[simp] theorem addHold_frame (n : Nat) (s : State) :
    (addHold n s).start = s.start ∧ (addHold n s).time = s.time ∧ (addHold n s).backup = s.backup ∧
      (addHold n s).cal = s.cal ∧ (addHold n s).flash = s.flash ∧ (addHold n s).out = s.out ∧
      (addHold n s).drivers = s.drivers ∧ (addHold n s).mon = s.mon ∧ (addHold n s).inputs = s.inputs ∧
      (addHold n s).pending = s.pending := by
  unfold addHold
  refine ⟨?_, ?_, ?_, ?_, ?_, ?_, ?_, ?_, ?_, ?_⟩ <;>
    first | (simp; done) | ((try dsimp only); (repeat' split) <;> first | (simp; done) | (simp_all; done) | grind)

@[simp] theorem removeHold_frame (n : Nat) (s : State) :
    (removeHold n s).start = s.start ∧ (removeHold n s).time = s.time ∧ (removeHold n s).backup = s.backup ∧
      (removeHold n s).cal = s.cal ∧ (removeHold n s).flash = s.flash ∧ (removeHold n s).out = s.out ∧
      (removeHold n s).drivers = s.drivers ∧ (removeHold n s).mon = s.mon ∧ (removeHold n s).inputs = s.inputs ∧
      (removeHold n s).pending = s.pending := by
  unfold removeHold
  refine ⟨?_, ?_, ?_, ?_, ?_, ?_, ?_, ?_, ?_, ?_⟩ <;>
    first | (simp; done) | ((try dsimp only); (repeat' split) <;> first | (simp; done) | (simp_all; done) | grind)

@[simp] theorem sendSafety_frame (sub : Nat) (s : State) :
    (sendSafety sub s).start = s.start ∧ (sendSafety sub s).time = s.time ∧ (sendSafety sub s).backup = s.backup ∧
      (sendSafety sub s).cal = s.cal ∧ (sendSafety sub s).flash = s.flash ∧ (sendSafety sub s).lib = s.lib ∧
      (sendSafety sub s).rows = s.rows ∧ (sendSafety sub s).mixer = s.mixer ∧ (sendSafety sub s).out = s.out ∧
      (sendSafety sub s).drivers = s.drivers ∧ (sendSafety sub s).mon = s.mon ∧ (sendSafety sub s).safety = s.safety ∧
      (sendSafety sub s).inputs = s.inputs ∧ (sendSafety sub s).pending = s.pending := by
  unfold sendSafety
  refine ⟨?_, ?_, ?_, ?_, ?_, ?_, ?_, ?_, ?_, ?_, ?_, ?_, ?_, ?_⟩ <;>
    first | (simp; done) | ((try dsimp only); (repeat' split) <;> first | (simp; done) | (simp_all; done) | grind)

@[simp] theorem sendSet_frame (s : State) :
    (sendSet s).start = s.start ∧ (sendSet s).time = s.time ∧ (sendSet s).backup = s.backup ∧ (sendSet s).cal = s.cal ∧
      (sendSet s).flash = s.flash ∧ (sendSet s).lib = s.lib ∧ (sendSet s).rows = s.rows ∧ (sendSet s).mixer = s.mixer ∧
      (sendSet s).out = s.out ∧ (sendSet s).drivers = s.drivers ∧ (sendSet s).mon = s.mon ∧ (sendSet s).inputs = s.inputs ∧
      (sendSet s).pending = s.pending := by
  unfold sendSet
  refine ⟨?_, ?_, ?_, ?_, ?_, ?_, ?_, ?_, ?_, ?_, ?_, ?_, ?_⟩ <;>
    first | (simp; done) | ((try dsimp only); (repeat' split) <;> first | (simp; done) | (simp_all; done) | grind)

@[simp] theorem beginOwnHold_frame (s : State) :
    (beginOwnHold s).start = s.start ∧ (beginOwnHold s).time = s.time ∧ (beginOwnHold s).backup = s.backup ∧
      (beginOwnHold s).cal = s.cal ∧ (beginOwnHold s).flash = s.flash ∧ (beginOwnHold s).out = s.out ∧
      (beginOwnHold s).drivers = s.drivers ∧ (beginOwnHold s).mon = s.mon ∧ (beginOwnHold s).inputs = s.inputs ∧
      (beginOwnHold s).pending = s.pending := by
  unfold beginOwnHold
  refine ⟨?_, ?_, ?_, ?_, ?_, ?_, ?_, ?_, ?_, ?_⟩ <;>
    first | (simp; done) | ((try dsimp only); (repeat' split) <;> first | (simp; done) | (simp_all; done) | grind)

@[simp] theorem endOwnHold_frame (s : State) :
    (endOwnHold s).start = s.start ∧ (endOwnHold s).time = s.time ∧ (endOwnHold s).backup = s.backup ∧
      (endOwnHold s).cal = s.cal ∧ (endOwnHold s).flash = s.flash ∧ (endOwnHold s).out = s.out ∧
      (endOwnHold s).drivers = s.drivers ∧ (endOwnHold s).mon = s.mon ∧ (endOwnHold s).inputs = s.inputs ∧
      (endOwnHold s).pending = s.pending := by
  unfold endOwnHold
  refine ⟨?_, ?_, ?_, ?_, ?_, ?_, ?_, ?_, ?_, ?_⟩ <;>
    first | (simp; done) | ((try dsimp only); (repeat' split) <;> first | (simp; done) | (simp_all; done) | grind)

@[simp] theorem settleInactive_frame (s : State) :
    (settleInactive s).start = s.start ∧ (settleInactive s).time = s.time ∧ (settleInactive s).backup = s.backup ∧
      (settleInactive s).cal = s.cal ∧ (settleInactive s).flash = s.flash ∧ (settleInactive s).lib = s.lib ∧
      (settleInactive s).rows = s.rows ∧ (settleInactive s).mixer = s.mixer ∧ (settleInactive s).out = s.out ∧
      (settleInactive s).drivers = s.drivers ∧ (settleInactive s).mon = s.mon ∧ (settleInactive s).safety = s.safety ∧
      (settleInactive s).inputs = s.inputs ∧ (settleInactive s).pending = s.pending := by
  unfold settleInactive
  refine ⟨?_, ?_, ?_, ?_, ?_, ?_, ?_, ?_, ?_, ?_, ?_, ?_, ?_, ?_⟩ <;>
    first | (simp; done) | ((try dsimp only); (repeat' split) <;> first | (simp; done) | (simp_all; done) | grind)

@[simp] theorem raiseGo_frame (s : State) :
    (raiseGo s).start = s.start ∧ (raiseGo s).time = s.time ∧ (raiseGo s).backup = s.backup ∧ (raiseGo s).cal = s.cal ∧
      (raiseGo s).flash = s.flash ∧ (raiseGo s).lib = s.lib ∧ (raiseGo s).out = s.out ∧ (raiseGo s).drivers = s.drivers ∧
      (raiseGo s).mon = s.mon ∧ (raiseGo s).safety = s.safety ∧ (raiseGo s).inputs = s.inputs ∧
      (raiseGo s).pending = s.pending := by
  unfold raiseGo
  refine ⟨?_, ?_, ?_, ?_, ?_, ?_, ?_, ?_, ?_, ?_, ?_, ?_⟩ <;>
    first | (simp; done) | ((try dsimp only); (repeat' split) <;> first | (simp; done) | (simp_all; done) | grind)

@[simp] theorem raiseStopAll_frame (s : State) :
    (raiseStopAll s).start = s.start ∧ (raiseStopAll s).time = s.time ∧ (raiseStopAll s).backup = s.backup ∧
      (raiseStopAll s).cal = s.cal ∧ (raiseStopAll s).flash = s.flash ∧ (raiseStopAll s).out = s.out ∧
      (raiseStopAll s).drivers = s.drivers ∧ (raiseStopAll s).mon = s.mon ∧ (raiseStopAll s).safety = s.safety ∧
      (raiseStopAll s).inputs = s.inputs ∧ (raiseStopAll s).pending = s.pending := by
  unfold raiseStopAll
  refine ⟨?_, ?_, ?_, ?_, ?_, ?_, ?_, ?_, ?_, ?_, ?_⟩ <;>
    first | (simp; done) | ((try dsimp only); (repeat' split) <;> first | (simp; done) | (simp_all; done) | grind)

@[simp] theorem onSettle_frame (f : InputFunction) (active : Bool) (s : State) :
    (onSettle f active s).start = s.start ∧ (onSettle f active s).time = s.time ∧ (onSettle f active s).backup = s.backup ∧
      (onSettle f active s).cal = s.cal ∧ (onSettle f active s).flash = s.flash ∧ (onSettle f active s).out = s.out ∧
      (onSettle f active s).drivers = s.drivers ∧ (onSettle f active s).mon = s.mon ∧
      (onSettle f active s).inputs = s.inputs ∧ (onSettle f active s).pending = s.pending := by
  unfold onSettle
  refine ⟨?_, ?_, ?_, ?_, ?_, ?_, ?_, ?_, ?_, ?_⟩ <;>
    first | (simp; done) | ((try dsimp only); (repeat' split) <;> first | (simp; done) | (simp_all; done) | grind)

@[simp] theorem onActivation_frame (f : InputFunction) (s : State) :
    (onActivation f s).start = s.start ∧ (onActivation f s).time = s.time ∧ (onActivation f s).backup = s.backup ∧
      (onActivation f s).cal = s.cal ∧ (onActivation f s).flash = s.flash ∧ (onActivation f s).out = s.out ∧
      (onActivation f s).drivers = s.drivers ∧ (onActivation f s).mon = s.mon ∧ (onActivation f s).inputs = s.inputs ∧
      (onActivation f s).pending = s.pending := by
  unfold onActivation
  refine ⟨?_, ?_, ?_, ?_, ?_, ?_, ?_, ?_, ?_, ?_⟩ <;>
    first | (simp; done) | ((try dsimp only); (repeat' split) <;> first | (simp; done) | (simp_all; done) | grind)

@[simp] theorem onRelease_frame (f : InputFunction) (s : State) :
    (onRelease f s).start = s.start ∧ (onRelease f s).time = s.time ∧ (onRelease f s).backup = s.backup ∧
      (onRelease f s).cal = s.cal ∧ (onRelease f s).flash = s.flash ∧ (onRelease f s).out = s.out ∧
      (onRelease f s).drivers = s.drivers ∧ (onRelease f s).mon = s.mon ∧ (onRelease f s).inputs = s.inputs ∧
      (onRelease f s).pending = s.pending := by
  unfold onRelease
  refine ⟨?_, ?_, ?_, ?_, ?_, ?_, ?_, ?_, ?_, ?_⟩ <;>
    first | (simp; done) | ((try dsimp only); (repeat' split) <;> first | (simp; done) | (simp_all; done) | grind)

@[simp] theorem debounce_frame (i : Fin 8) (s : State) :
    (debounce i s).start = s.start ∧ (debounce i s).time = s.time ∧ (debounce i s).backup = s.backup ∧
      (debounce i s).cal = s.cal ∧ (debounce i s).flash = s.flash ∧ (debounce i s).out = s.out ∧
      (debounce i s).drivers = s.drivers ∧ (debounce i s).mon = s.mon ∧ (debounce i s).pending = s.pending := by
  unfold debounce
  refine ⟨?_, ?_, ?_, ?_, ?_, ?_, ?_, ?_, ?_⟩ <;>
    first | (simp; done) | ((try dsimp only); (repeat' split) <;> first | (simp; done) | (simp_all; done) | grind)

@[simp] theorem resendExpire_frame (s : State) :
    (resendExpire s).start = s.start ∧ (resendExpire s).time = s.time ∧ (resendExpire s).backup = s.backup ∧
      (resendExpire s).cal = s.cal ∧ (resendExpire s).flash = s.flash ∧ (resendExpire s).lib = s.lib ∧
      (resendExpire s).rows = s.rows ∧ (resendExpire s).mixer = s.mixer ∧ (resendExpire s).out = s.out ∧
      (resendExpire s).drivers = s.drivers ∧ (resendExpire s).mon = s.mon ∧ (resendExpire s).inputs = s.inputs ∧
      (resendExpire s).pending = s.pending := by
  unfold resendExpire
  refine ⟨?_, ?_, ?_, ?_, ?_, ?_, ?_, ?_, ?_, ?_, ?_, ?_, ?_⟩ <;>
    first | (simp; done) | ((try dsimp only); (repeat' split) <;> first | (simp; done) | (simp_all; done) | grind)

@[simp] theorem clearAll_frame (sender : LineNumber) (s : State) :
    (clearAll sender s).2.start = s.start ∧ (clearAll sender s).2.time = s.time ∧ (clearAll sender s).2.backup = s.backup ∧
      (clearAll sender s).2.cal = s.cal ∧ (clearAll sender s).2.flash = s.flash ∧ (clearAll sender s).2.out = s.out ∧
      (clearAll sender s).2.drivers = s.drivers ∧ (clearAll sender s).2.mon = s.mon ∧
      (clearAll sender s).2.inputs = s.inputs ∧ (clearAll sender s).2.pending = s.pending := by
  unfold clearAll
  refine ⟨?_, ?_, ?_, ?_, ?_, ?_, ?_, ?_, ?_, ?_⟩ <;>
    first | (simp; done) | ((try dsimp only); (repeat' split) <;> first | (simp; done) | (simp_all; done) | grind)

@[simp] theorem beginAgain_frame (i : Fin 32) (showNo : Nat) (blocks : Nat) (s : State) :
    (beginAgain i showNo blocks s).start = s.start ∧ (beginAgain i showNo blocks s).time = s.time ∧
      (beginAgain i showNo blocks s).backup = s.backup ∧ (beginAgain i showNo blocks s).cal = s.cal ∧
      (beginAgain i showNo blocks s).flash = s.flash ∧ (beginAgain i showNo blocks s).rows = s.rows ∧
      (beginAgain i showNo blocks s).mixer = s.mixer ∧ (beginAgain i showNo blocks s).out = s.out ∧
      (beginAgain i showNo blocks s).drivers = s.drivers ∧ (beginAgain i showNo blocks s).mon = s.mon ∧
      (beginAgain i showNo blocks s).safety = s.safety ∧ (beginAgain i showNo blocks s).inputs = s.inputs ∧
      (beginAgain i showNo blocks s).line = s.line ∧ (beginAgain i showNo blocks s).counters = s.counters ∧
      (beginAgain i showNo blocks s).pending = s.pending := by
  unfold beginAgain
  refine ⟨?_, ?_, ?_, ?_, ?_, ?_, ?_, ?_, ?_, ?_, ?_, ?_, ?_, ?_, ?_⟩ <;>
    first | (simp; done) | ((try dsimp only); (repeat' split) <;> first | (simp; done) | (simp_all; done) | grind)

@[simp] theorem beginErasing_frame (i : Fin 32) (showNo : Nat) (blocks : Nat) (s : State) :
    (beginErasing i showNo blocks s).start = s.start ∧ (beginErasing i showNo blocks s).time = s.time ∧
      (beginErasing i showNo blocks s).backup = s.backup ∧ (beginErasing i showNo blocks s).cal = s.cal ∧
      (beginErasing i showNo blocks s).flash = s.flash ∧ (beginErasing i showNo blocks s).rows = s.rows ∧
      (beginErasing i showNo blocks s).mixer = s.mixer ∧ (beginErasing i showNo blocks s).out = s.out ∧
      (beginErasing i showNo blocks s).drivers = s.drivers ∧ (beginErasing i showNo blocks s).mon = s.mon ∧
      (beginErasing i showNo blocks s).safety = s.safety ∧ (beginErasing i showNo blocks s).inputs = s.inputs ∧
      (beginErasing i showNo blocks s).line = s.line ∧ (beginErasing i showNo blocks s).counters = s.counters ∧
      (beginErasing i showNo blocks s).pending = s.pending := by
  unfold beginErasing
  refine ⟨?_, ?_, ?_, ?_, ?_, ?_, ?_, ?_, ?_, ?_, ?_, ?_, ?_, ?_, ?_⟩ <;>
    first | (simp; done) | ((try dsimp only); (repeat' split) <;> first | (simp; done) | (simp_all; done) | grind)

@[simp] theorem showBegin_frame (showNo : Nat) (blocks : Nat) (s : State) :
    (showBegin showNo blocks s).2.start = s.start ∧ (showBegin showNo blocks s).2.time = s.time ∧
      (showBegin showNo blocks s).2.backup = s.backup ∧ (showBegin showNo blocks s).2.cal = s.cal ∧
      (showBegin showNo blocks s).2.flash = s.flash ∧ (showBegin showNo blocks s).2.rows = s.rows ∧
      (showBegin showNo blocks s).2.mixer = s.mixer ∧ (showBegin showNo blocks s).2.out = s.out ∧
      (showBegin showNo blocks s).2.drivers = s.drivers ∧ (showBegin showNo blocks s).2.mon = s.mon ∧
      (showBegin showNo blocks s).2.safety = s.safety ∧ (showBegin showNo blocks s).2.inputs = s.inputs ∧
      (showBegin showNo blocks s).2.line = s.line ∧ (showBegin showNo blocks s).2.counters = s.counters ∧
      (showBegin showNo blocks s).2.pending = s.pending := by
  unfold showBegin
  refine ⟨?_, ?_, ?_, ?_, ?_, ?_, ?_, ?_, ?_, ?_, ?_, ?_, ?_, ?_, ?_⟩ <;>
    first | (simp; done) | ((try dsimp only); (repeat' split) <;> first | (simp; done) | (simp_all; done) | grind)

@[simp] theorem showBlock_frame (showNo : Nat) (index : Nat) (data : Block) (s : State) :
    (showBlock showNo index data s).2.start = s.start ∧ (showBlock showNo index data s).2.time = s.time ∧
      (showBlock showNo index data s).2.backup = s.backup ∧ (showBlock showNo index data s).2.cal = s.cal ∧
      (showBlock showNo index data s).2.flash = s.flash ∧ (showBlock showNo index data s).2.rows = s.rows ∧
      (showBlock showNo index data s).2.mixer = s.mixer ∧ (showBlock showNo index data s).2.out = s.out ∧
      (showBlock showNo index data s).2.drivers = s.drivers ∧ (showBlock showNo index data s).2.mon = s.mon ∧
      (showBlock showNo index data s).2.safety = s.safety ∧ (showBlock showNo index data s).2.inputs = s.inputs ∧
      (showBlock showNo index data s).2.line = s.line ∧ (showBlock showNo index data s).2.pending = s.pending := by
  unfold showBlock
  refine ⟨?_, ?_, ?_, ?_, ?_, ?_, ?_, ?_, ?_, ?_, ?_, ?_, ?_, ?_⟩ <;>
    first | (simp; done) | ((try dsimp only); (repeat' split) <;> first | (simp; done) | (simp_all; done) | grind)

@[simp] theorem deleteErasing_frame (i : Fin 32) (showNo : Nat) (s : State) :
    (deleteErasing i showNo s).start = s.start ∧ (deleteErasing i showNo s).time = s.time ∧
      (deleteErasing i showNo s).backup = s.backup ∧ (deleteErasing i showNo s).cal = s.cal ∧
      (deleteErasing i showNo s).flash = s.flash ∧ (deleteErasing i showNo s).rows = s.rows ∧
      (deleteErasing i showNo s).mixer = s.mixer ∧ (deleteErasing i showNo s).out = s.out ∧
      (deleteErasing i showNo s).drivers = s.drivers ∧ (deleteErasing i showNo s).mon = s.mon ∧
      (deleteErasing i showNo s).safety = s.safety ∧ (deleteErasing i showNo s).inputs = s.inputs ∧
      (deleteErasing i showNo s).line = s.line ∧ (deleteErasing i showNo s).counters = s.counters ∧
      (deleteErasing i showNo s).pending = s.pending := by
  unfold deleteErasing
  refine ⟨?_, ?_, ?_, ?_, ?_, ?_, ?_, ?_, ?_, ?_, ?_, ?_, ?_, ?_, ?_⟩ <;>
    first | (simp; done) | ((try dsimp only); (repeat' split) <;> first | (simp; done) | (simp_all; done) | grind)

@[simp] theorem deleteTagged_frame (i : Fin 32) (showNo : Nat) (s : State) :
    (deleteTagged i showNo s).start = s.start ∧ (deleteTagged i showNo s).time = s.time ∧
      (deleteTagged i showNo s).backup = s.backup ∧ (deleteTagged i showNo s).cal = s.cal ∧
      (deleteTagged i showNo s).flash = s.flash ∧ (deleteTagged i showNo s).rows = s.rows ∧
      (deleteTagged i showNo s).mixer = s.mixer ∧ (deleteTagged i showNo s).out = s.out ∧
      (deleteTagged i showNo s).drivers = s.drivers ∧ (deleteTagged i showNo s).mon = s.mon ∧
      (deleteTagged i showNo s).safety = s.safety ∧ (deleteTagged i showNo s).inputs = s.inputs ∧
      (deleteTagged i showNo s).line = s.line ∧ (deleteTagged i showNo s).counters = s.counters ∧
      (deleteTagged i showNo s).pending = s.pending := by
  unfold deleteTagged
  refine ⟨?_, ?_, ?_, ?_, ?_, ?_, ?_, ?_, ?_, ?_, ?_, ?_, ?_, ?_, ?_⟩ <;>
    first | (simp; done) | ((try dsimp only); (repeat' split) <;> first | (simp; done) | (simp_all; done) | grind)

@[simp] theorem showDelete_frame (showNo : Nat) (s : State) :
    (showDelete showNo s).2.start = s.start ∧ (showDelete showNo s).2.time = s.time ∧
      (showDelete showNo s).2.backup = s.backup ∧ (showDelete showNo s).2.cal = s.cal ∧
      (showDelete showNo s).2.flash = s.flash ∧ (showDelete showNo s).2.rows = s.rows ∧
      (showDelete showNo s).2.mixer = s.mixer ∧ (showDelete showNo s).2.out = s.out ∧
      (showDelete showNo s).2.drivers = s.drivers ∧ (showDelete showNo s).2.mon = s.mon ∧
      (showDelete showNo s).2.safety = s.safety ∧ (showDelete showNo s).2.inputs = s.inputs ∧
      (showDelete showNo s).2.line = s.line ∧ (showDelete showNo s).2.counters = s.counters ∧
      (showDelete showNo s).2.pending = s.pending := by
  unfold showDelete
  refine ⟨?_, ?_, ?_, ?_, ?_, ?_, ?_, ?_, ?_, ?_, ?_, ?_, ?_, ?_, ?_⟩ <;>
    first | (simp; done) | ((try dsimp only); (repeat' split) <;> first | (simp; done) | (simp_all; done) | grind)

@[simp] theorem PortUnit_written_frame (u : PortUnit) (s : State) :
    (PortUnit.written u s).start = s.start ∧ (PortUnit.written u s).time = s.time ∧ (PortUnit.written u s).backup = s.backup ∧
      (PortUnit.written u s).cal = s.cal ∧ (PortUnit.written u s).lib = s.lib ∧ (PortUnit.written u s).rows = s.rows ∧
      (PortUnit.written u s).mixer = s.mixer ∧ (PortUnit.written u s).out = s.out ∧
      (PortUnit.written u s).drivers = s.drivers ∧ (PortUnit.written u s).mon = s.mon ∧
      (PortUnit.written u s).safety = s.safety ∧ (PortUnit.written u s).inputs = s.inputs ∧
      (PortUnit.written u s).line = s.line ∧ (PortUnit.written u s).counters = s.counters ∧
      (PortUnit.written u s).pending = s.pending := by
  unfold PortUnit.written
  refine ⟨?_, ?_, ?_, ?_, ?_, ?_, ?_, ?_, ?_, ?_, ?_, ?_, ?_, ?_, ?_⟩ <;>
    first | (simp; done) | ((try dsimp only); (repeat' split) <;> first | (simp; done) | (simp_all; done) | grind)

@[simp] theorem refillDone_frame (p : Fin 4) (s : State) :
    (refillDone p s).start = s.start ∧ (refillDone p s).time = s.time ∧ (refillDone p s).backup = s.backup ∧
      (refillDone p s).cal = s.cal ∧ (refillDone p s).flash = s.flash ∧ (refillDone p s).out = s.out ∧
      (refillDone p s).drivers = s.drivers ∧ (refillDone p s).mon = s.mon ∧ (refillDone p s).safety = s.safety ∧
      (refillDone p s).inputs = s.inputs ∧ (refillDone p s).pending = s.pending := by
  unfold refillDone
  refine ⟨?_, ?_, ?_, ?_, ?_, ?_, ?_, ?_, ?_, ?_, ?_⟩ <;>
    first | (simp; done) | ((try dsimp only); (repeat' split) <;> first | (simp; done) | (simp_all; done) | grind)

@[simp] theorem endUnit_frame (u : PortUnit) (s : State) :
    (endUnit u s).start = s.start ∧ (endUnit u s).time = s.time ∧ (endUnit u s).backup = s.backup ∧
      (endUnit u s).cal = s.cal ∧ (endUnit u s).rows = s.rows ∧ (endUnit u s).mixer = s.mixer ∧ (endUnit u s).out = s.out ∧
      (endUnit u s).drivers = s.drivers ∧ (endUnit u s).mon = s.mon ∧ (endUnit u s).safety = s.safety ∧
      (endUnit u s).inputs = s.inputs ∧ (endUnit u s).line = s.line ∧ (endUnit u s).counters = s.counters ∧
      (endUnit u s).pending = s.pending := by
  unfold endUnit
  refine ⟨?_, ?_, ?_, ?_, ?_, ?_, ?_, ?_, ?_, ?_, ?_, ?_, ?_, ?_⟩ <;>
    first | (simp; done) | ((try dsimp only); (repeat' split) <;> first | (simp; done) | (simp_all; done) | grind)

@[simp] theorem tagDone_frame (i : Fin 32) (s : State) :
    (tagDone i s).start = s.start ∧ (tagDone i s).time = s.time ∧ (tagDone i s).backup = s.backup ∧
      (tagDone i s).cal = s.cal ∧ (tagDone i s).flash = s.flash ∧ (tagDone i s).rows = s.rows ∧
      (tagDone i s).mixer = s.mixer ∧ (tagDone i s).out = s.out ∧ (tagDone i s).drivers = s.drivers ∧
      (tagDone i s).mon = s.mon ∧ (tagDone i s).safety = s.safety ∧ (tagDone i s).inputs = s.inputs ∧
      (tagDone i s).line = s.line ∧ (tagDone i s).counters = s.counters ∧ (tagDone i s).pending = s.pending := by
  unfold tagDone
  refine ⟨?_, ?_, ?_, ?_, ?_, ?_, ?_, ?_, ?_, ?_, ?_, ?_, ?_, ?_, ?_⟩ <;>
    first | (simp; done) | ((try dsimp only); (repeat' split) <;> first | (simp; done) | (simp_all; done) | grind)

@[simp] theorem blockDone_frame (i : Fin 32) (b : QueuedBlock) (s : State) :
    (blockDone i b s).start = s.start ∧ (blockDone i b s).time = s.time ∧ (blockDone i b s).backup = s.backup ∧
      (blockDone i b s).cal = s.cal ∧ (blockDone i b s).flash = s.flash ∧ (blockDone i b s).rows = s.rows ∧
      (blockDone i b s).mixer = s.mixer ∧ (blockDone i b s).out = s.out ∧ (blockDone i b s).drivers = s.drivers ∧
      (blockDone i b s).mon = s.mon ∧ (blockDone i b s).safety = s.safety ∧ (blockDone i b s).inputs = s.inputs ∧
      (blockDone i b s).line = s.line ∧ (blockDone i b s).counters = s.counters ∧ (blockDone i b s).pending = s.pending := by
  unfold blockDone
  refine ⟨?_, ?_, ?_, ?_, ?_, ?_, ?_, ?_, ?_, ?_, ?_, ?_, ?_, ?_, ?_⟩ <;>
    first | (simp; done) | ((try dsimp only); (repeat' split) <;> first | (simp; done) | (simp_all; done) | grind)

@[simp] theorem finishCheck_frame (i : Fin 32) (showNo : Nat) (blocks : Nat) (received : List Nat) (s : State) :
    (finishCheck i showNo blocks received s).start = s.start ∧ (finishCheck i showNo blocks received s).time = s.time ∧
      (finishCheck i showNo blocks received s).backup = s.backup ∧ (finishCheck i showNo blocks received s).cal = s.cal ∧
      (finishCheck i showNo blocks received s).flash = s.flash ∧ (finishCheck i showNo blocks received s).rows = s.rows ∧
      (finishCheck i showNo blocks received s).mixer = s.mixer ∧ (finishCheck i showNo blocks received s).out = s.out ∧
      (finishCheck i showNo blocks received s).drivers = s.drivers ∧ (finishCheck i showNo blocks received s).mon = s.mon ∧
      (finishCheck i showNo blocks received s).safety = s.safety ∧
      (finishCheck i showNo blocks received s).inputs = s.inputs ∧ (finishCheck i showNo blocks received s).line = s.line ∧
      (finishCheck i showNo blocks received s).pending = s.pending := by
  unfold finishCheck
  refine ⟨?_, ?_, ?_, ?_, ?_, ?_, ?_, ?_, ?_, ?_, ?_, ?_, ?_, ?_⟩ <;>
    first | (simp; done) | ((try dsimp only); (repeat' split) <;> first | (simp; done) | (simp_all; done) | grind)

@[simp] theorem checkDone_frame (i : Fin 32) (index : Nat) (s : State) :
    (checkDone i index s).start = s.start ∧ (checkDone i index s).time = s.time ∧ (checkDone i index s).backup = s.backup ∧
      (checkDone i index s).cal = s.cal ∧ (checkDone i index s).flash = s.flash ∧ (checkDone i index s).rows = s.rows ∧
      (checkDone i index s).mixer = s.mixer ∧ (checkDone i index s).out = s.out ∧ (checkDone i index s).drivers = s.drivers ∧
      (checkDone i index s).mon = s.mon ∧ (checkDone i index s).safety = s.safety ∧ (checkDone i index s).inputs = s.inputs ∧
      (checkDone i index s).line = s.line ∧ (checkDone i index s).pending = s.pending := by
  unfold checkDone
  refine ⟨?_, ?_, ?_, ?_, ?_, ?_, ?_, ?_, ?_, ?_, ?_, ?_, ?_, ?_⟩ <;>
    first | (simp; done) | ((try dsimp only); (repeat' split) <;> first | (simp; done) | (simp_all; done) | grind)

@[simp] theorem rebuildSlot_frame (s : State) (i : Fin 32) :
    (rebuildSlot s i).start = s.start ∧ (rebuildSlot s i).time = s.time ∧ (rebuildSlot s i).backup = s.backup ∧
      (rebuildSlot s i).cal = s.cal ∧ (rebuildSlot s i).rows = s.rows ∧ (rebuildSlot s i).mixer = s.mixer ∧
      (rebuildSlot s i).out = s.out ∧ (rebuildSlot s i).drivers = s.drivers ∧ (rebuildSlot s i).mon = s.mon ∧
      (rebuildSlot s i).safety = s.safety ∧ (rebuildSlot s i).inputs = s.inputs ∧ (rebuildSlot s i).line = s.line ∧
      (rebuildSlot s i).pending = s.pending := by
  unfold rebuildSlot
  refine ⟨?_, ?_, ?_, ?_, ?_, ?_, ?_, ?_, ?_, ?_, ?_, ?_, ?_⟩ <;>
    first | (simp; done) | ((try dsimp only); (repeat' split) <;> first | (simp; done) | (simp_all; done) | grind)

@[simp] theorem finishUnit_frame (s : State) :
    (finishUnit s).start = s.start ∧ (finishUnit s).time = s.time ∧ (finishUnit s).backup = s.backup ∧
      (finishUnit s).cal = s.cal ∧ (finishUnit s).rows = s.rows ∧ (finishUnit s).mixer = s.mixer ∧
      (finishUnit s).out = s.out ∧ (finishUnit s).drivers = s.drivers ∧ (finishUnit s).mon = s.mon ∧
      (finishUnit s).safety = s.safety ∧ (finishUnit s).inputs = s.inputs ∧ (finishUnit s).line = s.line ∧
      (finishUnit s).counters = s.counters ∧ (finishUnit s).pending = s.pending := by
  unfold finishUnit
  refine ⟨?_, ?_, ?_, ?_, ?_, ?_, ?_, ?_, ?_, ?_, ?_, ?_, ?_, ?_⟩ <;>
    first | (simp; done) | ((try dsimp only); (repeat' split) <;> first | (simp; done) | (simp_all; done) | grind)

@[simp] theorem rebuild_frame (s : State) :
    (rebuild s).start = s.start ∧ (rebuild s).time = s.time ∧ (rebuild s).backup = s.backup ∧ (rebuild s).cal = s.cal ∧
      (rebuild s).mixer = s.mixer ∧ (rebuild s).out = s.out ∧ (rebuild s).drivers = s.drivers ∧ (rebuild s).mon = s.mon ∧
      (rebuild s).safety = s.safety ∧ (rebuild s).inputs = s.inputs ∧ (rebuild s).line = s.line ∧
      (rebuild s).pending = s.pending := by
  rw [rebuild]
  simp

@[simp] theorem hearBeacon_frame (number : Nat) (arrival : Nat) (stamp : Nat) (body : BeaconBody) (s : State) :
    (hearBeacon number arrival stamp body s).start = s.start ∧ (hearBeacon number arrival stamp body s).backup = s.backup ∧
      (hearBeacon number arrival stamp body s).cal = s.cal ∧ (hearBeacon number arrival stamp body s).flash = s.flash ∧
      (hearBeacon number arrival stamp body s).lib = s.lib ∧ (hearBeacon number arrival stamp body s).rows = s.rows ∧
      (hearBeacon number arrival stamp body s).mixer = s.mixer ∧ (hearBeacon number arrival stamp body s).out = s.out ∧
      (hearBeacon number arrival stamp body s).drivers = s.drivers ∧ (hearBeacon number arrival stamp body s).mon = s.mon ∧
      (hearBeacon number arrival stamp body s).safety = s.safety ∧
      (hearBeacon number arrival stamp body s).inputs = s.inputs ∧ (hearBeacon number arrival stamp body s).line = s.line ∧
      (hearBeacon number arrival stamp body s).pending = s.pending := by
  unfold hearBeacon
  refine ⟨?_, ?_, ?_, ?_, ?_, ?_, ?_, ?_, ?_, ?_, ?_, ?_, ?_, ?_⟩ <;>
    first | (simp; done) | ((try dsimp only); (repeat' split) <;> first | (simp; done) | (simp_all; done) | grind)

@[simp] theorem playersNotice_frame (kind : NoticeKind) (s : State) :
    (playersNotice kind s).start = s.start ∧ (playersNotice kind s).time = s.time ∧ (playersNotice kind s).backup = s.backup ∧
      (playersNotice kind s).cal = s.cal ∧ (playersNotice kind s).flash = s.flash ∧ (playersNotice kind s).out = s.out ∧
      (playersNotice kind s).drivers = s.drivers ∧ (playersNotice kind s).mon = s.mon ∧
      (playersNotice kind s).safety = s.safety ∧ (playersNotice kind s).inputs = s.inputs ∧
      (playersNotice kind s).line = s.line ∧ (playersNotice kind s).counters = s.counters ∧
      (playersNotice kind s).pending = s.pending := by
  unfold playersNotice
  refine ⟨?_, ?_, ?_, ?_, ?_, ?_, ?_, ?_, ?_, ?_, ?_, ?_, ?_⟩ <;>
    first | (simp; done) | ((try dsimp only); (repeat' split) <;> first | (simp; done) | (simp_all; done) | grind)

@[simp] theorem giveNotice_frame (kind : NoticeKind) (amount : Int) (before : Nat) (s : State) :
    (giveNotice kind amount before s).start = s.start ∧ (giveNotice kind amount before s).time = s.time ∧
      (giveNotice kind amount before s).backup = s.backup ∧ (giveNotice kind amount before s).flash = s.flash ∧
      (giveNotice kind amount before s).out = s.out ∧ (giveNotice kind amount before s).drivers = s.drivers ∧
      (giveNotice kind amount before s).mon = s.mon ∧ (giveNotice kind amount before s).safety = s.safety ∧
      (giveNotice kind amount before s).inputs = s.inputs ∧ (giveNotice kind amount before s).pending = s.pending := by
  unfold giveNotice
  refine ⟨?_, ?_, ?_, ?_, ?_, ?_, ?_, ?_, ?_, ?_⟩ <;>
    first | (simp; done) | ((try dsimp only); (repeat' split) <;> first | (simp; done) | (simp_all; done) | grind)

@[simp] theorem stepTo_frame (ns : Nat) (amount : Int) (s : State) :
    (stepTo ns amount s).start = s.start ∧ (stepTo ns amount s).backup = s.backup ∧ (stepTo ns amount s).flash = s.flash ∧
      (stepTo ns amount s).out = s.out ∧ (stepTo ns amount s).drivers = s.drivers ∧ (stepTo ns amount s).mon = s.mon ∧
      (stepTo ns amount s).safety = s.safety ∧ (stepTo ns amount s).inputs = s.inputs ∧
      (stepTo ns amount s).pending = s.pending := by
  unfold stepTo
  refine ⟨?_, ?_, ?_, ?_, ?_, ?_, ?_, ?_, ?_⟩ <;>
    first | (simp; done) | ((try dsimp only); (repeat' split) <;> first | (simp; done) | (simp_all; done) | grind)

@[simp] theorem stepBy_frame (amount : Int) (s : State) :
    (stepBy amount s).start = s.start ∧ (stepBy amount s).backup = s.backup ∧ (stepBy amount s).flash = s.flash ∧
      (stepBy amount s).out = s.out ∧ (stepBy amount s).drivers = s.drivers ∧ (stepBy amount s).mon = s.mon ∧
      (stepBy amount s).safety = s.safety ∧ (stepBy amount s).inputs = s.inputs ∧ (stepBy amount s).pending = s.pending := by
  unfold stepBy
  refine ⟨?_, ?_, ?_, ?_, ?_, ?_, ?_, ?_, ?_⟩ <;>
    first | (simp; done) | ((try dsimp only); (repeat' split) <;> first | (simp; done) | (simp_all; done) | grind)

@[simp] theorem holdBy_frame (amount : Int) (s : State) :
    (holdBy amount s).start = s.start ∧ (holdBy amount s).backup = s.backup ∧ (holdBy amount s).flash = s.flash ∧
      (holdBy amount s).out = s.out ∧ (holdBy amount s).drivers = s.drivers ∧ (holdBy amount s).mon = s.mon ∧
      (holdBy amount s).safety = s.safety ∧ (holdBy amount s).inputs = s.inputs ∧ (holdBy amount s).pending = s.pending := by
  unfold holdBy
  refine ⟨?_, ?_, ?_, ?_, ?_, ?_, ?_, ?_, ?_⟩ <;>
    first | (simp; done) | ((try dsimp only); (repeat' split) <;> first | (simp; done) | (simp_all; done) | grind)

@[simp] theorem acquire_frame (c : Int) (s : State) :
    (acquire c s).start = s.start ∧ (acquire c s).flash = s.flash ∧ (acquire c s).out = s.out ∧
      (acquire c s).drivers = s.drivers ∧ (acquire c s).mon = s.mon ∧ (acquire c s).safety = s.safety ∧
      (acquire c s).inputs = s.inputs ∧ (acquire c s).pending = s.pending := by
  unfold acquire
  refine ⟨?_, ?_, ?_, ?_, ?_, ?_, ?_, ?_⟩ <;>
    first | (simp; done) | ((try dsimp only); (repeat' split) <;> first | (simp; done) | (simp_all; done) | grind)

@[simp] theorem actOn_frame (k : Consensus) (s : State) :
    (actOn k s).start = s.start ∧ (actOn k s).flash = s.flash ∧ (actOn k s).out = s.out ∧ (actOn k s).drivers = s.drivers ∧
      (actOn k s).mon = s.mon ∧ (actOn k s).safety = s.safety ∧ (actOn k s).inputs = s.inputs ∧
      (actOn k s).pending = s.pending := by
  unfold actOn
  refine ⟨?_, ?_, ?_, ?_, ?_, ?_, ?_, ?_⟩ <;>
    first | (simp; done) | ((try dsimp only); (repeat' split) <;> first | (simp; done) | (simp_all; done) | grind)

@[simp] theorem disciplineEvent_frame (s : State) :
    (disciplineEvent s).start = s.start ∧ (disciplineEvent s).flash = s.flash ∧ (disciplineEvent s).out = s.out ∧
      (disciplineEvent s).drivers = s.drivers ∧ (disciplineEvent s).mon = s.mon ∧ (disciplineEvent s).safety = s.safety ∧
      (disciplineEvent s).inputs = s.inputs ∧ (disciplineEvent s).pending = s.pending := by
  unfold disciplineEvent
  refine ⟨?_, ?_, ?_, ?_, ?_, ?_, ?_, ?_⟩ <;>
    first | (simp; done) | ((try dsimp only); (repeat' split) <;> first | (simp; done) | (simp_all; done) | grind)

@[simp] theorem queueBeacon_frame (s : State) :
    (queueBeacon s).start = s.start ∧ (queueBeacon s).time = s.time ∧ (queueBeacon s).backup = s.backup ∧
      (queueBeacon s).cal = s.cal ∧ (queueBeacon s).flash = s.flash ∧ (queueBeacon s).lib = s.lib ∧
      (queueBeacon s).rows = s.rows ∧ (queueBeacon s).mixer = s.mixer ∧ (queueBeacon s).out = s.out ∧
      (queueBeacon s).drivers = s.drivers ∧ (queueBeacon s).mon = s.mon ∧ (queueBeacon s).safety = s.safety ∧
      (queueBeacon s).inputs = s.inputs ∧ (queueBeacon s).pending = s.pending := by
  unfold queueBeacon
  refine ⟨?_, ?_, ?_, ?_, ?_, ?_, ?_, ?_, ?_, ?_, ?_, ?_, ?_, ?_⟩ <;>
    first | (simp; done) | ((try dsimp only); (repeat' split) <;> first | (simp; done) | (simp_all; done) | grind)

@[simp] theorem timeSet_frame (arrival : Nat) (value : Nat) (s : State) :
    (timeSet arrival value s).2.start = s.start ∧ (timeSet arrival value s).2.flash = s.flash ∧
      (timeSet arrival value s).2.out = s.out ∧ (timeSet arrival value s).2.drivers = s.drivers ∧
      (timeSet arrival value s).2.mon = s.mon ∧ (timeSet arrival value s).2.safety = s.safety ∧
      (timeSet arrival value s).2.inputs = s.inputs ∧ (timeSet arrival value s).2.pending = s.pending := by
  unfold timeSet
  refine ⟨?_, ?_, ?_, ?_, ?_, ?_, ?_, ?_⟩ <;>
    first | (simp; done) | ((try dsimp only); (repeat' split) <;> first | (simp; done) | (simp_all; done) | grind)

@[simp] theorem lineIdle_frame (s : State) :
    (lineIdle s).start = s.start ∧ (lineIdle s).time = s.time ∧ (lineIdle s).backup = s.backup ∧ (lineIdle s).cal = s.cal ∧
      (lineIdle s).flash = s.flash ∧ (lineIdle s).lib = s.lib ∧ (lineIdle s).rows = s.rows ∧ (lineIdle s).mixer = s.mixer ∧
      (lineIdle s).out = s.out ∧ (lineIdle s).drivers = s.drivers ∧ (lineIdle s).mon = s.mon ∧
      (lineIdle s).safety = s.safety ∧ (lineIdle s).inputs = s.inputs ∧ (lineIdle s).counters = s.counters ∧
      (lineIdle s).pending = s.pending := by
  unfold lineIdle
  refine ⟨?_, ?_, ?_, ?_, ?_, ?_, ?_, ?_, ?_, ?_, ?_, ?_, ?_, ?_, ?_⟩ <;>
    first | (simp; done) | ((try dsimp only); (repeat' split) <;> first | (simp; done) | (simp_all; done) | grind)

/-- A lost attempt changes only what stands on the line (R163, R164). -/
@[simp] theorem listen_frame (s : State) :
    (listen s).start = s.start ∧ (listen s).time = s.time ∧ (listen s).backup = s.backup ∧ (listen s).cal = s.cal ∧
      (listen s).flash = s.flash ∧ (listen s).lib = s.lib ∧ (listen s).rows = s.rows ∧ (listen s).mixer = s.mixer ∧
      (listen s).out = s.out ∧ (listen s).drivers = s.drivers ∧ (listen s).mon = s.mon ∧ (listen s).safety = s.safety ∧
      (listen s).inputs = s.inputs ∧ (listen s).counters = s.counters ∧ (listen s).pending = s.pending := by
  simp [listen]

@[simp] theorem contend_frame (f : TxFrame) (s : State) :
    (contend f s).start = s.start ∧ (contend f s).time = s.time ∧ (contend f s).backup = s.backup ∧
      (contend f s).cal = s.cal ∧ (contend f s).flash = s.flash ∧ (contend f s).lib = s.lib ∧ (contend f s).rows = s.rows ∧
      (contend f s).mixer = s.mixer ∧ (contend f s).out = s.out ∧ (contend f s).drivers = s.drivers ∧
      (contend f s).mon = s.mon ∧ (contend f s).safety = s.safety ∧ (contend f s).inputs = s.inputs ∧
      (contend f s).pending = s.pending := by
  unfold contend
  refine ⟨?_, ?_, ?_, ?_, ?_, ?_, ?_, ?_, ?_, ?_, ?_, ?_, ?_, ?_⟩ <;>
    first | (simp; done) | ((try dsimp only); (repeat' split) <;> first | (simp; done) | (simp_all; done) | grind)

@[simp] theorem noteBeaconSent_frame (f : TxFrame) (s : State) :
    (noteBeaconSent f s).start = s.start ∧ (noteBeaconSent f s).backup = s.backup ∧ (noteBeaconSent f s).cal = s.cal ∧
      (noteBeaconSent f s).flash = s.flash ∧ (noteBeaconSent f s).lib = s.lib ∧ (noteBeaconSent f s).rows = s.rows ∧
      (noteBeaconSent f s).mixer = s.mixer ∧ (noteBeaconSent f s).out = s.out ∧ (noteBeaconSent f s).drivers = s.drivers ∧
      (noteBeaconSent f s).mon = s.mon ∧ (noteBeaconSent f s).safety = s.safety ∧ (noteBeaconSent f s).inputs = s.inputs ∧
      (noteBeaconSent f s).line = s.line ∧ (noteBeaconSent f s).counters = s.counters ∧
      (noteBeaconSent f s).pending = s.pending := by
  unfold noteBeaconSent
  refine ⟨?_, ?_, ?_, ?_, ?_, ?_, ?_, ?_, ?_, ?_, ?_, ?_, ?_, ?_, ?_⟩ <;>
    first | (simp; done) | ((try dsimp only); (repeat' split) <;> first | (simp; done) | (simp_all; done) | grind)

@[simp] theorem readBoot_frame (straps : LineNumber) (image : BootImage) (s : State) :
    (readBoot straps image s).backup = s.backup ∧ (readBoot straps image s).cal = s.cal ∧
      (readBoot straps image s).flash = s.flash ∧ (readBoot straps image s).lib = s.lib ∧
      (readBoot straps image s).rows = s.rows ∧ (readBoot straps image s).mixer = s.mixer ∧
      (readBoot straps image s).out = s.out ∧ (readBoot straps image s).drivers = s.drivers ∧
      (readBoot straps image s).mon = s.mon ∧ (readBoot straps image s).safety = s.safety ∧
      (readBoot straps image s).inputs = s.inputs ∧ (readBoot straps image s).line = s.line ∧
      (readBoot straps image s).counters = s.counters ∧ (readBoot straps image s).pending = s.pending := by
  unfold readBoot
  refine ⟨?_, ?_, ?_, ?_, ?_, ?_, ?_, ?_, ?_, ?_, ?_, ?_, ?_, ?_⟩ <;>
    first | (simp; done) | ((try dsimp only); (repeat' split) <;> first | (simp; done) | (simp_all; done) | grind)

@[simp] theorem startBlocks_frame (s : State) :
    (startBlocks s).backup = s.backup ∧ (startBlocks s).pending = s.pending := by
  unfold startBlocks
  refine ⟨?_, ?_⟩ <;>
    first | (simp; done) | ((try dsimp only); (repeat' split) <;> first | (simp; done) | (simp_all; done) | grind)

@[simp] theorem readInputs_frame (s : State) :
    (readInputs s).start = s.start ∧ (readInputs s).time = s.time ∧ (readInputs s).backup = s.backup ∧
      (readInputs s).cal = s.cal ∧ (readInputs s).flash = s.flash ∧ (readInputs s).lib = s.lib ∧
      (readInputs s).rows = s.rows ∧ (readInputs s).mixer = s.mixer ∧ (readInputs s).out = s.out ∧
      (readInputs s).drivers = s.drivers ∧ (readInputs s).mon = s.mon ∧ (readInputs s).safety = s.safety ∧
      (readInputs s).line = s.line ∧ (readInputs s).counters = s.counters ∧ (readInputs s).pending = s.pending := by
    exact ⟨foldl_start _ (fun s i => by simp) _ _, foldl_time _ (fun s i => by simp) _ _, foldl_backup _ (fun s i => by
    simp) _ _, foldl_cal _ (fun s i => by simp) _ _, foldl_flash _ (fun s i => by simp) _ _, foldl_lib _ (fun s i => by
    simp) _ _, foldl_rows _ (fun s i => by simp) _ _, foldl_mixer _ (fun s i => by simp) _ _, foldl_out _ (fun s i => by
    simp) _ _, foldl_drivers _ (fun s i => by simp) _ _, foldl_mon _ (fun s i => by simp) _ _, foldl_safety _ (fun s i => by
    simp) _ _, foldl_line _ (fun s i => by simp) _ _, foldl_counters _ (fun s i => by simp) _ _, foldl_pending _ (fun s i =>
    by simp) _ _⟩

@[simp] theorem leaveStarting_frame (s : State) :
    (leaveStarting s).time = s.time ∧ (leaveStarting s).backup = s.backup ∧ (leaveStarting s).flash = s.flash ∧
      (leaveStarting s).lib = s.lib ∧ (leaveStarting s).rows = s.rows ∧ (leaveStarting s).out = s.out ∧
      (leaveStarting s).safety = s.safety ∧ (leaveStarting s).line = s.line ∧ (leaveStarting s).counters = s.counters ∧
      (leaveStarting s).pending = s.pending := by
  unfold leaveStarting
  refine ⟨?_, ?_, ?_, ?_, ?_, ?_, ?_, ?_, ?_, ?_⟩ <;>
    first | (simp; done) | ((try dsimp only); (repeat' split) <;> first | (simp; done) | (simp_all; done) | grind)

@[simp] theorem settleStart_frame (s : State) :
    (settleStart s).time = s.time ∧ (settleStart s).backup = s.backup ∧ (settleStart s).flash = s.flash ∧
      (settleStart s).lib = s.lib ∧ (settleStart s).rows = s.rows ∧ (settleStart s).out = s.out ∧
      (settleStart s).safety = s.safety ∧ (settleStart s).line = s.line ∧ (settleStart s).counters = s.counters ∧
      (settleStart s).pending = s.pending := by
  unfold settleStart
  refine ⟨?_, ?_, ?_, ?_, ?_, ?_, ?_, ?_, ?_, ?_⟩ <;>
    first | (simp; done) | ((try dsimp only); (repeat' split) <;> first | (simp; done) | (simp_all; done) | grind)

@[simp] theorem runStart_frame (straps : LineNumber) (image : BootImage) (s : State) :
    (runStart straps image s).backup = s.backup ∧ (runStart straps image s).out = s.out ∧
      (runStart straps image s).safety = s.safety ∧ (runStart straps image s).line = s.line ∧
      (runStart straps image s).pending = s.pending := by
  unfold runStart
  refine ⟨?_, ?_, ?_, ?_, ?_⟩ <;>
    first | (simp; done) | ((try dsimp only); (repeat' split) <;> first | (simp; done) | (simp_all; done) | grind)

@[simp] theorem retainedGood_frame (s : State) :
    (retainedGood s).backup = s.backup ∧ (retainedGood s).cal = s.cal ∧ (retainedGood s).flash = s.flash ∧
      (retainedGood s).lib = s.lib ∧ (retainedGood s).rows = s.rows ∧ (retainedGood s).mixer = s.mixer ∧
      (retainedGood s).out = s.out ∧ (retainedGood s).drivers = s.drivers ∧ (retainedGood s).mon = s.mon ∧
      (retainedGood s).safety = s.safety ∧ (retainedGood s).inputs = s.inputs ∧ (retainedGood s).line = s.line ∧
      (retainedGood s).counters = s.counters ∧ (retainedGood s).pending = s.pending := by
  unfold retainedGood
  refine ⟨?_, ?_, ?_, ?_, ?_, ?_, ?_, ?_, ?_, ?_, ?_, ?_, ?_, ?_⟩ <;>
    first | (simp; done) | ((try dsimp only); (repeat' split) <;> first | (simp; done) | (simp_all; done) | grind)

@[simp] theorem retainedBad_frame (s : State) :
    (retainedBad s).flash = s.flash ∧ (retainedBad s).lib = s.lib ∧ (retainedBad s).rows = s.rows ∧
      (retainedBad s).mixer = s.mixer ∧ (retainedBad s).out = s.out ∧ (retainedBad s).drivers = s.drivers ∧
      (retainedBad s).mon = s.mon ∧ (retainedBad s).safety = s.safety ∧ (retainedBad s).inputs = s.inputs ∧
      (retainedBad s).line = s.line ∧ (retainedBad s).counters = s.counters ∧ (retainedBad s).pending = s.pending := by
  unfold retainedBad
  refine ⟨?_, ?_, ?_, ?_, ?_, ?_, ?_, ?_, ?_, ?_, ?_, ?_⟩ <;>
    first | (simp; done) | ((try dsimp only); (repeat' split) <;> first | (simp; done) | (simp_all; done) | grind)

@[simp] theorem checkRetained_frame (cellHeld : Bool) (s : State) :
    (checkRetained cellHeld s).flash = s.flash ∧ (checkRetained cellHeld s).lib = s.lib ∧
      (checkRetained cellHeld s).rows = s.rows ∧ (checkRetained cellHeld s).mixer = s.mixer ∧
      (checkRetained cellHeld s).out = s.out ∧ (checkRetained cellHeld s).drivers = s.drivers ∧
      (checkRetained cellHeld s).mon = s.mon ∧ (checkRetained cellHeld s).safety = s.safety ∧
      (checkRetained cellHeld s).inputs = s.inputs ∧ (checkRetained cellHeld s).line = s.line ∧
      (checkRetained cellHeld s).counters = s.counters ∧ (checkRetained cellHeld s).pending = s.pending := by
  unfold checkRetained
  refine ⟨?_, ?_, ?_, ?_, ?_, ?_, ?_, ?_, ?_, ?_, ?_, ?_⟩ <;>
    first | (simp; done) | ((try dsimp only); (repeat' split) <;> first | (simp; done) | (simp_all; done) | grind)

@[simp] theorem losePower_frame (cut : CutPoint) (s : State) :
    (losePower cut s).backup = s.backup ∧ (losePower cut s).pending = s.pending := by
  unfold losePower
  refine ⟨?_, ?_⟩ <;>
    first | (simp; done) | ((try dsimp only); (repeat' split) <;> first | (simp; done) | (simp_all; done) | grind)

@[simp] theorem powerStart_frame (straps : LineNumber) (image : BootImage) (cellHeld : Bool) (s : State) :
    (powerStart straps image cellHeld s).pending = s.pending := by
  unfold powerStart
  refine ?_ <;>
    first | (simp; done) | ((try dsimp only); (repeat' split) <;> first | (simp; done) | (simp_all; done) | grind)

@[simp] theorem warmRestart_frame (s : State) :
    (warmRestart s).backup = s.backup ∧ (warmRestart s).pending = s.pending := by
  unfold warmRestart
  refine ⟨?_, ?_⟩ <;>
    first | (simp; done) | ((try dsimp only); (repeat' split) <;> first | (simp; done) | (simp_all; done) | grind)

@[simp] theorem takeRestart_frame (sender : LineNumber) (s : State) :
    (takeRestart sender s).time = s.time ∧ (takeRestart sender s).backup = s.backup ∧ (takeRestart sender s).cal = s.cal ∧
      (takeRestart sender s).flash = s.flash ∧ (takeRestart sender s).lib = s.lib ∧ (takeRestart sender s).rows = s.rows ∧
      (takeRestart sender s).mixer = s.mixer ∧ (takeRestart sender s).out = s.out ∧
      (takeRestart sender s).drivers = s.drivers ∧ (takeRestart sender s).mon = s.mon ∧
      (takeRestart sender s).safety = s.safety ∧ (takeRestart sender s).inputs = s.inputs ∧
      (takeRestart sender s).pending = s.pending := by
  unfold takeRestart
  refine ⟨?_, ?_, ?_, ?_, ?_, ?_, ?_, ?_, ?_, ?_, ?_, ?_, ?_⟩ <;>
    first | (simp; done) | ((try dsimp only); (repeat' split) <;> first | (simp; done) | (simp_all; done) | grind)

@[simp] theorem reachBoundary_frame (n : Nat) (s : State) :
    (reachBoundary n s).start = s.start ∧ (reachBoundary n s).backup = s.backup ∧ (reachBoundary n s).cal = s.cal ∧
      (reachBoundary n s).flash = s.flash ∧ (reachBoundary n s).lib = s.lib ∧ (reachBoundary n s).rows = s.rows ∧
      (reachBoundary n s).mixer = s.mixer ∧ (reachBoundary n s).out = s.out ∧ (reachBoundary n s).drivers = s.drivers ∧
      (reachBoundary n s).mon = s.mon ∧ (reachBoundary n s).safety = s.safety ∧ (reachBoundary n s).inputs = s.inputs ∧
      (reachBoundary n s).line = s.line ∧ (reachBoundary n s).counters = s.counters ∧ (reachBoundary n s).pending = s.pending := by
  unfold reachBoundary
  refine ⟨?_, ?_, ?_, ?_, ?_, ?_, ?_, ?_, ?_, ?_, ?_, ?_, ?_, ?_, ?_⟩ <;>
    first | (simp; done) | ((try dsimp only); (repeat' split) <;> first | (simp; done) | (simp_all; done) | grind)

@[simp] theorem boundaryWork_frame (n : Nat) (s : State) :
    (boundaryWork n s).start = s.start ∧ (boundaryWork n s).time = s.time ∧ (boundaryWork n s).backup = s.backup ∧
      (boundaryWork n s).cal = s.cal ∧ (boundaryWork n s).flash = s.flash ∧ (boundaryWork n s).safety = s.safety ∧
      (boundaryWork n s).inputs = s.inputs ∧ (boundaryWork n s).pending = s.pending := by
  unfold boundaryWork
  refine ⟨?_, ?_, ?_, ?_, ?_, ?_, ?_, ?_⟩ <;>
    first | (simp; done) | ((try dsimp only); (repeat' split) <;> first | (simp; done) | (simp_all; done) | grind)

@[simp] theorem reachSecond_frame (t : Nat) (s : State) :
    (reachSecond t s).start = s.start ∧ (reachSecond t s).cal = s.cal ∧ (reachSecond t s).flash = s.flash ∧
      (reachSecond t s).lib = s.lib ∧ (reachSecond t s).rows = s.rows ∧ (reachSecond t s).mixer = s.mixer ∧
      (reachSecond t s).out = s.out ∧ (reachSecond t s).drivers = s.drivers ∧ (reachSecond t s).mon = s.mon ∧
      (reachSecond t s).safety = s.safety ∧ (reachSecond t s).inputs = s.inputs ∧ (reachSecond t s).line = s.line ∧
      (reachSecond t s).counters = s.counters ∧ (reachSecond t s).pending = s.pending := by
  unfold reachSecond
  refine ⟨?_, ?_, ?_, ?_, ?_, ?_, ?_, ?_, ?_, ?_, ?_, ?_, ?_, ?_⟩ <;>
    first | (simp; done) | ((try dsimp only); (repeat' split) <;> first | (simp; done) | (simp_all; done) | grind)

@[simp] theorem queueStatus_frame (t : Nat) (s : State) :
    (queueStatus t s).time = s.time ∧ (queueStatus t s).backup = s.backup ∧ (queueStatus t s).cal = s.cal ∧
      (queueStatus t s).flash = s.flash ∧ (queueStatus t s).lib = s.lib ∧ (queueStatus t s).rows = s.rows ∧
      (queueStatus t s).mixer = s.mixer ∧ (queueStatus t s).out = s.out ∧ (queueStatus t s).drivers = s.drivers ∧
      (queueStatus t s).mon = s.mon ∧ (queueStatus t s).safety = s.safety ∧ (queueStatus t s).inputs = s.inputs ∧
      (queueStatus t s).pending = s.pending := by
  unfold queueStatus
  refine ⟨?_, ?_, ?_, ?_, ?_, ?_, ?_, ?_, ?_, ?_, ?_, ?_, ?_⟩ <;>
    first | (simp; done) | ((try dsimp only); (repeat' split) <;> first | (simp; done) | (simp_all; done) | grind)

@[simp] theorem secondWork_frame (t : Nat) (s : State) :
    (secondWork t s).flash = s.flash ∧ (secondWork t s).out = s.out ∧ (secondWork t s).drivers = s.drivers ∧
      (secondWork t s).mon = s.mon ∧ (secondWork t s).safety = s.safety ∧ (secondWork t s).inputs = s.inputs ∧
      (secondWork t s).pending = s.pending := by
  unfold secondWork
  refine ⟨?_, ?_, ?_, ?_, ?_, ?_, ?_⟩ <;>
    first | (simp; done) | ((try dsimp only); (repeat' split) <;> first | (simp; done) | (simp_all; done) | grind)

@[simp] theorem sendReplies_frame (sender : LineNumber) (item : Nat) (argument : BitVec 16) (data : List Byte) (s : State) :
    (sendReplies sender item argument data s).start = s.start ∧ (sendReplies sender item argument data s).time = s.time ∧
      (sendReplies sender item argument data s).backup = s.backup ∧ (sendReplies sender item argument data s).cal = s.cal ∧
      (sendReplies sender item argument data s).flash = s.flash ∧ (sendReplies sender item argument data s).lib = s.lib ∧
      (sendReplies sender item argument data s).rows = s.rows ∧ (sendReplies sender item argument data s).mixer = s.mixer ∧
      (sendReplies sender item argument data s).out = s.out ∧ (sendReplies sender item argument data s).drivers = s.drivers ∧
      (sendReplies sender item argument data s).mon = s.mon ∧ (sendReplies sender item argument data s).safety = s.safety ∧
      (sendReplies sender item argument data s).inputs = s.inputs ∧
      (sendReplies sender item argument data s).pending = s.pending := by
  unfold sendReplies
  refine ⟨?_, ?_, ?_, ?_, ?_, ?_, ?_, ?_, ?_, ?_, ?_, ?_, ?_, ?_⟩ <;>
    first | (simp; done) | ((try dsimp only); (repeat' split) <;> first | (simp; done) | (simp_all; done) | grind)

@[simp] theorem passUs_frame (s : State) :
    (passUs s).backup = s.backup ∧ (passUs s).cal = s.cal ∧ (passUs s).flash = s.flash ∧ (passUs s).lib = s.lib ∧
      (passUs s).rows = s.rows ∧ (passUs s).mixer = s.mixer ∧ (passUs s).out = s.out ∧ (passUs s).counters = s.counters ∧
      (passUs s).pending = s.pending := by
  unfold passUs
  refine ⟨?_, ?_, ?_, ?_, ?_, ?_, ?_, ?_, ?_⟩ <;>
    first | (simp; done) | ((try dsimp only); (repeat' split) <;> first | (simp; done) | (simp_all; done) | grind)

end Sys2Proof.Machine
end

