-- ==== Sys2Proof/Laws/Players.lean ====
section
/-!
SUPPORT. What the items of an advance make of a context, in the words of Safety (R75 to R81): one lemma per operation of
Machine/Players.lean, which proofs cite in its place.
-/

namespace Sys2Proof.Machine

set_option Elab.async false

/-! ### Zone state table (R80, R81) -/

theorem levelsBefore_recordOver (c : Cue) (e : Int) (old : Option ZoneRecord) :
    { fromLevels := levelsBefore old e, toLevels := c.levels, effective := e, fade := c.fade } = recordOver c e old := by
  cases old with
  | none => rfl
  | some o => simp only [levelsBefore, recordOver]; split <;> split <;> first | rfl | omega

/-- A cue's record goes into its track, and every other track stays. -/
theorem writeRecord_get (c : Cue) (e : Int) (z : ZoneTracks) (k : Fin 4) :
    (c.track = k → (writeRecord c e z)[k] = some (recordOver c e z[k])) ∧ (c.track ≠ k → (writeRecord c e z)[k] = z[k]) := by
  unfold writeRecord
  by_cases h : c.track < 4
  · rw [Vector.getElem?_eq_getElem h]
    refine ⟨fun hk => ?_, fun hk => ?_⟩
    · have : z[c.track] = z[k] := by simp [hk]
      simp [hk, levelsBefore_recordOver]
    · simp [hk]
  · have : z[c.track]? = none := by simp; omega
    rw [this]
    exact ⟨fun hk => absurd k.isLt (by omega), fun _ => rfl⟩

/-- A cue's item is taken by the local zones that a test picks, and by no other. -/
theorem mapZones_take (zmap : List ZoneBoot) (q : Nat → ZoneBoot → Bool) (c : Cue) (e : Int) (zs : List ZoneTracks) :
    ZonesTake c e (fun i => ∃ b, zmap[i]? = some b ∧ q i b = true) zs (mapZones zmap q (writeRecord c e) zs) := by
  refine ⟨by simp [mapZones], fun i z hz => ?_⟩
  have hi : (mapZones zmap q (writeRecord c e) zs)[i]? =
      some (match zmap[i]? with | some b => if q i b then writeRecord c e z else z | none => z) := by
    cases hb : zmap[i]? <;> simp [mapZones, hz, hb]
  refine ⟨_, hi, fun k => ?_⟩
  cases hb : zmap[i]? with
  | none => exact ⟨fun h => absurd h.1 (by rintro ⟨b, hb', _⟩; rw [hb] at hb'; cases hb'), fun _ => rfl⟩
  | some b =>
    by_cases hq : q i b = true
    · simp only [hq, if_true]
      refine ⟨fun h => (writeRecord_get c e z k).1 h.2, fun h => (writeRecord_get c e z k).2 fun h' => h ⟨⟨b, hb, hq⟩, h'⟩⟩
    · exact ⟨fun h => absurd h.1 (by rintro ⟨b', hb', hq'⟩; rw [hb] at hb'; cases hb'; exact hq hq'), fun _ => by simp [hq]⟩

theorem ZonesTake.congr {c : Cue} {e : Int} {h h' : Nat → Prop} {a b : List ZoneTracks} (hh : ∀ i, h i ↔ h' i)
    (t : ZonesTake c e h a b) : ZonesTake c e h' a b := by
  have : h = h' := funext fun i => propext (hh i)
  exact this ▸ t

theorem touches_iff (zmap : List ZoneBoot) (c : Cue) (i : Nat) :
    (∃ b, zmap[i]? = some b ∧ touches c b = true) ↔ touchesAt zmap c i := by
  simp [touchesAt, touches]

theorem sweepFrameAt_eq (zmap : List ZoneBoot) (c : Cue) (i : Nat) : sweepFrameAt zmap c i = reachedAt zmap c i := by
  simp only [sweepFrameAt, reachedAt, sweepFrame]
  cases h : c.action <;> simp

/-- Where the position stands when the cue at the head of the window has left it (R78, R79). -/
def headTaken (c : Cue) (later : List Cue) (y : Int) : Int := if later = [] then max y c.time else y

/-- The cue at the head of the window leaves it (R78). -/
theorem dropHead_eq {c : Cue} {later : List Cue} {x : Context} (hw : x.window = c :: later) :
    dropHead x = { x with window := later, position := headTaken c later x.position } := by
  unfold dropHead headTaken
  cases later <;> simp [hw, moveTo]

/-- The cue at the head of a window that holds more leaves it (R78). -/
theorem dropHead_more {c : Cue} {later : List Cue} {x : Context} (hw : x.window = c :: later) (h : later ≠ []) :
    dropHead x = { x with window := later } := by
  rw [dropHead_eq hw, headTaken, if_neg h]

theorem headTaken_more {c : Cue} {later : List Cue} {y : Int} (h : later ≠ []) : headTaken c later y = y := if_neg h

theorem cuesBeyond_ne_nil {w : List Cue} {k : Int} (h : cuesBeyond w k) : w ≠ [] := by
  rintro rfl
  rcases h.2 with ⟨d, h, -⟩ | ⟨d, h, -⟩ <;> simp at h

theorem headTaken_le {c : Cue} {later : List Cue} {y k : Int} (hc : (c.time : Int) ≤ k) (hy : y ≤ k) : headTaken c later y ≤ k := by
  unfold headTaken; split <;> omega

/-- A SET or FADE cue is taken (R80): but for the position, what Safety says of it. -/
theorem takeZoneCue_taken (zmap : List ZoneBoot) (c : Cue) (later : List Cue) (x : Context) (h : c.action = .set ∨ c.action = .fade)
    (hw : x.window = c :: later) :
    ∃ x', CueTaken zmap c later x x' ∧ takeZoneCue zmap c (dropHead x) = { x' with position := headTaken c later x.position } := by
  unfold CueTaken
  refine ⟨{ x with window := later, zones := mapZones zmap (fun _ b => touches c b) (writeRecord c c.time) x.zones }, ?_,
    by rw [dropHead_eq hw]; rfl⟩
  rw [if_pos h]
  exact ⟨_, ((mapZones_take zmap (fun _ b => touches c b) c c.time x.zones).congr (touches_iff zmap c)), rfl⟩

/-! ### Lists sorted by a key -/

theorem insertByKey_perm {α : Type} (key : α → Nat) (a : α) (l : List α) : (insertByKey key a l).Perm (a :: l) := by
  induction l with
  | nil => exact List.Perm.refl _
  | cons b bs ih =>
    unfold insertByKey
    split
    · exact List.Perm.refl _
    · exact (ih.cons b).trans (List.Perm.swap a b bs)

theorem insertByKey_sorted {α : Type} (key : α → Nat) (a : α) (l : List α) (h : l.Pairwise (fun x y => key x ≤ key y)) :
    (insertByKey key a l).Pairwise (fun x y => key x ≤ key y) := by
  induction l with
  | nil => simp [insertByKey]
  | cons b bs ih =>
    unfold insertByKey
    rw [List.pairwise_cons] at h
    split
    · rename_i hlt
      rw [List.pairwise_cons, List.pairwise_cons]
      refine ⟨fun y hy => ?_, h⟩
      cases List.mem_cons.1 hy with
      | inl e => subst e; omega
      | inr e => have := h.1 y e; omega
    · rename_i hge
      rw [List.pairwise_cons]
      refine ⟨fun y hy => ?_, ih h.2⟩
      cases List.mem_cons.1 ((insertByKey_perm key a bs).mem_iff.1 hy) with
      | inl e => subst e; omega
      | inr e => exact h.1 y e

theorem foldl_insertByKey {α : Type} (key : α → Nat) (l acc : List α) (h : acc.Pairwise (fun x y => key x ≤ key y)) :
    (l.foldl (fun acc a => insertByKey key a acc) acc).Perm (acc ++ l) ∧
      (l.foldl (fun acc a => insertByKey key a acc) acc).Pairwise (fun x y => key x ≤ key y) := by
  induction l generalizing acc with
  | nil => simpa using h
  | cons a l ih =>
    have := ih (insertByKey key a acc) (insertByKey_sorted key a acc h)
    refine ⟨this.1.trans ?_, this.2⟩
    exact ((insertByKey_perm key a acc).append_right l).trans (by simpa using (List.perm_middle (a := a) (l₁ := acc) (l₂ := l)).symm)

/-- A sorted list holds the same members in ascending key. -/
theorem sortByKey_spec {α : Type} (key : α → Nat) (l : List α) :
    (sortByKey key l).Perm l ∧ (sortByKey key l).Pairwise (fun x y => key x ≤ key y) := by
  simpa [sortByKey] using foldl_insertByKey key l [] List.Pairwise.nil

/-! ### Sweeps (R81) -/

theorem zipIdx_places (zmap : List ZoneBoot) (c : Cue) (n : Nat) :
    (((zmap.zipIdx n).filter (fun e => touches c e.1)).map (·.2)).Pairwise (· < ·) ∧
      ∀ i, i ∈ ((zmap.zipIdx n).filter (fun e => touches c e.1)).map (·.2) ↔
        n ≤ i ∧ ∃ b, zmap[i - n]? = some b ∧ touches c b = true := by
  constructor
  · refine List.Pairwise.map _ (R := fun a b => a.2 < b.2) (fun _ _ h => h) (List.Pairwise.filter _ ?_)
    rw [List.pairwise_iff_getElem]
    intro i j hi hj hij
    simp; omega
  · intro i
    simp only [List.mem_map, List.mem_filter, Prod.exists, exists_eq_right, List.mem_zipIdx_iff_le_and_getElem?_sub]
    constructor
    · rintro ⟨b, ⟨h1, h2⟩, h3⟩; exact ⟨h1, b, h2, h3⟩
    · rintro ⟨h1, b, h2, h3⟩; exact ⟨b, ⟨h1, h2⟩, h3⟩

/-- The zones of a SWEEP cue, each once, in the order it reaches them (R81). -/
theorem sweepZones_spec (zmap : List ZoneBoot) (c : Cue) :
    (sweepZones zmap c).Nodup ∧ (sweepZones zmap c).Pairwise (fun i j => reachedAt zmap c i ≤ reachedAt zmap c j) ∧
      ∀ i, i ∈ sweepZones zmap c ↔ touchesAt zmap c i := by
  have hs := sortByKey_spec (sweepFrameAt zmap c) (((zmap.zipIdx 0).filter (fun e => touches c e.1)).map (·.2))
  have hz := zipIdx_places zmap c 0
  refine ⟨hs.1.nodup_iff.2 (hz.1.imp (fun h => by omega)), ?_, fun i => ?_⟩
  · have := hs.2
    simp only [sweepFrameAt_eq] at this
    exact this
  · rw [← touches_iff]
    have := (hs.1.mem_iff (a := i)).trans (hz.2 i)
    simp only [Nat.zero_le, true_and, Nat.sub_zero] at this
    exact this

theorem reachedAt_ge (zmap : List ZoneBoot) (c : Cue) (i : Nat) : c.time ≤ reachedAt zmap c i := Nat.le_add_right _ _

/-- A SWEEP cue is taken (R81): what it makes of the context, but for the position, and when the sweep list overflows. -/
theorem takeSweep_taken (zmap : List ZoneBoot) (c : Cue) (later : List Cue) (x : Context)
    (h : c.action = .sweepUp ∨ c.action = .sweepDown) (hw : x.window = c :: later) :
    (∃ x', CueTaken zmap c later x x' ∧
        (takeSweep zmap c (dropHead x)).1 = { x' with position := headTaken c later x.position }) ∧
      ((takeSweep zmap c (dropHead x)).2 = true ↔
        8 ≤ x.sweeps.length ∧ ∃ i, touchesAt zmap c i ∧ reachedAt zmap c i ≠ c.time) := by
  rw [dropHead_eq hw]
  generalize headTaken c later x.position = y
  set d : Context := { x with window := later, position := y } with hd
  have hds : d.sweeps = x.sweeps := rfl
  obtain ⟨hnd, hpw, hmem⟩ := sweepZones_spec zmap c
  have hnow : ∀ i, i ∈ (sweepZones zmap c).filter (fun i => sweepFrameAt zmap c i == c.time) ↔
      touchesAt zmap c i ∧ reachedAt zmap c i = c.time := by
    intro i; simp [hmem, sweepFrameAt_eq]
  have hlater : ∀ i, i ∈ (sweepZones zmap c).filter (fun i => sweepFrameAt zmap c i != c.time) ↔
      touchesAt zmap c i ∧ reachedAt zmap c i ≠ c.time := by
    intro i; simp [hmem, sweepFrameAt_eq]
  have hset : ¬ (c.action = .set ∨ c.action = .fade) := by rcases h with h | h <;> simp [h]
  have hzs : ∀ (zs : List Nat) (e : Int) (z0 : List ZoneTracks) (c : Cue),
      ZonesTake c e (fun i => i ∈ zs ∧ i < zmap.length) z0 (mapZones zmap (fun i _ => zs.contains i) (writeRecord c e) z0) := by
    intro zs e z0 c
    refine (mapZones_take zmap (fun i _ => zs.contains i) c e z0).congr fun i => ?_
    constructor
    · rintro ⟨b, hb, hc⟩
      exact ⟨by simpa using hc, (List.getElem?_eq_some_iff.1 hb).1⟩
    · rintro ⟨hc, hl⟩
      exact ⟨zmap[i], List.getElem?_eq_getElem hl, by simpa using hc⟩
  have hlt : ∀ i, touchesAt zmap c i → i < zmap.length := fun i ⟨b, hb, _⟩ => (List.getElem?_eq_some_iff.1 hb).1
  have htake := hzs ((sweepZones zmap c).filter (fun i => sweepFrameAt zmap c i == c.time)) c.time
  have hpw' := hpw.filter (fun i => sweepFrameAt zmap c i != c.time)
  have hnd' := hnd.filter (fun i => sweepFrameAt zmap c i != c.time)
  unfold CueTaken
  simp only [if_neg hset]
  generalize hL : (sweepZones zmap c).filter (fun i => sweepFrameAt zmap c i != c.time) = L at *
  generalize hN : (sweepZones zmap c).filter (fun i => sweepFrameAt zmap c i == c.time) = N at *
  have hN' : ∀ z0, ZonesTake c c.time (fun i => touchesAt zmap c i ∧ reachedAt zmap c i = c.time) z0
      (mapZones zmap (fun i _ => N.contains i) (writeRecord c c.time) z0) := fun z0 =>
    (htake z0 c).congr fun i => ⟨fun hi => (hnow i).1 hi.1, fun hi => ⟨(hnow i).2 hi, hlt i hi.1⟩⟩
  by_cases hl : L = []
  · have hall : ∀ i, touchesAt zmap c i → reachedAt zmap c i = c.time := by
      intro i hi
      by_contra hne
      have := (hlater i).2 ⟨hi, hne⟩
      simp [hl] at this
    have hts : takeSweep zmap c d = (takeSweepItems zmap c N c.time d, false) := by
      simp only [takeSweep, hL, hN, hl, if_true]
    rw [hts]
    refine ⟨⟨{ x with window := later, zones := mapZones zmap (fun i _ => N.contains i) (writeRecord c c.time) x.zones },
      ⟨mapZones zmap (fun i _ => N.contains i) (writeRecord c c.time) x.zones, L, hnd', hpw', hlater, ?_⟩, rfl⟩, ?_⟩
    · rw [if_pos hl]
      refine ⟨(hN' x.zones).congr fun i => ⟨fun hi => hi.1, fun hi => ⟨hi, hall i hi⟩⟩, rfl⟩
    · constructor
      · simp
      · rintro ⟨-, i, hi, hne⟩; exact absurd (hall i hi) hne
  · have hex : ∃ i, touchesAt zmap c i ∧ reachedAt zmap c i ≠ c.time := by
      obtain ⟨i, hi⟩ := List.exists_mem_of_ne_nil L hl
      exact ⟨i, (hlater i).1 hi⟩
    cases hsw : x.sweeps with
    | nil =>
      have hts : takeSweep zmap c d =
          ({ takeSweepItems zmap c N c.time d with sweeps := [{ cue := c, todo := L }] }, false) := by
        simp only [takeSweep, hL, hN, if_neg hl, hds, hsw]
      rw [hts]
      refine ⟨⟨{ x with
          window := later, zones := mapZones zmap (fun i _ => N.contains i) (writeRecord c c.time) x.zones
          sweeps := [{ cue := c, todo := L }] },
        ⟨mapZones zmap (fun i _ => N.contains i) (writeRecord c c.time) x.zones, L, hnd', hpw', hlater, ?_⟩, rfl⟩, by simp⟩
      rw [if_neg hl]
      exact ⟨[], x.zones, fun _ => ⟨rfl, rfl⟩, fun old rest h8 => absurd h8 (by simp), hN' x.zones, rfl⟩
    | cons old rest =>
      by_cases h8 : 8 ≤ (old :: rest).length
      · have hts : takeSweep zmap c d =
            ({ takeSweepItems zmap c N c.time (takeSweepItems zmap old.cue old.todo c.time { d with sweeps := rest }) with
                sweeps := rest ++ [{ cue := c, todo := L }] }, true) := by
          simp only [takeSweep, hL, hN, if_neg hl, hds, hsw, if_pos h8]
          rfl
        rw [hts]
        refine ⟨⟨{ x with
            window := later, sweeps := rest ++ [{ cue := c, todo := L }]
            zones := mapZones zmap (fun i _ => N.contains i) (writeRecord c c.time)
              (mapZones zmap (fun i _ => old.todo.contains i) (writeRecord old.cue c.time) x.zones) },
          ⟨mapZones zmap (fun i _ => N.contains i) (writeRecord c c.time)
            (mapZones zmap (fun i _ => old.todo.contains i) (writeRecord old.cue c.time) x.zones), L, hnd', hpw', hlater, ?_⟩,
          rfl⟩, by simp only [true_iff]; exact ⟨h8, hex⟩⟩
        rw [if_neg hl]
        refine ⟨rest, mapZones zmap (fun i _ => old.todo.contains i) (writeRecord old.cue c.time) x.zones, fun hlt => absurd h8 (by omega), ?_, hN' _, rfl⟩
        · rintro old' rest' - heq
          obtain ⟨rfl, rfl⟩ := List.cons.inj heq
          exact ⟨rfl, hzs old.todo c.time x.zones old.cue⟩
      · have hts : takeSweep zmap c d =
            ({ takeSweepItems zmap c N c.time d with sweeps := (old :: rest) ++ [{ cue := c, todo := L }] }, false) := by
          simp only [takeSweep, hL, hN, if_neg hl, hds, hsw, if_neg h8]
          simp [takeSweepItems, hds, hsw]
        rw [hts]
        refine ⟨⟨{ x with
            window := later, zones := mapZones zmap (fun i _ => N.contains i) (writeRecord c c.time) x.zones
            sweeps := (old :: rest) ++ [{ cue := c, todo := L }] },
          ⟨mapZones zmap (fun i _ => N.contains i) (writeRecord c c.time) x.zones, L, hnd', hpw', hlater, ?_⟩, rfl⟩,
          by simp only [Bool.false_eq_true, false_iff]; exact fun hh => h8 hh.1⟩
        rw [if_neg hl]
        exact ⟨old :: rest, x.zones, fun _ => ⟨rfl, rfl⟩, fun _ _ hge => absurd hge h8, hN' x.zones, rfl⟩

/-! ### The next item, and where an advance stops (R75, R76, R79) -/

theorem nextSweepItem_mem (zmap : List ZoneBoot) (ws : List Sweep) (c : Cue) (i e : Nat) (h : nextSweepItem zmap ws = some (c, i, e)) :
    e = reachedAt zmap c i ∧ ∃ w ∈ ws, w.cue = c ∧ i ∈ w.todo := by
  induction ws generalizing c i e with
  | nil => simp [nextSweepItem] at h
  | cons w ws ih =>
    unfold nextSweepItem at h
    split at h
    · obtain ⟨he, w', hw', h'⟩ := ih c i e h
      exact ⟨he, w', List.mem_cons_of_mem _ hw', h'⟩
    · rename_i i' _ htodo _
      cases h
      exact ⟨sweepFrameAt_eq _ _ _, w, List.mem_cons_self, rfl, by simp [htodo]⟩
    · rename_i i' _ c' j' e' htodo hr
      split at h
      · cases h
        exact ⟨sweepFrameAt_eq _ _ _, w, List.mem_cons_self, rfl, by simp [htodo]⟩
      · cases h
        obtain ⟨he, w', hw', h'⟩ := ih _ _ _ hr
        exact ⟨he, w', List.mem_cons_of_mem _ hw', h'⟩

/-- Beyond the sweeps and the window's head there is no item at or before a show frame. -/
theorem nextItem_beyond (zmap : List ZoneBoot) (x : Context) (k : Int) (hs : sweepsBeyond zmap x.sweeps k)
    (hw : ∀ d, x.window.head? = some d → k < d.time) (it : Item) (h : nextItem zmap x = some it) : k < it.frame := by
  have hsw : ∀ c i e, nextSweepItem zmap x.sweeps = some (c, i, e) → k < e := by
    intro c i e hc
    obtain ⟨he, w, hw, rfl, hi⟩ := nextSweepItem_mem zmap _ _ _ _ hc
    rw [he]; exact hs w hw i hi
  unfold nextItem at h
  split at h
  · cases h
  · rename_i _ hwin; cases h; exact hw _ (by simp [hwin])
  · rename_i _ hc _; cases h; exact hsw _ _ _ hc
  · rename_i hc hwin
    split at h
    · cases h; exact hsw _ _ _ hc
    · cases h; exact hw _ (by simp [hwin])

/-- A cue due ahead of every sweep item is the next item (R76). -/
theorem nextItem_cue (zmap : List ZoneBoot) (x : Context) (k : Int) (c : Cue) (later : List Cue) (hs : sweepsBeyond zmap x.sweeps k)
    (hw : x.window = c :: later) (hc : (c.time : Int) ≤ k) : nextItem zmap x = some (.cue c) := by
  unfold nextItem
  cases h : nextSweepItem zmap x.sweeps with
  | none => simp [hw]
  | some w =>
    obtain ⟨c', i, e⟩ := w
    obtain ⟨he, w', hw', rfl, hi⟩ := nextSweepItem_mem zmap _ _ _ _ h
    have := hs w' hw' i hi
    simp only [hw]
    rw [if_neg (by rw [he]; omega)]

theorem passCues_end (cs : List Cue) (h : ∃ d ∈ cs, d.action = .endShow) : ∃ d, (passCues cs).getLast? = some d ∧ d.action = .endShow := by
  induction cs with
  | nil => simp at h
  | cons c cs ih =>
    unfold passCues
    split
    · exact ⟨c, by simp, ‹_›⟩
    · rename_i hne
      obtain ⟨d, hd, he⟩ := h
      cases List.mem_cons.1 hd with
      | inl e => exact absurd (e ▸ he) hne
      | inr hm =>
        obtain ⟨d', hd', he'⟩ := ih ⟨d, hm, he⟩
        exact ⟨d', by rw [List.getLast?_cons, hd']; rfl, he'⟩

theorem passCues_open (cs : List Cue) (h : ∀ d ∈ cs, d.action ≠ .endShow) : passCues cs = cs := by
  induction cs with
  | nil => rfl
  | cons c cs ih =>
    unfold passCues
    rw [if_neg (h c List.mem_cons_self), ih fun d hd => h d (List.mem_cons_of_mem _ hd)]

/-- A window that holds END, or whose last cue does not lie before the target, tells every item an advance needs (R79). -/
theorem windowReach_tells (r : Row) (k : Int)
    (h : (∃ d ∈ r.ctx.window, d.action = .endShow) ∨ ∃ d, r.ctx.window.getLast? = some d ∧ k ≤ d.time) (t : Int) (ht : t ≤ k) :
    windowReach r t = t := by
  unfold windowReach
  split
  · rename_i hw; rcases h with ⟨d, hd, _⟩ | ⟨d, hd, _⟩ <;> simp [hw] at hd
  · by_cases hE : ∃ d ∈ r.ctx.window, d.action = .endShow
    · obtain ⟨d, hd, he⟩ := passCues_end _ hE
      simp [openEnd, hd, he]
    · have hno : ∀ d ∈ r.ctx.window, d.action ≠ .endShow := fun d hd he => hE ⟨d, hd, he⟩
      rw [passCues_open _ hno]
      rcases h with h | ⟨d, hd, hk⟩
      · exact absurd h hE
      · simp only [openEnd, hd]
        split
        · rename_i t' ht'
          split at ht'
          · cases ht'
          · cases ht'; rw [if_pos (by omega)]
        · rfl

/-- An advance takes nothing beyond its target (R75). -/
theorem windowReach_le (r : Row) (t : Int) : windowReach r t ≤ t := by
  unfold windowReach
  split
  · omega
  · split
    · split
      · omega
      · split <;> omega
    · omega

/-- Nothing is asked for where the window was not emptied, or told the pass's END (R88, R89). -/
theorem noteEmptied_eq {p : Fin 4} {r : Row} {s : State}
    (h : ∀ r', s.rows[p] = some r' → r'.ctx.window = [] → openEnd (passCues r.ctx.window) = none) : noteEmptied p r s = s := by
  unfold noteEmptied
  cases hr : s.rows[p] with
  | none => rfl
  | some r' =>
    by_cases hw : r'.ctx.window = []
    · simp [h r' hr hw]
    · cases openEnd (passCues r.ctx.window) <;> simp [hw, askFlushIf]

/-- An advance of one item and of none (R75). -/
theorem advanceAll_one (p : Fin 4) (s : State) (r : Row) (h : Halt) (t : State) (hr : s.rows[p] = some r)
    (h1 : advanceOne p s = (h, t)) (hh : h ≠ .more) : advanceAll p s = (h, t) := by
  unfold advanceAll
  simp only [hr]
  unfold itemFuel
  simp only [advanceLoop, h1]
  cases h <;> first | rfl | exact absurd rfl hh

theorem advanceAll_two (p : Fin 4) (s u : State) (r : Row) (h : Halt) (t : State) (hr : s.rows[p] = some r)
    (h1 : advanceOne p s = (.more, u)) (h2 : advanceOne p u = (h, t)) (hh : h ≠ .more) : advanceAll p s = (h, t) := by
  unfold advanceAll
  simp only [hr]
  unfold itemFuel
  simp only [advanceLoop, h1, h2]
  cases h <;> first | rfl | exact absurd rfl hh

theorem advanceAll_three (p : Fin 4) (s u v : State) (r : Row) (h : Halt) (t : State) (hr : s.rows[p] = some r)
    (h1 : advanceOne p s = (.more, u)) (h2 : advanceOne p u = (.more, v)) (h3 : advanceOne p v = (h, t)) (hh : h ≠ .more) :
    advanceAll p s = (h, t) := by
  unfold advanceAll
  simp only [hr]
  unfold itemFuel
  simp only [advanceLoop, h1, h2, h3]
  cases h <;> first | rfl | exact absurd rfl hh

/-- An advance with no item left up to its target moves the position there and is done (R75). -/
theorem advanceOne_done (p : Fin 4) (s : State) (r : Row) (k : Int) (hr : s.rows[p] = some r)
    (hs : sweepsBeyond (zonesOf s) r.ctx.sweeps k) (hw : cuesBeyond r.ctx.window k ∨ (r.ctx.window = [] ∧ k ≤ r.ctx.position))
    (ht : advanceTarget r (frameNow s) ≤ k) :
    advanceOne p s = (.done, modCtx p (moveTo (advanceTarget r (frameNow s))) s) := by
  unfold advanceOne
  simp only [hr]
  have hreach : windowReach r (advanceTarget r (frameNow s)) = advanceTarget r (frameNow s) := by
    rcases hw with hw | ⟨hw, hk⟩
    · exact windowReach_tells r k (hw.2.imp id fun ⟨d, h1, h2⟩ => ⟨d, h1, le_of_lt h2⟩) _ ht
    · simp only [windowReach, hw]; omega
  rw [hreach]
  cases h : nextItem (zonesOf s) r.ctx with
  | none => simp
  | some it =>
    have := nextItem_beyond _ _ _ hs (by rcases hw with hw | ⟨hw, -⟩ <;> [exact hw.1; simp [hw]]) it h
    simp [show advanceTarget r (frameNow s) < it.frame by omega]

end Sys2Proof.Machine
end

