-- ==== Sys2Proof/Laws/Boundary.lean ====
section
/-!
SUPPORT. What the boundary of a tower frame makes of one player's row (R75 to R87, R91), case by case in the words of Safety: one lemma
for each item that may be due, which proofs cite in place of unfolding the advance.
-/

namespace Sys2Proof.Machine

set_option Elab.async false

@[simp] theorem frameNow_setRow (p : Fin 4) (r : Option Row) (s : State) : frameNow (setRow p r s) = frameNow s := rfl

@[simp] theorem frameNow_bump (c : Counter) (s : State) : frameNow (bump c s) = frameNow s := rfl

@[simp] theorem askFlushIf_rows (b : Bool) (s : State) : (askFlushIf b s).rows = s.rows := by cases b <;> rfl

@[simp] theorem frameNow_askFlush (s : State) : frameNow (askFlush s) = frameNow s := rfl

@[simp] theorem zonesOf_setRow (p : Fin 4) (r : Option Row) (s : State) : zonesOf (setRow p r s) = zonesOf s := rfl

@[simp] theorem headerOr_setRow (p : Fin 4) (r : Option Row) (s : State) (n : Nat) : headerOr (setRow p r s) n = headerOr s n := rfl

/-- A listen-only station takes no duty (R65). -/
@[simp] theorem takesDuty_zero (n : Nat) (r : Row) : takesDuty 0 n r = r := by simp [takesDuty]

/-- An advance that has come to its end ends a starvation (R79). -/
theorem noteStarved_done {p : Fin 4} {s : State} {r : Row} (hr : s.rows[p] = some r) :
    noteStarved p .done s = setRow p (some { r with ctx := { r.ctx with starved := false } }) s := by
  unfold noteStarved
  simp only [hr]
  cases h : r.ctx.starved
  · have : ({ r with ctx := { r.ctx with starved := false } } : Row) = r := by
      rcases r with ⟨_,_,_,_,_,_,_,_,_,_,_,_,_,x⟩; rcases x with ⟨_,_,_,_,_,sv,_,_,_,_,_,_⟩; simp only at h; subst h; rfl
    rw [this]; simp
    unfold setRow
    have : s.rows.set p (some r) = s.rows := by
      apply Vector.ext; intro i hi
      by_cases e : (p : Nat) = i
      · subst e; simp; exact hr.symm
      · simp [Vector.getElem_set, e]
    rw [this]
  · simp [modCtx_eq _ hr]

/-- The row after a boundary whose advance came to its end (R75, R79). -/
theorem advanceAtBoundary_done {p : Fin 4} {s u : State} {r r' : Row} (hr : s.rows[p] = some r)
    (hlt : r.ctx.position < advanceTarget r (frameNow s)) (ha : advanceAll p s = (.done, u)) (hu : u.rows[p] = some r') :
    (advanceAtBoundary p s).rows[p] = some { r' with ctx := { r'.ctx with starved := false } } := by
  unfold advanceAtBoundary
  simp only [hr]
  have hu' : (noteEmptied p r u).rows[p] = some r' := by simpa using hu
  simp only [if_neg (show ¬ advanceTarget r (frameNow s) ≤ r.ctx.position by omega), ha, noteStarved_done hu', setRow_get]

/-- The row after a boundary whose target is not beyond the position (R75). -/
theorem advanceAtBoundary_hold {p : Fin 4} {s : State} {r : Row} (hr : s.rows[p] = some r)
    (hle : advanceTarget r (frameNow s) ≤ r.ctx.position) :
    advanceAtBoundary p s = setRow p (some { r with ctx := { r.ctx with starved := false } }) s := by
  unfold advanceAtBoundary
  simp only [hr]
  simp only [if_pos hle, noteStarved_done hr]

/-- The target show frame of a row that its end frame does not hold back (R75, R76). -/
theorem advanceTarget_eq {r : Row} {n : Nat} (h : r.suspended = true → r.phase = .running → ∀ e, r.endFrame = some e → n ≤ e) :
    advanceTarget r n = (n : Int) - r.anchor := by
  unfold advanceTarget
  dsimp only
  split
  · rename_i hs hp he; have := h hs hp _ he; omega
  · rfl

/-- With no item left up to its target an advance moves the position there (R75). -/
theorem advanceAll_to_target {p : Fin 4} {s : State} {r : Row} {k : Int} (hr : s.rows[p] = some r) (hlt : r.ctx.position < k)
    (hk : advanceTarget r (frameNow s) = k) (hs : sweepsBeyond (zonesOf s) r.ctx.sweeps k) (hw : cuesBeyond r.ctx.window k) :
    advanceAll p s = (.done, setRow p (some { r with ctx := { r.ctx with position := k } }) s) := by
  rw [advanceAll_one p s r _ _ hr (advanceOne_done p s r k hr hs (.inl hw) (by omega)) (by simp)]
  rw [modCtx_eq _ hr]; simp only [moveTo, hk]
  rw [show max r.ctx.position k = k by omega]

/-- With no item left up to its target the next step of an advance moves the position there (R75). -/
theorem advanceOne_to_target {p : Fin 4} {s : State} {r : Row} {k : Int} (hr : s.rows[p] = some r) (hlt : r.ctx.position ≤ k)
    (hk : advanceTarget r (frameNow s) = k) (hs : sweepsBeyond (zonesOf s) r.ctx.sweeps k) (hw : cuesBeyond r.ctx.window k) :
    advanceOne p s = (.done, setRow p (some { r with ctx := { r.ctx with position := k } }) s) := by
  rw [advanceOne_done p s r k hr hs (.inl hw) (by omega)]
  rw [modCtx_eq _ hr]; simp only [moveTo, hk]
  rw [show max r.ctx.position k = k by omega]

/-- The next step of an advance whose next item is the cue at the head of the window (R75, R76). -/
theorem advanceOne_cue {p : Fin 4} {s : State} {r : Row} {k : Int} {c : Cue} {later : List Cue} (hr : s.rows[p] = some r)
    (hk : advanceTarget r (frameNow s) = k) (hs : sweepsBeyond (zonesOf s) r.ctx.sweeps k) (hw : r.ctx.window = c :: later)
    (hc : (c.time : Int) ≤ k)
    (htell : (∃ d ∈ r.ctx.window, d.action = .endShow) ∨ ∃ d, r.ctx.window.getLast? = some d ∧ k ≤ d.time)
    (hpe : pastEndFrame r c.time = false) :
    advanceOne p s =
        match c.action with
        | .set | .fade => (.more, modCtx p (fun x => takeZoneCue (zonesOf s) c (dropHead x)) s)
        | .sweepUp | .sweepDown =>
          (.more, if (takeSweep (zonesOf s) c (dropHead r.ctx)).2 then bump .sweepOverflow (modCtx p (fun _ =>
              (takeSweep (zonesOf s) c (dropHead r.ctx)).1) s) else (modCtx p (fun _ => (takeSweep (zonesOf s) c (dropHead r.ctx)).1)
              s))
        | .mark => (.more, takeMark p c r s)
        | .gate =>
          if passesGates r then (.more, modCtx p (fun x => { dropHead x with lateWatch := none }) s)
          else if r.suspended then (.done, askFlushIf (gateRaises r c) (modCtx p (moveTo c.time) s))
          else takeGate p c r s
        | .endShow => if r.suspended then (.done, modCtx p (moveTo c.time) s) else takeEnd p c r s
        | .other => (.more, modCtx p dropHead s) := by
  unfold advanceOne
  simp only [hr, hk, windowReach_tells r k htell k (le_refl k), nextItem_cue _ _ _ _ _ hs hw hc, Item.frame]
  rw [if_neg (by omega), hpe]
  simp only [Bool.false_eq_true, if_false] <;> cases c.action <;> rfl

/-- A window tells the items up to a frame when what follows its first cue does (R79). -/
theorem window_tells_cons {c : Cue} {later : List Cue} {k : Int} (h : cuesAfter c later k) :
    (∃ d ∈ c :: later, d.action = .endShow) ∨ ∃ d, (c :: later).getLast? = some d ∧ k ≤ d.time := by
  rcases h with h | ⟨rfl, h⟩
  · rcases h.2 with ⟨d, hd, he⟩ | ⟨d, hd, hk⟩
    · exact .inl ⟨d, List.mem_cons_of_mem _ hd, he⟩
    · refine .inr ⟨d, ?_, le_of_lt hk⟩
      rw [List.getLast?_cons, hd]; rfl
  · exact .inr ⟨c, rfl, le_of_eq h.symm⟩

/-- What an advance finds in the window once a cue has been taken (R79). -/
theorem cuesAfter_taken {c : Cue} {later : List Cue} {k k' y : Int} (h : cuesAfter c later k) (hk : k' ≤ k) :
    cuesBeyond later k' ∨ (later = [] ∧ k' ≤ headTaken c later y) := by
  rcases h with h | ⟨rfl, h⟩
  · refine .inl ⟨fun d hd => lt_of_le_of_lt hk (h.1 d hd), h.2.imp id fun ⟨d, h1, h2⟩ => ⟨d, h1, lt_of_le_of_lt hk h2⟩⟩
  · exact .inr ⟨rfl, by simp [headTaken]; omega⟩

theorem setRow_self {p : Fin 4} {s : State} {r : Row} (hr : s.rows[p] = some r) : setRow p (some r) s = s := by
  unfold setRow
  have : s.rows.set p (some r) = s.rows := by
    apply Vector.ext; intro i hi
    by_cases e : (p : Nat) = i
    · subst e; simp; exact hr.symm
    · simp [e]
  rw [this]

/-- A row as its player advances at a boundary: an ARMED one has become RUNNING (R77). -/
def begunRow (r : Row) : Row := if r.phase = .armed then { r with phase := .running } else r

/-- A player that advances at a boundary: what its work is, and its target show frame (R75, R77, R91). -/
theorem playerBoundary_advances {n : Nat} {p : Fin 4} {s : State} {r : Row} (hr : s.rows[p] = some r) (hn : frameNow s = n)
    (ha : advancesAt (headerOr s r.showNo).release n r) :
    playerBoundary n p s = advanceAtBoundary p (setRow p (some (begunRow r)) s) ∧
      advanceTarget (begunRow r) n = (n : Int) - r.anchor ∧
      (∀ f, pastEndFrame (begunRow r) f = true → (n:Int) - r.anchor < f) := by
  unfold advancesAt at ha
  unfold playerBoundary
  simp only [hr]
  cases hp : r.phase with
  | armed =>
    simp only [hp] at ha
    obtain ⟨h1, h2, h3, h4⟩ := ha
    refine ⟨?_, ?_, ?_⟩
    · simp only [h1, h2, releaseOver, hp, begunRow, Option.isSome_none, Bool.false_eq_true, if_false, if_true]
      cases he : r.endFrame with
      | none => simp [h3]
      | some e => have := h4 e he; simp [h3, show ¬ e ≤ n by omega]
    · rw [begunRow, if_pos hp, advanceTarget_eq (by simp [h1])]
    · intro f hf; simp [begunRow, hp, pastEndFrame, h2] at hf
  | running =>
    simp only [hp] at ha
    obtain ⟨h1, h2⟩ := ha
    have hb : begunRow r = r := by simp [begunRow, hp]
    rw [hb, setRow_self hr]
    refine ⟨?_, advanceTarget_eq (fun _ _ e he => Nat.le_of_lt (h2 e he)), ?_⟩
    · cases hs : r.suspended
      · simp only [hs, Bool.false_eq_true, false_or] at h1
        simp only [h1, releaseOver, hp, Option.isSome_none, Bool.false_eq_true, if_false]
        cases he : r.endFrame with
        | none => simp
        | some e => have := h2 e he; simp [show ¬ e ≤ n by omega]
      · simp
    · intro f hf
      simp only [pastEndFrame] at hf
      split at hf
      · rename_i he; have := h2 _ he; simp at hf; omega
      · simp at hf
  | gated g => simp [hp] at ha
  | releasing st w =>
    simp only [hp] at ha
    have hb : begunRow r = r := by simp [begunRow, hp]
    rw [hb, setRow_self hr]
    refine ⟨?_, advanceTarget_eq (by simp [hp]), by intro f hf; simp [pastEndFrame, hp] at hf⟩
    rcases ha with h | ⟨h1, h2⟩
    · simp [h]
    · cases hs : r.suspended
      · simp only [h1, releaseOver, hp, Option.isSome_none, Bool.false_eq_true, if_false]
        simp [show ¬ st + (headerOr s r.showNo).release ≤ n by omega]
      · simp

/-- What becoming RUNNING leaves as it was. -/
theorem begunRow_fields (r : Row) : (begunRow r).ctx = r.ctx ∧ (begunRow r).anchor = r.anchor ∧ (begunRow r).suspended = r.suspended ∧
    (begunRow r).showNo = r.showNo ∧ (begunRow r).marks = r.marks
   ∧ (begunRow r).passes = r.passes ∧ (begunRow r).mode = r.mode ∧ (begunRow r).endFrame = r.endFrame := by
  unfold begunRow; split <;> simp

/-- The position holds at a boundary (R75). -/
theorem playerBoundary_holds {n : Nat} {p : Fin 4} {s : State} {r : Row} (hr : s.rows[p] = some r) (hn : frameNow s = n)
    (ha : advancesAt (headerOr s r.showNo).release n r) (hk : (n : Int) - r.anchor ≤ r.ctx.position) :
    (playerBoundary n p s).rows[p] = some { begunRow r with ctx := { r.ctx with position := r.ctx.position, starved := false } } := by
  obtain ⟨h1, h2, -⟩ := playerBoundary_advances hr hn ha
  rw [h1, advanceAtBoundary_hold (setRow_get _ _ _) (by rw [frameNow_setRow, hn, h2, (begunRow_fields r).1]; exact hk), setRow_get,
      (begunRow_fields r).1]

/-- No item is due at a boundary (R75). -/
theorem playerBoundary_no_item {n : Nat} {p : Fin 4} {s : State} {r : Row} (hr : s.rows[p] = some r) (hn : frameNow s = n)
    (ha : advancesAt (headerOr s r.showNo).release n r) (hk : r.ctx.position < (n : Int) - r.anchor)
    (hs : sweepsBeyond (zonesOf s) r.ctx.sweeps ((n : Int) - r.anchor)) (hw : cuesBeyond r.ctx.window ((n : Int) - r.anchor)) :
    (playerBoundary n p s).rows[p] = some { begunRow r with ctx := { r.ctx with position := (n : Int) - r.anchor, starved := false } }
        := by
  obtain ⟨h1, h2, -⟩ := playerBoundary_advances hr hn ha
  have hg := setRow_get p (some (begunRow r)) s
  have := advanceAll_to_target (k := (n : Int) - r.anchor) hg (by rw [(begunRow_fields r).1]; exact hk) (by rw [frameNow_setRow, hn,
      h2]) (by rw [(begunRow_fields r).1]; exact hs) (by rw [(begunRow_fields r).1]; exact hw)
  rw [h1, advanceAtBoundary_done hg (by rw [frameNow_setRow, hn, h2, (begunRow_fields r).1]; exact hk) this (setRow_get _ _ _)]
  simp [(begunRow_fields r).1]

/-- An item up to the target does not lie past the end frame. -/
theorem begunRow_not_past {n : Nat} {r : Row} {f : Nat} (h : ∀ f, pastEndFrame (begunRow r) f = true → (n:Int) - r.anchor < f)
    (hf : (f:Int) ≤ (n:Int) - r.anchor) : pastEndFrame (begunRow r) f = false := by
  by_contra hh
  have := h f (by simpa using hh)
  omega

/-- A cue taken leaves the window's later cues, and the position where it was. -/
theorem cueTaken_keeps {zmap : List ZoneBoot} {c : Cue} {later : List Cue} {x x' : Context} (h : CueTaken zmap c later x x') :
    x'.window = later ∧ x'.position = x.position := by
  unfold CueTaken at h
  split at h
  · obtain ⟨zs, -, rfl⟩ := h; exact ⟨rfl, rfl⟩
  · obtain ⟨zs, todo, -, -, hm, h⟩ := h
    split at h
    · obtain ⟨-, rfl⟩ := h; exact ⟨rfl, rfl⟩
    · obtain ⟨kept, mid, h1, h2, -, rfl⟩ := h; exact ⟨rfl, rfl⟩

/-- A cue taken leaves no sweep item up to a frame where there was none, but for its own (R80, R81). -/
theorem cueTaken_beyond {zmap : List ZoneBoot} {c : Cue} {later : List Cue} {x x' : Context} {k : Int} (h : CueTaken zmap c later x x')
    (hs : sweepsBeyond zmap x.sweeps k) (hk : c.action = .set ∨ c.action = .fade ∨ (c.time : Int) = k) :
    sweepsBeyond zmap x'.sweeps k ∧ x'.window = later ∧ x'.position = x.position := by
  unfold CueTaken at h
  split at h
  · obtain ⟨zs, -, rfl⟩ := h; exact ⟨hs, rfl, rfl⟩
  · rename_i hne
    have hk : (c.time : Int) = k := by rcases hk with h | h | h <;> simp_all
    obtain ⟨zs, todo, -, -, hm, h⟩ := h
    split at h
    · obtain ⟨-, rfl⟩ := h; exact ⟨hs, rfl, rfl⟩
    · obtain ⟨kept, mid, h1, h2, -, rfl⟩ := h
      refine ⟨?_, rfl, rfl⟩
      intro w hw i hi
      simp only [List.mem_append, List.mem_singleton] at hw
      rcases hw with hw | rfl
      · have : w ∈ x.sweeps := by
          by_cases h8 : x.sweeps.length < 8
          · rw [← (h1 h8).1]; exact hw
          · cases hsw : x.sweeps with
            | nil => simp [hsw] at h8
            | cons o rest => rw [(h2 o rest (by omega) hsw).1] at hw; simp [hw]
        exact hs w this i hi
      · have := (hm i).1 hi
        have := reachedAt_ge zmap c i
        simp only; omega

/-- One item is due at a boundary, and it is taken (R75). -/
theorem playerBoundary_one_item {n : Nat} {p : Fin 4} {s v : State} {r r1 : Row} (hr : s.rows[p] = some r) (hn : frameNow s = n)
    (ha : advancesAt (headerOr s r.showNo).release n r) (hk : r.ctx.position < (n : Int) - r.anchor)
    (h1 : advanceOne p (setRow p (some (begunRow r)) s) = (.more, v)) (hv : v.rows[p] = some r1) (hvn : frameNow v = n)
    (hvz : zonesOf v = zonesOf s) (k : Int) (ht : advanceTarget r1 n ≤ k) (hs : sweepsBeyond (zonesOf s) r1.ctx.sweeps k)
    (hw : cuesBeyond r1.ctx.window k ∨ (r1.ctx.window = [] ∧ k ≤ r1.ctx.position)) :
    (playerBoundary n p s).rows[p] = some { r1 with ctx := { r1.ctx with position := max r1.ctx.position (advanceTarget r1 n), starved := false } } := by
  obtain ⟨a1, a2, -⟩ := playerBoundary_advances hr hn ha
  have hg := setRow_get p (some (begunRow r)) s
  have hstop := advanceOne_done p v r1 k hv (by rw [hvz]; exact hs) hw (by rw [hvn]; exact ht)
  have := advanceAll_two p _ v _ _ _ hg h1 hstop (by simp)
  rw [a1, advanceAtBoundary_done hg (by rw [frameNow_setRow, hn, a2, (begunRow_fields r).1]; exact hk) this
      (by rw [modCtx_eq _ hv, setRow_get])]
  rw [hvn]; rfl

/-- The advance of a boundary stops at its first item (R75). -/
theorem playerBoundary_stops {n : Nat} {p : Fin 4} {s v : State} {r r1 : Row} (hr : s.rows[p] = some r) (hn : frameNow s = n)
    (ha : advancesAt (headerOr s r.showNo).release n r) (hk : r.ctx.position < (n : Int) - r.anchor)
    (h1 : advanceOne p (setRow p (some (begunRow r)) s) = (.done, v)) (hv : v.rows[p] = some r1) :
    (playerBoundary n p s).rows[p] = some { r1 with ctx := { r1.ctx with starved := false } } := by
  obtain ⟨a1, a2, -⟩ := playerBoundary_advances hr hn ha
  have hg := setRow_get p (some (begunRow r)) s
  have := advanceAll_one p _ _ _ _ hg h1 (by simp)
  rw [a1, advanceAtBoundary_done hg (by rw [frameNow_setRow, hn, a2, (begunRow_fields r).1]; exact hk) this hv]

/-- The advance of a boundary ends the instance at its first item. -/
theorem playerBoundary_ends {n : Nat} {p : Fin 4} {s v : State} {r : Row} (hr : s.rows[p] = some r) (hn : frameNow s = n)
    (ha : advancesAt (headerOr s r.showNo).release n r) (hk : r.ctx.position < (n : Int) - r.anchor)
    (h1 : advanceOne p (setRow p (some (begunRow r)) s) = (.done, v)) (hv : v.rows[p] = none) :
    (playerBoundary n p s) = v := by
  obtain ⟨a1, a2, -⟩ := playerBoundary_advances hr hn ha
  have hg := setRow_get p (some (begunRow r)) s
  have := advanceAll_one p _ _ _ _ hg h1 (by simp)
  rw [a1]
  unfold advanceAtBoundary
  simp only [hg, if_neg (show ¬ advanceTarget (begunRow r) (frameNow (setRow p (some (begunRow r)) s)) ≤
      (begunRow r).ctx.position by rw [frameNow_setRow, hn, a2, (begunRow_fields r).1]; omega), this]
  simp [noteStarved, noteEmptied, hv]

/-- The first step of a boundary's advance whose next item is a cue (R75, R76). -/
theorem advanceOne_boundary_cue {n : Nat} {p : Fin 4} {s : State} {r : Row} {c : Cue} {later : List Cue} (hr : s.rows[p] = some r) (hn :
    frameNow s = n)
    (ha : advancesAt (headerOr s r.showNo).release n r)
    (hwin : r.ctx.window = c :: later) (hc : (c.time : Int) ≤ (n : Int) - r.anchor)
    (hs : sweepsBeyond (zonesOf s) r.ctx.sweeps ((n : Int) - r.anchor))
    (htell : (∃ d ∈ r.ctx.window, d.action = .endShow) ∨ ∃ d, r.ctx.window.getLast? = some d ∧ (n : Int) - r.anchor ≤ d.time) :
    let s' := setRow p (some (begunRow r)) s
    let r := begunRow r
    advanceOne p s' =
        match c.action with
        | .set | .fade => (.more, modCtx p (fun x => takeZoneCue (zonesOf s') c (dropHead x)) s')
        | .sweepUp | .sweepDown =>
          (.more, if (takeSweep (zonesOf s') c (dropHead r.ctx)).2 then bump .sweepOverflow (modCtx p (fun _ =>
              (takeSweep (zonesOf s') c (dropHead r.ctx)).1) s') else (modCtx p (fun _ => (takeSweep (zonesOf s') c (dropHead r.ctx)).1)
              s'))
        | .mark => (.more, takeMark p c r s')
        | .gate =>
          if passesGates r then (.more, modCtx p (fun x => { dropHead x with lateWatch := none }) s')
          else if r.suspended then (.done, askFlushIf (gateRaises r c) (modCtx p (moveTo c.time) s'))
          else takeGate p c r s'
        | .endShow => if r.suspended then (.done, modCtx p (moveTo c.time) s') else takeEnd p c r s'
        | .other => (.more, modCtx p dropHead s') :=
  advanceOne_cue (k := (n : Int) - r.anchor) (later := later) (c := c) (setRow_get p (some (begunRow r)) s) (by rw [frameNow_setRow, hn,
      (playerBoundary_advances hr hn ha).2.1])
    (by rw [(begunRow_fields r).1]; exact hs) (by rw [(begunRow_fields r).1]; exact hwin) hc (by rw [(begunRow_fields r).1]; exact
        htell) (begunRow_not_past (playerBoundary_advances hr hn ha).2.2 hc)

/-- A SET, FADE or SWEEP cue is due at a boundary (R80, R81). -/
theorem playerBoundary_zone_cue {n : Nat} {p : Fin 4} {s : State} {r : Row} {c : Cue} {later : List Cue} (hr : s.rows[p] = some r) (hn :
    frameNow s = n)
    (ha : advancesAt (headerOr s r.showNo).release n r) (hk : r.ctx.position < (n : Int) - r.anchor)
    (hwin : r.ctx.window = c :: later) (hc : (c.time : Int) ≤ (n : Int) - r.anchor)
    (hs : sweepsBeyond (zonesOf s) r.ctx.sweeps ((n : Int) - r.anchor)) (hw : cuesAfter c later ((n : Int) - r.anchor))
    (hact : c.action = .set ∨ c.action = .fade ∨ ((c.action = .sweepUp ∨ c.action = .sweepDown) ∧
        (c.time : Int) = (n : Int) - r.anchor)) :
    ∃ x', CueTaken (zonesOf s) c later r.ctx x' ∧ (playerBoundary n p s).rows[p] =
      some { begunRow r with ctx := { x' with position := (n : Int) - r.anchor, starved := false } } := by
  have hg := setRow_get p (some (begunRow r)) s
  have hb := begunRow_fields r
  have h2 := (playerBoundary_advances hr hn ha).2.1
  have hone := advanceOne_boundary_cue hr hn ha hwin hc hs (by rw [hwin]; exact window_tells_cons hw)
  dsimp only at hone
  have key : ∀ x', CueTaken (zonesOf s) c later r.ctx x' →
     ∀ v, v.rows[p] = some { begunRow r with ctx := { x' with position := headTaken c later r.ctx.position } } →
      frameNow v = n → zonesOf v = zonesOf s →
      advanceOne p (setRow p (some (begunRow r)) s) = (.more, v) →
      (playerBoundary n p s).rows[p] = some { begunRow r with ctx := { x' with position := (n : Int) - r.anchor, starved := false } } := by
    intro x' hx v hv hvn hvz h1'
    have ht : advanceTarget { begunRow r with ctx := { x' with position := headTaken c later r.ctx.position } } n =
        (n : Int) - r.anchor := by rw [← h2]; rfl
    obtain ⟨k1, k2, k3⟩ := cueTaken_beyond hx hs (by rcases hact with h | h | h <;> simp_all)
    have := playerBoundary_one_item hr hn ha hk h1' hv hvn hvz ((n : Int) - r.anchor) (by rw [ht]) k1
      (by simp only [k2]; exact cuesAfter_taken hw (le_refl _))
    rw [this, ht]
    simp only [max_eq_right (headTaken_le (later := later) hc (le_of_lt hk))]
  have hzone : c.action = .set ∨ c.action = .fade → ∃ x', CueTaken (zonesOf s) c later r.ctx x' ∧ (playerBoundary n p s).rows[p] =
      some { begunRow r with ctx := { x' with position := (n : Int) - r.anchor, starved := false } } := by
    intro h
    obtain ⟨x', hx, he⟩ := takeZoneCue_taken (zonesOf s) c later r.ctx h hwin
    refine ⟨x', hx, key x' hx (setRow p (some { begunRow r with ctx := takeZoneCue (zonesOf s) c (dropHead r.ctx)})
      (setRow p (some (begunRow r)) s)) (by rw [setRow_get, he]) hn rfl ?_⟩
    rw [hone, modCtx_eq _ hg, hb.1]
    rcases h with h | h <;> simp only [h, zonesOf_setRow]
  rcases hact with h | h | ⟨h, he⟩
  · exact hzone (.inl h)
  · exact hzone (.inr h)
  · obtain ⟨⟨x', hx, hxe⟩, -⟩ := takeSweep_taken (zonesOf s) c later r.ctx h hwin
    refine ⟨x', hx, key x' hx (if (takeSweep (zonesOf s) c (dropHead r.ctx)).2 then bump .sweepOverflow
        (setRow p (some { begunRow r with ctx := (takeSweep (zonesOf s) c (dropHead r.ctx)).1 }) (setRow p (some (begunRow r)) s)) else
        (setRow p (some { begunRow r with ctx := (takeSweep (zonesOf s) c (dropHead r.ctx)).1 }) (setRow p (some (begunRow r)) s))) ?_
        ?_ ?_ ?_⟩
    · rw [← hxe]; split <;> simp [setRow]
    · split <;> exact hn
    · split <;> rfl
    · rw [hone]; rcases h with h | h <;> simp only [h, zonesOf_setRow, hb.1, modCtx_eq _ hg] <;> split <;> rfl

/-- A mark is filed in the row of a player that is not GATED (R67, R85a). -/
theorem markFiled_fileMark {p : Fin 4} {s : State} {r : Row} (m d : Nat) (hr : s.rows[p] = some r) (hg : ∀ g, r.phase ≠ .gated g) :
    (fileMark p m d s).rows[p] = some (markFiled m d r) := by
  unfold fileMark markFiled
  simp only [hr]
  split
  · exact hr
  · have hset : ∀ q, (setRow p q s).rows[p] = q := fun q => setRow_get p q s
    have hb : ∀ c u, (bump c u).rows = u.rows := fun _ _ => rfl
    unfold meetMark
    have h1 : (if decide (16 ≤ r.marks.length) = true then bump Counter.marksDropped
              (setRow p (some { r with marks := (if decide (16 ≤ r.marks.length) = true then r.marks.tail else r.marks) ++ [(m, d)] })
                  s)
            else setRow p (some { r with marks := (if decide (16 ≤ r.marks.length) = true then r.marks.tail else r.marks) ++ [(m, d)] })
                s).rows[p] =
            some { r with marks := (if decide (16 ≤ r.marks.length) = true then r.marks.tail else r.marks) ++ [(m, d)] } := by
      split <;> simp [setRow]
    simp only [h1]
    have hgo : gatedOn { r with marks := (if decide (16 ≤ r.marks.length) = true then r.marks.tail else r.marks) ++ [(m, d)] } m = false
        := by
      unfold gatedOn
      cases hp : r.phase <;> simp_all
    simp only [hgo, Bool.false_eq_true, if_false]
    by_cases hl : r.ctx.lateWatch = some m
    · simp only [hl, if_true, hb, modCtx_eq _ h1, setRow_get]
      simp
    · simp only [hl, if_false, h1]; simp

/-- A MARK cue is due at a boundary (R82). -/
theorem playerBoundary_mark {n : Nat} {p : Fin 4} {s : State} {r : Row} {c : Cue} {later : List Cue} (hr : s.rows[p] = some r) (hn :
    frameNow s = n)
    (ha : advancesAt (headerOr s r.showNo).release n r) (hk : r.ctx.position < (n : Int) - r.anchor)
    (hwin : r.ctx.window = c :: later) (hc : (c.time : Int) ≤ (n : Int) - r.anchor)
    (hs : sweepsBeyond (zonesOf s) r.ctx.sweeps ((n : Int) - r.anchor)) (hw : cuesAfter c later ((n : Int) - r.anchor))
    (hact : c.action = .mark) :
    let stands : Context → Int → Row := fun x' y => { begunRow r with ctx := { x' with position := y, starved := false } }
    let k := (n : Int) - r.anchor
    let x := r.ctx
    let releasing : Prop := ∃ start w, r.phase = .releasing start w
    (releasing → (playerBoundary n p s).rows[p] = some (stands { x with window := later } k)) ∧
      (¬ releasing → r.suspended = true → (playerBoundary n p s).rows[p] = some (stands { x with
        window := later
        pendingMarks := (if 4 ≤ x.pendingMarks.length then x.pendingMarks.tail else x.pendingMarks) ++
          [(c.param, r.anchor + c.time)] } k)) ∧
      (¬ releasing → r.suspended = false →
        (playerBoundary n p s).rows[p] = some (markFiled c.param (r.anchor + c.time) (stands { x with window := later } k))) := by
  intro stands k x releasing
  have hg := setRow_get p (some (begunRow r)) s
  have hb := begunRow_fields r
  have h2 := (playerBoundary_advances hr hn ha).2.1
  have hone := advanceOne_boundary_cue hr hn ha hwin hc hs (by rw [hwin]; exact window_tells_cons hw)
  dsimp only at hone
  simp only [hact] at hone
  have hd := dropHead_eq hwin
  set y := headTaken c later x.position with hy
  have hyk : y ≤ k := headTaken_le hc (le_of_lt hk)
  have key : ∀ r1 : Row, ∀ v : State, v.rows[p] = some r1 → frameNow v = n → zonesOf v = zonesOf s →
      takeMark p c (begunRow r) (setRow p (some (begunRow r)) s) = v → r1.anchor = r.anchor → r1.suspended = r.suspended →
          r1.phase = (begunRow r).phase → r1.endFrame = r.endFrame →
      r1.ctx.sweeps = x.sweeps → r1.ctx.window = later → r1.ctx.position = y →
      (playerBoundary n p s).rows[p] = some { r1 with ctx := { r1.ctx with position := k, starved := false } } := by
    intro r1 v hv hvn hvz h1' e1 e2 e3 e4 e5 e6 e7
    have ht : advanceTarget r1 n = (n : Int) - r.anchor := by
      rw [← h2]; unfold advanceTarget; rw [e1, e2, e3, e4, hb.2.1, hb.2.2.1, hb.2.2.2.2.2.2.2]
    have := playerBoundary_one_item hr hn ha hk (hone.trans (by rw [h1'])) hv hvn hvz ((n : Int) - r.anchor) (by rw [ht])
        (by rw [e5]; exact hs) (by rw [e6, e7]; exact cuesAfter_taken hw (le_refl _))
    rw [this, ht, e7, max_eq_right hyk]
  refine ⟨?_, ?_, ?_⟩
  · rintro ⟨st, w, hp⟩
    have hbe : begunRow r = r := by simp [begunRow, hp]
    refine (key { begunRow r with ctx := { x with window := later, position := y } }
        (setRow p (some { begunRow r with ctx := { x with window := later, position := y } }) s) (setRow_get _ _ _) hn rfl ?_ ?_ ?_ rfl ?_ rfl rfl
        rfl).trans ?_
    · rw [hbe] at hg
      simp only [takeMark, hbe, hp, modCtx_eq _ hg, hd, setRow_setRow]; rfl
    all_goals simp [hb, stands, x, k]
  · intro hnr hsus
    have hrun : (begunRow r).phase = .running := by
      unfold advancesAt at ha
      cases hp : r.phase with
      | armed => simp [hp, hsus] at ha
      | running => simp [begunRow, hp]
      | gated g => simp [hp] at ha
      | releasing a b => exact absurd ⟨a, b, hp⟩ hnr
    let r1 : Row := { begunRow r with ctx := { x with
        window := later, position := y
        pendingMarks := (if 4 ≤ x.pendingMarks.length then x.pendingMarks.tail else x.pendingMarks) ++
          [(c.param, r.anchor + c.time)] } }
    let v := if 4 ≤ x.pendingMarks.length then bump .marksUnsent (setRow p (some r1) s) else setRow p (some r1) s
    refine (key r1 v ?_ ?_ ?_ ?_ ?_ ?_ rfl ?_ rfl rfl rfl).trans rfl
    · simp only [v]; split <;> simp [setRow]
    · simp only [v]; split <;> exact hn
    · simp only [v]; split <;> rfl
    · simp only [takeMark, hrun, hb.2.2.1, hsus, if_true, modCtx_eq _ hg, hd, setRow_setRow, hb.1, modCtx_eq _ (setRow_get _ _ _), v,
        r1, hb.2.1, x, decide_eq_true_eq]
    all_goals simp [r1, hb]
  · intro hnr hsus
    have hrun : (begunRow r).phase = .running ∧ r.ctx.catchUp = none := by
      unfold advancesAt at ha
      cases hp : r.phase with
      | armed => simp [hp, hsus] at ha; simp [begunRow, hp, ha]
      | running => simp [hp, hsus] at ha; simp [begunRow, hp, ha]
      | gated g => simp [hp] at ha
      | releasing a b => exact absurd ⟨a, b, hp⟩ hnr
    let r0 : Row := { begunRow r with ctx := { x with window := later, position := y } }
    have h0 := setRow_get p (some r0) s
    have hf := markFiled_fileMark c.param (r.anchor + c.time) h0 (by intro g; simp [r0, hrun.1])
    refine (key (markFiled c.param (r.anchor + c.time) r0) (emitMark p c.param (r.anchor + c.time) (setRow p (some r0) s)) ?_ ?_ ?_ ?_
        ?_ ?_ ?_ ?_ ?_ ?_ ?_).trans ?_
    · unfold emitMark
      rw [h0]
      simp [hf]
    · have : (emitMark p c.param (r.anchor + c.time) (setRow p (some r0) s)).time = s.time := by simp
      unfold frameNow towerUs; rw [this]; exact hn
    · have : (emitMark p c.param (r.anchor + c.time) (setRow p (some r0) s)).start = s.start := by simp
      unfold zonesOf; rw [this]
    · simp only [takeMark, hrun, hb.2.2.1, hsus, Bool.false_eq_true, if_false, modCtx_eq _ hg, hd, setRow_setRow, hb.1, hb.2.1, r0, x]
    all_goals (unfold markFiled; split <;> simp [r0, hb, stands, x, k])

/-- A player that advances and is not RELEASING is RUNNING (R77, R91). -/
theorem begunRow_running {n : Nat} {s : State} {r : Row} (ha : advancesAt (headerOr s r.showNo).release n r)
    (hnr : ¬ ∃ start w, r.phase = .releasing start w) : (begunRow r).phase = .running := by
  unfold advancesAt at ha
  cases hp : r.phase with
  | armed => simp [begunRow, hp]
  | running => simp [begunRow, hp]
  | gated g => simp [hp] at ha
  | releasing a b => exact absurd ⟨a, b, hp⟩ hnr

/-- The evaluation of a gate that is released (R84). -/
theorem evalGate_released {r : Row} {g : Gate} {now q : Nat} {watch : Option Nat} (h : GateReleased g now r q watch) :
    ∃ b, evalGate r g now = some (q, b) ∧ watchAfter g.mark b = watch := by
  rcases h with ⟨hm, hw, before, f, after, hl, hb, hq⟩ | ⟨hm, ht, hq, hw⟩
  · refine ⟨false, ?_, by simp [watchAfter, hw]⟩
    have : markFrame r g.mark = some f := by
      unfold markFrame
      rw [hl, List.find?_append]
      have : before.find? (fun e => e.1 == g.mark) = none := by
        rw [List.find?_eq_none]; intro e he; simpa using hb e he
      simp [this]
    simp [evalGate, hm, this, hq]
  · refine ⟨true, ?_, ?_⟩
    · have : (if g.mark = 0 then none else markFrame r g.mark) = none := by
        split
        · rfl
        · rcases hm with hm | hm
          · contradiction
          · unfold markFrame
            rw [Option.map_eq_none_iff, List.find?_eq_none]; intro e he; simpa using hm e he
      unfold evalGate; rw [this]; simp [ht, hq]
    · by_cases h0 : g.mark = 0 <;> simp [watchAfter, h0, hw]

/-- The evaluation of a gate that is not released (R84). -/
theorem evalGate_waits {r : Row} {g : Gate} {now : Nat} (h : GateWaits g now r) : evalGate r g now = none := by
  obtain ⟨hm, ht⟩ := h
  have : (if g.mark = 0 then none else markFrame r g.mark) = none := by
    split
    · rfl
    · rcases hm with hm | hm
      · contradiction
      · unfold markFrame
        rw [Option.map_eq_none_iff, List.find?_eq_none]; intro e he; simpa using hm e he
  unfold evalGate; rw [this]; simp [show ¬ g.timeoutFrame ≤ now by omega]

/-- A GATE cue is due at a boundary (R84). -/
theorem playerBoundary_gate {n : Nat} {p : Fin 4} {s : State} {r : Row} {c : Cue} {later : List Cue} (hr : s.rows[p] = some r) (hn :
    frameNow s = n)
    (ha : advancesAt (headerOr s r.showNo).release n r) (hk : r.ctx.position < (n : Int) - r.anchor)
    (hwin : r.ctx.window = c :: later) (hpc : r.ctx.position ≤ c.time) (hc : (c.time : Int) ≤ (n : Int) - r.anchor)
    (hs : sweepsBeyond (zonesOf s) r.ctx.sweeps ((n : Int) - r.anchor)) (hw : cuesAfter c later ((n : Int) - r.anchor))
    (hact : c.action = .gate) :
    let stands : Context → Int → Row := fun x' y => { begunRow r with ctx := { x' with position := y, starved := false } }
    let k := (n : Int) - r.anchor
    let x := r.ctx
    let releasing : Prop := ∃ start w, r.phase = .releasing start w
    (releasing → (playerBoundary n p s).rows[p] = some (stands { x with window := later, lateWatch := none } k)) ∧
      (¬ releasing → r.suspended = true → (playerBoundary n p s).rows[p] = some (stands x c.time)) ∧
      (¬ releasing → r.suspended = false →
        (GateWaits (gateOf c r.anchor) n r →
          (playerBoundary n p s).rows[p] = some { stands { x with window := later, lateWatch := none } c.time with phase := .gated (gateOf c r.anchor) }) ∧
        ∀ q watch, GateReleased (gateOf c r.anchor) n r q watch →
          (playerBoundary n p s).rows[p] = some { stands { x with window := later, lateWatch := watch } (max c.time ((n : Int) - (q - c.time : Nat))) with
            anchor := q - c.time }) := by
  intro stands k x releasing
  have hg := setRow_get p (some (begunRow r)) s
  have hb := begunRow_fields r
  have h2 := (playerBoundary_advances hr hn ha).2.1
  have hone := advanceOne_boundary_cue hr hn ha hwin hc hs (by rw [hwin]; exact window_tells_cons hw)
  dsimp only at hone
  simp only [hact] at hone
  have hd := dropHead_eq hwin
  set y := headTaken c later x.position with hy
  have hyk : y ≤ k := headTaken_le hc (le_of_lt hk)
  have hyc : max y c.time = c.time := max_eq_right (headTaken_le (le_refl _) hpc)
  refine ⟨?_, ?_, ?_⟩
  · rintro ⟨st, w, hp⟩
    have hbe : begunRow r = r := by simp [begunRow, hp]
    have hpg : passesGates (begunRow r) = true := by simp [passesGates, hbe, hp]
    simp only [hpg, if_true, modCtx_eq _ hg, setRow_setRow] at hone
    rw [hbe] at h2
    have := playerBoundary_one_item (r1 := { r with ctx := { x with window := later, position := y, lateWatch := none } }) hr hn ha hk hone
        (by rw [setRow_get, hbe, hd]) hn rfl k (by rw [show advanceTarget { r with ctx := { x with window := later, position := y, lateWatch := none } } n = k from h2]) hs (cuesAfter_taken hw (le_refl _))
    rw [this]; simp only [stands, hbe]
    rw [show advanceTarget { r with ctx := { x with window := later, position := y, lateWatch := none } } n = k from h2, max_eq_right hyk]
  · intro hnr hsus
    have hpg : passesGates (begunRow r) = false := by simp [passesGates, begunRow_running ha hnr]
    have hsu : (begunRow r).suspended = true := by rw [hb.2.2.1, hsus]
    simp only [hpg, hsu, if_true, Bool.false_eq_true, if_false, modCtx_eq _ hg, setRow_setRow] at hone
    rw [playerBoundary_stops hr hn ha hk hone (by rw [askFlushIf_rows, setRow_get])]
    simp only [moveTo, hb.1, stands, x, hsu]; rw [show max r.ctx.position (c.time : Int) = c.time by omega]
  · intro hnr hsus
    have hrun := begunRow_running ha hnr
    have hpg : passesGates (begunRow r) = false := by simp [passesGates, hrun]
    have hsu : (begunRow r).suspended = false := by rw [hb.2.2.1, hsus]
    simp only [hpg, hsu, Bool.false_eq_true, if_false] at hone
    have hgt : gateAt c.time c.gateMark c.gateTimeout (begunRow r).anchor = gateOf c r.anchor := by simp [gateAt, gateOf, hb]
    unfold takeGate at hone
    simp only [hgt, frameNow_setRow, hn] at hone
    have hmk : ∀ g, evalGate (begunRow r) g n = evalGate r g n := by intro g; simp [evalGate, markFrame, hb]
    rw [hmk] at hone
    refine ⟨fun hwt => ?_, fun q watch hrel => ?_⟩
    · rw [evalGate_waits hwt] at hone
      rw [playerBoundary_stops hr hn ha hk hone (by rw [askFlushIf_rows, setRow_get])]
      simp only [hb.1, stands, moveTo, hd]; rw [hyc]
    · obtain ⟨b, he, hwa⟩ := evalGate_released hrel
      have hmark : (gateOf c r.anchor).mark = c.gateMark := rfl
      have hq : r.anchor + c.time ≤ q := by
        have hdue : (gateOf c r.anchor).due = r.anchor + c.time := rfl
        have hto : (gateOf c r.anchor).timeoutFrame = r.anchor + c.time + c.gateTimeout * 40 := rfl
        rcases hrel with ⟨_, _, _, f, _, _, _, h⟩ | ⟨_, _, h, _⟩ <;> omega
      rw [he] at hone
      simp only [hwa, hb.1, hd, setRow_setRow] at hone
      let r1 : Row := { begunRow r with anchor := q - c.time, phase := .running, ctx := { x with window := later, lateWatch := watch, position := c.time } }
      have ht : advanceTarget r1 n = (n : Int) - (q - c.time : Nat) := by
        rw [advanceTarget_eq (by simp [r1, hb, hsus])]
      have hf : ∀ b u, (askFlushIf b u).rows = u.rows ∧ frameNow (askFlushIf b u) = frameNow u ∧ zonesOf (askFlushIf b u) = zonesOf u :=
          by
        intro b u; cases b <;> exact ⟨rfl, rfl, rfl⟩
      have hks : ∀ k', k' ≤ k → sweepsBeyond (zonesOf s) x.sweeps k' ∧ (cuesBeyond later k' ∨ (later = [] ∧ k' ≤ c.time)) := by
        intro k' hk'
        refine ⟨fun w hw' i hi => lt_of_le_of_lt hk' (hs w hw' i hi), ?_⟩
        have := cuesAfter_taken (y := c.time) hw hk'
        simpa [headTaken, ite_self] using this
      have hkk : (n : Int) - (q - c.time : Nat) ≤ k := by simp only [k]; omega
      have := playerBoundary_one_item (r1 := r1) hr hn ha hk hone (by rw [(hf _ _).1, setRow_get]; simp [r1, openGate, moveTo, gateOf, hyc, x]) (by rw [(hf _ _).2.1]; exact hn) (by rw [(hf _ _).2.2]; rfl) _ (le_refl _) (by rw [ht]; exact (hks _ hkk).1)
          (by rw [ht]; exact (hks _ hkk).2)
      rw [this, ht]
      simp only [r1, stands]
      rw [hrun]

/-- A window whose cues are all of one frame, none of them END, ends open at that frame (R88). -/
theorem openEnd_frame {c : Cue} {later : List Cue} (h : ∀ d ∈ c :: later, d.action ≠ .endShow ∧ d.time = c.time) :
    (∃ d, (c :: later).getLast? = some d ∧ d.time = c.time) ∧ openEnd (passCues (c :: later)) = some c.time := by
  rw [passCues_open _ (fun d hd => (h d hd).1)]
  have hl : (c :: later).getLast? = some ((c :: later).getLast (by simp)) := List.getLast?_eq_some_getLast (by simp)
  have hm := h _ (List.getLast_mem (l := c :: later) (by simp))
  exact ⟨⟨_, hl, hm.2⟩, by simp only [openEnd, hl, if_neg hm.1, hm.2]⟩

/-- A boundary whose advance stops at its first item keeps the flushes which that item asked for (R75). -/
theorem playerBoundary_stop_asks {n : Nat} {p : Fin 4} {s v : State} {r r1 : Row} (hr : s.rows[p] = some r) (hn : frameNow s = n)
    (ha : advancesAt (headerOr s r.showNo).release n r) (hk : r.ctx.position < (n : Int) - r.anchor)
    (h1 : advanceOne p (setRow p (some (begunRow r)) s) = (.done, v)) (hv : v.rows[p] = some r1) :
    v.mixer.flushAsked ≤ (playerBoundary n p s).mixer.flushAsked := by
  obtain ⟨a1, a2, -⟩ := playerBoundary_advances hr hn ha
  have hg := setRow_get p (some (begunRow r)) s
  have := advanceAll_one p _ _ _ _ hg h1 (by simp)
  rw [a1]
  unfold advanceAtBoundary
  simp only [hg, if_neg (show ¬ advanceTarget (begunRow r) (frameNow (setRow p (some (begunRow r)) s)) ≤
      (begunRow r).ctx.position by rw [frameNow_setRow, hn, a2, (begunRow_fields r).1]; omega), this]
  have hu : (noteEmptied p (begunRow r) v).rows[p] = some r1 := by simpa using hv
  rw [noteStarved_done hu]
  show _ ≤ (noteEmptied p (begunRow r) v).mixer.flushAsked
  unfold noteEmptied
  split
  · unfold askFlushIf; split <;> simp [askFlush]
  · exact le_refl _

/-- A gate that is not released, taken or stood before at the frame of the last cue held, raises the projection limit to its frame, and a
player that has answered that frame asks for a flush (R88, R89). -/
theorem playerBoundary_gate_raises {n : Nat} {p : Fin 4} {s : State} {r : Row} {c : Cue} {later : List Cue} {a : Answer}
    (hr : s.rows[p] = some r) (hn : frameNow s = n)
    (ha : advancesAt (headerOr s r.showNo).release n r) (hnr : ¬ ∃ start w, r.phase = .releasing start w)
    (hwin : r.ctx.window = c :: later) (hact : c.action = .gate) (hk : r.ctx.position < c.time) (hc : (c.time : Int) = (n : Int) - r.anchor)
    (hs : sweepsBeyond (zonesOf s) r.ctx.sweeps ((n : Int) - r.anchor)) (hl : ∀ d ∈ later, d.action ≠ .endShow ∧ d.time = c.time)
    (han : r.ctx.lastAnswer = some a) (hat : r.anchor + c.time ≤ a.frame) :
    (r.suspended = true → s.mixer.flushAsked < (playerBoundary n p s).mixer.flushAsked ∧
      (playerBoundary n p s).rows[p] = some { begunRow r with ctx := { r.ctx with position := c.time, starved := false } }) ∧
    (r.suspended = false → GateWaits (gateOf c r.anchor) n r → s.mixer.flushAsked < (playerBoundary n p s).mixer.flushAsked ∧
      (playerBoundary n p s).rows[p] = some { begunRow r with
        phase := .gated (gateOf c r.anchor)
        ctx := { r.ctx with window := later, lateWatch := none, position := c.time, starved := false } }) := by
  have hg := setRow_get p (some (begunRow r)) s
  have hb := begunRow_fields r
  have hall : ∀ d ∈ c :: later, d.action ≠ .endShow ∧ d.time = c.time := by
    intro d hd; rcases List.mem_cons.1 hd with rfl | hd
    · exact ⟨by simp [hact], rfl⟩
    · exact hl d hd
  obtain ⟨⟨d, hd, hdt⟩, hopen⟩ := openEnd_frame hall
  have hone := advanceOne_boundary_cue hr hn ha hwin (le_of_eq hc) hs (.inr ⟨d, by rw [hwin]; exact hd, by rw [hdt]; omega⟩)
  dsimp only at hone
  simp only [hact] at hone
  have hra : gateRaises (begunRow r) c = true := by
    simp only [gateRaises, hb.1, hwin, hopen, risesTo, answeredBeyond, han, hb.2.1]
    simp [hk]; omega
  have hpg : passesGates (begunRow r) = false := by simp [passesGates, begunRow_running ha hnr]
  simp only [hpg, Bool.false_eq_true, if_false, hra] at hone
  have hmx : ∀ w : State, w.mixer = s.mixer → s.mixer.flushAsked < (askFlushIf true w).mixer.flushAsked := by
    intro w hw; simp [askFlushIf, askFlush, hw]
  have hkn : r.ctx.position < (n : Int) - r.anchor := by omega
  refine ⟨fun hsus => ?_, fun hsus hwt => ?_⟩
  · have hsu : (begunRow r).suspended = true := by rw [hb.2.2.1, hsus]
    simp only [hsu, if_true, modCtx_eq _ hg, setRow_setRow] at hone
    refine ⟨lt_of_lt_of_le (hmx _ ?_) (playerBoundary_stop_asks hr hn ha hkn hone (by rw [askFlushIf_rows, setRow_get])), ?_⟩
    · rfl
    rw [playerBoundary_stops hr hn ha hkn hone (by rw [askFlushIf_rows, setRow_get])]
    simp only [moveTo, hb.1, hsu]; rw [max_eq_right (le_of_lt hk)]
  · have hsu : (begunRow r).suspended = false := by rw [hb.2.2.1, hsus]
    simp only [hsu, Bool.false_eq_true, if_false] at hone
    have hgt : gateAt c.time c.gateMark c.gateTimeout (begunRow r).anchor = gateOf c r.anchor := by simp [gateAt, gateOf, hb]
    unfold takeGate at hone
    have hmk : ∀ g, evalGate (begunRow r) g n = evalGate r g n := by intro g; simp [evalGate, markFrame, hb]
    simp only [hgt, frameNow_setRow, hn, hmk, evalGate_waits hwt, hra] at hone
    refine ⟨lt_of_lt_of_le (hmx _ ?_) (playerBoundary_stop_asks hr hn ha hkn hone (by rw [askFlushIf_rows, setRow_get])), ?_⟩
    · rfl
    rw [playerBoundary_stops hr hn ha hkn hone (by rw [askFlushIf_rows, setRow_get])]
    simp only [hb.1, moveTo, dropHead_eq hwin]
    rw [max_eq_right (headTaken_le (le_refl _) (le_of_lt hk))]

/-- The row of a player whose refill is withdrawn (R125). -/
theorem withdrawRefill_row {p : Fin 4} {s : State} {r : Row} (hr : s.rows[p] = some r) :
    (withdrawRefill p s).rows[p] = some { r with ctx := { r.ctx with refillAsked := false } } ∧
    (withdrawRefill p s).time = s.time ∧ (withdrawRefill p s).start = s.start := by
  unfold withdrawRefill
  rw [modCtx_eq _ hr]
  dsimp only
  refine ⟨?_, ?_, ?_⟩ <;> split <;> simp [setRow]

theorem cuesBeyond_mono {w : List Cue} {k k' : Int} (h : cuesBeyond w k) (hk : k' ≤ k) : cuesBeyond w k' := by
  refine ⟨fun d hd => lt_of_le_of_lt hk (h.1 d hd), ?_⟩
  rcases h.2 with h | ⟨d, h1, h2⟩
  · exact .inl h
  · exact .inr ⟨d, h1, lt_of_le_of_lt hk h2⟩

/-- An END cue is due at a boundary (R70, R83, R87, R91). -/
theorem playerBoundary_end {n : Nat} {p : Fin 4} {s : State} {r : Row} {c : Cue} {later : List Cue} (hr : s.rows[p] = some r) (hn :
    frameNow s = n)
    (ha : advancesAt (headerOr s r.showNo).release n r) (hk : r.ctx.position < (n : Int) - r.anchor)
    (hwin : r.ctx.window = c :: later) (hpc : r.ctx.position ≤ c.time) (hc : (c.time : Int) ≤ (n : Int) - r.anchor)
    (hs : sweepsBeyond (zonesOf s) r.ctx.sweeps ((n : Int) - r.anchor))
    (hact : c.action = .endShow) :
    let stands : Context → Int → Row := fun x' y => { begunRow r with ctx := { x' with position := y, starved := false } }
    let k := (n : Int) - r.anchor
    let x := r.ctx
    let h := headerOr s r.showNo
    let releasing : Prop := ∃ start w, r.phase = .releasing start w
    let becomes : Row → Prop := fun r' => (playerBoundary n p s).rows[p].map Row.noAsk = some r'.noAsk
    (r.suspended = true → becomes (stands x c.time)) ∧
    (releasing → r.suspended = false → becomes (stands (lastEnd c.time x) c.time)) ∧
    (¬ releasing → r.suspended = false →
      (r.mode = .loop → r.passes ≠ 1 → cuesBeyond later (k - c.time) →
        becomes { nextPass c.time later (begunRow r) with
          ctx := { (nextPass c.time later (begunRow r)).ctx with position := k - c.time, starved := false } }) ∧
      (r.mode = .once ∨ r.passes = 1 →
        (h.release = 0 → (playerBoundary n p s).rows[p] = none) ∧
        (0 < h.release → becomes { stands (lastEnd c.time x) c.time with
          phase := .releasing (r.anchor + c.time) (attackWeight r.tag h.attack (r.anchor + c.time)) }))) := by
  intro stands k x h releasing becomes
  have hg := setRow_get p (some (begunRow r)) s
  have hb := begunRow_fields r
  have h2 := (playerBoundary_advances hr hn ha).2.1
  have hone := advanceOne_boundary_cue hr hn ha hwin hc hs (by rw [hwin]; exact .inl ⟨c, by simp, hact⟩)
  dsimp only at hone
  simp only [hact] at hone
  have hd := dropHead_eq hwin
  refine ⟨?_, ?_, ?_⟩
  · intro hsus
    have hsu : (begunRow r).suspended = true := by rw [hb.2.2.1, hsus]
    simp only [hsu, if_true, modCtx_eq _ hg, setRow_setRow] at hone
    show ((playerBoundary n p s).rows[p]).map _ = _
    rw [playerBoundary_stops hr hn ha hk hone (setRow_get _ _ _)]
    simp only [moveTo, hb.1, stands, x, hsu, Option.map_some]; rw [show max r.ctx.position (c.time : Int) = c.time by omega]
  · rintro ⟨st, w, hp⟩ hsus
    have hbe : begunRow r = r := by simp [begunRow, hp]
    have hsu : (begunRow r).suspended = false := by rw [hb.2.2.1, hsus]
    have hte : takeEnd p c (begunRow r) (setRow p (some (begunRow r)) s) = (.done, modCtx p (pastEnd c.time) (withdrawRefill p
        (setRow p (some (begunRow r)) s))) := by
      simp only [takeEnd, hbe, hp]
    simp only [hsu, Bool.false_eq_true, if_false, hte] at hone
    show ((playerBoundary n p s).rows[p]).map _ = _
    rw [playerBoundary_stops hr hn ha hk hone (by rw [modCtx_eq _ (withdrawRefill_row hg).1, setRow_get])]
    simp only [hb.1, stands, x, hsu, Option.map_some, pastEnd, moveTo, lastEnd, Row.noAsk]; rw [show max r.ctx.position (c.time :
        Int) = c.time by omega]
  · intro hnr hsus
    have hrun := begunRow_running ha hnr
    have hsu : (begunRow r).suspended = false := by rw [hb.2.2.1, hsus]
    simp only [hsu, Bool.false_eq_true, if_false] at hone
    refine ⟨fun hm hp1 hcb => ?_, fun hlast => ?_⟩
    · have hwl : willLoop (begunRow r) = true := by simp [willLoop, hb, hm, hp1]
      have hte : takeEnd p c (begunRow r) (setRow p (some (begunRow r)) s) = (.more, newPass p (begunRow r) c.time
          (setRow p (some (begunRow r)) s)) := by
        simp only [takeEnd, hrun, hwl, if_true]
      rw [hte] at hone
      let r1 : Row := { nextPass c.time later (begunRow r) with ctx := { (nextPass c.time later (begunRow r)).ctx with position := -1 } }
      have ht : advanceTarget r1 n = k - c.time := by
        rw [advanceTarget_eq (by simp [r1, nextPass, hb, hsus])]
        simp [r1, nextPass, hb, k]; omega
      have := playerBoundary_one_item (r1 := r1) hr hn ha hk hone (by
          unfold newPass askFlush
          simp only [setRow_setRow, setRow_get]
          simp [r1, nextPass, hb, hd, shiftZones]
          constructor
          · by_cases h0 : r.passes = 0 <;> simp [h0]
          · split <;> simp_all) hn rfl (k - c.time) (by rw [ht]) (by intro w hw; simp [r1, nextPass] at hw) (.inl hcb)
      show ((playerBoundary n p s).rows[p]).map _ = _
      rw [this, ht]
      have : max (-1) (k - (c.time:Int)) = k - c.time := by have : (c.time : Int) ≤ k := hc; omega
      simp only [r1, this, Option.map_some]
    · have hwl : willLoop (begunRow r) = false := by
        rcases hlast with h | h <;> simp [willLoop, hb, h]
      let u := modCtx p (pastEnd c.time) (withdrawRefill p (setRow p (some (begunRow r)) s))
      let r1 : Row := { begunRow r with ctx := pastEnd c.time { (begunRow r).ctx with refillAsked := false } }
      have hu : u.rows[p] = some r1 := by
        simp only [u]; rw [modCtx_eq _ (withdrawRefill_row hg).1, setRow_get]
      have hte : takeEnd p c (begunRow r) (setRow p (some (begunRow r)) s) = (.done, beginRelease p r1 (r1.anchor + c.time) u) := by
        simp only [takeEnd, hrun, hwl, Bool.false_eq_true, if_false]
        simp only [show modCtx p (pastEnd c.time) (withdrawRefill p (setRow p (some (begunRow r)) s)) = u from rfl, hu]
      have hho : headerOr u r1.showNo = h := by
        have hwd : ∀ v : State, (withdrawRefill p v).lib.dir = v.lib.dir := by
          intro v; unfold withdrawRefill; dsimp only; split <;> simp
        have : u.lib.dir = s.lib.dir := by
          show (modCtx p _ _).lib.dir = _
          simp [hwd]
        show headerOr u (begunRow r).showNo = headerOr s r.showNo
        rw [hb.2.2.2.1]
        unfold headerOr headerOf slotOf
        rw [this]
      rw [hte] at hone
      refine ⟨fun h0 => ?_, fun h0 => ?_⟩
      · have hv : (beginRelease p r1 (r1.anchor + c.time) u).rows[p] = none := by
          simp only [beginRelease, hho, h0, if_true, askFlush, toIdle, setRow_get]
        rw [playerBoundary_ends hr hn ha hk hone hv, hv]
      · have hv : (beginRelease p r1 (r1.anchor + c.time) u).rows[p] = some
          { r1 with phase := .releasing (r1.anchor + c.time) (attackWeight r1.tag h.attack (r1.anchor + c.time)) } := by
          simp only [beginRelease, hho, show ¬ h.release = 0 by omega, if_false, askFlush, setRow_get]
        show ((playerBoundary n p s).rows[p]).map _ = _
        rw [playerBoundary_stops hr hn ha hk hone hv]
        have htag : (begunRow r).tag = r.tag := by unfold begunRow; split <;> rfl
        simp only [r1, hb, stands, x, Option.map_some, pastEnd, moveTo, lastEnd, Row.noAsk, htag, hsu]
        rw [show max r.ctx.position (c.time : Int) = c.time by omega]

/-- The release is over, or an ARMED row meets its end frame (R77). -/
theorem playerBoundary_to_idle {n : Nat} {p : Fin 4} {s : State} {r : Row} (hr : s.rows[p] = some r)
    (h1 : r.suspended = false) (h2 : r.ctx.catchUp = none)
    (h : (∃ start w, r.phase = .releasing start w ∧ start + (headerOr s r.showNo).release ≤ n) ∨ (r.phase = .armed ∧
        ∃ e, r.endFrame = some e ∧ e ≤ n)) :
    (playerBoundary n p s).rows[p] = none := by
  unfold playerBoundary
  simp only [hr, h1, h2, Option.isSome_none, Bool.false_eq_true, if_false]
  rcases h with ⟨st, w, hp, hl⟩ | ⟨hp, e, he, hle⟩
  · simp [releaseOver, hp, hl, toIdle, setRow]
  · simp [releaseOver, hp, he, hle, toIdle, setRow, askFlush]

/-- A player with no work at a boundary (R77, R90, R91). -/
theorem playerBoundary_stays {n : Nat} {p : Fin 4} {s : State} {r : Row} (hr : s.rows[p] = some r)
    (h : (r.suspended = true ∧ (r.phase = .armed ∨ ∃ g, r.phase = .gated g)) ∨ (r.suspended = false ∧ r.ctx.catchUp.isSome = true) ∨
    ((r.suspended = false ∧ r.ctx.catchUp = none) ∧ ¬ (∃ e, r.endFrame = some e ∧ e ≤ n) ∧ ((r.phase = .armed ∧ n < r.anchor) ∨ ∃ g,
        r.phase = .gated g ∧ n < g.timeoutFrame))) :
    playerBoundary n p s = s := by
  unfold playerBoundary
  simp only [hr]
  rcases h with ⟨h1, h | ⟨g, h⟩⟩ | ⟨h1, h2⟩ | ⟨⟨h1, h2⟩, h3, ⟨h4, h5⟩ | ⟨g, h4, h5⟩⟩
  · simp [h1, h]
  · simp [h1, h]
  · simp [h1, h2]
  · simp only [h1, h2, Option.isSome_none, Bool.false_eq_true, if_false, releaseOver, h4]
    cases he : r.endFrame with
    | none => simp [show ¬ r.anchor ≤ n by omega]
    | some e => have : ¬ e ≤ n := fun hh => h3 ⟨e, he, hh⟩
                simp [show ¬ r.anchor ≤ n by omega, this]
  · simp only [h1, h2, Option.isSome_none, Bool.false_eq_true, if_false, releaseOver, h4]
    cases he : r.endFrame with
    | none => simp [show ¬ g.timeoutFrame ≤ n by omega]
    | some e => have : ¬ e ≤ n := fun hh => h3 ⟨e, he, hh⟩
                simp [show ¬ g.timeoutFrame ≤ n by omega, this]

/-- A RUNNING or GATED row meets its end frame at a boundary (R86). -/
theorem playerBoundary_end_frame {n : Nat} {p : Fin 4} {s : State} {r : Row} {e : Nat} (hr : s.rows[p] = some r) (hn : frameNow s = n)
    (h1 : r.suspended = false) (h2 : r.ctx.catchUp = none) (he : r.endFrame = some e) (hle : e ≤ n)
    (hph : r.phase = .running ∨ ∃ g, r.phase = .gated g) :
    let h := headerOr s r.showNo
    let k : Int := (n : Int) - r.anchor
    let x := r.ctx
    (h.release = 0 ∨ e + h.release ≤ n → (playerBoundary n p s).rows[p] = none) ∧
    (0 < h.release → n < e + h.release →
      (k ≤ x.position → (playerBoundary n p s).rows[p] = some { r with phase := .releasing e (attackWeight r.tag h.attack e), ctx := { x with starved := false } }) ∧
      (x.position < k → sweepsBeyond (zonesOf s) x.sweeps k → cuesBeyond x.window k →
        (playerBoundary n p s).rows[p] = some { r with phase := .releasing e (attackWeight r.tag h.attack e), ctx := { x with position := k, starved := false } })) := by
  intro h k x
  have hpb : playerBoundary n p s = advanceAtBoundary p (meetEndFrame p s) := by
    unfold playerBoundary
    simp only [hr, h1, h2, Option.isSome_none, Bool.false_eq_true, if_false, releaseOver]
    rcases hph with hp | ⟨g, hp⟩ <;> simp [hp, he, hle]
  rw [hpb]
  have hme : meetEndFrame p s = if e + h.release ≤ n then askFlush (toIdle p s) else beginRelease p r e s := by
    unfold meetEndFrame; simp only [hr, he, hn]; rfl
  refine ⟨fun h0 => ?_, fun h0 h3 => ?_⟩
  · have : (meetEndFrame p s).rows[p] = none := by
      rw [hme]; split
      · simp [toIdle, setRow, askFlush]
      · have : h.release = 0 := by omega
        simp only [beginRelease, show headerOr s r.showNo = h from rfl, this, if_true, askFlush, toIdle, setRow_get]
    unfold advanceAtBoundary; simp [this]
  · have hm : meetEndFrame p s = askFlush (setRow p (some { r with phase := .releasing e (attackWeight r.tag h.attack e) }) s) := by
      rw [hme, if_neg (by omega)]
      simp only [beginRelease, show headerOr s r.showNo = h from rfl, show ¬ h.release = 0 by omega, if_false]
    rw [hm]
    set r1 : Row := { r with phase := .releasing e (attackWeight r.tag h.attack e) } with hr1
    have hg : (askFlush (setRow p (some r1) s)).rows[p] = some r1 := setRow_get _ _ _
    have hfn : frameNow (askFlush (setRow p (some r1) s)) = n := hn
    have ht : advanceTarget r1 n = k := advanceTarget_eq (by simp [hr1, h1])
    refine ⟨fun hk => ?_, fun hk hs hw => ?_⟩
    · rw [advanceAtBoundary_hold hg (by rw [hfn, ht]; exact hk), setRow_get]
    · have := advanceAll_to_target (k := k) hg hk (by rw [hfn, ht]) hs hw
      rw [advanceAtBoundary_done hg (by rw [hfn, ht]; exact hk) this (setRow_get _ _ _)]

/-- An empty window starves a player at a boundary (R79). -/
theorem playerBoundary_starves_empty {n : Nat} {p : Fin 4} {s : State} {r : Row} (hr : s.rows[p] = some r) (hn : frameNow s = n)
    (ha : advancesAt (headerOr s r.showNo).release n r) (hk : r.ctx.position < (n : Int) - r.anchor)
    (hs : sweepsBeyond (zonesOf s) r.ctx.sweeps ((n : Int) - r.anchor)) (hw : r.ctx.window = []) (he : r.ctx.endRead = false) :
    (playerBoundary n p s).rows[p] = some { begunRow r with ctx := { r.ctx with starved := true } } ∧
     (playerBoundary n p s).counters = (if r.ctx.starved then s else bump .cueStarved s).counters := by
  obtain ⟨a1, a2, -⟩ := playerBoundary_advances hr hn ha
  have hg := setRow_get p (some (begunRow r)) s
  have hb := begunRow_fields r
  have h1 : advanceOne p (setRow p (some (begunRow r)) s) = (.starved, setRow p (some (begunRow r)) s) := by
    unfold advanceOne
    simp only [hg, frameNow_setRow, hn, a2, zonesOf_setRow, hb.1]
    have hre : windowReach (begunRow r) ((n:Int) - r.anchor) = r.ctx.position := by
      simp only [windowReach, hb.1, hw]; omega
    rw [hre]
    have hstop : ((if (decide (r.ctx.position < (n:Int) - r.anchor) && decide (r.ctx.position < (n:Int) - r.anchor) && !endTaken
        (begunRow r)) = true then Halt.starved else Halt.done),
        modCtx p (moveTo r.ctx.position) (setRow p (some (begunRow r)) s)) = (Halt.starved, setRow p (some (begunRow r)) s) := by
      have : endTaken (begunRow r) = false := by simp [endTaken, hb, he]
      simp only [this, hk, decide_true, Bool.not_false, Bool.and_self, if_true, modCtx_eq _ hg, setRow_setRow, moveTo, hb.1, max_self]
      have : ({ begunRow r with ctx := { r.ctx with position := r.ctx.position } } : Row) = begunRow r := by rw [← hb.1]
      rw [this]
    cases hit : nextItem (zonesOf s) r.ctx with
    | none => exact hstop
    | some it =>
      have := nextItem_beyond _ _ _ hs (by simp [hw]) it hit
      simp only [show r.ctx.position < (it.frame : Int) by omega, if_true]; exact hstop
  rw [a1]
  unfold advanceAtBoundary
  have h3 := advanceAll_one p _ _ _ _ hg h1 (by simp)
  simp only [hg, if_neg (show ¬ advanceTarget (begunRow r) (frameNow (setRow p (some (begunRow r)) s)) ≤
      (begunRow r).ctx.position by rw [frameNow_setRow, hn, a2, hb.1]; omega), h3]
  have hne : noteEmptied p (begunRow r) (setRow p (some (begunRow r)) s) = setRow p (some (begunRow r)) s :=
    noteEmptied_eq (fun _ _ _ => by rw [hb.1, hw]; rfl)
  simp only [hne, noteStarved, hg, hb.1, if_true]
  rcases Bool.eq_false_or_eq_true r.ctx.starved with hst | hst
  rotate_left
  · simp only [hst, Bool.false_eq_true, if_false, modCtx_eq _ hg]
    simp [setRow, hb, bump, bumpBy, count]
  · simp only [hst, if_true, hg]
    refine ⟨?_, rfl⟩
    have : ({ r.ctx with starved := true } : Context) = r.ctx := by
      rcases r with ⟨_,_,_,_,_,_,_,_,_,_,_,_,_,x⟩; rcases x with ⟨_,_,_,_,_,sv,_,_,_,_,_,_⟩; simp only at hst; subst hst; rfl
    rw [this, ← hb.1]

/-- A window whose cues stand at one show frame short of the target starves a player at a boundary (R79). -/
theorem playerBoundary_starves_short {n last : Nat} {p : Fin 4} {s : State} {r : Row} (hr : s.rows[p] = some r) (hn : frameNow s = n)
    (ha : advancesAt (headerOr s r.showNo).release n r) (hk : r.ctx.position < (n : Int) - r.anchor)
    (hs : sweepsBeyond (zonesOf s) r.ctx.sweeps ((n : Int) - r.anchor)) (hw : r.ctx.window ≠ [])
    (hcu : r.ctx.catchUp = none)
    (hc : ∀ c ∈ r.ctx.window, c.action ≠ .endShow ∧ c.time = last) (hl : (last : Int) < (n : Int) - r.anchor) :
    (playerBoundary n p s).rows[p] = some { begunRow r with ctx := { r.ctx with position := max r.ctx.position ((last:Int) - 1), starved := true } } := by
  obtain ⟨a1, a2, -⟩ := playerBoundary_advances hr hn ha
  have hg := setRow_get p (some (begunRow r)) s
  have hb := begunRow_fields r
  have h1 : advanceOne p (setRow p (some (begunRow r)) s) = (.starved, setRow p
      (some { begunRow r with ctx := moveTo ((last:Int)-1) r.ctx }) s) := by
    unfold advanceOne
    simp only [hg, frameNow_setRow, hn, a2, zonesOf_setRow, hb.1]
    have hre : windowReach (begunRow r) ((n:Int) - r.anchor) = (last:Int) - 1 := by
      obtain ⟨c, cs, hcs⟩ := List.exists_cons_of_ne_nil hw
      simp only [windowReach, hb.1, hcs]
      rw [passCues_open _ (fun d hd => (hc d (by rw [hcs]; exact hd)).1)]
      have hne : (c :: cs).getLast? = some ((c :: cs).getLast (by simp)) := List.getLast?_eq_some_getLast _
      have hm := List.getLast_mem (l := c :: cs) (by simp)
      have := hc _ (by rw [hcs]; exact hm)
      simp only [openEnd, hne, this.1, if_false, this.2, hcu, Option.isSome_none, Bool.false_eq_true]
      rw [if_neg (by omega)]
    rw [hre]
    have hstop : ((if (decide ((last:Int) - 1 < (n:Int) - r.anchor) && decide (r.ctx.position < (n:Int) - r.anchor) && !endTaken
        (begunRow r)) = true then Halt.starved else Halt.done),
        modCtx p (moveTo ((last:Int)-1)) (setRow p (some (begunRow r)) s)) = (Halt.starved, setRow p
            (some { begunRow r with ctx := moveTo ((last:Int)-1) r.ctx }) s) := by
      have : endTaken (begunRow r) = false := by simp [endTaken, hb, hw]
      simp only [this, hk, show (last:Int) - 1 < (n:Int) -
          r.anchor by omega, decide_true, Bool.not_false, Bool.and_self, if_true, modCtx_eq _ hg, setRow_setRow, hb.1]
    cases hit : nextItem (zonesOf s) r.ctx with
    | none => exact hstop
    | some it =>
      have hlt : (last : Int) - 1 < it.frame := by
        have hs' : sweepsBeyond (zonesOf s) r.ctx.sweeps ((last:Int) - 1) := fun w hw i hi => by have := hs w hw i hi; omega
        refine nextItem_beyond _ _ _ hs' ?_ it hit
        intro d hd
        have := (hc d (List.mem_of_mem_head? hd)).2; omega
      simp only [hlt, if_true]; exact hstop
  rw [a1]
  unfold advanceAtBoundary
  have h3 := advanceAll_one p _ _ _ _ hg h1 (by simp)
  simp only [hg, if_neg (show ¬ advanceTarget (begunRow r) (frameNow (setRow p (some (begunRow r)) s)) ≤
      (begunRow r).ctx.position by rw [frameNow_setRow, hn, a2, hb.1]; omega), h3]
  have hne : noteEmptied p (begunRow r) (setRow p (some { begunRow r with ctx := moveTo ((last:Int)-1) r.ctx }) s) =
      setRow p (some { begunRow r with ctx := moveTo ((last:Int)-1) r.ctx }) s :=
    noteEmptied_eq (fun r' hr' hw' => by rw [setRow_get] at hr'; cases hr'; exact absurd hw' hw)
  simp only [hne, noteStarved, setRow_get, if_true]
  rcases Bool.eq_false_or_eq_true (moveTo ((last:Int)-1) r.ctx).starved with hst | hst
  rotate_left
  · simp only [hst, Bool.false_eq_true, if_false, modCtx_eq _ (setRow_get _ _ _)]
    simp [setRow, moveTo, bump, bumpBy]
  · simp only [hst, if_true, setRow_get]
    have hst' : r.ctx.starved = true := hst
    have : (moveTo ((last:Int)-1) r.ctx) = { r.ctx with position := max r.ctx.position ((last:Int) - 1), starved := true } := by
      simp [moveTo, hst']
    rw [this]

/-- Nothing is left to take once the last END has been taken, and the position holds (R83, R87). -/
theorem playerBoundary_end_taken {n : Nat} {p : Fin 4} {s : State} {r : Row} (hr : s.rows[p] = some r) (hn : frameNow s = n)
    (ha : advancesAt (headerOr s r.showNo).release n r) (hk : r.ctx.position < (n : Int) - r.anchor)
    (hs : sweepsBeyond (zonesOf s) r.ctx.sweeps ((n : Int) - r.anchor)) (hw : r.ctx.window = []) (he : r.ctx.endRead = true) :
    (playerBoundary n p s).rows[p] = some { begunRow r with ctx := { r.ctx with position := r.ctx.position, starved := false } } := by
  obtain ⟨a1, a2, -⟩ := playerBoundary_advances hr hn ha
  have hg := setRow_get p (some (begunRow r)) s
  have hb := begunRow_fields r
  have h1 : advanceOne p (setRow p (some (begunRow r)) s) =
      (.done, modCtx p (moveTo r.ctx.position) (setRow p (some (begunRow r)) s)) := by
    have hre : windowReach (begunRow r) ((n:Int) - r.anchor) = r.ctx.position := by
      simp only [windowReach, hb.1, hw]; omega
    have het : endTaken (begunRow r) = true := by simp [endTaken, hb, he, hw]
    unfold advanceOne
    simp only [hg, frameNow_setRow, hn, a2, zonesOf_setRow, hb.1, hre, het, Bool.not_true, Bool.and_false, Bool.false_eq_true,
      if_false]
    cases hit : nextItem (zonesOf s) r.ctx with
    | none => rfl
    | some it =>
      have := nextItem_beyond _ _ _ hs (by simp [hw]) it hit
      simp only [show r.ctx.position < (it.frame : Int) by omega, if_true]
  have h3 := advanceAll_one p _ _ _ _ hg h1 (by simp)
  rw [a1, advanceAtBoundary_done hg (by rw [frameNow_setRow, hn, a2, hb.1]; exact hk) h3 (by rw [modCtx_eq _ hg, setRow_get])]
  simp only [hb.1, moveTo, max_self]

/-- A SUSPENDED row of prior state RUNNING that is past its end frame stops at that frame's show frame (R76, R91). -/
theorem playerBoundary_suspended_past {n e : Nat} {p : Fin 4} {s : State} {r : Row} (hr : s.rows[p] = some r) (hn : frameNow s = n)
    (h1 : r.suspended = true) (hp : r.phase = .running) (he : r.endFrame = some e) (hle : e ≤ n) :
    let y : Int := (e : Int) - r.anchor
    let x := r.ctx
    let becomes : Row → Prop := fun r' => (playerBoundary n p s).rows[p] = some r'
    (y ≤ x.position → becomes { r with ctx := { x with starved := false } }) ∧
    (x.position < y → sweepsBeyond (zonesOf s) x.sweeps y → cuesBeyond x.window y →
      becomes { r with ctx := { x with position := y, starved := false } }) ∧
    ∀ c later, x.position < y → x.window = c :: later → (c.time : Int) ≤ y → sweepsBeyond (zonesOf s) x.sweeps y →
      cuesAfter c later y → c.action = .set ∨ c.action = .fade →
      ∃ x', CueTaken (zonesOf s) c later x x' ∧ becomes { r with ctx := { x' with position := y, starved := false } } := by
  intro y x becomes
  have hpb : playerBoundary n p s = advanceAtBoundary p s := by
    unfold playerBoundary; simp only [hr, h1, hp, if_true]
  have htg : ∀ r' : Row, r'.suspended = true → r'.phase = .running → r'.endFrame = some e → r'.anchor = r.anchor →
      advanceTarget r' n = y := by
    intro r' g1 g2 g3 g4
    unfold advanceTarget
    simp only [g1, g2, g3, g4, y]
    omega
  have ht := htg r h1 hp he rfl
  refine ⟨fun hk => ?_, fun hk hs hw => ?_, fun c later hk hwin hc hs hw hact => ?_⟩
  · show (playerBoundary n p s).rows[p] = _
    rw [hpb, advanceAtBoundary_hold hr (by rw [hn, ht]; exact hk), setRow_get]
  · show (playerBoundary n p s).rows[p] = _
    have := advanceAll_to_target (k := y) hr hk (by rw [hn, ht]) hs hw
    rw [hpb, advanceAtBoundary_done hr (by rw [hn, ht]; exact hk) this (setRow_get _ _ _)]
  · have hpe : pastEndFrame r c.time = false := by
      unfold pastEndFrame; simp only [hp, he]
      split
      · rename_i h; cases h; simp only [decide_eq_false_iff_not]; omega
      · rfl
    have hone := advanceOne_cue (k := y) hr (by rw [hn, ht]) hs hwin hc (by rw [hwin]; exact window_tells_cons hw) hpe
    obtain ⟨x', hx, hxe⟩ := takeZoneCue_taken (zonesOf s) c later r.ctx hact hwin
    refine ⟨x', hx, ?_⟩
    set r1 : Row := { r with ctx := takeZoneCue (zonesOf s) c (dropHead r.ctx) } with hr1
    have hone' : advanceOne p s = (.more, setRow p (some r1) s) := by
      rw [hone, modCtx_eq _ hr]; rcases hact with h | h <;> simp only [h] <;> rfl
    have hv : (setRow p (some r1) s).rows[p] = some r1 := setRow_get _ _ _
    obtain ⟨k1, k2, k3⟩ := cueTaken_beyond hx hs (by rcases hact with h | h <;> simp_all)
    have ht1 := htg r1 h1 hp he rfl
    have hstop := advanceOne_done p _ r1 y hv (by simp only [hr1]; rw [hxe]; exact k1)
      (by simp only [hr1]; rw [hxe]; simp only [k2]; exact cuesAfter_taken hw (le_refl _)) (by rw [frameNow_setRow, hn, ht1])
    have hall := advanceAll_two p _ _ _ _ _ hr hone' hstop (by simp)
    show (playerBoundary n p s).rows[p] = _
    rw [hpb, advanceAtBoundary_done hr (by rw [hn, ht]; exact hk) hall (by rw [modCtx_eq _ hv, setRow_get])]
    rw [frameNow_setRow, hn, ht1]
    simp only [hr1, moveTo, hxe]
    rw [max_eq_right (headTaken_le (later := later) hc (le_of_lt hk))]

end Sys2Proof.Machine
end

