-- ==== Sys2Proof/Laws/CatchUp.lean ====
section
/-!
SUPPORT. What a run of a catch-up makes of its row (R79, R80 to R90), case by case in the words of Safety.
-/

namespace Sys2Proof.Machine

set_option Elab.async false

section

variable {p : Fin 4} {s : State} {r : Row} {u : CatchUp}

/-- A catch-up goes on: its row is RUNNING before its end frame, or RELEASING before its release is over (R86, R90). -/
def CatchUpGoesOn (r : Row) (now rel : Nat) : Prop := (r.phase = .running ∧ ∀ e, r.endFrame = some e → now < e) ∨ (∃ start w,
    r.phase = .releasing start w ∧ now < start + rel)

/-- A run of a catch-up whose release is not over (R90). -/
theorem runCatchUp_eq (hr : s.rows[p] = some r) (hcu : r.ctx.catchUp = some u) (hg : releaseOver s r (frameNow s) = false) :
    runCatchUp p s = settleCatchUp p (advanceAll p s).1 (noteEmptied p r (advanceAll p s).2) := by
  unfold runCatchUp; simp [hr, hcu, hg]

/-- A run of a catch-up that leaves cues in the window, or whose window told the pass's END (R88 to R90). -/
theorem runCatchUp_run {h : Halt} {v : State} (hr : s.rows[p] = some r) (hcu : r.ctx.catchUp = some u)
    (hg : releaseOver s r (frameNow s) = false) (ha : advanceAll p s = (h, v))
    (hn : ∀ r', v.rows[p] = some r' → r'.ctx.window = [] → openEnd (passCues r.ctx.window) = none) :
    runCatchUp p s = settleCatchUp p h v := by
  rw [runCatchUp_eq hr hcu hg, ha, noteEmptied_eq hn]

theorem openEnd_endShow {c : Cue} {later : List Cue} (h : c.action = .endShow) : openEnd (passCues (c :: later)) = none := by
  simp [passCues, openEnd, h]

theorem goesOn_not_over (hg : CatchUpGoesOn r (frameNow s) (headerOr s r.showNo).release) : releaseOver s r (frameNow s) = false := by
  rcases hg with ⟨h, _⟩ | ⟨a, b, h, h2⟩
  · simp [releaseOver, h]
  · simp [releaseOver, h]; omega

theorem goesOn_not_past {f : Nat} (hg : CatchUpGoesOn r (frameNow s) (headerOr s r.showNo).release) (hf :
    (f:Int) ≤ (frameNow s : Int) - r.anchor) :
   pastEndFrame r f = false := by
  rcases hg with ⟨h, h1⟩ | ⟨a, b, h, h2⟩
  · unfold pastEndFrame
    split
    · rename_i he; have := h1 _ he; simp; omega
    · rfl
  · simp [pastEndFrame, h]

/-- The end of a run that came to its end completes the catch-up (R90). -/
theorem settleCatchUp_done {v : State} {r1 : Row} (hv : v.rows[p] = some r1) (hg : CatchUpGoesOn r1 (frameNow v)
    (headerOr v r1.showNo).release) :
    settleCatchUp p .done v = askFlush (setRow p (some { r1 with ctx := { r1.ctx with catchUp := none } }) v) := by
  unfold settleCatchUp
  simp only [hv, goesOn_not_over hg, Bool.false_eq_true, if_false, reduceCtorEq]
  rcases hg with ⟨h, h1⟩ | ⟨a, b, h, h2⟩
  · cases he : r1.endFrame with
    | none => simp [h, completeCatchUp, modCtx_eq _ hv, he]
    | some e => have := h1 e he; simp [h, show ¬ e ≤ frameNow v by omega, completeCatchUp, modCtx_eq _ hv, he]
  · simp [h, completeCatchUp, modCtx_eq _ hv]

/-- A catch-up whose release is over ends with its row (R77, R90). -/
theorem runCatchUp_over (hr : s.rows[p] = some r) (hcu : r.ctx.catchUp = some u) {st w : Nat} (hp : r.phase = .releasing st w) (hl :
    st + (headerOr s r.showNo).release ≤ frameNow s) :
    (runCatchUp p s).rows[p] = none ∧ FlushesAsked 1 s (runCatchUp p s) := by
  unfold runCatchUp
  simp [hr, hcu, releaseOver, hp, hl, askFlush, FlushesAsked]
  simp [toIdle, setRow]

/-- The target show frame of a row that is not SUSPENDED (R75). -/
theorem advanceTarget_free (hsu : r.suspended = false) (n : Nat) : advanceTarget r n = (n : Int) - r.anchor :=
    advanceTarget_eq (by simp [hsu])

/-- A catch-up takes its one item up to its target and completes (R90). -/
theorem runCatchUp_one_item {v : State} {r1 : Row} {kk : Int} (hr : s.rows[p] = some r) (hcu : r.ctx.catchUp = some u)
    (hg : CatchUpGoesOn r (frameNow s) (headerOr s r.showNo).release) 
    (h1 : advanceOne p s = (.more, v)) (hv : v.rows[p] = some r1) (hvn : frameNow v = frameNow s) (hvz : zonesOf v = zonesOf s)
    (hvh : headerOr v r1.showNo = headerOr s r.showNo)
    (ht : advanceTarget r1 (frameNow s) ≤ kk) (hs : sweepsBeyond (zonesOf s) r1.ctx.sweeps kk) (hw : cuesBeyond r1.ctx.window kk)
    (hg1 : CatchUpGoesOn r1 (frameNow s) (headerOr s r.showNo).release)
    (hne : r1.ctx.window = [] → openEnd (passCues r.ctx.window) = none) :
    runCatchUp p s = askFlush (setRow p (some { r1 with ctx := { r1.ctx with position := max r1.ctx.position (advanceTarget r1 (frameNow s)), catchUp := none } }) v) := by
  have hstop := advanceOne_done p v r1 kk hv (by rw [hvz]; exact hs) (.inl hw) (by rw [hvn]; exact ht)
  rw [hvn, modCtx_eq _ hv] at hstop
  rw [runCatchUp_run hr hcu (goesOn_not_over hg) (advanceAll_two p _ v _ _ _ hr h1 hstop (by simp))
    (fun r' hr' => by rw [setRow_get] at hr'; cases hr'; exact hne)]
  rw [settleCatchUp_done (setRow_get _ _ _) (by rw [frameNow_setRow, hvn, headerOr_setRow]; exact hvh ▸ hg1)]
  rw [setRow_setRow]; rfl

/-- A catch-up with no item up to its target moves there and completes (R90). -/
theorem runCatchUp_no_item (hr : s.rows[p] = some r) (hcu : r.ctx.catchUp = some u) (hsu : r.suspended = false)
    (hg : CatchUpGoesOn r (frameNow s) (headerOr s r.showNo).release) (hk : r.ctx.position < (frameNow s : Int) - r.anchor)
    (hs : sweepsBeyond (zonesOf s) r.ctx.sweeps ((frameNow s : Int) - r.anchor)) (hw : cuesBeyond r.ctx.window ((frameNow s :
        Int) - r.anchor)) :
    runCatchUp p s = askFlush (setRow p (some { r with ctx := { r.ctx with position := (frameNow s : Int) - r.anchor, catchUp := none } }) s) := by
  rw [runCatchUp_run hr hcu (goesOn_not_over hg) (advanceAll_to_target hr hk (advanceTarget_free hsu _) hs hw)
    (fun r' hr' hw' => by rw [setRow_get] at hr'; cases hr'; exact absurd hw' (cuesBeyond_ne_nil hw))]
  rw [settleCatchUp_done (setRow_get _ _ _) (by exact hg)]
  rw [setRow_setRow]

/-- A catch-up that stands at its target with no item left completes (R90). -/
theorem runCatchUp_reached (hr : s.rows[p] = some r) (hcu : r.ctx.catchUp = some u) (hsu : r.suspended = false)
    (hg : CatchUpGoesOn r (frameNow s) (headerOr s r.showNo).release) (hk : (frameNow s : Int) - r.anchor ≤ r.ctx.position)
    (hi : ∀ i, nextItem (zonesOf s) r.ctx = some i → (frameNow s : Int) - r.anchor < i.frame) :
    runCatchUp p s = askFlush (setRow p (some { r with ctx := { r.ctx with catchUp := none } }) s) := by
  have hre : windowReach r ((frameNow s : Int) - r.anchor) ≤ (frameNow s : Int) - r.anchor := windowReach_le r _
  have h1 : advanceOne p s = (.done, s) := by
    unfold advanceOne
    simp only [hr, advanceTarget_free hsu]
    have hstop : ((if (decide (windowReach r ((frameNow s : Int) - r.anchor) < (frameNow s : Int) - r.anchor) && decide
        (r.ctx.position < (frameNow s : Int) - r.anchor) && !endTaken r) = true then Halt.starved else Halt.done),
        modCtx p (moveTo (windowReach r ((frameNow s : Int) - r.anchor))) s) = (Halt.done, s) := by
      simp only [show ¬ r.ctx.position < (frameNow s :
          Int) - r.anchor by omega, decide_false, Bool.and_false, Bool.false_and, Bool.false_eq_true, if_false, modCtx_eq _ hr, moveTo]
      rw [show max r.ctx.position (windowReach r ((frameNow s : Int) - r.anchor)) = r.ctx.position by omega, setRow_self hr]
    cases hit : nextItem (zonesOf s) r.ctx with
    | none => exact hstop
    | some it =>
      have := hi it hit
      simp only [show windowReach r ((frameNow s : Int) - r.anchor) < it.frame by omega, if_true]; exact hstop
  rw [runCatchUp_run hr hcu (goesOn_not_over hg) (advanceAll_one p s r _ _ hr h1 (by simp)) (fun r' hr' hw' => by
    rw [hr] at hr'; cases hr'; rw [hw']; rfl), settleCatchUp_done hr hg]

/-- A catch-up whose window is empty completes past END, and waits for cues before it (R79, R83, R90). -/
theorem runCatchUp_empty_window (hr : s.rows[p] = some r) (hcu : r.ctx.catchUp = some u) (hsu : r.suspended = false)
    (hg : CatchUpGoesOn r (frameNow s) (headerOr s r.showNo).release) (hk : r.ctx.position < (frameNow s : Int) - r.anchor)
    (hs : sweepsBeyond (zonesOf s) r.ctx.sweeps ((frameNow s : Int) - r.anchor)) (hw : r.ctx.window = []) :
    runCatchUp p s = if r.ctx.endRead then askFlush (setRow p (some { r with ctx := { r.ctx with catchUp := none } }) s) else s := by
  have hre : windowReach r ((frameNow s : Int) - r.anchor) = r.ctx.position := by simp only [windowReach, hw]; omega
  have h1 : advanceOne p s = (if r.ctx.endRead then .done else .starved, s) := by
    unfold advanceOne
    simp only [hr, advanceTarget_free hsu, hre]
    have hstop : ((if (decide (r.ctx.position < (frameNow s : Int) - r.anchor) && decide (r.ctx.position < (frameNow s :
        Int) - r.anchor) && !endTaken r) = true then Halt.starved else Halt.done),
        modCtx p (moveTo r.ctx.position) s) = (if r.ctx.endRead then Halt.done else .starved, s) := by
      simp only [modCtx_eq _ hr, moveTo, max_self]
      rw [show ({ r with ctx := { r.ctx with position := r.ctx.position } } : Row) = r from rfl, setRow_self hr]
      cases he : r.ctx.endRead <;> simp [endTaken, hw, he, hk]
    cases hit : nextItem (zonesOf s) r.ctx with
    | none => exact hstop
    | some it =>
      have := nextItem_beyond _ _ _ hs (by simp [hw]) it hit
      simp only [show r.ctx.position < (it.frame : Int) by omega, if_true]; exact hstop
  cases he : r.ctx.endRead
  · simp only [he, Bool.false_eq_true, if_false] at h1 ⊢
    rw [runCatchUp_run hr hcu (goesOn_not_over hg) (advanceAll_one p s r _ _ hr h1 (by simp)) (fun r' hr' hw' => by
      rw [hr] at hr'; cases hr'; rw [hw']; rfl)]
    unfold settleCatchUp; simp [hr, goesOn_not_over hg]
  · simp only [he, if_true] at h1 ⊢
    rw [runCatchUp_run hr hcu (goesOn_not_over hg) (advanceAll_one p s r _ _ hr h1 (by simp)) (fun r' hr' hw' => by
    rw [hr] at hr'; cases hr'; rw [hw']; rfl), settleCatchUp_done hr hg]
    simp only [he]

end

section

variable {p : Fin 4} {s : State} {r : Row} {u : CatchUp} {c : Cue} {later : List Cue}

/-- A catch-up takes a SET, FADE or SWEEP cue (R80, R81, R90). -/
theorem runCatchUp_zone_cue (hr : s.rows[p] = some r) (hcu : r.ctx.catchUp = some u) (hsu : r.suspended = false)
    (hg : CatchUpGoesOn r (frameNow s) (headerOr s r.showNo).release) (hk : r.ctx.position < (frameNow s : Int) - r.anchor)
    (hwin : r.ctx.window = c :: later) (hc : (c.time : Int) ≤ (frameNow s : Int) - r.anchor)
    (hs : sweepsBeyond (zonesOf s) r.ctx.sweeps ((frameNow s : Int) - r.anchor)) (hw : cuesBeyond later ((frameNow s : Int) - r.anchor))
    (hact : c.action = .set ∨ c.action = .fade ∨ ((c.action = .sweepUp ∨ c.action = .sweepDown) ∧ (c.time : Int) = (frameNow s :
        Int) - r.anchor)) :
    FlushesAsked 1 s (runCatchUp p s) ∧ ∃ x', CueTaken (zonesOf s) c later r.ctx x' ∧ (runCatchUp p s).rows[p] =
      some { r with ctx := { x' with position := (frameNow s : Int) - r.anchor, catchUp := none } } := by
  have hone := advanceOne_cue hr (advanceTarget_free hsu (frameNow s)) hs hwin hc (by rw [hwin]; exact window_tells_cons (.inl hw))
      (goesOn_not_past hg hc)
  have key : ∀ x', CueTaken (zonesOf s) c later r.ctx x' → ∀ v, v.rows[p] = some { r with ctx := x' } → frameNow v = frameNow s →
      zonesOf v = zonesOf s → v.mixer = s.mixer → v.lib = s.lib →
      advanceOne p s = (.more, v) → FlushesAsked 1 s (runCatchUp p s) ∧ 
      (runCatchUp p s).rows[p] = some { r with ctx := { x' with position := (frameNow s : Int) - r.anchor, catchUp := none } } := by
    intro x' hx v hv hvn hvz hvm hvl h1'
    have ht : advanceTarget { r with ctx := x' } (frameNow s) = (frameNow s : Int) - r.anchor := advanceTarget_free hsu _
    obtain ⟨k1, k2, k3⟩ := cueTaken_beyond hx hs (by rcases hact with h | h | h <;> simp_all)
    have := runCatchUp_one_item hr hcu hg h1' hv hvn hvz (by unfold headerOr headerOf slotOf; rw [hvl]) (kk :=
        (frameNow s : Int) - r.anchor) (by rw [ht]) k1 (by show cuesBeyond x'.window _; rw [k2]; exact hw) hg
        (fun h => absurd (k2.symm.trans h) (cuesBeyond_ne_nil hw))
    rw [ht, show ({ r with ctx := x' } : Row).ctx.position = r.ctx.position from k3, show max r.ctx.position ((frameNow s :
        Int) - r.anchor) = (frameNow s : Int) - r.anchor from max_eq_right (le_of_lt hk)] at this
    rw [this]
    exact ⟨by simp [FlushesAsked, askFlush, setRow, hvm], setRow_get _ _ _⟩
  have hd := headTaken_more (c := c) (y := r.ctx.position) (cuesBeyond_ne_nil hw)
  have hzone : c.action = .set ∨ c.action = .fade → FlushesAsked 1 s (runCatchUp p s) ∧ ∃ x', CueTaken (zonesOf s) c later r.ctx x' ∧
      (runCatchUp p s).rows[p] =
        some { r with ctx := { x' with position := (frameNow s : Int) - r.anchor, catchUp := none } } := by
    intro h
    obtain ⟨x', hx, hxe⟩ := takeZoneCue_taken (zonesOf s) c later r.ctx h hwin
    rw [hd, ← (cueTaken_keeps hx).2] at hxe
    have := key x' hx (setRow p (some { r with ctx := takeZoneCue (zonesOf s) c (dropHead r.ctx)}) s) (by rw [setRow_get, hxe])
      rfl rfl rfl rfl (by rw [hone, modCtx_eq _ hr]; rcases h with h | h <;> simp only [h])
    exact ⟨this.1, x', hx, this.2⟩
  rcases hact with h | h | ⟨h, he⟩
  · exact hzone (.inl h)
  · exact hzone (.inr h)
  · obtain ⟨⟨x', hx, hxe⟩, -⟩ := takeSweep_taken (zonesOf s) c later r.ctx h hwin
    rw [hd, ← (cueTaken_keeps hx).2] at hxe
    have := key x' hx (if (takeSweep (zonesOf s) c (dropHead r.ctx)).2 then bump .sweepOverflow
        (setRow p (some { r with ctx := (takeSweep (zonesOf s) c (dropHead r.ctx)).1 }) s) else
        (setRow p (some { r with ctx := (takeSweep (zonesOf s) c (dropHead r.ctx)).1 }) s)) (by rw [hxe]; split <;> simp [setRow])
        (by split <;> rfl) (by split <;> rfl) (by split <;> rfl) (by split <;> rfl)
      (by rw [hone]; rcases h with h | h <;> simp only [h, modCtx_eq _ hr] <;> split <;> rfl)
    exact ⟨this.1, x', hx, this.2⟩

theorem headerOr_congr {a b : State} (h : a.lib.dir = b.lib.dir) (n : Nat) : headerOr a n = headerOr b n := by
  unfold headerOr headerOf slotOf; rw [h]

/-- A gate that waits raises no projection limit where the window tells what lies beyond the target (R88, R89). -/
theorem gateRaises_beyond {k : Int} (hwin : r.ctx.window = c :: later) (hw : cuesBeyond later k) (hc : (c.time : Int) ≤ k) :
    gateRaises r c = false := by
  have hn : openEnd (passCues r.ctx.window) ≠ some c.time := by
    rw [hwin]
    by_cases he : ∃ d ∈ c :: later, d.action = .endShow
    · obtain ⟨d, hd, ha⟩ := passCues_end _ he
      simp [openEnd, hd, ha]
    · have hno : ∀ d ∈ c :: later, d.action ≠ .endShow := fun d hd ha => he ⟨d, hd, ha⟩
      rw [passCues_open _ hno]
      rcases hw.2 with ⟨d, hd, ha⟩ | ⟨d, hd, hk⟩
      · exact absurd ha (hno d (List.mem_cons_of_mem _ hd))
      · have hl : (c :: later).getLast? = some d := by
          cases later with
          | nil => simp at hd
          | cons e es => simpa using hd
        have := hno d (List.mem_of_getLast? hl)
        simp [openEnd, hl, this]; omega
  simp [gateRaises, hn]

/-- What taking the last cue of a window asks for (R88, R89). -/
theorem noteEmptied_last {v : State} {y : Context} (hwin : r.ctx.window = [c]) (hpc : r.ctx.position ≤ c.time)
    (hact : c.action = .set ∨ c.action = .fade) (hv : v.rows[p] = some { r with ctx := y }) (hw : y.window = [])
    (hy : y.position = c.time) :
    (noteEmptied p r v).rows = v.rows ∧ FlushesAsked (emptiedAsks c r) v (noteEmptied p r v) := by
  refine ⟨by simp, ?_⟩
  have hne : c.action ≠ .endShow ∧ c.action ≠ .gate := by rcases hact with h | h <;> simp [h]
  have hgate : gateAtEnd r { r with ctx := y } c.time = false := by
    simp [gateAtEnd, hwin, passCues, hne]
  unfold noteEmptied emptiedAsks
  simp only [hv, hwin, passCues, if_neg hne.1, openEnd, List.getLast?_singleton, hw, risesTo, answeredBeyond,
    List.isEmpty_nil, beq_self_eq_true, Bool.true_and]
  rw [hgate]
  cases r.ctx.lastAnswer with
  | none => simp [askFlushIf, FlushesAsked]
  | some a =>
    have : (decide (r.ctx.position < (c.time : Int)) && decide ((c.time : Int) - 1 < (a.frame : Int) - r.anchor)) =
        decide (r.ctx.position < (c.time : Int) ∧ r.anchor + c.time ≤ a.frame) := by
      rw [← Bool.decide_and, decide_eq_decide]; omega
    simp only [this, Bool.not_false, Bool.and_true]
    by_cases hq : r.ctx.position < (c.time : Int) ∧ r.anchor + c.time ≤ a.frame
    · simp [hq, askFlushIf, askFlush, FlushesAsked]
    · simp [hq, askFlushIf, FlushesAsked]

/-- A catch-up takes a SET or FADE cue that is the last its window holds: it completes there or waits for cues (R79, R89, R90). -/
theorem runCatchUp_last_cue (hr : s.rows[p] = some r) (hcu : r.ctx.catchUp = some u) (hsu : r.suspended = false)
    (hg : CatchUpGoesOn r (frameNow s) (headerOr s r.showNo).release) (hk : r.ctx.position < (frameNow s : Int) - r.anchor)
    (hwin : r.ctx.window = [c]) (hpc : r.ctx.position ≤ c.time) (hc : (c.time : Int) ≤ (frameNow s : Int) - r.anchor)
    (hs : sweepsBeyond (zonesOf s) r.ctx.sweeps ((frameNow s : Int) - r.anchor)) (hact : c.action = .set ∨ c.action = .fade) :
    ∃ x', CueTaken (zonesOf s) c [] r.ctx x' ∧
      ((c.time : Int) = (frameNow s : Int) - r.anchor →
        (runCatchUp p s).rows[p] =
          some { r with ctx := { x' with position := (frameNow s : Int) - r.anchor, catchUp := none } } ∧
        FlushesAsked (emptiedAsks c r + 1) s (runCatchUp p s)) ∧
      ((c.time : Int) < (frameNow s : Int) - r.anchor → r.ctx.endRead = false →
        (runCatchUp p s).rows[p] = some { r with ctx := { x' with position := c.time } } ∧
        FlushesAsked (emptiedAsks c r) s (runCatchUp p s)) := by
  obtain ⟨x', hx, hxe⟩ := takeZoneCue_taken (zonesOf s) c [] r.ctx hact hwin
  obtain ⟨k1, k2, -⟩ := cueTaken_beyond hx hs (by rcases hact with h | h <;> simp [h])
  have hpos : headTaken c [] r.ctx.position = c.time := by simp [headTaken, hpc]
  rw [hpos] at hxe
  refine ⟨x', hx, ?_⟩
  have hne : c.action ≠ .endShow := by rcases hact with h | h <;> simp [h]
  let r1 : Row := { r with ctx := { x' with position := c.time } }
  have hcu1 : x'.catchUp = some u := by
    have := hx; unfold CueTaken at this; rw [if_pos hact] at this
    obtain ⟨_, _, rfl⟩ := this; exact hcu
  have hend1 : x'.endRead = r.ctx.endRead := by
    have := hx; unfold CueTaken at this; rw [if_pos hact] at this
    obtain ⟨_, _, rfl⟩ := this; rfl
  have hreach : windowReach r ((frameNow s : Int) - r.anchor) = c.time := by
    simp only [windowReach, hwin, passCues, if_neg hne, openEnd, List.getLast?_singleton, hcu, Option.isSome_some, Bool.true_or,
      if_true]
    split <;> omega
  have hone : advanceOne p s = (.more, setRow p (some r1) s) := by
    unfold advanceOne
    simp only [hr, advanceTarget_free hsu, hreach, nextItem_cue _ _ _ _ _ hs hwin hc, Item.frame, lt_self_iff_false, if_false,
      goesOn_not_past hg hc, Bool.false_eq_true]
    rcases hact with h | h <;> simp only [h, modCtx_eq _ hr, hxe, r1]
  have hg1 : CatchUpGoesOn r1 (frameNow s) (headerOr s r.showNo).release := hg
  have htgt : advanceTarget r1 (frameNow s) = (frameNow s : Int) - r.anchor := advanceTarget_free (r := r1) hsu _
  have hemp := noteEmptied_last (v := setRow p (some r1) s) (y := { x' with position := c.time }) hwin hpc hact (setRow_get _ _ _)
    k2 rfl
  have hasked : ∀ w : State, w.mixer = (noteEmptied p r (setRow p (some r1) s)).mixer → FlushesAsked (emptiedAsks c r) s w := by
    intro w hw; unfold FlushesAsked; rw [hw, hemp.2]; simp
  constructor
  · intro hck
    have htwo := advanceOne_done p (setRow p (some r1) s) r1 ((frameNow s : Int) - r.anchor) (setRow_get _ _ _) k1
      (.inr ⟨k2, le_of_eq hck.symm⟩) (le_of_eq htgt)
    rw [frameNow_setRow, htgt, modCtx_eq _ (setRow_get _ _ _)] at htwo
    have hmv : ({ r1 with ctx := moveTo ((frameNow s : Int) - r.anchor) r1.ctx } : Row) = r1 := by
      simp only [r1, moveTo, hck, max_self]
    rw [hmv, setRow_setRow] at htwo
    have h2 := advanceAll_two p s _ r _ _ hr hone htwo (by simp)
    rw [runCatchUp_eq hr hcu (goesOn_not_over hg), h2]
    have hv : (noteEmptied p r (setRow p (some r1) s)).rows[p] = some r1 := by
      have := congrArg (fun v : Vector (Option Row) 4 => v[p]) hemp.1
      exact this.trans (setRow_get _ _ _)
    rw [settleCatchUp_done hv (by
      have : frameNow (noteEmptied p r (setRow p (some r1) s)) = frameNow s := by
        unfold frameNow towerUs; simp
      rw [this, headerOr_congr (show _ = s.lib.dir by simp)]; exact hg1)]
    refine ⟨?_, ?_⟩
    · rw [show ∀ u, (askFlush u).rows = u.rows from fun _ => rfl, setRow_get]; simp only [r1, ← hck]
    · have := hasked _ rfl
      simp only [FlushesAsked, askFlush, setRow_mixer] at this ⊢
      rw [this]; rfl
  · intro hck hend
    have htwo : advanceOne p (setRow p (some r1) s) = (.starved, setRow p (some r1) s) := by
      have hre : windowReach r1 ((frameNow s : Int) - r.anchor) = c.time := by
        simp only [windowReach, r1, k2]; omega
      unfold advanceOne
      have hstop : ((if (decide ((c.time : Int) < (frameNow s : Int) - r.anchor) && decide (r1.ctx.position < (frameNow s :
          Int) - r.anchor) && !endTaken r1) = true then Halt.starved else Halt.done),
          modCtx p (moveTo c.time) (setRow p (some r1) s)) = (Halt.starved, setRow p (some r1) s) := by
        have : endTaken r1 = false := by simp [endTaken, r1, hend1, hend]
        simp only [this, hck, show r1.ctx.position < (frameNow s : Int) - r.anchor from hck, decide_true, Bool.not_false,
          Bool.and_self, if_true, modCtx_eq _ (setRow_get p (some r1) s), setRow_setRow, moveTo]
        rw [show max r1.ctx.position (c.time : Int) = r1.ctx.position from max_self _]
      simp only [setRow_get, frameNow_setRow, htgt, hre, zonesOf_setRow]
      cases hit : nextItem (zonesOf s) r1.ctx with
      | none => exact hstop
      | some it =>
        have := nextItem_beyond _ _ _ k1 (by simp [k2]) it hit
        simp only [show (c.time : Int) < it.frame by omega, if_true]; exact hstop
    have h2 := advanceAll_two p s _ r _ _ hr hone htwo (by simp)
    rw [runCatchUp_eq hr hcu (goesOn_not_over hg), h2]
    have hv : (noteEmptied p r (setRow p (some r1) s)).rows[p] = some r1 := by
      have := congrArg (fun v : Vector (Option Row) 4 => v[p]) hemp.1
      exact this.trans (setRow_get _ _ _)
    have hset : settleCatchUp p .starved (noteEmptied p r (setRow p (some r1) s)) = noteEmptied p r (setRow p (some r1) s) := by
      have hfn : frameNow (noteEmptied p r (setRow p (some r1) s)) = frameNow s := by unfold frameNow towerUs; simp
      have : releaseOver (noteEmptied p r (setRow p (some r1) s)) r1 (frameNow (noteEmptied p r (setRow p (some r1) s))) = false :=
        goesOn_not_over (by rw [hfn, headerOr_congr (show _ = s.lib.dir by simp)]; exact hg1)
      unfold settleCatchUp; simp only [hv, this, Bool.false_eq_true, if_false, if_true]
    rw [hset]
    exact ⟨hv, hasked _ rfl⟩

theorem send_mixer (f : TxFrame) (a : State) : (send f a).mixer = a.mixer := by
  unfold send enqueue; (repeat' split) <;> simp

/-- What a frame queued makes of the line depends on the line and the station's number alone. -/
theorem send_line_congr (f : TxFrame) (a b : State) (h1 : a.start = b.start) (h2 : a.line = b.line) :
    (send f a).line = (send f b).line := by
  unfold send enqueue; rw [h1, h2]; (repeat' split) <;> simp [h2]

/-- What filing a mark leaves as it was while the player is not GATED (R67). -/
theorem fileMark_rest {m d : Nat} (hr : s.rows[p] = some r) (hg : ∀ g, r.phase ≠ .gated g) :
    (fileMark p m d s).mixer = s.mixer ∧ (fileMark p m d s).line = s.line := by
  unfold fileMark
  simp only [hr]
  split
  · exact ⟨rfl, rfl⟩
  · unfold meetMark
    have h1 : (if decide (16 ≤ r.marks.length) = true then bump Counter.marksDropped
              (setRow p (some { r with marks := (if decide (16 ≤ r.marks.length) = true then r.marks.tail else r.marks) ++ [(m, d)] })
                  s)
            else setRow p (some { r with marks := (if decide (16 ≤ r.marks.length) = true then r.marks.tail else r.marks) ++ [(m, d)] })
                s).rows[p] =
            some { r with marks := (if decide (16 ≤ r.marks.length) = true then r.marks.tail else r.marks) ++ [(m, d)] } := by
      split <;> simp [setRow]
    simp only [h1]
    have hgo : gatedOn { r with marks := (if decide (16 ≤ r.marks.length) = true then r.marks.tail else r.marks) ++ [(m, d)] } m = false
        := by
      unfold gatedOn
      cases hp : r.phase <;> simp_all
    simp only [hgo, Bool.false_eq_true, if_false]
    have h2 : ∀ (b : Prop) [Decidable b] (u : State), (if b then bump .marksDropped u else u).mixer = u.mixer ∧
        (if b then bump .marksDropped u else u).line = u.line := by
      intro b _ u; split <;> exact ⟨rfl, rfl⟩
    by_cases hl : r.ctx.lateWatch = some m
    · simp only [hl, if_true, modCtx_eq _ h1]
      exact ⟨(h2 _ _).1, (h2 _ _).2⟩
    · simp only [hl, if_false]; exact ⟨(h2 _ _).1, (h2 _ _).2⟩

/-- A catch-up takes a MARK cue: in RESUME it is emitted, else not (R82, R90). -/
theorem runCatchUp_mark (hr : s.rows[p] = some r) (hcu : r.ctx.catchUp = some u) (hsu : r.suspended = false)
    (hg : CatchUpGoesOn r (frameNow s) (headerOr s r.showNo).release) (hk : r.ctx.position < (frameNow s : Int) - r.anchor)
    (hwin : r.ctx.window = c :: later) (hc : (c.time : Int) ≤ (frameNow s : Int) - r.anchor)
    (hs : sweepsBeyond (zonesOf s) r.ctx.sweeps ((frameNow s : Int) - r.anchor)) (hw : cuesBeyond later ((frameNow s : Int) - r.anchor))
    (hact : c.action = .mark) :
    let k : Int := (frameNow s : Int) - r.anchor
    let x := r.ctx
    let t := runCatchUp p s
    let reaches : Context → Row := fun x' => { r with ctx := { x' with position := k, catchUp := none } }
    FlushesAsked 1 s t ∧
      ((∃ start w, r.phase = .releasing start w) ∨ u.kind ≠ .resume → t.rows[p] = some (reaches { x with window := later }) ∧
          t.line = s.line) ∧
      (r.phase = .running → u.kind = .resume →
        t.rows[p] = some (markFiled c.param (r.anchor + c.time) (reaches { x with window := later })) ∧
        t.line = (send (newFrame 3 (markData r.showNo r.tag c.param (r.anchor + c.time))) s).line) := by
  intro k x t reaches
  have hone := advanceOne_cue hr (advanceTarget_free hsu (frameNow s)) hs hwin hc (by rw [hwin]; exact window_tells_cons (.inl hw))
      (goesOn_not_past hg hc)
  simp only [hact] at hone
  have hd := dropHead_more hwin (cuesBeyond_ne_nil hw)
  let r0 : Row := { r with ctx := { x with window := later } }
  have quiet : takeMark p c r s = setRow p (some r0) s → FlushesAsked 1 s t ∧ t.rows[p] = some (reaches { x with window := later }) ∧
      t.line = s.line := by
    intro h
    have := runCatchUp_one_item (v := setRow p (some r0) s) (r1 := r0) (kk := k) hr hcu hg (hone.trans (by rw [h])) (setRow_get _ _ _)
        rfl rfl rfl (by rw [show advanceTarget r0 _ = _ from advanceTarget_free hsu _]) hs hw hg
        (fun h => absurd h (cuesBeyond_ne_nil hw))
    have ht : t = _ := this
    rw [ht, show advanceTarget r0 _ = _ from advanceTarget_free hsu _, show max r0.ctx.position ((frameNow s : Int) - r0.anchor) = k
        from max_eq_right (le_of_lt hk)]
    exact ⟨by simp [FlushesAsked, askFlush, setRow], setRow_get _ _ _, rfl⟩
  by_cases hq : (∃ start w, r.phase = .releasing start w) ∨ u.kind ≠ .resume
  · have : takeMark p c r s = setRow p (some r0) s := by
      unfold takeMark
      simp only [modCtx_eq _ hr, hd]
      rcases hg with ⟨h, _⟩ | ⟨a, b, h, _⟩
      · simp only [h, hsu, Bool.false_eq_true, if_false, hcu]
        rcases hq with ⟨a, b, h'⟩ | hq
        · simp [h] at h'
        · rcases u with ⟨kk, hh⟩; cases kk <;> simp_all [r0, x]
      · simp only [h]; simp [r0, x, h]
    have := quiet this
    refine ⟨this.1, fun _ => this.2, fun h1 h2 => ?_⟩
    rcases hq with ⟨a, b, h'⟩ | hq
    · simp [h1] at h'
    · exact absurd h2 hq
  · simp only [not_or, not_not, ne_eq] at hq
    obtain ⟨hq1, hq2⟩ := hq
    have hrun : r.phase = .running := by
      rcases hg with ⟨h, _⟩ | ⟨a, b, h, _⟩
      · exact h
      · exact absurd ⟨a, b, h⟩ hq1
    have h0 := setRow_get p (some r0) s
    have hf := markFiled_fileMark c.param (r.anchor + c.time) h0 (by intro g; simp [r0, hrun])
    let v := emitMark p c.param (r.anchor + c.time) (setRow p (some r0) s)
    have htm : takeMark p c r s = v := by
      have e1 : modCtx p dropHead s = setRow p (some r0) s := by rw [modCtx_eq _ hr, hd]
      unfold takeMark
      rcases u with ⟨kk, hh⟩; simp only at hq2; subst hq2
      simp only [e1, hrun, hsu, Bool.false_eq_true, if_false, hcu, v]
    have hvrow : v.rows[p] = some (markFiled c.param (r.anchor + c.time) r0) := by
      show (emitMark p c.param (r.anchor + c.time) (setRow p (some r0) s)).rows[p] = _
      unfold emitMark; rw [h0]; simp [hf]
    have e : ∀ y : Row, (markFiled c.param (r.anchor + c.time) y).anchor = y.anchor ∧
        (markFiled c.param (r.anchor + c.time) y).suspended = y.suspended ∧
       (markFiled c.param (r.anchor + c.time) y).phase = y.phase ∧ (markFiled c.param (r.anchor + c.time) y).endFrame = y.endFrame ∧
           (markFiled c.param (r.anchor + c.time) y).showNo = y.showNo ∧
       (markFiled c.param (r.anchor + c.time) y).ctx.position = y.ctx.position ∧ (markFiled c.param (r.anchor + c.time) y).ctx.window =
           y.ctx.window ∧ (markFiled c.param (r.anchor + c.time) y).ctx.sweeps = y.ctx.sweeps := by
      intro y; unfold markFiled; split <;> simp
    have hvt : v.time = s.time := by simp [v]
    have hvs : v.start = s.start := by simp [v]
    have hvm : v.mixer = s.mixer := by
      simp only [v, emitMark, h0, send_mixer]; exact (fileMark_rest h0 (by intro g; simp [r0, hrun])).1
    have hvl : v.lib = s.lib := by simp [v]
    have ht1 : advanceTarget (markFiled c.param (r.anchor + c.time) r0) (frameNow s) = k := by
      rw [advanceTarget_free (by rw [(e r0).2.1]; exact hsu), (e r0).1]
    have := runCatchUp_one_item (v := v) (kk := k) hr hcu hg (hone.trans (by rw [htm])) hvrow (by unfold frameNow towerUs; rw [hvt])
        (by unfold zonesOf; rw [hvs])
      (by rw [(e r0).2.2.2.2.1]; unfold headerOr headerOf slotOf; rw [hvl]) (by rw [ht1]) (by rw [(e r0).2.2.2.2.2.2.2]; exact hs)
          (by rw [(e r0).2.2.2.2.2.2.1]; exact hw)
      (by unfold CatchUpGoesOn; rw [(e r0).2.2.1, (e r0).2.2.2.1]; exact hg)
      (by rw [(e r0).2.2.2.2.2.2.1]; exact fun h => absurd h (cuesBeyond_ne_nil hw))
    have ht : t = _ := this
    rw [ht1, (e r0).2.2.2.2.2.1, show max r0.ctx.position k = k from max_eq_right (le_of_lt hk)] at ht
    refine ⟨?_, fun h => ?_, fun _ _ => ⟨?_, ?_⟩⟩
    · rw [ht]; simp [FlushesAsked, askFlush, setRow, hvm]
    · rcases h with h | h
      · exact absurd h hq1
      · exact absurd hq2 h
    · rw [ht]; show (setRow p _ v).rows[p] = _; rw [setRow_get]
      unfold markFiled; split <;> simp_all [r0, reaches, x]
    · rw [ht]; show v.line = _
      have := (fileMark_rest (m := c.param) (d := r.anchor + c.time) h0 (by intro g; simp [r0, hrun])).2
      simp only [v, emitMark, h0]
      exact send_line_congr _ _ s (by simp [setRow]) this

end

section

variable {p : Fin 4} {s : State} {r : Row} {u : CatchUp} {c : Cue} {later : List Cue}

/-- A catch-up takes a GATE cue (R84, R90). -/
theorem runCatchUp_gate (hr : s.rows[p] = some r) (hcu : r.ctx.catchUp = some u) (hsu : r.suspended = false)
    (hg : CatchUpGoesOn r (frameNow s) (headerOr s r.showNo).release) (hk : r.ctx.position < (frameNow s : Int) - r.anchor)
    (hwin : r.ctx.window = c :: later) (hpc : r.ctx.position ≤ c.time) (hc : (c.time : Int) ≤ (frameNow s : Int) - r.anchor)
    (hs : sweepsBeyond (zonesOf s) r.ctx.sweeps ((frameNow s : Int) - r.anchor)) (hw : cuesBeyond later ((frameNow s : Int) - r.anchor))
    (hact : c.action = .gate) :
    let now := frameNow s
    let k : Int := (now : Int) - r.anchor
    let x := r.ctx
    let t := runCatchUp p s
    let completes : Context → Context := fun x' => { x' with catchUp := none }
    let reaches : Context → Row := fun x' => { r with ctx := completes { x' with position := k } }
    (∀ a b, r.phase = .releasing a b → t.rows[p] = some (reaches { x with window := later, lateWatch := none }) ∧ FlushesAsked 1 s t) ∧
      (r.phase = .running →
        (GateWaits (gateOf c r.anchor) now r → FlushesAsked 1 s t ∧
          t.rows[p] = some { r with phase := .gated (gateOf c r.anchor)
                                    ctx := completes { x with window := later, lateWatch := none, position := c.time } }) ∧
        ∀ q watch, GateReleased (gateOf c r.anchor) now r q watch → s.mixer.flushAsked < t.mixer.flushAsked ∧
          t.rows[p] = some { r with
            anchor := q - c.time
            ctx := completes { x with window := later, lateWatch := watch
                                      position := max c.time ((now : Int) - (q - c.time : Nat)) } }) := by
  intro now k x t completes reaches
  have hone := advanceOne_cue hr (advanceTarget_free hsu (frameNow s)) hs hwin hc (by rw [hwin]; exact window_tells_cons (.inl hw))
      (goesOn_not_past hg hc)
  simp only [hact] at hone
  have hd := dropHead_more hwin (cuesBeyond_ne_nil hw)
  refine ⟨fun a b hp => ?_, fun hrun => ⟨fun hwt => ?_, fun q watch hrel => ?_⟩⟩
  · have hpg : passesGates r = true := by simp [passesGates, hp]
    simp only [hpg, if_true, modCtx_eq _ hr, hd] at hone
    let r1 : Row := { r with ctx := { x with window := later, lateWatch := none } }
    have := runCatchUp_one_item (v := setRow p (some r1) s) (r1 := r1) (kk := k) hr hcu hg hone (setRow_get _ _ _) rfl rfl rfl
        (by rw [show advanceTarget r1 _ = _ from advanceTarget_free hsu _]) hs hw hg
        (fun h => absurd h (cuesBeyond_ne_nil hw))
    have ht : t = _ := this
    rw [ht, show advanceTarget r1 _ = _ from advanceTarget_free hsu _, show max r1.ctx.position ((frameNow s : Int) - r1.anchor) = k
        from max_eq_right (le_of_lt hk)]
    exact ⟨setRow_get _ _ _, by simp [FlushesAsked, askFlush, setRow]⟩
  · have hpg : passesGates r = false := by simp [passesGates, hrun]
    simp only [hpg, hsu, Bool.false_eq_true, if_false] at hone
    have hgt : gateAt c.time c.gateMark c.gateTimeout r.anchor = gateOf c r.anchor := by simp [gateAt, gateOf]
    unfold takeGate at hone
    simp only [hgt] at hone
    rw [evalGate_waits hwt] at hone
    simp only [gateRaises_beyond hwin hw hc, askFlushIf, Bool.false_eq_true, if_false] at hone
    have h1 := advanceAll_one p s r _ _ hr hone (by simp)
    have hne : ∀ e, r.endFrame = some e → now < e := by
      rcases hg with ⟨_, h⟩ | ⟨a, b, h, _⟩
      · exact h
      · simp [hrun] at h
    have ht : t = askFlush (setRow p (some { r with phase := .gated (gateOf c r.anchor), ctx := completes { x with window := later, lateWatch := none, position := c.time } }) s) := by
      show runCatchUp p s = _
      rw [runCatchUp_run hr hcu (goesOn_not_over hg) h1 (fun r' hr' hw' => by
        rw [setRow_get] at hr'; cases hr'
        simp only [hd, moveTo] at hw'; exact absurd hw' (cuesBeyond_ne_nil hw))]
      unfold settleCatchUp
      simp only [setRow_get, releaseOver, Bool.false_eq_true, if_false, reduceCtorEq, frameNow_setRow]
      cases he : r.endFrame with
      | none => simp [completeCatchUp, modCtx_eq _ (setRow_get _ _ _), setRow_setRow, moveTo, hd, completes, x, show max r.ctx.position
          (c.time : Int) = c.time from max_eq_right hpc]
      | some e =>
        have := hne e he
        simp [completeCatchUp, modCtx_eq _ (setRow_get _ _ _), setRow_setRow, moveTo, hd, completes, x, show max r.ctx.position
            (c.time : Int) = c.time from max_eq_right hpc, show ¬ e ≤ frameNow s by omega]
    rw [ht]
    exact ⟨by simp [FlushesAsked, askFlush, setRow], setRow_get _ _ _⟩
  · have hpg : passesGates r = false := by simp [passesGates, hrun]
    simp only [hpg, hsu, Bool.false_eq_true, if_false] at hone
    have hgt : gateAt c.time c.gateMark c.gateTimeout r.anchor = gateOf c r.anchor := by simp [gateAt, gateOf]
    unfold takeGate at hone
    simp only [hgt] at hone
    obtain ⟨b, he, hwa⟩ := evalGate_released hrel
    have hq : r.anchor + c.time ≤ q := by
      have hdue : (gateOf c r.anchor).due = r.anchor + c.time := rfl
      have hto : (gateOf c r.anchor).timeoutFrame = r.anchor + c.time + c.gateTimeout * 40 := rfl
      rcases hrel with ⟨_, _, _, f, _, _, _, h⟩ | ⟨_, _, h, _⟩ <;> omega
    rw [he] at hone
    simp only [hwa, hd] at hone
    let r1 : Row := { r with anchor := q - c.time, phase := .running, ctx := { x with window := later, lateWatch := watch, position := max x.position c.time } }
    have ht : advanceTarget r1 now = (now : Int) - (q - c.time : Nat) := advanceTarget_free (r := r1) hsu _
    have hf : ∀ b u, (askFlushIf b u).rows = u.rows ∧ frameNow (askFlushIf b u) = frameNow u ∧ zonesOf (askFlushIf b u) = zonesOf u ∧
        (askFlushIf b u).lib = u.lib ∧ u.mixer.flushAsked ≤ (askFlushIf b u).mixer.flushAsked := by
      intro b u; cases b <;> simp [askFlushIf, askFlush] <;> exact ⟨rfl, rfl⟩
    have hkk : (now : Int) - (q - c.time : Nat) ≤ k := by simp only [k]; omega
    have h2 := runCatchUp_one_item (r1 := r1) hr hcu hg hone (by rw [(hf _ _).1, setRow_get]; simp [r1, openGate, moveTo, gateOf, x])
        (by rw [(hf _ _).2.1]; rfl) (by rw [(hf _ _).2.2.1]; rfl) (by unfold headerOr headerOf slotOf; rw [(hf _ _).2.2.2.1]; rfl)
        (le_refl _)
       (by rw [ht]; exact fun w hw' i hi => lt_of_le_of_lt hkk (hs w hw' i hi)) (by rw [ht]; exact cuesBeyond_mono hw hkk) (by
         rcases hg with ⟨h, h'⟩ | ⟨a, b, h, h'⟩
         · exact .inl ⟨rfl, h'⟩
         · simp [hrun] at h) (fun h => absurd h (cuesBeyond_ne_nil hw))
    have ht' : t = _ := h2
    rw [ht'] 
    constructor
    · simp only [askFlush, setRow]
      refine Nat.lt_succ_of_le ?_
      refine le_trans (le_of_eq ?_) (hf _ _).2.2.2.2
      rfl
    · rw [show ∀ u, (askFlush u).rows = u.rows from fun _ => rfl, setRow_get]
      show some _ = some _
      rw [ht, hrun]
      simp only [r1, completes]
      rw [show max (max x.position (c.time : Int)) ((now : Int) - (q - c.time : Nat)) = max (c.time : Int) ((now : Int) - (q - c.time :
          Nat)) by rw [max_eq_right hpc]]

end

section

variable {p : Fin 4} {s : State} {r : Row} {u : CatchUp} {c : Cue} {later : List Cue}

/-- What withdrawing a refill leaves as it was (R125). -/
theorem withdrawRefill_rest (v : State) : (withdrawRefill p v).mixer = v.mixer ∧ (withdrawRefill p v).lib.dir = v.lib.dir ∧
    (withdrawRefill p v).time = v.time ∧ (withdrawRefill p v).start = v.start ∧ (withdrawRefill p v).line = v.line := by
  unfold withdrawRefill; dsimp only; split <;> simp

/-- A catch-up takes an END cue (R70, R83, R87, R90). -/
theorem runCatchUp_end (hr : s.rows[p] = some r) (hcu : r.ctx.catchUp = some u) (hsu : r.suspended = false)
    (hg : CatchUpGoesOn r (frameNow s) (headerOr s r.showNo).release) (hk : r.ctx.position < (frameNow s : Int) - r.anchor)
    (hwin : r.ctx.window = c :: later) (hpc : r.ctx.position ≤ c.time) (hc : (c.time : Int) ≤ (frameNow s : Int) - r.anchor)
    (hs : sweepsBeyond (zonesOf s) r.ctx.sweeps ((frameNow s : Int) - r.anchor))
    (hact : c.action = .endShow) :
    let now := frameNow s
    let k : Int := (now : Int) - r.anchor
    let x := r.ctx
    let h := headerOr s r.showNo
    let t := runCatchUp p s
    let becomes : Row → Prop := fun r' => t.rows[p].map Row.noAsk = some r'.noAsk
    let completes : Context → Context := fun x' => { x' with catchUp := none }
    (∀ a b, r.phase = .releasing a b → becomes { r with ctx := completes (lastEnd c.time x) } ∧ FlushesAsked 1 s t) ∧
    (r.phase = .running →
      (r.mode = .loop → r.passes ≠ 1 → cuesBeyond later (k - c.time) → FlushesAsked 2 s t ∧
        becomes { nextPass c.time later r with
          ctx := completes { (nextPass c.time later r).ctx with position := k - c.time } }) ∧
      (r.mode = .once ∨ r.passes = 1 →
        (h.release = 0 ∨ r.anchor + c.time + h.release ≤ now → t.rows[p] = none ∧ FlushesAsked 2 s t) ∧
        (0 < h.release → now < r.anchor + c.time + h.release → FlushesAsked 2 s t ∧
          becomes { r with phase := .releasing (r.anchor + c.time) (attackWeight r.tag h.attack (r.anchor + c.time))
                           ctx := completes (lastEnd c.time x) }))) := by
  intro now k x h t becomes completes
  have hone := advanceOne_cue hr (advanceTarget_free hsu (frameNow s)) hs hwin hc (by rw [hwin]; exact .inl ⟨c, by simp, hact⟩)
      (goesOn_not_past hg hc)
  simp only [hact, hsu, Bool.false_eq_true, if_false] at hone
  have hd := dropHead_eq hwin
  let v := modCtx p (pastEnd c.time) (withdrawRefill p s)
  let r1 : Row := { r with ctx := lastEnd c.time { x with refillAsked := false } }
  have hv : v.rows[p] = some r1 := by
    simp only [v]; rw [modCtx_eq _ (withdrawRefill_row hr).1, setRow_get]
    simp [r1, pastEnd, lastEnd, moveTo, x, hpc]
  have hvm : v.mixer = s.mixer := by simp [v, withdrawRefill_rest]
  have hvn : frameNow v = frameNow s := by unfold frameNow towerUs; simp [v, withdrawRefill_rest]
  have hvl : v.lib.dir = s.lib.dir := by show (modCtx p _ _).lib.dir = _; simp [withdrawRefill_rest]
  refine ⟨fun a b hp => ?_, fun hrun => ⟨fun hm hp1 hcb => ?_, fun hlast => ?_⟩⟩
  · have hte : takeEnd p c r s = (.done, v) := by simp only [takeEnd, hp, v]
    rw [hte] at hone
    have : t = askFlush (setRow p (some { r1 with ctx := completes r1.ctx }) v) := by
      show runCatchUp p s = _
      rw [runCatchUp_run hr hcu (goesOn_not_over hg) (advanceAll_one p s r _ _ hr hone (by simp))
        (fun _ _ _ => by rw [hwin]; exact openEnd_endShow hact), settleCatchUp_done hv
          (by rw [hvn, headerOr_congr hvl]; exact hg)]
    simp only [becomes]
    rw [this]
    refine ⟨?_, by simp [FlushesAsked, askFlush, setRow, hvm]⟩
    rw [show ∀ u, (askFlush u).rows = u.rows from fun _ => rfl, setRow_get]
    rfl
  · have hwl : willLoop r = true := by simp [willLoop, hm, hp1]
    have hte : takeEnd p c r s = (.more, newPass p r c.time s) := by simp only [takeEnd, hrun, hwl, if_true]
    rw [hte] at hone
    let r2 : Row := { nextPass c.time later r with ctx := { (nextPass c.time later r).ctx with position := -1 } }
    have ht : advanceTarget r2 now = k - c.time := by
      rw [advanceTarget_free (r := r2) hsu]; simp [r2, nextPass, k]; omega
    have := runCatchUp_one_item (v := newPass p r c.time s) (r1 := r2) (kk := k - c.time) hr hcu hg hone (by
          unfold newPass askFlush
          simp only [setRow_get]
          simp [r2, nextPass, hd, shiftZones]
          constructor
          · by_cases h0 : r.passes = 0 <;> simp [h0]
          · split <;> simp_all) rfl rfl rfl (by rw [ht]) (by intro w hw; simp [r2, nextPass] at hw) hcb (by
            rcases hg with ⟨h, h'⟩ | ⟨a, b, h, h'⟩
            · exact .inl ⟨h, h'⟩
            · simp [hrun] at h) (fun _ => by rw [hwin]; exact openEnd_endShow hact)
    have ht' : t = _ := this
    simp only [becomes]
    have hmx : max (-1) (k - (c.time:Int)) = k - c.time := by have : (c.time : Int) ≤ k := hc; omega
    rw [ht, show max r2.ctx.position (k - (c.time : Int)) = k - c.time from hmx] at ht'
    rw [ht']
    refine ⟨by simp [FlushesAsked, askFlush, setRow, newPass], ?_⟩
    rw [show ∀ u, (askFlush u).rows = u.rows from fun _ => rfl, setRow_get]
    rfl
  · have hwl : willLoop r = false := by
      rcases hlast with h | h <;> simp [willLoop, h]
    have hte : takeEnd p c r s = (.done, beginRelease p r1 (r1.anchor + c.time) v) := by
      simp only [takeEnd, hrun, hwl, Bool.false_eq_true, if_false]
      simp only [show modCtx p (pastEnd c.time) (withdrawRefill p s) = v from rfl, hv]
    have hho : headerOr v r1.showNo = h := headerOr_congr hvl _
    rw [hte] at hone
    have hrun' := runCatchUp_run hr hcu (goesOn_not_over hg) (advanceAll_one p s r _ _ hr hone (by simp))
      (fun _ _ _ => by rw [hwin]; exact openEnd_endShow hact)
    have ht : t = settleCatchUp p .done (beginRelease p r1 (r1.anchor + c.time) v) := hrun'
    let r3 : Row := { r1 with phase := .releasing (r1.anchor + c.time) (attackWeight r1.tag h.attack (r1.anchor + c.time)) }
    by_cases h0 : h.release = 0
    · have hb : beginRelease p r1 (r1.anchor + c.time) v = askFlush (toIdle p v) := by simp only [beginRelease, hho, h0, if_true]
      rw [hb] at ht
      have : t = askFlush (askFlush (toIdle p v)) := by
        rw [ht]; unfold settleCatchUp
        have : (askFlush (toIdle p v)).rows[p] = none := by show (toIdle p v).rows[p] = none; simp [toIdle, setRow]
        simp only [this]
      refine ⟨fun _ => ?_, fun h1 => by omega⟩
      rw [this]
      refine ⟨?_, ?_⟩
      · show (toIdle p v).rows[p] = none; simp [toIdle, setRow]
      · simp [FlushesAsked, askFlush, toIdle, withdrawRefill_rest, hvm]
    · have hb : beginRelease p r1 (r1.anchor + c.time) v = askFlush (setRow p (some r3) v) := by simp only [beginRelease, hho, h0,
        if_false, r3]
      rw [hb] at ht
      have hg3 : (askFlush (setRow p (some r3) v)).rows[p] = some r3 := setRow_get _ _ _
      have hh3 : headerOr (askFlush (setRow p (some r3) v)) r3.showNo = h := hho
      have hn3 : frameNow (askFlush (setRow p (some r3) v)) = now := hvn
      by_cases hl : r.anchor + c.time + h.release ≤ now
      · refine ⟨fun _ => ?_, fun _ h1 => by omega⟩
        have : t = askFlush (toIdle p (askFlush (setRow p (some r3) v))) := by
          rw [ht]; unfold settleCatchUp
          have hro : releaseOver (askFlush (setRow p (some r3) v)) r3 (frameNow (askFlush (setRow p (some r3) v))) = true := by
            rw [hn3]; simp only [releaseOver, r3]; rw [show headerOr (askFlush (setRow p (some r3) v)) r1.showNo = h from hh3]; simp
                [r1, hl]
          rw [hg3]; simp only [hro, if_true]
        rw [this]
        refine ⟨?_, ?_⟩
        · show (toIdle p _).rows[p] = none; simp [toIdle, setRow]
        · simp [FlushesAsked, askFlush, toIdle, withdrawRefill_rest, hvm]
      · refine ⟨fun h1 => by omega, fun _ h1 => ?_⟩
        have : t = askFlush (setRow p (some { r3 with ctx := completes r3.ctx }) (askFlush (setRow p (some r3) v))) := by
          rw [ht, settleCatchUp_done hg3 (.inr ⟨_, _, rfl, by rw [hn3, hh3]; exact h1⟩)]
        simp only [becomes]
        rw [this]
        refine ⟨by simp [FlushesAsked, askFlush, setRow, hvm], ?_⟩
        rw [show ∀ u, (askFlush u).rows = u.rows from fun _ => rfl, setRow_get]
        rfl

end

section

variable {p : Fin 4} {s : State} {r : Row} {u : CatchUp} {c : Cue} {later : List Cue} {e : Nat}

/-- The end of a run whose row's end frame lies behind (R86, R90). -/
theorem settleCatchUp_end_frame {v : State} {r1 : Row} (hv : v.rows[p] = some r1) (hrun : r1.phase = .running) (he :
    r1.endFrame = some e) (hle : e ≤ frameNow v) :
    let h := headerOr v r1.showNo
    let t := settleCatchUp p .done v
    (h.release = 0 ∨ e + h.release ≤ frameNow v → t.rows[p] = none ∧ FlushesAsked 2 v t) ∧
    (0 < h.release → frameNow v < e + h.release → FlushesAsked 2 v t ∧
       t.rows[p] = some { r1 with phase := .releasing e (attackWeight r1.tag h.attack e), ctx := { r1.ctx with catchUp := none } }) ∧
           t.line = v.line := by
  intro h t
  have ht : t = completeCatchUp p (meetEndFrame p v) := by
    simp only [t, settleCatchUp, hv, releaseOver, hrun, he, hle, decide_true, Bool.false_eq_true, if_false, if_true, reduceCtorEq]
  have hme : meetEndFrame p v = if e + h.release ≤ frameNow v then askFlush (toIdle p v) else beginRelease p r1 e v := by
    unfold meetEndFrame; simp only [hv, he]; rfl
  have hidle : (toIdle p v).rows[p] = none ∧ (toIdle p v).mixer = v.mixer ∧ (toIdle p v).line = v.line := by
    refine ⟨?_, ?_, ?_⟩ <;> simp [toIdle, setRow]
  have hmc : ∀ w : State, w.rows[p] = none → modCtx p (fun x => { x with catchUp := none }) w = w := by
    intro w hw; unfold modCtx modRow; simp only [hw]
  have hI : completeCatchUp p (askFlush (toIdle p v)) = askFlush (askFlush (toIdle p v)) := by
    unfold completeCatchUp; rw [hmc (askFlush (toIdle p v)) hidle.1]
  by_cases h1 : e + h.release ≤ frameNow v
  · rw [if_pos h1] at hme
    rw [ht, hme, hI]
    refine ⟨fun _ => ⟨hidle.1, by simp [FlushesAsked, askFlush, hidle]⟩, fun _ _ => by omega, hidle.2.2⟩
  · rw [if_neg h1] at hme
    by_cases h0 : h.release = 0
    · have hb : beginRelease p r1 e v = askFlush (toIdle p v) := by simp only [beginRelease, show headerOr v r1.showNo = h from rfl, h0,
        if_true]
      rw [ht, hme, hb, hI]
      refine ⟨fun _ => ⟨hidle.1, by simp [FlushesAsked, askFlush, hidle]⟩, fun _ _ => by omega, hidle.2.2⟩
    · have hb : beginRelease p r1 e v = askFlush (setRow p (some { r1 with phase := .releasing e (attackWeight r1.tag h.attack e) }) v)
        := by
        simp only [beginRelease, show headerOr v r1.showNo = h from rfl, h0, if_false]
      rw [ht, hme, hb]
      unfold completeCatchUp
      rw [modCtx_eq (s := askFlush (setRow p (some { r1 with phase := .releasing e (attackWeight r1.tag h.attack e) }) v)) (r :=
          { r1 with phase := .releasing e (attackWeight r1.tag h.attack e) }) _ (setRow_get _ _ _)]
      refine ⟨fun hh => by omega, fun _ _ => ⟨by simp [FlushesAsked, askFlush, setRow], setRow_get _ _ _⟩, rfl⟩

/-- A catch-up whose end frame lies behind, with no item up to its target (R86, R90). -/
theorem runCatchUp_end_frame (hr : s.rows[p] = some r) (hcu : r.ctx.catchUp = some u) (hsu : r.suspended = false)
    (hrun : r.phase = .running) (he : r.endFrame = some e) (hle : e ≤ frameNow s) (hk : r.ctx.position < (frameNow s : Int) - r.anchor)
    (hs : sweepsBeyond (zonesOf s) r.ctx.sweeps ((frameNow s : Int) - r.anchor)) (hw : cuesBeyond r.ctx.window ((frameNow s :
        Int) - r.anchor)) :
    let h := headerOr s r.showNo
    let t := runCatchUp p s
    (h.release = 0 ∨ e + h.release ≤ frameNow s → t.rows[p] = none ∧ FlushesAsked 2 s t) ∧
    (0 < h.release → frameNow s < e + h.release → FlushesAsked 2 s t ∧
       t.rows[p] = some { r with phase := .releasing e (attackWeight r.tag h.attack e), ctx := { r.ctx with position := (frameNow s : Int) - r.anchor, catchUp := none } }) := by
  intro h t
  have ht : t = settleCatchUp p .done (setRow p (some { r with ctx := { r.ctx with position := (frameNow s : Int) - r.anchor } }) s) :=
      by
    show runCatchUp p s = _
    exact runCatchUp_run hr hcu (by simp [releaseOver, hrun]) (advanceAll_to_target hr hk (advanceTarget_free hsu _) hs hw)
      (fun r' hr' hw' => by rw [setRow_get] at hr'; cases hr'; exact absurd hw' (cuesBeyond_ne_nil hw))
  have := settleCatchUp_end_frame (p := p) (e := e) (v :=
      setRow p (some { r with ctx := { r.ctx with position := (frameNow s : Int) - r.anchor } }) s) (setRow_get _ _ _) hrun he hle
  rw [ht]
  exact ⟨this.1, this.2.1⟩

/-- A catch-up passes a MARK cue that lies past its end frame: it is RELEASING by then (R82, R86). -/
theorem runCatchUp_end_frame_mark (hr : s.rows[p] = some r) (hcu : r.ctx.catchUp = some u) (hsu : r.suspended = false)
    (hrun : r.phase = .running) (he : r.endFrame = some e) (hle : e ≤ frameNow s) (hk : r.ctx.position < (frameNow s : Int) - r.anchor)
    (hs : sweepsBeyond (zonesOf s) r.ctx.sweeps ((frameNow s : Int) - r.anchor))
    (hwin : r.ctx.window = c :: later) (hc : (c.time : Int) ≤ (frameNow s : Int) - r.anchor) (hw :
        cuesBeyond later ((frameNow s : Int) - r.anchor))
    (h0 : 0 < (headerOr s r.showNo).release) (h1 : frameNow s < e + (headerOr s r.showNo).release)
    (hact : c.action = .mark) (hlt : (e : Int) < r.anchor + c.time) :
    let h := headerOr s r.showNo
    let t := runCatchUp p s
    FlushesAsked 2 s t ∧ t.line = s.line ∧ 
       t.rows[p] = some { r with phase := .releasing e (attackWeight r.tag h.attack e), ctx := { r.ctx with window := later, position := (frameNow s : Int) - r.anchor, catchUp := none } } := by
  intro h t
  have hd := dropHead_more hwin (cuesBeyond_ne_nil hw)
  have htell : (∃ d ∈ r.ctx.window, d.action = .endShow) ∨ ∃ d, r.ctx.window.getLast? = some d ∧ (frameNow s : Int) - r.anchor ≤ d.time
      := by rw [hwin]; exact window_tells_cons (.inl hw)
  let r1 : Row := { r with phase := .releasing e (attackWeight r.tag h.attack e) }
  let v := askFlush (setRow p (some r1) s)
  have hm : meetEndFrame p s = v := by
    unfold meetEndFrame; simp only [hr, he]
    rw [if_neg (by omega)]
    simp only [beginRelease, show ¬ (headerOr s r.showNo).release = 0 by omega, if_false]; rfl
  have hone : advanceOne p s = (.more, v) := by
    unfold advanceOne
    simp only [hr, advanceTarget_free hsu, windowReach_tells r _ htell _ (le_refl _), nextItem_cue _ _ _ _ _ hs hwin hc, Item.frame]
    rw [if_neg (by omega)]
    have : pastEndFrame r c.time = true := by simp [pastEndFrame, hcu, hrun, he]; omega
    rw [this]; simp only [if_true, hm]
  have hv : v.rows[p] = some r1 := setRow_get _ _ _
  have hg1 : CatchUpGoesOn r1 (frameNow v) (headerOr v r1.showNo).release := .inr ⟨_, _, rfl, h1⟩
  have htwo := advanceOne_cue (s := v) (r := r1) hv (advanceTarget_free (r := r1) hsu (frameNow v)) hs hwin hc htell
      (goesOn_not_past hg1 hc)
  simp only [hact] at htwo
  let r2 : Row := { r1 with ctx := { r.ctx with window := later } }
  have htm : takeMark p c r1 v = setRow p (some r2) v := by
    simp only [takeMark, r1, modCtx_eq _ hv, hd]; rfl
  rw [htm] at htwo
  have hthree := advanceOne_to_target (s := setRow p (some r2) v) (r := r2) (k := (frameNow s : Int) - r.anchor) (setRow_get _ _ _)
      (le_of_lt hk) (advanceTarget_free (r := r2) hsu _) hs hw
  have h3 := advanceAll_three p s v _ r _ _ hr hone htwo hthree (by simp)
  have ht : t = _ := runCatchUp_run hr hcu (by simp [releaseOver, hrun]) h3
    (fun r' hr' hw' => by rw [setRow_get] at hr'; cases hr'; exact absurd hw' (cuesBeyond_ne_nil hw))
  have ht := ht.trans (settleCatchUp_done (setRow_get _ _ _) hg1)
  rw [ht]
  refine ⟨by simp [FlushesAsked, askFlush, setRow, v], rfl, ?_⟩
  rw [show ∀ u, (askFlush u).rows = u.rows from fun _ => rfl, setRow_get]

end

end Sys2Proof.Machine
end

