-- ==== Sys2Proof/Laws/Port.lean ====
section
/-!
SUPPORT. What the memory port's arbiter can do (R78, R124), what queueing frames and reports does to the counters and the line,
and how OnlyChanges and Counted are shown.
-/

namespace Sys2Proof.Machine

/-! ### OnlyChanges, part by part -/

theorem onlyChanges_iff (l : List Part) (s t : State) :
    OnlyChanges l s t ↔
      (.start ∉ l → t.start = s.start) ∧ (.time ∉ l → t.time = s.time) ∧ (.backup ∉ l → t.backup = s.backup) ∧
      (.cal ∉ l → t.cal = s.cal) ∧ (.flash ∉ l → t.flash = s.flash) ∧ (.lib ∉ l → t.lib = s.lib) ∧
      (.rows ∉ l → t.rows = s.rows) ∧ (.mixer ∉ l → t.mixer = s.mixer) ∧ (.out ∉ l → t.out = s.out) ∧
      (.drivers ∉ l → t.drivers = s.drivers) ∧ (.mon ∉ l → t.mon = s.mon) ∧ (.safety ∉ l → t.safety = s.safety) ∧
      (.inputs ∉ l → t.inputs = s.inputs) ∧ (.line ∉ l → t.line = s.line) ∧ (.counters ∉ l → t.counters = s.counters) ∧
      (.pending ∉ l → t.pending = s.pending) := by
  constructor
  · intro h
    exact ⟨h _, h _, h _, h _, h _, h _, h _, h _, h _, h _, h _, h _, h _, h _, h _, h _⟩
  · rintro ⟨h1, h2, h3, h4, h5, h6, h7, h8, h9, h10, h11, h12, h13, h14, h15, h16⟩ p hp
    cases p
    exacts [h1 hp, h2 hp, h3 hp, h4 hp, h5 hp, h6 hp, h7 hp, h8 hp, h9 hp, h10 hp, h11 hp, h12 hp, h13 hp, h14 hp, h15 hp, h16 hp]

/-! ### Counters (R181) -/

theorem counted_bumpBy (n : Nat) (c : Counter) (s : State) : Counted n c s (bumpBy n c s) := by
  simp only [Counted, count_bumpBy, if_true, BitVec.toNat_ofNat]
  omega

theorem counted_bump (c : Counter) (s : State) : Counted 1 c s (bump c s) := counted_bumpBy 1 c s

theorem count_bump_other {c d : Counter} (h : c ≠ d) (s : State) : count (bump c s) d = count s d := by
  rw [bump, count_bumpBy, if_neg h]

theorem count_congr {s t : State} (h : s.counters = t.counters) (c : Counter) : count s c = count t c := by
  unfold count
  rw [h]

/-- Sending a frame counts nothing but TX DROPPED or TX DISPLACED (R166). -/
theorem count_send (f : TxFrame) (s : State) (c : Counter) (h1 : c ≠ .txDropped) (h2 : c ≠ .txDisplaced) :
    count (send f s) c = count s c := by
  unfold send enqueue
  repeat' split
  all_goals first | rfl | (rw [count_bump_other (Ne.symm ‹_›)]; rfl) | rw [count_bump_other (Ne.symm ‹_›)]

/-- Nor does a RESULT (R174). -/
theorem count_answerResult (n : LineNumber) (target : Byte) (cls sub : Nat) (v : Verdict) (subject : Nat) (s : State) (c : Counter)
    (h1 : c ≠ .txDropped) (h2 : c ≠ .txDisplaced) : count (answerResult n target cls sub v subject s) c = count s c := by
  unfold answerResult
  split
  · exact count_send _ _ _ h1 h2
  · rfl

/-- Noting a sender counts nothing but DUPLICATE FRAMES (R169). -/
theorem count_noteSender (n : LineNumber) (bytes : Nat) (s : State) (c : Counter) (h : c ≠ .duplicateFrames) :
    count (noteSender n bytes s) c = count s c := by
  unfold noteSender; dsimp only
  split
  · exact count_bump_other h.symm _
  · rfl

/-- Serving the port counts nothing. -/
theorem count_servePort (s : State) (c : Counter) : count (servePort s) c = count s c := count_congr (by simp) c

/-! ### The line -/

/-- What is queued depends only on the Line Interface and the station number. -/
theorem send_line (f : TxFrame) (s u : State) (h : s.line = u.line) (hn : s.start.number = u.start.number) :
    (send f s).line = (send f u).line := by
  unfold send enqueue
  rw [h, hn]
  repeat' split
  all_goals simp_all

theorem answerResult_line (n : LineNumber) (target : Byte) (cls sub : Nat) (v : Verdict) (subject : Nat) (s u : State)
    (h : s.line = u.line) (hn : s.start = u.start) :
    (answerResult n target cls sub v subject s).line = (answerResult n target cls sub v subject u).line := by
  unfold answerResult targeted
  rw [hn]
  split
  · exact send_line _ _ _ h (by rw [hn])
  · exact h

/-! ### The memory port (R78, R124) -/

theorem modCtx_asked (p : Fin 4) (s : State) (b : Bool) :
    SameInstances s (modCtx p (fun x => { x with refillAsked := b }) s) := by
  intro q
  unfold modCtx modRow
  split
  · rename_i r hr
    have hr' : s.rows[p.val] = some r := hr
    simp only [setRow_rows]
    by_cases h : p = q
    · subst h
      simp [hr', Row.noAsk]
    · have : p.val ≠ q.val := fun e => h (Fin.ext e)
      simp [this]
  · rfl

theorem askRefill_same (p : Fin 4) (s : State) : SameInstances s (askRefill p s) := by
  intro q
  unfold askRefill
  split
  · split
    · exact modCtx_asked p s true q
    · rfl
  · rfl

/-- Asking for refills changes no row but for the asking (R78). -/
theorem askRefills_same (s : State) : SameInstances s (askRefills s) := by
  intro q
  unfold askRefills
  generalize List.finRange 4 = l
  induction l generalizing s with
  | nil => rfl
  | cons p l ih => rw [List.foldl_cons, ih]; exact askRefill_same p s q

theorem arbitrate_same (s : State) : SameInstances s (arbitrate s) := by
  unfold arbitrate
  split
  · intro q; rfl
  · split
    · exact fun q => modCtx_asked _ s false q
    · intro q; rfl

theorem arbitrate_library (s : State) : SameLibrary s (arbitrate s) := by
  unfold arbitrate SameLibrary
  split
  · rfl
  · split <;> simp [setPort]

theorem arbitrate_busy (s : State) (h : s.lib.port.isSome = true) : arbitrate s = s := by
  unfold arbitrate
  split <;> simp_all

/-- Serving the port changes no instance but for refills asked. -/
theorem servePort_same (s : State) : SameInstances s (servePort s) := by
  intro q
  unfold servePort
  rw [arbitrate_same, askRefills_same]

/-- Serving the port leaves the library as it is but for the unit the port is doing. -/
theorem servePort_library (s : State) : SameLibrary s (servePort s) := by
  have h := arbitrate_library (askRefills s)
  unfold SameLibrary at *
  unfold servePort
  rw [h]
  simp

@[simp] theorem servePort_lists (s : State) :
    (servePort s).lib.dir = s.lib.dir ∧ (servePort s).lib.queue = s.lib.queue ∧ (servePort s).lib.erase = s.lib.erase ∧
      (servePort s).lib.deadMarks = s.lib.deadMarks := by
  rw [servePort_library s]
  simp

/-- A busy port stays busy with the same unit. -/
theorem servePort_busy (s : State) (h : s.lib.port.isSome = true) : (servePort s).lib.port = s.lib.port := by
  unfold servePort
  rw [arbitrate_busy] <;> simp [h]

/-! ### Refills asked for and taken (R78, R124) -/

/-- What the model tests before it asks for a refill (R78). -/
theorem needsRefill_iff (r : Row) : (r.ctx.window.length < 16 && cuesLeft r) = true ↔ NeedsRefill r := by
  unfold NeedsRefill cuesLeft willLoop endTaken
  cases r.ctx.endRead <;> simp [and_assoc]

/-- A player asks for a refill when it needs one and none is outstanding, and no other row changes (R78). -/
theorem askRefill_row (p : Fin 4) (s : State) :
    (∀ q : Fin 4, q ≠ p → (askRefill p s).rows[q] = s.rows[q]) ∧
      ∀ r, s.rows[p] = some r → ∃ b, (askRefill p s).rows[p] = some { r with ctx := { r.ctx with refillAsked := b } } ∧
        (b = true ↔ AskedFor s.lib.port p r) := by
  unfold askRefill
  cases hr : s.rows[p] with
  | none => exact ⟨fun _ _ => rfl, fun r h => by cases h⟩
  | some r =>
    have hneed := needsRefill_iff r
    dsimp only
    by_cases h : (decide (r.ctx.window.length < 16) && cuesLeft r && !refillOutstanding p r s) = true
    · rw [if_pos h, modCtx_eq _ hr]
      refine ⟨fun q hq => setRow_other _ _ hq, fun r' h' => ⟨true, ?_, ?_⟩⟩
      · cases h'; rw [setRow_get]
      · cases h'
        rw [Bool.and_eq_true, hneed] at h
        have h2 := h.2
        simp only [refillOutstanding, Bool.not_eq_true', Bool.or_eq_false_iff, beq_eq_false_iff_ne] at h2
        exact ⟨fun _ => .inr ⟨h.1, h2.2⟩, fun _ => rfl⟩
    · rw [if_neg h]
      refine ⟨fun _ _ => rfl, fun r' h' => ⟨r.ctx.refillAsked, ?_, ?_⟩⟩
      · cases h'; exact hr
      · cases h'
        refine ⟨.inl, fun h' => ?_⟩
        rcases h' with h' | ⟨h1, h2⟩
        · exact h'
        · rw [Bool.and_eq_true, hneed] at h
          by_contra hb
          exact h ⟨h1, by simp [refillOutstanding, hb, h2]⟩

/-- Every player that needs a refill and has none outstanding asks for one, and nothing else of a row changes (R78). -/
theorem askRefills_row (s : State) (p : Fin 4) :
    (s.rows[p] = none → (askRefills s).rows[p] = none) ∧
      ∀ r, s.rows[p] = some r → ∃ b, (askRefills s).rows[p] = some { r with ctx := { r.ctx with refillAsked := b } } ∧
        (b = true ↔ AskedFor s.lib.port p r) := by
  have other : ∀ (l : List (Fin 4)) (u : State), p ∉ l → (l.foldl (fun s p => askRefill p s) u).rows[p] = u.rows[p] := by
    intro l
    induction l with
    | nil => intro u _; rfl
    | cons q l ih =>
      intro u h
      rw [List.foldl_cons, ih _ (fun h' => h (List.mem_cons_of_mem _ h')),
        (askRefill_row q u).1 p (fun e => h (e ▸ List.mem_cons_self))]
  have before : ∀ (l : List (Fin 4)) (u : State), (l.foldl (fun s p => askRefill p s) u).lib = u.lib := by
    intro l
    induction l with
    | nil => intro u; rfl
    | cons q l ih => intro u; rw [List.foldl_cons, ih]; simp
  have key : ∀ (l : List (Fin 4)) (u : State), l.Nodup → p ∈ l → ∃ v : State, v.rows[p] = u.rows[p] ∧ v.lib = u.lib ∧
      (l.foldl (fun s p => askRefill p s) u).rows[p] = (askRefill p v).rows[p] := by
    intro l
    induction l with
    | nil => intro u _ h; cases h
    | cons q l ih =>
      intro u hn h
      rw [List.nodup_cons] at hn
      rcases List.mem_cons.mp h with rfl | h
      · exact ⟨u, rfl, rfl, other _ _ hn.1⟩
      · obtain ⟨v, h1, h2, h3⟩ := ih (askRefill q u) hn.2 h
        have hq : p ≠ q := fun e => hn.1 (e ▸ h)
        exact ⟨v, h1.trans ((askRefill_row q u).1 p hq), h2.trans (by simp), h3⟩
  obtain ⟨v, h1, h2, h3⟩ := key (List.finRange 4) s (List.nodup_finRange 4) (List.mem_finRange p)
  constructor
  · intro h
    rw [show askRefills s = (List.finRange 4).foldl (fun s p => askRefill p s) s from rfl, h3]
    unfold askRefill
    simp only [h1, h]
  · intro r hr
    obtain ⟨b, hb, hi⟩ := (askRefill_row p v).2 r (h1.trans hr)
    exact ⟨b, h3.trans hb, by rw [h2] at hi; exact hi⟩

/-- The arbiter's choice of a refill is that of the lowest-numbered player that asks (R124). -/
theorem refillWork_eq {s : State} {p : Fin 4} {r : Row} (hr : s.rows[p] = some r) (ha : r.ctx.refillAsked = true)
    (hq : ∀ (q : Fin 4) (r' : Row), q < p → s.rows[q] = some r' → r'.ctx.refillAsked = false) : refillWork s = some p := by
  unfold refillWork
  rw [List.find?_eq_some_iff_getElem]
  refine ⟨by rw [hr]; exact ha, p.val, by simp, by simp, fun j hj => ?_⟩
  simp only [List.getElem_finRange]
  have hlt : (⟨j, by omega⟩ : Fin 4) < p := hj
  split
  · rename_i r' h'
    rw [hq _ r' hlt h']; rfl
  · rfl

/-- A free port takes the refill of the lowest-numbered player that asks, which then asks no more; no other row changes (R78, R124). -/
theorem arbitrate_refill {s : State} {p : Fin 4} {r : Row} (h0 : s.lib.port = none) (hr : s.rows[p] = some r)
    (ha : r.ctx.refillAsked = true)
    (hq : ∀ (q : Fin 4) (r' : Row), q < p → s.rows[q] = some r' → r'.ctx.refillAsked = false) :
    (arbitrate s).lib.port = some (.refill p true) ∧
      (arbitrate s).rows[p] = some { r with ctx := { r.ctx with refillAsked := false } } ∧
      ∀ q : Fin 4, q ≠ p → (arbitrate s).rows[q] = s.rows[q] := by
  have h : arbitrate s =
      setPort (some (.refill p true)) (setRow p (some { r with ctx := { r.ctx with refillAsked := false } }) s) := by
    unfold arbitrate
    simp only [h0, refillWork_eq hr ha hq, modCtx_eq _ hr]
  rw [h]
  exact ⟨rfl, setRow_get _ _ _, fun q hq => setRow_other _ _ hq⟩

/-- A port that takes no refill leaves every row as it is (R124). -/
theorem arbitrate_rows {s : State}
    (h : s.lib.port.isSome = true ∨ ∀ (p : Fin 4) (r : Row), s.rows[p] = some r → r.ctx.refillAsked = false) :
    (arbitrate s).rows = s.rows := by
  unfold arbitrate
  cases hp : s.lib.port with
  | some u => rfl
  | none =>
    have : refillWork s = none := by
      unfold refillWork
      rw [List.find?_eq_none]
      intro p _
      rcases h with h | h
      · rw [hp] at h; cases h
      · cases hr : s.rows[p] with
        | none => simp
        | some r => simp [h p r hr]
    simp only [this]
    rfl

/-- A refill that waits has a lowest-numbered player that asks (R124). -/
theorem refillWork_some {s : State} (h : ∃ (p : Fin 4) (r : Row), s.rows[p] = some r ∧ r.ctx.refillAsked = true) :
    ∃ (p : Fin 4) (r : Row), s.rows[p] = some r ∧ r.ctx.refillAsked = true ∧
      ∀ (q : Fin 4) (r' : Row), q < p → s.rows[q] = some r' → r'.ctx.refillAsked = false := by
  classical
  obtain ⟨p, hp, hmin⟩ := (Finset.univ.filter (fun p : Fin 4 => ∃ r, s.rows[p] = some r ∧ r.ctx.refillAsked = true)).exists_minimal
    (by obtain ⟨p, r, h⟩ := h; exact ⟨p, by simpa using ⟨r, h⟩⟩)
  simp only [Finset.mem_filter, Finset.mem_univ, true_and] at hp hmin
  obtain ⟨r, hr, ha⟩ := hp
  refine ⟨p, r, hr, ha, fun q r' hq hr' => ?_⟩
  by_contra hb
  have := hmin ⟨r', hr', by simpa using hb⟩ (le_of_lt hq)
  omega

/-- Once the port has been served, every player that needs a refill has one outstanding (R78, R124). -/
theorem servePort_asks (s : State) : RefillsAsked (servePort s) := by
  have hlib : (askRefills s).lib = s.lib := by simp
  -- refills are asked for before the arbiter decides
  have asked : ∀ (p : Fin 4) (r : Row), (askRefills s).rows[p] = some r → NeedsRefill r →
      r.ctx.refillAsked = true ∨ s.lib.port = some (.refill p true) := by
    intro p r hr hn
    cases hs : s.rows[p] with
    | none => rw [(askRefills_row s p).1 hs] at hr; cases hr
    | some o =>
      obtain ⟨b, hb, hi⟩ := (askRefills_row s p).2 o hs
      rw [hb] at hr; cases hr
      by_cases h : s.lib.port = some (.refill p true)
      · exact .inr h
      · exact .inl (hi.mpr (.inr ⟨hn, h⟩))
  intro p r hr hn
  by_cases hfree : s.lib.port = none ∧ ∃ (p : Fin 4) (r : Row), (askRefills s).rows[p] = some r ∧ r.ctx.refillAsked = true
  · obtain ⟨q, o, ho, ha, hq⟩ := refillWork_some hfree.2
    obtain ⟨a1, a2, a3⟩ := arbitrate_refill (hlib ▸ hfree.1) ho ha hq
    by_cases hpq : p = q
    · exact .inr (hpq ▸ a1)
    · have hr' := (a3 p hpq).symm.trans hr
      refine (asked p r hr' hn).imp id fun h => ?_
      rw [hfree.1] at h; cases h
  · have hbusy : (askRefills s).lib.port.isSome = true ∨
        ∀ (p : Fin 4) (r : Row), (askRefills s).rows[p] = some r → r.ctx.refillAsked = false := by
      by_cases h : s.lib.port = none
      · exact .inr fun q o ho => by
          by_contra hb
          exact hfree ⟨h, q, o, ho, by simpa using hb⟩
      · exact .inl (by rw [hlib]; exact Option.isSome_iff_ne_none.mpr h)
    have hrows : (servePort s).rows = (askRefills s).rows := arbitrate_rows hbusy
    have hr' : (askRefills s).rows[p] = some r := by
      rw [← hr]; exact congrArg (fun v : Vector (Option Row) 4 => v[p]) hrows.symm
    refine (asked p r hr' hn).imp id fun h => ?_
    rw [servePort_busy s (by rw [h]; rfl)]; exact h

end Sys2Proof.Machine
end

