-- ==== Sys2Proof/Laws/Project.lean ====
section
/-!
SUPPORT. What a player's projection makes of its zone state table (R88, R102): every item up to a show frame is taken on a copy, in
the words of Safety.
-/

namespace Sys2Proof.Machine

set_option Elab.async false

section

variable {zmap : List ZoneBoot} {g : Bool} {y : Int}

/-! ### The items left to take -/

/-- An item stands before another (R76). -/
def itemBefore (a b : Cue × Nat) : Prop := a.2 < b.2 ∨ (a.2 = b.2 ∧ a.1.index < b.1.index)

/-- What a context must be for its items to be taken up to `y`: CuesInOrder, with the cue it stops at not before `y`. -/
structure Projectable (zmap : List ZoneBoot) (g : Bool) (y : Int) (x : Context) : Prop where
  sweeps : ∀ w ∈ x.sweeps, (w.cue.action = .sweepUp ∨ w.cue.action = .sweepDown) ∧ w.todo ≠ [] ∧ w.todo.Nodup ∧
    w.todo.Pairwise (fun i j => reachedAt zmap w.cue i ≤ reachedAt zmap w.cue j) ∧ ∀ i ∈ w.todo, touchesAt zmap w.cue i
  stored : (x.sweeps.map (·.cue) ++ cuesOpen g x.window).Pairwise (fun a b => a.index < b.index)
  timed : (cuesOpen g x.window).Pairwise (fun a b => a.time ≤ b.time)
  stop : ∀ c later, x.window = cuesOpen g x.window ++ c :: later → y ≤ c.time
  room : x.sweeps.length + ((cuesOpen g x.window).filter (fun c => c.action == .sweepUp || c.action == .sweepDown)).length ≤ 8

/-- How many items a context can still take. -/
def itemsIn (zmap : List ZoneBoot) (x : Context) : Nat :=
  x.window.length * (zmap.length + 1) + (x.sweeps.map (fun w => w.todo.length)).sum

theorem cuesOpen_cons (c : Cue) (later : List Cue) :
    cuesOpen g (c :: later) = if c.action ≠ .endShow ∧ (g = true ∨ c.action ≠ .gate) then c :: cuesOpen g later else [] := by
  unfold cuesOpen
  rw [List.takeWhile_cons]
  by_cases h : c.action ≠ .endShow ∧ (g = true ∨ c.action ≠ .gate)
  · rw [if_pos h, if_pos (by simpa using h)]
  · rw [if_neg h, if_neg (by simpa using h)]

theorem time_le_itemFrame (c : Cue) (i : Nat) : c.time ≤ itemFrame zmap c i := by
  unfold itemFrame; split
  · exact le_refl _
  · exact reachedAt_ge zmap c i

/-- One item is taken, then the rest (R76). -/
theorem ItemsTaken.cons {x x1 : Context} {c : Cue} {e : Nat} {hit : Nat → Prop} {zones : List ZoneTracks}
    (hz : ZonesTake c e hit x.zones x1.zones) (ht : ItemsTaken zmap g x1 y zones)
    (hhit : ∀ i k, (hit i ∧ c.track = (k : Fin 4).val) → ∀ a, itemOpen zmap g x y i k a ↔ a = (c, e) ∨ itemOpen zmap g x1 y i k a)
    (hbefore : ∀ i k, (hit i ∧ c.track = (k : Fin 4).val) → ∀ a, itemOpen zmap g x1 y i k a → itemBefore (c, e) a)
    (hmiss : ∀ i k, ¬ (hit i ∧ c.track = (k : Fin 4).val) → ∀ a, itemOpen zmap g x y i k a ↔ itemOpen zmap g x1 y i k a) :
    ItemsTaken zmap g x y zones := by
  refine ⟨ht.1.trans hz.1, fun i z h => ?_⟩
  obtain ⟨z1, h1, hk1⟩ := hz.2 i z h
  obtain ⟨z2, h2, hk2⟩ := ht.2 i z1 h1
  refine ⟨z2, h2, fun k => ?_⟩
  obtain ⟨items, hi, hp, hf⟩ := hk2 k
  by_cases hh : hit i ∧ c.track = k.val
  · refine ⟨(c, e) :: items, fun a => ?_, ?_, ?_⟩
    · rw [List.mem_cons, hi, hhit i k hh]
    · rw [List.pairwise_cons]
      exact ⟨fun a ha => hbefore i k hh a ((hi a).1 ha), hp⟩
    · rw [hf, List.foldl_cons, (hk1 k).1 hh]
  · exact ⟨items, fun a => by rw [hi, hmiss i k hh], hp, by rw [hf, (hk1 k).2 hh]⟩

/-- With no item left up to `y` the zone state table stays (R76). -/
theorem ItemsTaken.refl {x : Context} (h : ∀ i k a, ¬ itemOpen zmap g x y i k a) : ItemsTaken zmap g x y x.zones := by
  refine ⟨rfl, fun i z hz => ⟨z, hz, fun k => ⟨[], fun a => ?_, List.Pairwise.nil, rfl⟩⟩⟩
  simp [h i k a]

/-- A cue that writes no record leaves the items as they were. -/
theorem ItemsTaken.skip {x x1 : Context} {zones : List ZoneTracks} (hz : x1.zones = x.zones) (ht : ItemsTaken zmap g x1 y zones)
    (h : ∀ i k a, itemOpen zmap g x y i k a ↔ itemOpen zmap g x1 y i k a) : ItemsTaken zmap g x y zones := by
  refine ⟨by rw [ht.1, hz], fun i z hi => ?_⟩
  obtain ⟨z', h1, h2⟩ := ht.2 i z (by rw [hz]; exact hi)
  refine ⟨z', h1, fun k => ?_⟩
  obtain ⟨items, hm, hp, hf⟩ := h2 k
  exact ⟨items, fun a => by rw [hm, h], hp, hf⟩

/-! ### The next sweep item -/

/-- The sweep item taken next is the first of the least frame, in stored order (R76). -/
theorem nextSweepItem_first (ws : List Sweep)
    (hs : ∀ w ∈ ws, w.todo.Pairwise (fun i j => reachedAt zmap w.cue i ≤ reachedAt zmap w.cue j)) :
    (nextSweepItem zmap ws = none → ∀ w ∈ ws, w.todo = []) ∧
    ∀ c i e, nextSweepItem zmap ws = some (c, i, e) → e = reachedAt zmap c i ∧ ∃ before w after, ws = before ++ w :: after ∧
      w.cue = c ∧ i ∈ w.todo ∧ (∀ v ∈ before, ∀ j ∈ v.todo, e < reachedAt zmap v.cue j) ∧
      ∀ v ∈ w :: after, ∀ j ∈ v.todo, e ≤ reachedAt zmap v.cue j := by
  induction ws with
  | nil => simp [nextSweepItem]
  | cons w ws ih =>
    obtain ⟨ih0, ih1⟩ := ih fun v hv => hs v (List.mem_cons_of_mem _ hv)
    have hw := hs w List.mem_cons_self
    have hhead : ∀ i rest, w.todo = i :: rest → ∀ j ∈ w.todo, reachedAt zmap w.cue i ≤ reachedAt zmap w.cue j := by
      intro i rest h j hj
      rw [h] at hw hj
      rcases List.mem_cons.1 hj with rfl | hj
      · exact le_refl _
      · exact (List.pairwise_cons.1 hw).1 j hj
    unfold nextSweepItem
    split
    · rename_i htodo
      refine ⟨fun h v hv => ?_, fun c i e h => ?_⟩
      · rcases List.mem_cons.1 hv with rfl | hv
        · exact htodo
        · exact ih0 h v hv
      · obtain ⟨he, before, v, after, hl, hc, hi, hb, ha⟩ := ih1 c i e h
        refine ⟨he, w :: before, v, after, by rw [hl]; rfl, hc, hi, fun u hu j hj => ?_, ha⟩
        rcases List.mem_cons.1 hu with rfl | hu
        · simp [htodo] at hj
        · exact hb u hu j hj
    · rename_i i0 rest htodo hn
      refine ⟨by simp, fun c i e h => ?_⟩
      cases h
      refine ⟨sweepFrameAt_eq _ _ _, [], w, ws, rfl, rfl, by simp [htodo], by simp, fun v hv j hj => ?_⟩
      rw [sweepFrameAt_eq]
      rcases List.mem_cons.1 hv with rfl | hv
      · exact hhead _ _ htodo j hj
      · rw [ih0 hn v hv] at hj; simp at hj
    · rename_i i0 rest c0 j0 e0 htodo hn
      refine ⟨by split <;> simp, fun c i e h => ?_⟩
      obtain ⟨he0, before, v, after, hl, hc, hi, hb, ha⟩ := ih1 c0 j0 e0 hn
      have hall : ∀ u ∈ ws, ∀ j ∈ u.todo, e0 ≤ reachedAt zmap u.cue j := by
        intro u hu j hj
        rw [hl] at hu
        rcases List.mem_append.1 hu with hu | hu
        · exact le_of_lt (hb u hu j hj)
        · exact ha u hu j hj
      rw [sweepFrameAt_eq] at h
      split at h
      · rename_i hle
        cases h
        refine ⟨rfl, [], w, ws, rfl, rfl, by simp [htodo], by simp, fun u hu j hj => ?_⟩
        rcases List.mem_cons.1 hu with rfl | hu
        · exact hhead _ _ htodo j hj
        · exact le_trans hle (hall u hu j hj)
      · rename_i hlt
        cases h
        refine ⟨he0, w :: before, v, after, by rw [hl]; rfl, hc, hi, fun u hu j hj => ?_, ha⟩
        rcases List.mem_cons.1 hu with rfl | hu
        · exact lt_of_lt_of_le (by omega) (hhead _ _ htodo j hj)
        · exact hb u hu j hj

/-! ### A sweep item is taken -/

/-- What taking an item leaves of a sweep in progress. -/
def sweepLeft (c : Cue) (i : Nat) (w : Sweep) : Sweep := if w.cue.index == c.index then { w with todo := w.todo.erase i } else w

theorem sweepLeft_cue (c : Cue) (i : Nat) (w : Sweep) : (sweepLeft c i w).cue = w.cue := by unfold sweepLeft; split <;> rfl

theorem takeSweepItem_sweeps (c : Cue) (i e : Nat) (x : Context) :
    (takeSweepItem zmap c i e x).sweeps = (x.sweeps.map (sweepLeft c i)).filter (fun w => w.todo != []) := rfl

theorem sweepLeft_length_le (c : Cue) (i : Nat) (w : Sweep) : (sweepLeft c i w).todo.length ≤ w.todo.length := by
  unfold sweepLeft; split
  · exact List.length_erase_le
  · exact le_refl _

theorem sum_todo_le (c : Cue) (i : Nat) (ws : List Sweep) :
    (((ws.map (sweepLeft c i)).filter (fun w => w.todo != [])).map (fun w => w.todo.length)).sum ≤ (ws.map (fun w => w.todo.length)).sum := by
  induction ws with
  | nil => simp
  | cons w ws ih =>
    have := sweepLeft_length_le c i w
    simp only [List.map_cons, List.filter_cons, List.sum_cons]
    split <;> (try simp only [List.map_cons, List.sum_cons]) <;> omega

theorem sum_todo_lt (c : Cue) (i : Nat) (ws : List Sweep) (h : ∃ w ∈ ws, w.cue.index = c.index ∧ i ∈ w.todo) :
    (((ws.map (sweepLeft c i)).filter (fun w => w.todo != [])).map (fun w => w.todo.length)).sum < (ws.map (fun w => w.todo.length)).sum := by
  induction ws with
  | nil => simp at h
  | cons w ws ih =>
    have hle := sweepLeft_length_le c i w
    have hsum := sum_todo_le c i ws
    simp only [List.map_cons, List.filter_cons, List.sum_cons]
    obtain ⟨v, hv, hc, hi⟩ := h
    rcases List.mem_cons.1 hv with rfl | hv
    · have : (sweepLeft c i v).todo.length < v.todo.length := by
        unfold sweepLeft
        simp only [hc, beq_self_eq_true, if_true, List.length_erase_of_mem hi]
        have := List.length_pos_of_mem hi
        omega
      split <;> (try simp only [List.map_cons, List.sum_cons]) <;> omega
    · have := ih ⟨v, hv, hc, hi⟩
      split <;> (try simp only [List.map_cons, List.sum_cons]) <;> omega

/-- The next sweep item is taken up to `y` (R76, R81). -/
theorem sweepItem_step {x : Context} {c : Cue} {i e : Nat} (hp : Projectable zmap g y x)
    (hn : nextSweepItem zmap x.sweeps = some (c, i, e)) (hy : (e : Int) ≤ y) (hwin : ∀ d, x.window.head? = some d → e ≤ d.time) :
    Projectable zmap g y (takeSweepItem zmap c i e x) ∧ itemsIn zmap (takeSweepItem zmap c i e x) < itemsIn zmap x ∧
      ∀ zones, ItemsTaken zmap g (takeSweepItem zmap c i e x) y zones → ItemsTaken zmap g x y zones := by
  obtain ⟨he, before, w, after, hl, hc, hi, hb, ha⟩ := (nextSweepItem_first x.sweeps fun v hv => (hp.sweeps v hv).2.2.2.1).2 c i e hn
  have hwm : w ∈ x.sweeps := by rw [hl]; simp
  have hst := hp.stored
  rw [hl, List.map_append, List.map_cons, hc] at hst
  have hidx : ∀ v ∈ x.sweeps, v.cue.index = c.index → v = w := by
    intro v hv hvi
    rw [hl] at hv
    rw [List.append_assoc, List.pairwise_append] at hst
    rcases List.mem_append.1 hv with hv | hv
    · have := hst.2.2 v.cue (List.mem_map_of_mem hv) c (by simp)
      omega
    · rcases List.mem_cons.1 hv with rfl | hv
      · rfl
      · have := (List.pairwise_cons.1 hst.2.1).1 v.cue (List.mem_append_left _ (List.mem_map_of_mem hv))
        omega
  have hmem : ∀ v, v ∈ (takeSweepItem zmap c i e x).sweeps ↔ ∃ u ∈ x.sweeps, v = sweepLeft c i u ∧ v.todo ≠ [] := by
    intro v
    rw [takeSweepItem_sweeps]
    simp only [List.mem_filter, List.mem_map, bne_iff_ne, ne_eq]
    constructor
    · rintro ⟨⟨u, hu, rfl⟩, h⟩; exact ⟨u, hu, rfl, h⟩
    · rintro ⟨u, hu, rfl, h⟩; exact ⟨⟨u, hu, rfl⟩, h⟩
  have hlater : ∀ d ∈ cuesOpen g x.window, c.index < d.index := by
    intro d hd
    rw [List.append_assoc, List.pairwise_append] at hst
    exact (List.pairwise_cons.1 hst.2.1).1 d (List.mem_append_right _ hd)
  have htime : ∀ d ∈ cuesOpen g x.window, e ≤ d.time := by
    intro d hd
    cases hx : x.window with
    | nil => rw [hx] at hd; simp [cuesOpen] at hd
    | cons f fs =>
      have hf : e ≤ f.time := hwin f (by simp [hx])
      have ht := hp.timed
      rw [hx, cuesOpen_cons] at hd ht
      split at hd
      · rename_i ho
        rw [if_pos ho] at ht
        rcases List.mem_cons.1 hd with rfl | hd
        · exact hf
        · exact le_trans hf ((List.pairwise_cons.1 ht).1 d hd)
      · simp at hd
  -- the items of the context before and after
  have hopen : ∀ j k a, itemOpen zmap g x y j k a ↔
      (j = i ∧ c.track = (k : Fin 4).val ∧ a = (c, e)) ∨ itemOpen zmap g (takeSweepItem zmap c i e x) y j k a := by
    intro j k a
    have hact := hp.sweeps w hwm
    have hframe : itemFrame zmap c i = e := by
      rw [he]; unfold itemFrame; rw [if_neg]; rw [← hc]; rcases hact.1 with h | h <;> simp [h]
    unfold itemOpen
    constructor
    · rintro ⟨h1, h2, h3, h4⟩
      rcases h4 with ⟨v, hv, hvc, hj⟩ | h4
      · by_cases hh : v.cue.index = c.index ∧ j = i
        · left
          have hvw := hidx v hv hh.1
          rw [hvw, hc] at hvc
          have h1' : a.1 = c := hvc.symm
          exact ⟨hh.2, by rw [← h1']; exact h1, by
            rw [h1', hh.2, hframe] at h2
            exact Prod.ext h1' h2⟩
        · right
          refine ⟨h1, h2, h3, .inl ⟨sweepLeft c i v, ?_, by rw [sweepLeft_cue]; exact hvc, ?_⟩⟩
          · rw [hmem]
            refine ⟨v, hv, rfl, ?_⟩
            apply List.ne_nil_of_mem (a := j)
            unfold sweepLeft; split
            · rename_i h; exact (List.mem_erase_of_ne (fun h' => hh ⟨by simpa using h, h'⟩)).2 hj
            · exact hj
          · unfold sweepLeft; split
            · rename_i h; exact (List.mem_erase_of_ne (fun h' => hh ⟨by simpa using h, h'⟩)).2 hj
            · exact hj
      · right; exact ⟨h1, h2, h3, .inr h4⟩
    · rintro (⟨rfl, h1, rfl⟩ | ⟨h1, h2, h3, h4⟩)
      · exact ⟨h1, hframe.symm, hy, .inl ⟨w, hwm, hc, hi⟩⟩
      · refine ⟨h1, h2, h3, ?_⟩
        rcases h4 with ⟨v, hv, hvc, hj⟩ | h4
        · obtain ⟨u, hu, rfl, -⟩ := (hmem v).1 hv
          rw [sweepLeft_cue] at hvc
          refine .inl ⟨u, hu, hvc, ?_⟩
          unfold sweepLeft at hj; split at hj
          · exact List.mem_of_mem_erase hj
          · exact hj
        · exact .inr h4
  have hnot : ∀ k a, itemOpen zmap g (takeSweepItem zmap c i e x) y i k a → itemBefore (c, e) a := by
    rintro k a ⟨h1, h2, h3, h4⟩
    rcases h4 with ⟨v, hv, hvc, hj⟩ | ⟨hd, -, -⟩
    · obtain ⟨u, hu, rfl, -⟩ := (hmem v).1 hv
      rw [sweepLeft_cue] at hvc
      have hne : u.cue.index ≠ c.index := by
        intro h
        have := hidx u hu h
        subst this
        unfold sweepLeft at hj; rw [if_pos (by simp [h])] at hj
        exact List.Nodup.not_mem_erase (hp.sweeps u hu).2.2.1 hj
      have hju : i ∈ u.todo := by
        unfold sweepLeft at hj; rw [if_neg (by simpa using hne)] at hj; exact hj
      have hframe : a.2 = reachedAt zmap u.cue i := by
        rw [h2, ← hvc]; unfold itemFrame; rw [if_neg]; rcases (hp.sweeps u hu).1 with h | h <;> simp [h]
      rw [hl] at hu
      rcases List.mem_append.1 hu with hu | hu
      · left; rw [hframe]; exact hb u hu i hju
      · rcases List.mem_cons.1 hu with rfl | hu'
        · exact absurd (by rw [hc]) hne
        · have hle := ha u (List.mem_cons_of_mem _ hu') i hju
          rw [List.append_assoc, List.pairwise_append] at hst
          have := (List.pairwise_cons.1 hst.2.1).1 u.cue (List.mem_append_left _ (List.mem_map_of_mem hu'))
          rw [hvc] at this
          by_cases hlt : e < a.2
          · exact .inl hlt
          · exact .inr ⟨by show e = a.2; omega, this⟩
    · have h5 := htime a.1 hd
      have h6 := time_le_itemFrame (zmap := zmap) a.1 i
      have h7 := hlater a.1 hd
      by_cases hlt : e < a.2
      · exact .inl hlt
      · exact .inr ⟨by show e = a.2; omega, h7⟩
  refine ⟨?_, ?_, fun zones ht => ?_⟩
  · refine ⟨fun v hv => ?_, ?_, hp.timed, hp.stop, ?_⟩
    · obtain ⟨u, hu, rfl, hne⟩ := (hmem v).1 hv
      obtain ⟨h1, h2, h3, h4, h5⟩ := hp.sweeps u hu
      rw [sweepLeft_cue]
      refine ⟨h1, hne, ?_, ?_, ?_⟩ <;> unfold sweepLeft <;> split
      · exact h3.erase i
      · exact h3
      · exact h4.sublist List.erase_sublist
      · exact h4
      · exact fun j hj => h5 j (List.mem_of_mem_erase hj)
      · exact h5
    · refine List.Pairwise.sublist ?_ hp.stored
      refine List.Sublist.append ?_ (List.Sublist.refl _)
      rw [takeSweepItem_sweeps]
      have : (x.sweeps.map (sweepLeft c i)).map (·.cue) = x.sweeps.map (·.cue) := by
        simp [Function.comp_def, sweepLeft_cue]
      rw [← this]
      exact List.Sublist.map _ List.filter_sublist
    · have : (takeSweepItem zmap c i e x).sweeps.length ≤ x.sweeps.length := by
        rw [takeSweepItem_sweeps]; exact le_trans (List.length_filter_le _ _) (by simp)
      exact le_trans (Nat.add_le_add_right this _) hp.room
  · have := sum_todo_lt c i x.sweeps ⟨w, hwm, by rw [hc], hi⟩
    unfold itemsIn
    rw [takeSweepItem_sweeps]
    show x.window.length * _ + _ < _
    omega
  · have hz : ZonesTake c e (fun j => ∃ b, zmap[j]? = some b ∧ [i].contains j = true) x.zones (takeSweepItem zmap c i e x).zones :=
      mapZones_take zmap (fun j _ => [i].contains j) c e x.zones
    have hin : ∃ b, zmap[i]? = some b := by
      obtain ⟨b, hb', -⟩ := (hp.sweeps w hwm).2.2.2.2 i hi
      exact ⟨b, hb'⟩
    have hhit : ∀ j, (∃ b, zmap[j]? = some b ∧ [i].contains j = true) ↔ j = i := by
      intro j; simp only [List.contains_cons, List.contains_nil, Bool.or_false, beq_iff_eq]
      constructor
      · rintro ⟨_, _, h⟩; exact h
      · rintro rfl; obtain ⟨b, hb'⟩ := hin; exact ⟨b, hb', rfl⟩
    refine ItemsTaken.cons (hz.congr hhit) ht ?_ ?_ ?_
    · rintro j k ⟨rfl, hk⟩ a
      rw [hopen]
      exact ⟨fun h => h.elim (fun h => .inl h.2.2) .inr, fun h => h.elim (fun h => .inl ⟨rfl, hk, h⟩) .inr⟩
    · rintro j k ⟨rfl, hk⟩ a ha'
      exact hnot k a ha'
    · intro j k hne a
      rw [hopen]
      exact ⟨fun h => h.elim (fun h => absurd ⟨h.1, h.2.1⟩ hne) id, .inr⟩

/-! ### A cue of the window is taken -/

/-- What stands behind the head of the window (R76): the cues open after it, in stored order and ascending time. -/
theorem Projectable.head {x : Context} {c : Cue} {later : List Cue} (hp : Projectable zmap g y x) (hw : x.window = c :: later)
    (ho : c.action ≠ .endShow ∧ (g = true ∨ c.action ≠ .gate)) :
    cuesOpen g x.window = c :: cuesOpen g later ∧ (∀ d ∈ cuesOpen g later, c.index < d.index ∧ c.time ≤ d.time) ∧
      ∀ w ∈ x.sweeps, w.cue.index < c.index := by
  have hc : cuesOpen g x.window = c :: cuesOpen g later := by rw [hw, cuesOpen_cons, if_pos ho]
  have hst := hp.stored
  have ht := hp.timed
  rw [hc] at hst ht
  rw [List.pairwise_append] at hst
  exact ⟨hc, fun d hd => ⟨(List.pairwise_cons.1 hst.2.1).1 d hd, (List.pairwise_cons.1 ht).1 d hd⟩,
    fun w hw => hst.2.2 w.cue (List.mem_map_of_mem hw) c List.mem_cons_self⟩

/-- The head of the window has left it, and no sweep has joined the list. -/
theorem Projectable.tail {x x1 : Context} {c : Cue} {later : List Cue} (hp : Projectable zmap g y x) (hw : x.window = c :: later)
    (ho : c.action ≠ .endShow ∧ (g = true ∨ c.action ≠ .gate)) (h1 : x1.window = later) (h2 : x1.sweeps = x.sweeps) :
    Projectable zmap g y x1 ∧ itemsIn zmap x1 < itemsIn zmap x := by
  have hh := hp.head hw ho
  refine ⟨⟨by rw [h2]; exact hp.sweeps, ?_, ?_, ?_, ?_⟩, ?_⟩
  · rw [h2, h1]
    have := hp.stored
    rw [hh.1] at this
    exact this.sublist ((List.Sublist.refl _).append (List.sublist_cons_self _ _))
  · rw [h1]; have := hp.timed; rw [hh.1] at this; exact (List.pairwise_cons.1 this).2
  · intro d ds h
    rw [h1] at h
    exact hp.stop d ds (by rw [hh.1, List.cons_append, ← h, hw])
  · have := hp.room
    rw [hh.1, List.filter_cons] at this
    rw [h1, h2]
    split at this
    · simp only [List.length_cons] at this; omega
    · exact this
  · unfold itemsIn; rw [h1, h2, hw, List.length_cons, Nat.add_mul]; omega

/-- The items open with a cue at the head of the window: those of it, and those open without it. -/
theorem itemOpen_head {x : Context} {c : Cue} {later : List Cue} (hw : x.window = c :: later)
    (ho : c.action ≠ .endShow ∧ (g = true ∨ c.action ≠ .gate)) (i : Nat) (k : Fin 4) (a : Cue × Nat) :
    itemOpen zmap g x y i k a ↔
      (c.track = k ∧ a = (c, itemFrame zmap c i) ∧ (itemFrame zmap c i : Int) ≤ y ∧ writesZones c ∧ touchesAt zmap c i) ∨
        itemOpen zmap g { x with window := later } y i k a := by
  have hc : cuesOpen g x.window = c :: cuesOpen g later := by rw [hw, cuesOpen_cons, if_pos ho]
  unfold itemOpen
  rw [hc]
  constructor
  · rintro ⟨h1, h2, h3, h4 | ⟨h4, h5, h6⟩⟩
    · exact .inr ⟨h1, h2, h3, .inl h4⟩
    · rcases List.mem_cons.1 h4 with h4 | h4
      · rw [h4] at h1 h2 h5 h6
        exact .inl ⟨h1, Prod.ext h4 h2, by rw [← h2]; exact h3, h5, h6⟩
      · exact .inr ⟨h1, h2, h3, .inr ⟨h4, h5, h6⟩⟩
  · rintro (⟨h1, rfl, h3, h5, h6⟩ | ⟨h1, h2, h3, h4 | ⟨h4, h5, h6⟩⟩)
    · exact ⟨h1, rfl, h3, .inr ⟨List.mem_cons_self, h5, h6⟩⟩
    · exact ⟨h1, h2, h3, .inl h4⟩
    · exact ⟨h1, h2, h3, .inr ⟨List.mem_cons_of_mem _ h4, h5, h6⟩⟩

/-- The items open depend on the window and the sweep list alone. -/
theorem itemOpen_congr {x x1 : Context} (h1 : x1.window = x.window) (h2 : x1.sweeps = x.sweeps) (i : Nat) (k : Fin 4) (a : Cue × Nat) :
    itemOpen zmap g x1 y i k a ↔ itemOpen zmap g x y i k a := by unfold itemOpen; rw [h1, h2]

/-- A cue that stands before every sweep item, at its own time, comes before every item open after it. -/
theorem head_before {x : Context} {c : Cue} {later : List Cue} (hp : Projectable zmap g y x) (hw : x.window = c :: later)
    (ho : c.action ≠ .endShow ∧ (g = true ∨ c.action ≠ .gate)) (hs : ∀ w ∈ x.sweeps, ∀ j ∈ w.todo, c.time < reachedAt zmap w.cue j)
    (i : Nat) (k : Fin 4) (a : Cue × Nat) (h : itemOpen zmap g { x with window := later } y i k a) : itemBefore (c, c.time) a := by
  have hh := hp.head hw ho
  obtain ⟨-, h2, -, ⟨w, hwm, hwc, hi⟩ | ⟨h4, -, -⟩⟩ := h
  · left
    have : a.2 = reachedAt zmap w.cue i := by
      rw [h2, ← hwc]; unfold itemFrame; rw [if_neg]; rcases (hp.sweeps w hwm).1 with h | h <;> simp [h]
    rw [this]; exact hs w hwm i hi
  · have h5 := hh.2.1 a.1 h4
    have h6 := time_le_itemFrame (zmap := zmap) a.1 i
    by_cases hlt : c.time < a.2
    · exact .inl hlt
    · exact .inr ⟨by show c.time = a.2; omega, h5.1⟩

/-- A cue that writes no record is passed (R82, R84). -/
theorem passedCue_step {x x1 : Context} {c : Cue} {later : List Cue} (hw : x.window = c :: later)
    (ho : c.action ≠ .endShow ∧ (g = true ∨ c.action ≠ .gate)) (hn : ¬ writesZones c) (h1 : x1.window = later) (h2 : x1.sweeps = x.sweeps)
    (h3 : x1.zones = x.zones) (zones : List ZoneTracks) (ht : ItemsTaken zmap g x1 y zones) : ItemsTaken zmap g x y zones := by
  refine ItemsTaken.skip h3 ht fun i k a => ?_
  rw [itemOpen_head hw ho]
  exact ⟨fun h => h.elim (fun h => absurd h.2.2.2.1 hn) fun h => (itemOpen_congr (x := { x with window := later }) h1 h2 i k a).2 h,
    fun h => .inr ((itemOpen_congr (x := { x with window := later }) h1 h2 i k a).1 h)⟩

/-- A SET or FADE cue is taken up to `y` (R76, R80). -/
theorem zoneCue_step {x x1 : Context} {c : Cue} {later : List Cue} (hp : Projectable zmap g y x) (hw : x.window = c :: later)
    (hact : c.action = .set ∨ c.action = .fade) (hs : ∀ w ∈ x.sweeps, ∀ j ∈ w.todo, c.time < reachedAt zmap w.cue j)
    (hy : (c.time : Int) ≤ y) (h1 : x1.window = later) (h2 : x1.sweeps = x.sweeps)
    (hz : ZonesTake c c.time (touchesAt zmap c) x.zones x1.zones) (zones : List ZoneTracks) (ht : ItemsTaken zmap g x1 y zones) :
    ItemsTaken zmap g x y zones := by
  have ho : c.action ≠ .endShow ∧ (g = true ∨ c.action ≠ .gate) := by rcases hact with h | h <;> simp [h]
  have hf : ∀ i, itemFrame zmap c i = c.time := fun i => by unfold itemFrame; rw [if_pos hact]
  have hwz : writesZones c := by unfold writesZones; rcases hact with h | h <;> simp [h]
  have hx1 : ∀ i k a, itemOpen zmap g x1 y i k a ↔ itemOpen zmap g { x with window := later } y i k a := fun i k a =>
    itemOpen_congr (x := { x with window := later }) h1 h2 i k a
  refine ItemsTaken.cons hz ht ?_ ?_ ?_
  · rintro i k ⟨hi, hk⟩ a
    rw [itemOpen_head hw ho, hf, hx1]
    exact ⟨fun h => h.elim (fun h => .inl h.2.1) .inr, fun h => h.elim (fun h => .inl ⟨hk, h, hy, hwz, hi⟩) .inr⟩
  · rintro i k - a h
    exact head_before hp hw ho hs i k a ((hx1 i k a).1 h)
  · intro i k hne a
    rw [itemOpen_head hw ho, hx1]
    exact ⟨fun h => h.elim (fun h => absurd ⟨h.2.2.2.2, h.1⟩ hne) id, .inr⟩

/-- A SWEEP cue is taken up to `y` (R76, R81). -/
theorem sweepCue_step {x x' x1 : Context} {c : Cue} {later : List Cue} (hp : Projectable zmap g y x) (hw : x.window = c :: later)
    (hact : c.action = .sweepUp ∨ c.action = .sweepDown) (hs : ∀ w ∈ x.sweeps, ∀ j ∈ w.todo, c.time < reachedAt zmap w.cue j)
    (hy : (c.time : Int) ≤ y) (hlen : ∀ zs : List Nat, zs.Nodup → (∀ i ∈ zs, touchesAt zmap c i) → zs.length ≤ zmap.length)
    (hx : CueTaken zmap c later x x') (h1 : x1.window = x'.window) (h2 : x1.sweeps = x'.sweeps) (h3 : x1.zones = x'.zones) :
    Projectable zmap g y x1 ∧ itemsIn zmap x1 < itemsIn zmap x ∧
      ∀ zones, ItemsTaken zmap g x1 y zones → ItemsTaken zmap g x y zones := by
  have ho : c.action ≠ .endShow ∧ (g = true ∨ c.action ≠ .gate) := by rcases hact with h | h <;> simp [h]
  have hset : ¬ (c.action = .set ∨ c.action = .fade) := by rcases hact with h | h <;> simp [h]
  have hf : ∀ i, itemFrame zmap c i = reachedAt zmap c i := fun i => by unfold itemFrame; rw [if_neg hset]
  have hwz : writesZones c := by unfold writesZones; rcases hact with h | h <;> simp [h]
  have hh := hp.head hw ho
  have hroom : x.sweeps.length < 8 := by
    have := hp.room
    rw [hh.1, List.filter_cons, if_pos (by rcases hact with h | h <;> simp [h])] at this
    simp only [List.length_cons] at this; omega
  unfold CueTaken at hx
  rw [if_neg hset] at hx
  obtain ⟨zs, todo, hnd, hpw, hmem, hx⟩ := hx
  -- the sweep that joins the list, if any
  have hsw : x1.window = later ∧ x1.sweeps = x.sweeps ++ (if todo = [] then [] else [{ cue := c, todo := todo }]) ∧
      ZonesTake c c.time (fun i => touchesAt zmap c i ∧ reachedAt zmap c i = c.time) x.zones x1.zones := by
    split at hx
    · rename_i ht
      obtain ⟨hz, rfl⟩ := hx
      refine ⟨h1, by rw [h2, if_pos ht]; simp, h3 ▸ hz.congr fun i => ⟨fun hi => ⟨hi, ?_⟩, fun hi => hi.1⟩⟩
      by_contra hne
      have := (hmem i).2 ⟨hi, hne⟩
      simp [ht] at this
    · rename_i ht
      obtain ⟨kept, mid, hk, -, hz, rfl⟩ := hx
      obtain ⟨rfl, rfl⟩ := hk hroom
      exact ⟨h1, by rw [h2, if_neg ht], h3 ▸ hz⟩
  obtain ⟨hwin1, hsw1, hz1⟩ := hsw
  have hin : ∀ w, w ∈ x1.sweeps ↔ w ∈ x.sweeps ∨ (todo ≠ [] ∧ w = { cue := c, todo := todo }) := by
    intro w
    rw [hsw1, List.mem_append]
    by_cases ht : todo = [] <;> simp [ht]
  have hopen : ∀ i k a, itemOpen zmap g x1 y i k a ↔
      (c.track = (k : Fin 4).val ∧ a = (c, reachedAt zmap c i) ∧ (reachedAt zmap c i : Int) ≤ y ∧ touchesAt zmap c i ∧ reachedAt zmap c i ≠ c.time) ∨
        itemOpen zmap g { x with window := later } y i k a := by
    intro i k a
    unfold itemOpen
    rw [hwin1]
    constructor
    · rintro ⟨e1, e2, e3, ⟨w, hwm, hwc, hi⟩ | h4⟩
      · rcases (hin w).1 hwm with hwm | ⟨-, rfl⟩
        · exact .inr ⟨e1, e2, e3, .inl ⟨w, hwm, hwc, hi⟩⟩
        · have hwc' : a.1 = c := hwc.symm
          rw [hwc'] at e1 e2
          rw [hf] at e2
          exact .inl ⟨e1, Prod.ext hwc' e2, by rw [← e2]; exact e3, ((hmem i).1 hi).1, ((hmem i).1 hi).2⟩
      · exact .inr ⟨e1, e2, e3, .inr h4⟩
    · rintro (⟨e1, rfl, e3, e4, e5⟩ | ⟨e1, e2, e3, ⟨w, hwm, hwc, hi⟩ | h4⟩)
      · have hi := (hmem i).2 ⟨e4, e5⟩
        exact ⟨e1, (hf i).symm, e3, .inl ⟨_, (hin _).2 (.inr ⟨List.ne_nil_of_mem hi, rfl⟩), rfl, hi⟩⟩
      · exact ⟨e1, e2, e3, .inl ⟨w, (hin w).2 (.inl hwm), hwc, hi⟩⟩
      · exact ⟨e1, e2, e3, .inr h4⟩
  refine ⟨⟨fun w hwm => ?_, ?_, ?_, ?_, ?_⟩, ?_, fun zones ht => ?_⟩
  · rcases (hin w).1 hwm with hwm | ⟨hne, rfl⟩
    · exact hp.sweeps w hwm
    · exact ⟨hact, hne, hnd, hpw, fun i hi => ((hmem i).1 hi).1⟩
  · have := hp.stored
    rw [hh.1] at this
    rw [hsw1, hwin1, List.map_append]
    by_cases hne : todo = []
    · simp only [hne, if_true, List.map_nil, List.append_nil]
      exact this.sublist ((List.Sublist.refl _).append (List.sublist_cons_self _ _))
    · simpa [hne] using this
  · rw [hwin1]; have := hp.timed; rw [hh.1] at this; exact (List.pairwise_cons.1 this).2
  · intro d ds h
    rw [hwin1] at h
    exact hp.stop d ds (by rw [hh.1, List.cons_append, ← h, hw])
  · have := hp.room
    rw [hh.1, List.filter_cons, if_pos (by rcases hact with h | h <;> simp [h])] at this
    rw [hsw1, hwin1, List.length_append]
    simp only [List.length_cons] at this
    split <;> simp <;> omega
  · have := hlen todo hnd fun i hi => ((hmem i).1 hi).1
    unfold itemsIn
    rw [hsw1, hwin1, hw, List.map_append, List.sum_append, List.length_cons, Nat.add_mul]
    split
    · simp
    · simp; omega
  · refine ItemsTaken.cons hz1 ht ?_ ?_ ?_
    · rintro i k ⟨⟨hi, hr⟩, hk⟩ a
      rw [itemOpen_head hw ho, hopen, hf, hr]
      constructor
      · rintro (h | h)
        · exact .inl h.2.1
        · exact .inr (.inr h)
      · rintro (h | h | h)
        · exact .inl ⟨hk, h, hy, hwz, hi⟩
        · exact absurd rfl h.2.2.2.2
        · exact .inr h
    · rintro i k ⟨⟨hi, hr⟩, hk⟩ a h
      rcases (hopen i k a).1 h with h | h
      · exact absurd hr h.2.2.2.2
      · exact head_before hp hw ho hs i k a h
    · intro i k hne a
      rw [itemOpen_head hw ho, hopen, hf]
      constructor
      · rintro (⟨e1, e2, e3, e4, e5⟩ | h)
        · exact .inl ⟨e1, e2, e3, e5, fun hr => hne ⟨⟨e5, hr⟩, e1⟩⟩
        · exact .inr h
      · rintro (⟨e1, e2, e3, e4, e5⟩ | h)
        · exact .inl ⟨e1, e2, e3, hwz, e4⟩
        · exact .inr h

/-! ### The projection -/

/-- With the next item beyond `y`, or none, no item is left up to `y`. -/
theorem none_left {x : Context} (hp : Projectable zmap g y x) (hn : ∀ it, nextItem zmap x = some it → y < it.frame) (i : Nat) (k : Fin 4)
    (a : Cue × Nat) : ¬ itemOpen zmap g x y i k a := by
  obtain ⟨hf0, hf1⟩ := nextSweepItem_first x.sweeps fun w hw => (hp.sweeps w hw).2.2.2.1
  rintro ⟨-, h2, h3, ⟨w, hwm, hwc, hi⟩ | ⟨h4, -, -⟩⟩
  · have hframe : a.2 = reachedAt zmap w.cue i := by
      rw [h2, ← hwc]; unfold itemFrame; rw [if_neg]; rcases (hp.sweeps w hwm).1 with h | h <;> simp [h]
    cases hc : nextSweepItem zmap x.sweeps with
    | none => have := hf0 hc w hwm; simp [this] at hi
    | some e =>
      obtain ⟨c, j, e⟩ := e
      obtain ⟨-, before, v, after, hl, -, -, hb, ha⟩ := hf1 c j e hc
      have hle : e ≤ reachedAt zmap w.cue i := by
        rw [hl] at hwm
        rcases List.mem_append.1 hwm with h | h
        · exact le_of_lt (hb w h i hi)
        · exact ha w h i hi
      unfold nextItem at hn
      rw [hc] at hn
      cases hx : x.window with
      | nil => rw [hx] at hn; have := hn _ rfl; simp only [Item.frame] at this; omega
      | cons d ds =>
        rw [hx] at hn
        by_cases hed : e ≤ d.time
        · have := hn (.sweep c j e) (by simp [hed]); simp only [Item.frame] at this; omega
        · have := hn (.cue d) (by simp [hed]); simp only [Item.frame] at this; omega
  · have h6 := time_le_itemFrame (zmap := zmap) a.1 i
    cases hx : x.window with
    | nil => rw [hx] at h4; simp [cuesOpen] at h4
    | cons d ds =>
      have hd : d.time ≤ a.1.time := by
        have ht := hp.timed
        rw [hx, cuesOpen_cons] at h4 ht
        split at h4
        · rename_i ho
          rw [if_pos ho] at ht
          rcases List.mem_cons.1 h4 with h | h
          · rw [h]
          · exact (List.pairwise_cons.1 ht).1 a.1 h
        · simp at h4
      unfold nextItem at hn
      rw [hx] at hn
      cases hc : nextSweepItem zmap x.sweeps with
      | none => rw [hc] at hn; have := hn _ rfl; simp only [Item.frame] at this; omega
      | some e =>
        obtain ⟨c, j, e⟩ := e
        rw [hc] at hn
        by_cases hed : e ≤ d.time
        · have := hn (.sweep c j e) (by simp [hed]); simp only [Item.frame] at this; omega
        · have := hn (.cue d) (by simp [hed]); simp only [Item.frame] at this; omega

/-- A next item that is a cue stands before every sweep item (R76). -/
theorem nextItem_is_cue {x : Context} {c : Cue} (hp : Projectable zmap g y x) (h : nextItem zmap x = some (.cue c)) :
    (∃ later, x.window = c :: later) ∧ ∀ w ∈ x.sweeps, ∀ j ∈ w.todo, c.time < reachedAt zmap w.cue j := by
  obtain ⟨hf0, hf1⟩ := nextSweepItem_first x.sweeps fun w hw => (hp.sweeps w hw).2.2.2.1
  unfold nextItem at h
  cases hx : x.window with
  | nil => rw [hx] at h; split at h <;> simp_all
  | cons d ds =>
    rw [hx] at h
    cases hc : nextSweepItem zmap x.sweeps with
    | none =>
      rw [hc] at h; cases h
      refine ⟨⟨ds, rfl⟩, fun w hw j hj => ?_⟩
      rw [hf0 hc w hw] at hj; simp at hj
    | some e =>
      obtain ⟨f, j, e⟩ := e
      rw [hc] at h
      simp only at h
      split at h
      · cases h
      · rename_i hlt
        cases h
        refine ⟨⟨ds, rfl⟩, fun w hw i hi => ?_⟩
        obtain ⟨-, before, v, after, hl, -, -, hb, ha⟩ := hf1 f j e hc
        rw [hl] at hw
        rcases List.mem_append.1 hw with hw | hw
        · have := hb w hw i hi; omega
        · have := ha w hw i hi; omega

/-- A next item that is of a sweep stands at or before the head of the window (R76). -/
theorem nextItem_is_sweep {x : Context} {c : Cue} {i e : Nat} (h : nextItem zmap x = some (.sweep c i e)) :
    nextSweepItem zmap x.sweeps = some (c, i, e) ∧ ∀ d, x.window.head? = some d → e ≤ d.time := by
  unfold nextItem at h
  split at h
  · cases h
  · cases h
  · rename_i hc hx; cases h; exact ⟨hc, by simp [hx]⟩
  · rename_i hc hx
    split at h
    · rename_i hle; cases h; exact ⟨hc, by simpa [hx] using hle⟩
    · cases h

/-- Distinct zones touched by a cue are at most those of the zone map. -/
theorem touched_length (c : Cue) (zs : List Nat) (hnd : zs.Nodup) (h : ∀ i ∈ zs, touchesAt zmap c i) : zs.length ≤ zmap.length := by
  have : zs ⊆ List.range zmap.length := by
    intro i hi
    obtain ⟨b, hb, -⟩ := h i hi
    exact List.mem_range.2 (List.getElem?_eq_some_iff.1 hb).1
  simpa using (hnd.subperm this).length_le

/-- A projection takes every item up to its show frame (R76, R88, R102). -/
theorem project_itemsTaken (n : Nat) (x : Context) (hp : Projectable zmap g y x) (hn : itemsIn zmap x < n) :
    ItemsTaken zmap g x y (project zmap g y n x).zones := by
  induction n generalizing x with
  | zero => omega
  | succ n ih =>
    unfold project
    cases hi : nextItem zmap x with
    | none => exact ItemsTaken.refl (none_left hp (by simp [hi]))
    | some it =>
      by_cases hlt : y < it.frame
      · simp only [hlt, if_true]
        exact ItemsTaken.refl (none_left hp (by rw [hi]; rintro it' h; cases h; exact hlt))
      simp only [hlt, if_false]
      have hle : (it.frame : Int) ≤ y := by omega
      cases it with
      | sweep c i e =>
        obtain ⟨h1, h2⟩ := nextItem_is_sweep hi
        obtain ⟨hp1, hlt1, ht⟩ := sweepItem_step hp h1 hle h2
        exact ht _ (ih _ hp1 (by omega))
      | cue c =>
        obtain ⟨⟨later, hw⟩, hs⟩ := nextItem_is_cue hp hi
        have hd := dropHead_eq hw
        have hstop : (¬ (c.action ≠ .endShow ∧ (g = true ∨ c.action ≠ .gate))) → ItemsTaken zmap g x y x.zones := by
          intro hno
          refine ItemsTaken.refl fun i k a => ?_
          have hc : cuesOpen g x.window = [] := by rw [hw, cuesOpen_cons, if_neg hno]
          have hyc := hp.stop c later (by rw [hc, hw]; rfl)
          rintro ⟨-, h2, h3, ⟨w, hwm, hwc, hj⟩ | ⟨h4, -, -⟩⟩
          · have := hs w hwm i hj
            have hframe : a.2 = reachedAt zmap w.cue i := by
              rw [h2, ← hwc]; unfold itemFrame; rw [if_neg]; rcases (hp.sweeps w hwm).1 with h | h <;> simp [h]
            omega
          · rw [hc] at h4; simp at h4
        have hpass : (c.action ≠ .endShow ∧ (g = true ∨ c.action ≠ .gate)) → ¬ writesZones c →
            ItemsTaken zmap g x y (project zmap g y n (dropHead x)).zones := by
          intro ho hnw
          have h1 : (dropHead x).window = later := by rw [hd]
          have h2 : (dropHead x).sweeps = x.sweeps := by rw [hd]
          obtain ⟨hp1, hlt1⟩ := hp.tail hw ho h1 h2
          exact passedCue_step hw ho hnw h1 h2 (by rw [hd]) _ (ih _ hp1 (by omega))
        have hzone : c.action = .set ∨ c.action = .fade →
            ItemsTaken zmap g x y (project zmap g y n (takeZoneCue zmap c (dropHead x))).zones := by
          intro hact
          have ho : c.action ≠ .endShow ∧ (g = true ∨ c.action ≠ .gate) := by rcases hact with h | h <;> simp [h]
          obtain ⟨x', hx', he⟩ := takeZoneCue_taken zmap c later x hact hw
          unfold CueTaken at hx'
          rw [if_pos hact] at hx'
          obtain ⟨zs, hz, rfl⟩ := hx'
          rw [he]
          obtain ⟨hp1, hlt1⟩ := hp.tail (x1 := { x with window := later, zones := zs, position := headTaken c later x.position }) hw ho rfl rfl
          exact zoneCue_step (x1 := { x with window := later, zones := zs, position := headTaken c later x.position }) hp hw hact hs hle rfl rfl hz _ (ih _ hp1 (by omega))
        have hsweep : c.action = .sweepUp ∨ c.action = .sweepDown →
            ItemsTaken zmap g x y (project zmap g y n (takeSweep zmap c (dropHead x)).1).zones := by
          intro hact
          obtain ⟨⟨x', hx', he⟩, -⟩ := takeSweep_taken zmap c later x hact hw
          obtain ⟨hp1, hlt1, ht⟩ := sweepCue_step (x1 := { x' with position := headTaken c later x.position }) hp hw hact hs hle
            (touched_length c) hx' rfl rfl rfl
          rw [he]
          exact ht _ (ih _ hp1 (by omega))
        have hnw : c.action = .mark ∨ c.action = .other ∨ c.action = .gate → ¬ writesZones c := by
          rintro h (h' | h' | h' | h') <;> simp [h'] at h
        cases hact : c.action with
        | set => simp only [hact]; exact hzone (.inl hact)
        | fade => simp only [hact]; exact hzone (.inr hact)
        | sweepUp => simp only [hact]; exact hsweep (.inl hact)
        | sweepDown => simp only [hact]; exact hsweep (.inr hact)
        | gate =>
          simp only [hact]
          cases g with
          | true => exact hpass ⟨by simp [hact], .inl rfl⟩ (hnw (.inr (.inr hact)))
          | false => exact hstop (by simp [hact])
        | mark => simp only [hact]; exact hpass ⟨by simp [hact], .inr (by simp [hact])⟩ (hnw (.inl hact))
        | other => simp only [hact]; exact hpass ⟨by simp [hact], .inr (by simp [hact])⟩ (hnw (.inr (.inl hact)))
        | endShow => simp only [hact]; exact hstop (by simp [hact])

/-! ### The answer of a player that renders ahead (R88) -/

theorem passCues_append (before : List Cue) (c : Cue) (later : List Cue) (h : ∀ d ∈ before, d.action ≠ .endShow) :
    passCues (before ++ c :: later) = before ++ passCues (c :: later) := by
  induction before with
  | nil => rfl
  | cons b bs ih =>
    rw [List.cons_append]
    conv_lhs => unfold passCues
    rw [if_neg (h b List.mem_cons_self), ih fun d hd => h d (List.mem_cons_of_mem _ hd)]
    rfl

/-- The cue at which the items open end bounds the projection limit, above the position (R88). -/
theorem projectionLimit_le_stop {r : Row} {c : Cue} {later : List Cue} (hg : g = true ↔ ∃ start w, r.phase = .releasing start w)
    (hw : r.ctx.window = cuesOpen g r.ctx.window ++ c :: later) (hp : r.ctx.position ≤ c.time) : projectionLimit r ≤ c.time := by
  have hopen : ∀ d ∈ cuesOpen g r.ctx.window, d.action ≠ .endShow ∧ (g = true ∨ d.action ≠ .gate) := by
    intro d hd
    unfold cuesOpen at hd
    have := List.mem_takeWhile_imp hd
    simpa using this
  have hstop : c.action = .endShow ∨ (g = false ∧ c.action = .gate) := by
    by_contra hno
    have ho : c.action ≠ .endShow ∧ (g = true ∨ c.action ≠ .gate) := by
      refine ⟨fun h => hno (.inl h), ?_⟩
      cases hgb : g with
      | true => exact .inl rfl
      | false => exact .inr fun h => hno (.inr ⟨hgb, h⟩)
    have h1 : cuesOpen g r.ctx.window = cuesOpen g r.ctx.window ++ cuesOpen g (c :: later) := by
      conv_lhs => rw [hw]
      unfold cuesOpen
      rw [List.takeWhile_append_of_pos]
      intro d hd
      have := hopen d hd
      simpa using this
    have h2 : (cuesOpen g (c :: later)).length = 0 := by
      have := congrArg List.length h1
      rw [List.length_append] at this
      omega
    rw [cuesOpen_cons, if_pos ho] at h2
    simp at h2
  have hpc : passCues r.ctx.window = cuesOpen g r.ctx.window ++ passCues (c :: later) := by
    conv_lhs => rw [hw]
    exact passCues_append _ c later fun d hd => (hopen d hd).1
  have hne : r.ctx.window ≠ [] := by rw [hw]; simp
  obtain ⟨d0, ds0, hwin⟩ := List.exists_cons_of_ne_nil hne
  rcases hstop with hc | ⟨hgf, hc⟩
  · have hpass : passCues (c :: later) = [c] := by simp [passCues, hc]
    rw [hpass] at hpc
    have hend : (passCues r.ctx.window).find? (fun d => d.action == .endShow) = some c := by
      rw [hpc, List.find?_append]
      have : (cuesOpen g r.ctx.window).find? (fun d => d.action == .endShow) = none := by
        rw [List.find?_eq_none]; intro d hd; simpa using (hopen d hd).1
      simp [this, hc]
    unfold projectionLimit
    generalize passCues r.ctx.window = ps at hend ⊢
    simp only [hwin, hend]
    generalize (if (match r.phase with | .releasing _ _ => false | _ => true) = true then
      ps.find? (fun d => d.action == .gate) else none) = gate
    cases gate <;> simp only [] <;> omega
  · have hrel : ∀ a b, r.phase ≠ .releasing a b := by
      intro a b h; rw [hgf] at hg; exact Bool.false_ne_true (hg.2 ⟨a, b, h⟩)
    have hgate : (passCues r.ctx.window).find? (fun d => d.action == .gate) = some c := by
      rw [hpc, List.find?_append]
      have h1 : (cuesOpen g r.ctx.window).find? (fun d => d.action == .gate) = none := by
        rw [List.find?_eq_none]; intro d hd
        have := (hopen d hd).2
        rw [hgf] at this
        simpa using this
      have h2 : ∃ rest, passCues (c :: later) = c :: rest := by
        unfold passCues; rw [if_neg (by simp [hc])]; exact ⟨_, rfl⟩
      obtain ⟨rest, h2⟩ := h2
      simp [h1, h2, hc]
    have hgates : (match r.phase with | .releasing _ _ => false | _ => true) = true := by
      cases hph : r.phase with
      | releasing a b => exact absurd hph (hrel a b)
      | armed => rfl
      | running => rfl
      | gated g => rfl
    unfold projectionLimit
    generalize passCues r.ctx.window = ps at hgate ⊢
    simp only [hwin, if_true, hgate]
    omega

/-- The answer of a player that renders ahead: the values, at its show frame up to the projection limit, of the zone state table once every
item up to there has been taken (R88, R102). -/
theorem playerAnswer_itemsTaken {r : Row} {n : Nat} (hg : g = true ↔ ∃ start w, r.phase = .releasing start w)
    (hc : r.ctx.catchUp = none) (hs : r.suspended = false)
    (hp : (r.phase = .armed ∧ r.anchor ≤ n) ∨ r.phase = .running ∨ ∃ start w, r.phase = .releasing start w)
    (hk : r.ctx.position < (n : Int) - r.anchor) (hx : CuesInOrder zmap g r.ctx) :
    let y := min ((n : Int) - r.anchor) (projectionLimit r)
    ∃ zones, ItemsTaken zmap g r.ctx y zones ∧ playerAnswer zmap r n = some (valuesAt zones y) := by
  intro y
  have hpr : Projectable zmap g y r.ctx :=
    { sweeps := hx.sweeps, stored := hx.stored, timed := hx.timed, room := hx.room
      stop := fun c later h => le_trans (min_le_right _ _) (projectionLimit_le_stop hg h (hx.stop c later h)) }
  refine ⟨_, project_itemsTaken (itemFuel zmap r.ctx) r.ctx hpr (by unfold itemsIn itemFuel; omega), ?_⟩
  unfold playerAnswer
  simp only [hc, hs, Bool.false_eq_true, if_false, if_neg (show ¬ (n : Int) - r.anchor ≤ r.ctx.position by omega)]
  rcases hp with ⟨h, h2⟩ | h | ⟨a, b, h⟩
  · have : g = false := by
      cases hgb : g with
      | false => rfl
      | true => obtain ⟨_, _, h'⟩ := hg.1 hgb; rw [h] at h'; cases h'
    subst this
    simp only [h, if_neg (show ¬ n < r.anchor by omega)]; rfl
  · have : g = false := by
      cases hgb : g with
      | false => rfl
      | true => obtain ⟨_, _, h'⟩ := hg.1 hgb; rw [h] at h'; cases h'
    subst this
    simp only [h]; rfl
  · have : g = true := hg.2 ⟨a, b, h⟩
    subst this
    simp only [h]; rfl

end

end Sys2Proof.Machine
end

