-- ==== Sys2Proof/Laws/Requests.lean ====
section
/-!
SUPPORT. What creating a row for a request and repositioning a player do (R57, R90, R93), in the words of Safety.
-/

namespace Sys2Proof.Machine

set_option Elab.async false

section

variable {p : Fin 4} {s : State} {r : Row} {q : Request}

theorem noAsk_congr {a b : Row} (h : a = b) : some a.noAsk = some b.noAsk := by rw [h]

theorem modCtx_get (f : Context → Context) (hr : s.rows[p] = some r) : (modCtx p f s).rows[p] = some { r with ctx := f r.ctx } := by
  rw [modCtx_eq f hr, setRow_get]

/-- The row of a player that begins a catch-up, and the other rows (R90). -/
theorem beginCatchUp_row {k : CatchKind} (hr : s.rows[p] = some r) :
   ((beginCatchUp k p s).rows[p]).map Row.noAsk = some (inCatchUp (zonesOf s).length k r).noAsk ∧
       (∀ i, i ≠ p → (beginCatchUp k p s).rows[i] = s.rows[i]) := by
  have hother : ∀ u : State, ∀ i, i ≠ p → (withdrawRefill p u).rows[i] = u.rows[i] := by
    intro u i hi
    unfold withdrawRefill
    have : (modCtx p (fun x => { x with refillAsked := false }) u).rows[i] = u.rows[i] := by
      unfold modCtx modRow; cases h : u.rows[p] with
      | none => rfl
      | some r => exact setRow_other _ _ hi
    dsimp only; split <;> exact this
  have hmod : ∀ u : State, ∀ f, ∀ i, i ≠ p → (modCtx p f u).rows[i] = u.rows[i] := by
    intro u f i hi
    unfold modCtx modRow; cases h : u.rows[p] with
    | none => rfl
    | some r => exact setRow_other _ _ hi
  unfold beginCatchUp
  constructor
  · by_cases hk : k = .join
    · subst hk
      refine (congrArg (Option.map Row.noAsk) (modCtx_get _ (by rw [if_pos rfl]; exact (withdrawRefill_row hr).1))).trans ?_
      apply noAsk_congr
      simp only [inCatchUp, if_true, rewind, rewound, heldValues, transparent]
      cases r.ctx.catchUp <;> cases r.ctx.lastAnswer <;> rfl
    · refine (congrArg (Option.map Row.noAsk) (modCtx_get _ (by rw [if_neg hk]; exact hr))).trans ?_
      apply noAsk_congr
      simp only [inCatchUp, hk, if_false, heldValues]
      cases r.ctx.catchUp <;> cases r.ctx.lastAnswer <;> rfl
  · intro i hi
    dsimp only
    rw [hmod _ _ i hi]
    split
    · exact hother _ i hi
    · rfl

end

section

variable {p : Fin 4} {s : State} {r : Row} {q : Request}

/-- What beginning a catch-up leaves as it was. -/
theorem beginCatchUp_rest (k : CatchKind) : (beginCatchUp k p s).mixer = s.mixer ∧ (beginCatchUp k p s).line = s.line ∧
    (beginCatchUp k p s).counters = s.counters := by simp

/-- The JOIN of a row just created (R57, R90). -/
theorem inCatchUp_fresh (n : Nat) (r : Row) (h : r.ctx = freshContext n) :
   (inCatchUp n .join r).noAsk = ({ r with ctx := { freshContext n with catchUp := some { kind := .join, held := List.replicate n none } } } : Row).noAsk := by
  rcases r with ⟨_,_,_,_,_,_,_,_,_,_,_,_,_,x⟩
  simp only at h; subst h; rfl

theorem announceStartOf_eq (hr : s.rows[p] = some r) :
    announceStartOf p s = if s.start.number = 0 then s else announce 1 r (setRow p (some { r with announcer := true }) s) := by
  unfold announceStartOf; simp only [hr]

theorem send_rows (f : TxFrame) (a : State) : (send f a).rows = a.rows := by
  unfold send enqueue; (repeat' split) <;> simp

/-- What creating a row for a request does (R57). -/
theorem createRow_spec (p : Fin 4) (q : Request) (s : State) :
    let t := createRow p q s
    let new := createdRow (zonesOf s).length s.start.number (frameNow s) (s.safety.holdList != []) q
    t.rows[p].map Row.noAsk = some new.noAsk ∧ (∀ i, i ≠ p → t.rows[i] = s.rows[i]) ∧ FlushesAsked 1 s t ∧
      t.line = (if q.origin.isOwn then (send (newFrame 2 (announceData 1 new)) s).line else s.line) ∧
      (∀ c, c ≠ .txDisplaced → c ≠ .txDropped → count t c = count s c) := by
  intro t new
  let r0 := rowOfRequest q s
  let r1 : Row := { r0 with announcer := q.origin.isOwn && s.start.number != 0 }
  let u := askFlush (setRow p (some r0) s)
  have hu : u.rows[p] = some r0 := setRow_get _ _ _
  let v := if q.origin.isOwn then announceStartOf p u else u
  have hveq : v = if q.origin.isOwn then announceStartOf p u else u := rfl
  have ht : t = if r0.phase = .running ∧ r0.suspended = false then beginCatchUp .join p v else v := rfl
  clear_value v
  have hv : v.rows[p] = some r1 ∧ (∀ i, i ≠ p → v.rows[i] = s.rows[i]) ∧ v.mixer = u.mixer ∧ v.start = s.start ∧
      v.line = (if q.origin.isOwn then (send (newFrame 2 (announceData 1 new)) s).line else s.line) ∧
      (∀ c, c ≠ .txDisplaced → c ≠ .txDropped → count v c = count s c) := by
    have hb : announceData 1 r0 = announceData 1 new := rfl
    cases ho : q.origin.isOwn with
    | false =>
      rw [ho, if_neg (by simp)] at hveq
      subst hveq
      refine ⟨?_, fun i hi => setRow_other _ _ hi, rfl, rfl, by simp; rfl, fun _ _ _ => rfl⟩
      rw [hu]; simp [r1, ho]; rfl
    | true =>
      rw [ho, if_pos rfl, announceStartOf_eq hu] at hveq
      by_cases hn : s.start.number = 0
      · rw [if_pos (show u.start.number = 0 from hn)] at hveq
        subst hveq
        refine ⟨?_, fun i hi => setRow_other _ _ hi, rfl, rfl, ?_, fun _ _ _ => rfl⟩
        · rw [hu]; simp [r1, hn]; rfl
        · simp [send, hn]; rfl
      · rw [if_neg (show ¬ u.start.number = 0 from hn)] at hveq
        subst hveq
        refine ⟨?_, fun i hi => ?_, ?_, ?_, ?_, fun c h1 h2 => ?_⟩
        · rw [announce, send_rows, setRow_get]; simp [r1, hn, ho]
        · rw [announce, send_rows, setRow_other _ _ hi]; exact setRow_other _ _ hi
        · rw [announce, send_mixer]; rfl
        · simp [announce]; rfl
        · rw [announce]; exact send_line_congr _ _ _ rfl rfl
        · rw [announce, count_send _ _ _ h2 h1]; rfl
  have hfn : zonesOf v = zonesOf s := by unfold zonesOf; rw [hv.2.2.2.1]
  have hmix : FlushesAsked 1 s v := by unfold FlushesAsked; rw [hv.2.2.1]; rfl
  by_cases hc : r0.phase = .running ∧ r0.suspended = false
  · rw [if_pos hc] at ht
    rw [ht]
    obtain ⟨b1, b2⟩ := beginCatchUp_row (k := .join) hv.1
    refine ⟨?_, fun i hi => (b2 i hi).trans (hv.2.1 i hi), ?_, ?_, ?_⟩
    · rw [b1, hfn, inCatchUp_fresh _ r1 rfl]
      have h1 : ¬ frameNow s < q.anchor := by
        intro h; have := hc.1; simp [r0, rowOfRequest, h] at this
      have h2 : (s.safety.holdList != []) = false := hc.2
      apply noAsk_congr
      simp [new, createdRow, r1, r0, rowOfRequest, h1, h2, Nat.le_of_not_lt h1]
    · unfold FlushesAsked; rw [(beginCatchUp_rest _).1]; exact hmix
    · rw [(beginCatchUp_rest _).2.1]; exact hv.2.2.2.2.1
    · intro c h1 h2; unfold count; rw [(beginCatchUp_rest _).2.2]; exact hv.2.2.2.2.2 c h1 h2
  · rw [if_neg hc] at ht
    rw [ht]
    refine ⟨?_, hv.2.1, hmix, hv.2.2.2.2.1, hv.2.2.2.2.2⟩
    rw [hv.1]
    apply noAsk_congr
    have : ¬ (q.anchor ≤ frameNow s ∧ (s.safety.holdList != []) = false) := by
      rintro ⟨h1, h2⟩
      exact hc ⟨by simp [r0, rowOfRequest, Nat.not_lt_of_le h1], h2⟩
    simp only [new, createdRow, r1, r0, rowOfRequest, this, if_false]; rfl

end

section

variable {p : Fin 4} {s : State} {r : Row} {q : Request}

/-- Some flushes are asked, and nothing else of the mixer changes (R89). -/
def Asked (s t : State) : Prop := ∃ k, FlushesAsked k s t

theorem Asked.refl (s : State) : Asked s s := ⟨0, rfl⟩

theorem Asked.of_eq {a b : State} (h : b.mixer = a.mixer) : Asked a b := ⟨0, by unfold FlushesAsked; rw [h]; rfl⟩

/-- What repositioning a player does (R93). -/
theorem reposition_spec (hr : s.rows[p] = some r) (b : Bool) :
    let t := reposition p b s
    (∃ r', Repositioned (zonesOf s).length (frameNow s) b r r' ∧ t.rows[p].map Row.noAsk = some r'.noAsk) ∧
      (∀ i, i ≠ p → t.rows[i] = s.rows[i]) ∧ Asked s t := by
  intro t
  have hb : ∀ (k : CatchKind) (u : State) (x : Row), u.rows[p] = some x → zonesOf u = zonesOf s → (∀ i, i ≠ p → u.rows[i] = s.rows[i]) →
      Asked s u →
      ((beginCatchUp k p u).rows[p].map Row.noAsk = some (inCatchUp (zonesOf s).length k x).noAsk ∧
       (∀ i, i ≠ p → (beginCatchUp k p u).rows[i] = s.rows[i]) ∧ Asked s (beginCatchUp k p u)) := by
    intro k u x hx hz ho ha
    obtain ⟨b1, b2⟩ := beginCatchUp_row (k := k) hx
    rw [hz] at b1
    refine ⟨b1, fun i hi => (b2 i hi).trans (ho i hi), ?_⟩
    obtain ⟨n, hn⟩ := ha
    exact ⟨n, by unfold FlushesAsked; rw [(beginCatchUp_rest k).1]; exact hn⟩
  have hso : ∀ x i, i ≠ p → (setRow p x s).rows[i] = s.rows[i] := fun x i hi => setRow_other x s hi
  have hw := withdrawRefill_row hr
  have hwo : ∀ i, i ≠ p → (withdrawRefill p s).rows[i] = s.rows[i] := by
    intro i hi
    unfold withdrawRefill
    rw [modCtx_eq _ hr]
    dsimp only; split <;> exact hso _ i hi
  have hwm := (withdrawRefill_rest (p := p) s).1
  have hwz : zonesOf (withdrawRefill p s) = zonesOf s := by unfold zonesOf; rw [hw.2.2]
  have hmr : ∀ (f : Row → Row) (u : State) (x : Row), u.rows[p] = some x → modRow p f u = setRow p (some (f x)) u := by
    intro f u x hx; unfold modRow; simp only [hx]
  have hfr : ∀ u, (askFlush u).rows = u.rows := fun _ => rfl
  have fin : ∀ (X : State) (r' : Row), reposition p b s = X → Repositioned (zonesOf s).length (frameNow s) b r r' →
      X.rows[p].map Row.noAsk = some r'.noAsk →
      (∀ i, i ≠ p → X.rows[i] = s.rows[i]) → Asked s X → (∃ r', Repositioned (zonesOf s).length (frameNow s) b r r' ∧
          t.rows[p].map Row.noAsk = some r'.noAsk) ∧
      (∀ i, i ≠ p → t.rows[i] = s.rows[i]) ∧ Asked s t := by
    intro X r' e h1 h2 h3 h4
    have : t = X := e
    clear_value t; subst this
    exact ⟨⟨r', h1, h2⟩, h3, h4⟩
  have hget : ∀ (x : Row) (u : State), ((setRow p (some x) u).rows[p]).map Row.noAsk = some x.noAsk
      := by intro x u; rw [setRow_get]; rfl
  have hself : s.rows[p].map Row.noAsk = some r.noAsk := by rw [hr]; rfl
  clear_value t
  rcases r with ⟨ph, su, sn, pr, tg, an, ef, mo, pa, og, af, lh, mk, cx⟩
  cases b with
  | true =>
    generalize hW : withdrawRefill p s = W at hw hwo hwm hwz
    obtain ⟨hw1, -, -⟩ := hw
    have base : ∀ f : Bool, (askFlushIf f W).rows = W.rows ∧ zonesOf (askFlushIf f W) = zonesOf s ∧ Asked s (askFlushIf f W) := by
      intro f; cases f
      · exact ⟨rfl, hwz, Asked.of_eq hwm⟩
      · exact ⟨rfl, hwz, 1, by simp [FlushesAsked, askFlushIf, askFlush, hwm]⟩
    cases su with
    | true =>
      refine fin _ _ (by simp only [reposition, hr, if_true, hW]; exact hmr _ _ _ hw1) (by simp only [Repositioned, if_true]; rfl) ?_
          (fun i hi => (setRow_other _ _ hi).trans (hwo i hi)) (Asked.of_eq hwm)
      rw [hget]
      by_cases ha : frameNow s < an <;> simp only [ha, decide_true, decide_false, if_true, if_false] <;> rfl
    | false =>
      by_cases ha : frameNow s < an
      · obtain ⟨f, hf⟩ : ∃ f, reposition p true s = modRow p (fun r =>
          { r with phase := .armed, ctx := { resetContext (zonesOf s).length r.ctx with catchUp := none } }) (askFlushIf f W) :=
          ⟨_, by simp only [reposition, hr, if_true, hW, Bool.false_eq_true, if_false, ha, decide_true]; rfl⟩
        obtain ⟨f1, f2, f3⟩ := base f
        have hg : (askFlushIf f W).rows[p] = _ := (congrArg (fun v : Vector (Option Row) 4 => v[p]) f1).trans hw1
        rw [hmr _ _ _ hg] at hf
        refine fin _ ⟨.armed, false, sn, pr, tg, an, ef, mo, pa, og, af, lh, mk,
            { rewound (zonesOf s).length cx with lateWatch := none, pendingMarks := [], catchUp := none }⟩ hf
            (by simp [Repositioned, ha]) (hget _ _) (fun i hi => (setRow_other _ _ hi).trans ?_) f3
        rw [f1]; exact hwo i hi
      · obtain ⟨f, hf⟩ : ∃ f, reposition p true s = beginCatchUp .join p (modRow p (fun r =>
          { r with phase := .running, ctx := resetContext (zonesOf s).length r.ctx }) (askFlushIf f W)) :=
          ⟨_, by simp only [reposition, hr, if_true, hW, Bool.false_eq_true, if_false, ha, decide_false]; rfl⟩
        obtain ⟨f1, f2, f3⟩ := base f
        have hg : (askFlushIf f W).rows[p] = _ := (congrArg (fun v : Vector (Option Row) 4 => v[p]) f1).trans hw1
        rw [hmr _ _ _ hg] at hf
        have := hb .join _ _ (setRow_get p (some ⟨.running, false, sn, pr, tg, an, ef, mo, pa, og, af, lh, mk, resetContext
            (zonesOf s).length { cx with refillAsked := false }⟩) (askFlushIf f W)) (by rw [zonesOf_setRow]; exact f2) (fun i hi =>
            (setRow_other _ _ hi).trans (by rw [f1]; exact hwo i hi)) f3
        refine fin _ _ hf ?_ this.1 this.2.1 this.2.2
        simp only [Repositioned, if_true, Bool.false_eq_true, if_false, ha]; rfl
  | false =>
    cases ph with
    | armed =>
      cases su with
      | true => exact fin s _ (by simp [reposition, hr]) (by simp [Repositioned]) hself (fun _ _ => rfl) (Asked.refl s)
      | false =>
        by_cases ha : frameNow s < an
        · exact fin s _ (by simp [reposition, hr, ha]) (by simp [Repositioned, ha]) hself (fun _ _ => rfl) (Asked.refl s)
        · have := hb (joinOrForward ⟨.armed, false, sn, pr, tg, an, ef, mo, pa, og, af, lh, mk, cx⟩) _ _
            (setRow_get p (some ⟨.running, false, sn, pr, tg, an, ef, mo, pa, og, af, lh, mk, cx⟩) s) rfl (hso _) (Asked.of_eq rfl)
          exact fin _ _ (by simp [reposition, hr, ha]) (by simp [Repositioned, ha]; rfl) this.1 this.2.1 this.2.2
    | running =>
      cases su with
      | true => exact fin s _ (by simp [reposition, hr]) (by simp [Repositioned]) hself (fun _ _ => rfl) (Asked.refl s)
      | false =>
        by_cases ha : frameNow s < an
        · exact fin (askFlush (setRow p (some ⟨.armed, false, sn, pr, tg, an, ef, mo, pa, og, af, lh, mk, { cx with catchUp := none }⟩)
            s)) _ (by simp [reposition, hr, ha]) (by simp [Repositioned, ha]) (hget _ _) (hso _) ⟨1, rfl⟩
        · have := hb .forward s _ hr rfl (fun _ _ => rfl) (Asked.refl s)
          exact fin _ _ (by simp [reposition, hr, ha]) (by simp [Repositioned, ha]) this.1 this.2.1 this.2.2
    | gated g =>
      have hg' : gateAt g.time g.mark g.timeout an = { g with due := an + g.time, timeoutFrame := an + g.time + g.timeout * 40 } := rfl
      cases su with
      | true =>
        exact fin (setRow p (some ⟨.gated (gateAt g.time g.mark g.timeout an), true, sn, pr, tg, an, ef, mo, pa, og, af, lh, mk, cx⟩) s)
            _ (by simp [reposition, hr]) (by
          simp only [Repositioned, Bool.false_eq_true, if_false]; exact ⟨fun _ => rfl, fun _ _ h => by simp at h⟩) (hget _ _) (hso _)
              (Asked.of_eq rfl)
      | false =>
        generalize he : evalGate ⟨.gated g, false, sn, pr, tg, an, ef, mo, pa, og, af, lh, mk, cx⟩ (gateAt g.time g.mark g.timeout an)
            (frameNow s) = v
        cases v with
        | none =>
          refine fin (setRow p (some ⟨.gated (gateAt g.time g.mark g.timeout an), false, sn, pr, tg, an, ef, mo, pa, og, af, lh, mk,
              cx⟩) s) _ (by simp [reposition, hr, he]) (by
            simp only [Repositioned, Bool.false_eq_true, if_false]; refine ⟨fun _ => rfl, fun q w _ h => ?_⟩
            obtain ⟨b, h1, _⟩ := evalGate_released h
            rw [hg'] at he; rw [he] at h1; cases h1) (hget _ _) (hso _) (Asked.of_eq rfl)
        | some qb =>
          obtain ⟨q, b⟩ := qb
          have := hb .forward _ _ (show (askFlush (setRow p (some (⟨.running, false, sn, pr, tg, q - g.time, ef, mo, pa, og, af, lh, mk, { cx with lateWatch := watchAfter g.mark b }⟩ : Row)) s)).rows[p] = _ from setRow_get _ _ _) rfl (hso _) ⟨1, rfl⟩
          refine fin _ _ (by simp only [reposition, hr, Bool.false_eq_true, if_false, he]; rfl) ?_ this.1 this.2.1 this.2.2
          simp only [Repositioned, Bool.false_eq_true, if_false]
          refine ⟨fun h => ?_, fun q' w _ h => ?_⟩
          · rcases h with h | h
            · simp at h
            · rw [hg'] at he; rw [evalGate_waits h] at he; cases he
          · obtain ⟨b', h1, h2⟩ := evalGate_released h
            rw [hg', h1] at he
            cases he
            rw [h2]
    | releasing a b => exact fin s _ (by simp [reposition, hr]) (by simp [Repositioned]) hself (fun _ _ => rfl) (Asked.refl s)

end

end Sys2Proof.Machine
end

