-- ==== Sys2Proof/Laws/Resume.lean ====
section
/-!
SUPPORT. What a stop and a resumption make of the rows, of the transmit queue and of the Frame Mixer (R58, R92), in the words of
Safety.
-/

namespace Sys2Proof.Machine

set_option Elab.async false

section

variable {p : Fin 4} {s : State} {r : Row}

/-- A mark newly filed meets the late watch alone where its player is not GATED on it (R67, R85a). -/
theorem meetMark_filed {q : Row} (m d : Nat) (hq : s.rows[p] = some q) (hg : gatedOn q m = false) :
    (meetMark p m d s).rows[p] =
        some { q with ctx := { q.ctx with lateWatch := (if q.ctx.lateWatch = some m then none else q.ctx.lateWatch) } } ∧
      (meetMark p m d s).mixer = s.mixer ∧ ∀ i, i ≠ p → (meetMark p m d s).rows[i] = s.rows[i] := by
  by_cases hl : q.ctx.lateWatch = some m
  · have he : meetMark p m d s = bump .marksLate (modCtx p (fun x => { x with lateWatch := none }) s) := by
      unfold meetMark; simp [hq, hg, hl]
    rw [he]
    refine ⟨?_, by simp, fun i hi => ?_⟩
    · show (modCtx p _ s).rows[p] = _
      rw [modCtx_get _ hq]; simp only [hl, if_true]
    · show (modCtx p _ s).rows[i] = _
      rw [modCtx_eq _ hq, setRow_other _ _ hi]
  · have he : meetMark p m d s = s := by
      unfold meetMark; simp [hq, hg, hl]
    rw [he]
    exact ⟨by rw [hq]; simp only [hl, if_false], rfl, fun _ _ => rfl⟩

/-- A mark is filed in the row of a player that is not GATED on it (R67, R85a). -/
theorem fileMark_filed (m d : Nat) (hr : s.rows[p] = some r) (hg : gatedOn r m = false) :
    (fileMark p m d s).rows[p] = some (markFiled m d r) ∧ (fileMark p m d s).mixer = s.mixer ∧
      ∀ i, i ≠ p → (fileMark p m d s).rows[i] = s.rows[i] := by
  unfold fileMark markFiled
  simp only [hr]
  split
  · exact ⟨hr, rfl, fun _ _ => rfl⟩
  · have key : ∀ (v : State) (q : Row), v.rows[p] = some q → gatedOn q m = false → v.mixer = s.mixer →
        (∀ i, i ≠ p → v.rows[i] = s.rows[i]) → (meetMark p m d v).rows[p] =
          some { q with ctx := { q.ctx with lateWatch := (if q.ctx.lateWatch = some m then none else q.ctx.lateWatch) } } ∧
        (meetMark p m d v).mixer = s.mixer ∧ ∀ i, i ≠ p → (meetMark p m d v).rows[i] = s.rows[i] := by
      intro v q h1 hgq h2 h3
      obtain ⟨m1, m2, m3⟩ := meetMark_filed m d h1 hgq
      exact ⟨m1, m2.trans h2, fun i hi => (m3 i hi).trans (h3 i hi)⟩
    by_cases h16 : 16 ≤ r.marks.length
    · simp only [h16, decide_true, if_true]
      exact key (bump .marksDropped (setRow p (some { r with marks := r.marks.tail ++ [(m, d)] }) s))
        { r with marks := r.marks.tail ++ [(m, d)] } (setRow_get _ _ _) hg rfl (fun i hi => setRow_other _ _ hi)
    · simp only [h16, decide_false, Bool.false_eq_true, if_false]
      exact key _ { r with marks := r.marks ++ [(m, d)] } (setRow_get _ _ _) hg rfl (fun i hi => setRow_other _ _ hi)

theorem markFiled_keeps (m d : Nat) (r : Row) :
    (markFiled m d r).suspended = r.suspended ∧ (markFiled m d r).phase = r.phase ∧ (markFiled m d r).showNo = r.showNo ∧
      (markFiled m d r).tag = r.tag ∧ (markFiled m d r).anchor = r.anchor ∧ (markFiled m d r).endFrame = r.endFrame ∧
      (markFiled m d r).ctx.position = r.ctx.position ∧ (markFiled m d r).ctx.pendingMarks = r.ctx.pendingMarks := by
  unfold markFiled; split <;> simp

/-- A list of pairs filed in a SUSPENDED row, and the MARK frames queued for it (R69, R92). -/
theorem emitMarks_spec (es : List (Nat × Nat)) {v : State} (hr : s.rows[p] = some r) (hs : r.suspended = true)
    (hst : s.start = v.start) (hl : s.line = v.line) :
    let t := es.foldl (fun s e => emitMark p e.1 e.2 s) s
    let filed := es.foldl (fun r e => markFiled e.1 e.2 r) r
    t.rows[p] = some filed ∧ filed.suspended = true ∧ filed.phase = r.phase ∧ filed.showNo = r.showNo ∧ filed.tag = r.tag ∧
      filed.anchor = r.anchor ∧ filed.endFrame = r.endFrame ∧ filed.ctx.position = r.ctx.position ∧
      t.mixer = s.mixer ∧ (∀ i, i ≠ p → t.rows[i] = s.rows[i]) ∧
      t.line = (es.foldl (fun v e => send (newFrame 3 (markData r.showNo r.tag e.1 e.2)) v) v).line ∧
      t.start = (es.foldl (fun v e => send (newFrame 3 (markData r.showNo r.tag e.1 e.2)) v) v).start := by
  induction es generalizing s r v with
  | nil => exact ⟨hr, hs, rfl, rfl, rfl, rfl, rfl, rfl, rfl, fun _ _ => rfl, hl, hst⟩
  | cons e es ih =>
    obtain ⟨f1, f2, f3⟩ := fileMark_filed e.1 e.2 hr (by unfold gatedOn; cases r.phase <;> simp [hs])
    have he : emitMark p e.1 e.2 s = send (newFrame 3 (markData r.showNo r.tag e.1 e.2)) (fileMark p e.1 e.2 s) := by
      unfold emitMark; simp only [hr]
    obtain ⟨k1, k2, k3, k4, k5, k6, k7, -⟩ := markFiled_keeps e.1 e.2 r
    have hrow : (emitMark p e.1 e.2 s).rows[p] = some (markFiled e.1 e.2 r) := by rw [he, send_rows]; exact f1
    have hline : (emitMark p e.1 e.2 s).line = (send (newFrame 3 (markData r.showNo r.tag e.1 e.2)) v).line := by
      rw [he]; exact send_line_congr _ _ _ (by simpa using hst) (by simpa using hl)
    obtain ⟨i1, i2, i3, i4, i5, i6, i7, i8, i9, i10, i11, i12⟩ := ih (v := send (newFrame 3 (markData r.showNo r.tag e.1 e.2)) v)
      hrow (by rw [k1]; exact hs) (by rw [he]; simpa using hst) hline
    refine ⟨i1, i2, i3.trans k2, i4.trans k3, i5.trans k4, i6.trans k5, i7.trans k6, i8.trans k7, ?_, ?_, ?_, ?_⟩
    · exact i9.trans (by rw [he, send_mixer]; exact f2)
    · intro i hi; exact (i10 i hi).trans (by rw [he, send_rows]; exact f3 i hi)
    · rw [k3, k4] at i11; exact i11
    · rw [k3, k4] at i12; exact i12

theorem withdrawRefill_other {i : Fin 4} (hi : i ≠ p) : (withdrawRefill p s).rows[i] = s.rows[i] := by
  unfold withdrawRefill
  have : (modCtx p (fun x => { x with refillAsked := false }) s).rows[i] = s.rows[i] := by
    unfold modCtx modRow; cases h : s.rows[p] with
    | none => rfl
    | some r => exact setRow_other _ _ hi
  dsimp only; split <;> exact this

theorem toIdle_spec (p : Fin 4) (s : State) :
    (toIdle p s).rows[p] = none ∧ (∀ i, i ≠ p → (toIdle p s).rows[i] = s.rows[i]) ∧ (toIdle p s).mixer = s.mixer := by
  unfold toIdle
  exact ⟨setRow_get _ _ _, fun i hi => (setRow_other _ _ hi).trans (withdrawRefill_other hi), by simp⟩

/-- A player's re-evaluation at resume (R92): what the row becomes, that the others stay, and the flushes it adds. -/
theorem reevaluate_spec (hr : s.rows[p] = some r) (r0 : Row)
    (hph : r0.phase = r.phase) (htag : r0.tag = r.tag) (han : r0.anchor = r.anchor) (hend : r0.endFrame = r.endFrame)
    (hfree : r = freedRow r0) :
    let t := reevaluate p s
    Resumed (zonesOf s).length (frameNow s) (headerOr s r.showNo).attack (headerOr s r.showNo).release r0
        (fun x => t.rows[p].map Row.noAsk = x.map Row.noAsk) ∧
      (∀ i, i ≠ p → t.rows[i] = s.rows[i]) ∧ s.mixer.flushAsked ≤ t.mixer.flushAsked ∧
      t.mixer = { s.mixer with flushAsked := t.mixer.flushAsked } := by
  intro t
  have hcat : ∀ (k : CatchKind) (u : State) (r' : Row), u.rows[p] = some r' → zonesOf u = zonesOf s →
      (∀ i, i ≠ p → u.rows[i] = s.rows[i]) → s.mixer.flushAsked ≤ u.mixer.flushAsked →
      u.mixer = { s.mixer with flushAsked := u.mixer.flushAsked } →
      ((beginCatchUp k p u).rows[p].map Row.noAsk = (some (inCatchUp (zonesOf s).length k r')).map Row.noAsk) ∧
        (∀ i, i ≠ p → (beginCatchUp k p u).rows[i] = s.rows[i]) ∧ s.mixer.flushAsked ≤ (beginCatchUp k p u).mixer.flushAsked ∧
        (beginCatchUp k p u).mixer = { s.mixer with flushAsked := (beginCatchUp k p u).mixer.flushAsked } := by
    intro k u r' hu hz ho hm hm'
    obtain ⟨b1, b2⟩ := beginCatchUp_row (k := k) hu
    rw [hz] at b1
    have hmm : (beginCatchUp k p u).mixer = u.mixer := by simp
    exact ⟨b1, fun i hi => (b2 i hi).trans (ho i hi), by rw [hmm]; exact hm, by rw [hmm]; exact hm'⟩
  obtain ⟨i1, i2, i3⟩ := toIdle_spec p s
  have hset : ∀ x, (setRow p x s).rows[p] = x ∧ (∀ i, i ≠ p → (setRow p x s).rows[i] = s.rows[i]) := fun x =>
    ⟨setRow_get _ _ _, fun i hi => setRow_other _ _ hi⟩
  have hteq : t = reevaluate p s := rfl
  clear_value t
  unfold reevaluate at hteq
  simp only [hr] at hteq
  unfold Resumed
  dsimp only
  rw [← hfree, hph, htag, han, hend]
  cases hp : r.phase with
  | armed =>
    simp only [hp] at hteq
    by_cases he : ∃ e, r.endFrame = some e ∧ e ≤ frameNow s
    · obtain ⟨e, he1, he2⟩ := he
      simp only [he1, he2, decide_true, if_true] at hteq
      subst hteq
      refine ⟨⟨fun _ => ⟨fun _ => by rw [i1], fun h => absurd ⟨e, he1, he2⟩ h⟩, by simp, by simp, by simp⟩, i2, by rw [i3],
        by rw [i3]⟩
    · have hd : ∀ e, r.endFrame = some e → ¬ e ≤ frameNow s := fun e h h' => he ⟨e, h, h'⟩
      replace hteq : t = if frameNow s < r.anchor then s
          else beginCatchUp (joinOrForward r) p (setRow p (some { r with phase := .running }) s) := by
        rw [hteq]
        cases hE : r.endFrame with
        | none => simp
        | some e => simp [hd e hE]
      by_cases hc : frameNow s < r.anchor
      · rw [if_pos hc] at hteq
        subst hteq
        refine ⟨⟨fun _ => ⟨fun h => absurd h he, fun _ => ?_⟩, by simp, by simp, by simp⟩, fun _ _ => rfl, le_refl _, rfl⟩
        rw [if_pos hc, hr]
      · rw [if_neg hc] at hteq
        have := hcat (joinOrForward r) (setRow p (some { r with phase := .running }) s) _ (hset _).1 rfl (hset _).2 (le_refl _) rfl
        rw [← hteq] at this
        refine ⟨⟨fun _ => ⟨fun h => absurd h he, fun _ => ?_⟩, by simp, by simp, by simp⟩, this.2⟩
        rw [if_neg hc, this.1]
        have : forwardKind r0 = joinOrForward r := by
          have : r0.ctx.position = r.ctx.position := by
            rw [hfree]
            have : ∀ (es : List (Nat × Nat)) (q : Row), (es.foldl (fun r e => markFiled e.1 e.2 r) q).ctx.position = q.ctx.position := by
              intro es; induction es with
              | nil => intro q; rfl
              | cons e es ih => intro q; exact (ih _).trans (markFiled_keeps e.1 e.2 q).2.2.2.2.2.2.1
            exact (this _ _).symm
          unfold forwardKind joinOrForward; rw [this]
        rw [this]
  | running =>
    simp only [hp] at hteq
    have := hcat .resume s r hr rfl (fun _ _ => rfl) (le_refl _) rfl
    rw [← hteq] at this
    exact ⟨⟨by simp, fun _ => this.1, by simp, by simp⟩, this.2⟩
  | releasing st w =>
    simp only [hp] at hteq
    have hro : releaseOver s r (frameNow s) = decide (st + (headerOr s r.showNo).release ≤ frameNow s) := by
      simp [releaseOver, hp]
    by_cases hc : st + (headerOr s r.showNo).release ≤ frameNow s
    · simp only [hro, hc, decide_true, if_true] at hteq
      subst hteq
      refine ⟨⟨by simp, by simp, fun a b h => ?_, by simp⟩, i2, by rw [i3], by rw [i3]⟩
      cases h; rw [if_pos hc, i1]
    · simp only [hro, hc, decide_false, Bool.false_eq_true, if_false] at hteq
      have := hcat .resume s r hr rfl (fun _ _ => rfl) (le_refl _) rfl
      rw [← hteq] at this
      refine ⟨⟨by simp, by simp, fun a b h => ?_, by simp⟩, this.2⟩
      cases h; rw [if_neg hc]; exact this.1
  | gated g =>
    simp only [hp] at hteq
    refine (and_congr_left' ?_).mpr (?_ : ((∀ e, r.endFrame = some e → e ≤ frameNow s →
        t.rows[p].map Row.noAsk = (if (headerOr s r.showNo).release = 0 ∨ e + (headerOr s r.showNo).release ≤ frameNow s then none
          else some { r with phase := .releasing e (attackWeight r.tag (headerOr s r.showNo).attack e) } : Option Row).map Row.noAsk) ∧
      (¬ (∃ e, r.endFrame = some e ∧ e ≤ frameNow s) →
        (GateWaits g (frameNow s) r → t.rows[p].map Row.noAsk = (some r).map Row.noAsk) ∧
        ∀ q watch, GateReleased g (frameNow s) r q watch → t.rows[p].map Row.noAsk = (some (inCatchUp (zonesOf s).length .resume
          { r with anchor := q - g.time, phase := .running, ctx := { r.ctx with lateWatch := watch } })).map Row.noAsk)) ∧
      (∀ i, i ≠ p → t.rows[i] = s.rows[i]) ∧ s.mixer.flushAsked ≤ t.mixer.flushAsked ∧
      t.mixer = { s.mixer with flushAsked := t.mixer.flushAsked })
    · constructor
      · rintro ⟨-, -, -, h⟩; exact h g rfl
      · intro h; exact ⟨by simp, by simp, by simp, fun g' hg' => by cases hg'; exact h⟩
    by_cases he : ∃ e, r.endFrame = some e ∧ e ≤ frameNow s
    · obtain ⟨e, he1, he2⟩ := he
      simp only [he1, he2, decide_true, if_true] at hteq
      have hme : meetEndFrame p s = if e + (headerOr s r.showNo).release ≤ frameNow s then askFlush (toIdle p s)
          else beginRelease p r e s := by
        unfold meetEndFrame; simp only [hr, he1]
      rw [hme] at hteq
      have hidle : t = askFlush (toIdle p s) → t.rows[p] = none ∧ (∀ i, i ≠ p → t.rows[i] = s.rows[i]) ∧
          s.mixer.flushAsked ≤ t.mixer.flushAsked ∧ t.mixer = { s.mixer with flushAsked := t.mixer.flushAsked } := by
        intro h; rw [h]
        refine ⟨i1, i2, ?_, ?_⟩
        · simp [askFlush]
        · simp [askFlush]
      by_cases h1 : e + (headerOr s r.showNo).release ≤ frameNow s
      · rw [if_pos h1] at hteq
        have := hidle hteq
        refine ⟨⟨fun e' h _ => ?_, fun h => absurd ⟨e, he1, he2⟩ h⟩, this.2⟩
        rw [he1] at h; cases h
        rw [if_pos (.inr h1), this.1]
      · rw [if_neg h1] at hteq
        unfold beginRelease at hteq
        by_cases h0 : (headerOr s r.showNo).release = 0
        · simp only [h0, if_true] at hteq
          have := hidle hteq
          refine ⟨⟨fun e' h _ => ?_, fun h => absurd ⟨e, he1, he2⟩ h⟩, this.2⟩
          rw [if_pos (.inl h0), this.1]
        · simp only [h0, if_false] at hteq
          refine ⟨⟨fun e' h _ => ?_, fun h => absurd ⟨e, he1, he2⟩ h⟩, ?_⟩
          · rw [he1] at h; cases h
            rw [if_neg (by omega), hteq]
            show ((setRow p _ s).rows[p]).map _ = _
            rw [(hset _).1]
          · rw [hteq]
            exact ⟨(hset _).2, by simp [askFlush, setRow], by simp [askFlush, setRow]⟩
    · have hd : ∀ e, r.endFrame = some e → ¬ e ≤ frameNow s := fun e h h' => he ⟨e, h, h'⟩
      replace hteq : t = match evalGate r g (frameNow s) with
          | some (q, byTimeout) => beginCatchUp .resume p (askFlush (setRow p
              (some { openGate g q r with ctx := { (openGate g q r).ctx with lateWatch := watchAfter g.mark byTimeout } }) s))
          | none => s := by
        rw [hteq]
        cases hE : r.endFrame with
        | none => simp only [Bool.false_eq_true, if_false] <;> cases evalGate r g (frameNow s) <;> rfl
        | some e => simp only [hd e hE, decide_false, Bool.false_eq_true, if_false] <;> cases evalGate r g (frameNow s) <;> rfl
      by_cases hw : GateWaits g (frameNow s) r
      · rw [evalGate_waits hw] at hteq
        subst hteq
        refine ⟨⟨fun e h1 h2 => absurd ⟨e, h1, h2⟩ he, fun _ => ⟨fun _ => by rw [hr], fun q watch hrel => ?_⟩⟩, fun _ _ => rfl,
          le_refl _, rfl⟩
        obtain ⟨b, hb, -⟩ := evalGate_released hrel
        rw [evalGate_waits hw] at hb; cases hb
      · have hstep : ∀ q watch, GateReleased g (frameNow s) r q watch →
            t.rows[p].map Row.noAsk = (some (inCatchUp (zonesOf s).length .resume
              { r with anchor := q - g.time, phase := .running, ctx := { r.ctx with lateWatch := watch } })).map Row.noAsk ∧
            (∀ i, i ≠ p → t.rows[i] = s.rows[i]) ∧ s.mixer.flushAsked ≤ t.mixer.flushAsked ∧
            t.mixer = { s.mixer with flushAsked := t.mixer.flushAsked } := by
          intro q watch hrel
          obtain ⟨b, hb, hwa⟩ := evalGate_released hrel
          simp only [hb] at hteq
          have := hcat .resume (askFlush (setRow p
            (some { openGate g q r with ctx := { (openGate g q r).ctx with lateWatch := watchAfter g.mark b } }) s)) _ (hset _).1 rfl
            (hset _).2 (by simp [askFlush, setRow]) (by simp [askFlush, setRow])
          rw [← hteq] at this
          rw [hwa] at this
          exact this
        have hex : ∃ q watch, GateReleased g (frameNow s) r q watch := by
          cases hm : (if g.mark = 0 then none else markFrame r g.mark) with
          | some f =>
            have h0 : g.mark ≠ 0 := by intro h; simp [h] at hm
            rw [if_neg h0] at hm
            unfold markFrame at hm
            rw [Option.map_eq_some_iff] at hm
            obtain ⟨⟨a, b⟩, hf, rfl⟩ := hm
            obtain ⟨ha, before, after, hl, hb⟩ := List.find?_eq_some_iff_append.1 hf
            have ha' : a = g.mark := by simpa using ha
            subst ha'
            exact ⟨max (b + 4) g.due, none, .inl ⟨h0, rfl, before, b, after, hl, fun e he' => by simpa using hb e he', rfl⟩⟩
          | none =>
            have hm' : g.mark = 0 ∨ ∀ e ∈ r.marks, e.1 ≠ g.mark := by
              by_cases h0 : g.mark = 0
              · exact .inl h0
              · rw [if_neg h0] at hm
                unfold markFrame at hm
                rw [Option.map_eq_none_iff, List.find?_eq_none] at hm
                exact .inr fun e he' => by simpa using hm e he'
            have ht : g.timeoutFrame ≤ frameNow s := by
              by_contra hn; exact hw ⟨hm', by omega⟩
            exact ⟨g.timeoutFrame, _, .inr ⟨hm', ht, rfl, rfl⟩⟩
        obtain ⟨q, watch, hrel⟩ := hex
        refine ⟨⟨fun e h1 h2 => absurd ⟨e, h1, h2⟩ he, fun _ => ⟨fun h => absurd h hw, fun q' w' h' => (hstep q' w' h').1⟩⟩,
          (hstep q watch hrel).2⟩

theorem freedRow_keeps (r : Row) : (freedRow r).phase = r.phase ∧ (freedRow r).showNo = r.showNo ∧ (freedRow r).tag = r.tag ∧
    (freedRow r).anchor = r.anchor ∧ (freedRow r).endFrame = r.endFrame := by
  have : ∀ (es : List (Nat × Nat)) (q : Row), let f := es.foldl (fun r e => markFiled e.1 e.2 r) q
      f.phase = q.phase ∧ f.showNo = q.showNo ∧ f.tag = q.tag ∧ f.anchor = q.anchor ∧ f.endFrame = q.endFrame := by
    intro es
    induction es with
    | nil => intro q; exact ⟨rfl, rfl, rfl, rfl, rfl⟩
    | cons e es ih =>
      intro q
      obtain ⟨-, k2, k3, k4, k5, k6, -⟩ := markFiled_keeps e.1 e.2 q
      obtain ⟨h1, h2, h3, h4, h5⟩ := ih (markFiled e.1 e.2 q)
      exact ⟨h1.trans k2, h2.trans k3, h3.trans k4, h4.trans k5, h5.trans k6⟩
  exact this r.ctx.pendingMarks r

/-- One player's resumption (R92): its row, the rows of the others, the flushes it adds and the frames it queues. -/
theorem resumePlayer_spec (hr : s.rows[p] = some r) (hs : r.suspended = true) {v : State} (hst : s.start = v.start)
    (hl : s.line = v.line) :
    let t := resumePlayer p s
    Resumed (zonesOf s).length (frameNow s) (headerOr s r.showNo).attack (headerOr s r.showNo).release r
        (fun x => t.rows[p].map Row.noAsk = x.map Row.noAsk) ∧
      (∀ i, i ≠ p → t.rows[i] = s.rows[i]) ∧ s.mixer.flushAsked < t.mixer.flushAsked ∧
      t.mixer = { s.mixer with flushAsked := t.mixer.flushAsked } ∧
      t.line = (r.ctx.pendingMarks.foldl (fun v e => send (newFrame 3 (markData r.showNo r.tag e.1 e.2)) v) v).line := by
  intro t
  obtain ⟨e1, -, -, -, -, -, -, -, e9, e10, e11, -⟩ := emitMarks_spec r.ctx.pendingMarks hr hs hst hl
  have hlib : (r.ctx.pendingMarks.foldl (fun s e => emitMark p e.1 e.2 s) s).lib = s.lib :=
    foldl_keeps State.lib _ (fun _ _ => by simp) _ _
  have htime : (r.ctx.pendingMarks.foldl (fun s e => emitMark p e.1 e.2 s) s).time = s.time :=
    foldl_keeps State.time _ (fun _ _ => by simp) _ _
  have hstart : (r.ctx.pendingMarks.foldl (fun s e => emitMark p e.1 e.2 s) s).start = s.start :=
    foldl_keeps State.start _ (fun _ _ => by simp) _ _
  obtain ⟨f1, f2, f3, f4, f5⟩ := freedRow_keeps r
  have hteq : t = reevaluate p (askFlush (setRow p (some (freedRow r)) (r.ctx.pendingMarks.foldl (fun s e => emitMark p e.1 e.2 s) s))) := by
    show resumePlayer p s = _
    unfold resumePlayer
    simp only [hr, hs, if_true]
    congr 2
    unfold modRow; simp only [e1]; rfl
  clear_value t
  have hrow : (askFlush (setRow p (some (freedRow r)) (r.ctx.pendingMarks.foldl (fun s e => emitMark p e.1 e.2 s) s))).rows[p] =
      some (freedRow r) := setRow_get _ _ _
  obtain ⟨v1, v2, v3, v4⟩ := reevaluate_spec hrow r f1.symm f3.symm f4.symm f5.symm rfl
  have hz : zonesOf (askFlush (setRow p (some (freedRow r)) (r.ctx.pendingMarks.foldl (fun s e => emitMark p e.1 e.2 s) s))) =
      zonesOf s := by unfold zonesOf; simp [hstart]
  have hf : frameNow (askFlush (setRow p (some (freedRow r)) (r.ctx.pendingMarks.foldl (fun s e => emitMark p e.1 e.2 s) s))) =
      frameNow s := by unfold frameNow towerUs; simp [htime]
  have hh : headerOr (askFlush (setRow p (some (freedRow r)) (r.ctx.pendingMarks.foldl (fun s e => emitMark p e.1 e.2 s) s)))
      (freedRow r).showNo = headerOr s r.showNo := by rw [f2]; exact headerOr_congr (by simp [hlib]) _
  rw [hz, hf, hh, ← hteq] at v1
  rw [← hteq] at v2 v3 v4
  have hm : (askFlush (setRow p (some (freedRow r)) (r.ctx.pendingMarks.foldl (fun s e => emitMark p e.1 e.2 s) s))).mixer =
      { s.mixer with flushAsked := s.mixer.flushAsked + 1 } := by
    show (askFlush _).mixer = _
    simp only [askFlush_mixer, setRow]; rw [e9]
  refine ⟨v1, fun i hi => (v2 i hi).trans ((setRow_other _ _ hi).trans (e10 i hi)), ?_, ?_, ?_⟩
  · rw [hm] at v3; exact v3
  · rw [hm] at v4; exact v4
  · rw [hteq]; simpa using e11

/-- A player that is not SUSPENDED, and a row that is IDLE, stay at a resumption (R92). -/
theorem resumePlayer_stays (h : ∀ r, s.rows[p] = some r → r.suspended = false) : resumePlayer p s = s := by
  unfold resumePlayer
  cases hr : s.rows[p] with
  | none => rfl
  | some r => simp [h r hr]

/-! ### Every player -/

theorem SameLibrary.trans {a b c : State} (h : SameLibrary a b) (k : SameLibrary b c) : SameLibrary a c := by
  unfold SameLibrary at *; rw [k, h]

theorem withdrawRefill_library (s : State) : SameLibrary s (withdrawRefill p s) := by
  unfold SameLibrary withdrawRefill; dsimp only; split <;> simp

theorem toIdle_library (s : State) : SameLibrary s (toIdle p s) := by
  have := withdrawRefill_library (p := p) s
  unfold SameLibrary toIdle setRow at *; exact this

theorem beginCatchUp_library (k : CatchKind) (s : State) : SameLibrary s (beginCatchUp k p s) := by
  have h : ∀ (f : Context → Context) (u : State), (modCtx p f u).lib = u.lib := fun f u => by simp
  have := withdrawRefill_library (p := p) s
  unfold SameLibrary beginCatchUp at *
  rw [h]
  split
  · exact this
  · rfl

theorem reevaluate_library (s : State) : SameLibrary s (reevaluate p s) := by
  have base : ∀ u : State, u.lib = s.lib → ∀ k, SameLibrary s (beginCatchUp k p u) := fun u h k => by
    have := beginCatchUp_library (p := p) k u; unfold SameLibrary at *; rw [this, h]
  have idle := toIdle_library (p := p) s
  have idle' : SameLibrary s (askFlush (toIdle p s)) := idle
  unfold reevaluate meetEndFrame beginRelease
  cases hr : s.rows[p] with
  | none => rfl
  | some r =>
    dsimp only
    (repeat' split) <;> first | exact idle | exact idle' | (refine base _ ?_ _; rfl) | rfl

theorem resumePlayer_library (s : State) : SameLibrary s (resumePlayer p s) := by
  unfold resumePlayer
  split
  · split
    · have := reevaluate_library (p := p) (askFlush (modRow p (fun r => { r with
        suspended := false, ctx := { r.ctx with pendingMarks := [] } })
        (‹Row›.ctx.pendingMarks.foldl (fun s e => emitMark p e.1 e.2 s) s)))
      refine SameLibrary.trans ?_ this
      show _ = _
      have : (‹Row›.ctx.pendingMarks.foldl (fun s e => emitMark p e.1 e.2 s) s).lib = s.lib :=
        foldl_keeps State.lib _ (fun _ _ => by simp) _ _
      simp [this]
    · rfl
  · rfl

end

/-- Every player's resumption, one after another (R92). -/
theorem resumeFold_spec (ps : List (Fin 4)) (hnd : ps.Nodup) {s u v : State} (hst : u.start = s.start) (htm : u.time = s.time)
    (hdir : u.lib.dir = s.lib.dir) (hrows : ∀ p ∈ ps, u.rows[p] = s.rows[p]) (hv : u.start = v.start) (hl : u.line = v.line) :
    let t := ps.foldl (fun s p => resumePlayer p s) u
    (∀ p ∈ ps, (s.rows[p] = none → t.rows[p] = none) ∧ ∀ r, s.rows[p] = some r →
      (r.suspended = false → t.rows[p] = some r) ∧
      (r.suspended = true → Resumed (zonesOf s).length (frameNow s) (headerOr s r.showNo).attack (headerOr s r.showNo).release r
        (fun x => t.rows[p].map Row.noAsk = x.map Row.noAsk))) ∧
      (∀ p, p ∉ ps → t.rows[p] = u.rows[p]) ∧ u.mixer.flushAsked ≤ t.mixer.flushAsked ∧
      t.mixer = { u.mixer with flushAsked := t.mixer.flushAsked } ∧ SameLibrary u t ∧
      t.line = (ps.foldl (fun v p => match s.rows[p] with
        | some r =>
          if r.suspended then
            r.ctx.pendingMarks.foldl (fun v e => send (newFrame 3 (markData r.showNo r.tag e.1 e.2)) v) v
          else v
        | none => v) v).line := by
  induction ps generalizing u v with
  | nil => exact ⟨by simp, by simp, le_refl _, rfl, rfl, hl⟩
  | cons p ps ih =>
    intro t
    obtain ⟨hp, hnd'⟩ := List.nodup_cons.1 hnd
    have hup : u.rows[p] = s.rows[p] := hrows p (by simp)
    obtain ⟨w, hw⟩ : ∃ w : State, w = (match s.rows[p] with
        | some r =>
          if r.suspended then
            r.ctx.pendingMarks.foldl (fun v e => send (newFrame 3 (markData r.showNo r.tag e.1 e.2)) v) v
          else v
        | none => v) := ⟨_, rfl⟩
    have one : ((s.rows[p] = none → (resumePlayer p u).rows[p] = none) ∧ ∀ r, s.rows[p] = some r →
          (r.suspended = false → (resumePlayer p u).rows[p] = some r) ∧
          (r.suspended = true → Resumed (zonesOf s).length (frameNow s) (headerOr s r.showNo).attack
            (headerOr s r.showNo).release r (fun x => (resumePlayer p u).rows[p].map Row.noAsk = x.map Row.noAsk))) ∧
        (∀ i, i ≠ p → (resumePlayer p u).rows[i] = u.rows[i]) ∧ u.mixer.flushAsked ≤ (resumePlayer p u).mixer.flushAsked ∧
        (resumePlayer p u).mixer = { u.mixer with flushAsked := (resumePlayer p u).mixer.flushAsked } ∧
        (resumePlayer p u).line = w.line ∧ u.start = w.start := by
      cases hr : s.rows[p] with
      | none =>
        have := resumePlayer_stays (p := p) (s := u) (by intro r h; rw [hup, hr] at h; cases h)
        rw [this]
        simp only [hr] at hw; subst hw
        exact ⟨⟨fun _ => by rw [hup, hr], fun r h => by cases h⟩, fun _ _ => rfl, le_refl _, rfl, hl, hv⟩
      | some r =>
        by_cases hs : r.suspended = true
        · simp only [hr, hs, if_true] at hw
          obtain ⟨m1, m2, m3, m4, m5⟩ := resumePlayer_spec (p := p) (s := u) (by rw [hup, hr]) hs hv hl
          have hz : zonesOf u = zonesOf s := by unfold zonesOf; rw [hst]
          have hf : frameNow u = frameNow s := by unfold frameNow towerUs; rw [htm]
          rw [hz, hf, headerOr_congr hdir] at m1
          refine ⟨⟨fun h => (by cases h), fun r' h => ?_⟩, m2, Nat.le_of_lt m3, m4, by rw [hw]; exact m5, ?_⟩
          · cases h; exact ⟨fun h => absurd (hs.symm.trans h) (by decide), fun _ => m1⟩
          · rw [hw, foldl_keeps State.start _ (fun _ _ => by simp)]; exact hv
        · have hs' : r.suspended = false := by simpa using hs
          have := resumePlayer_stays (p := p) (s := u) (by intro r' h; rw [hup, hr] at h; cases h; exact hs')
          rw [this]
          simp only [hr, hs', Bool.false_eq_true, if_false] at hw; subst hw
          refine ⟨⟨fun h => (by cases h), fun r' h => ?_⟩, fun _ _ => rfl, le_refl _, rfl, hl, hv⟩
          cases h; exact ⟨fun _ => by rw [hup, hr], fun h => absurd (hs'.symm.trans h) (by decide)⟩
    obtain ⟨o1, o2, o3, o4, o5, o6⟩ := one
    have lib1 := resumePlayer_library (p := p) u
    have hpst : (resumePlayer p u).start = u.start := by simp
    obtain ⟨i1, i2, i3, i4, i5, i6⟩ := ih hnd' (u := resumePlayer p u) (v := w) (by rw [hpst]; exact hst)
      (by rw [show (resumePlayer p u).time = u.time by simp]; exact htm)
      (by have := congrArg Library.dir lib1; exact this.trans hdir)
      (fun q hq => by rw [o2 q (by rintro rfl; exact hp hq)]; exact hrows q (by simp [hq])) (by rw [hpst]; exact o6) o5
    have ht : t = ps.foldl (fun s p => resumePlayer p s) (resumePlayer p u) := rfl
    clear_value t
    subst ht
    refine ⟨fun q hq => ?_, fun q hq => ?_, le_trans o3 i3, ?_, lib1.trans i5, ?_⟩
    · rcases List.mem_cons.1 hq with rfl | hq
      · rw [i2 q hp]; exact o1
      · exact i1 q hq
    · have : q ≠ p ∧ q ∉ ps := by simpa using hq
      rw [i2 q this.2, o2 q this.1]
    · rw [i4, o4]
    · rw [i6, hw]; rfl

/-- The players resume (R92): what each row becomes, that a flush is asked when one was SUSPENDED, and the MARK frames queued. -/
theorem resumePlayers_spec (s v : State) (hv : s.start = v.start) (hl : s.line = v.line) :
    let t := resumePlayers s
    (∀ p : Fin 4, (s.rows[p] = none → t.rows[p] = none) ∧ ∀ r, s.rows[p] = some r →
      (r.suspended = false → t.rows[p] = some r) ∧
      (r.suspended = true → Resumed (zonesOf s).length (frameNow s) (headerOr s r.showNo).attack (headerOr s r.showNo).release r
        (fun x => t.rows[p].map Row.noAsk = x.map Row.noAsk))) ∧
      s.mixer.flushAsked ≤ t.mixer.flushAsked ∧ t.mixer = { s.mixer with flushAsked := t.mixer.flushAsked } ∧ SameLibrary s t ∧
      t.line = (marksResumed s v).line := by
  obtain ⟨h1, -, h3, h4, h5, h6⟩ := resumeFold_spec (List.finRange 4) (List.nodup_finRange 4) (s := s) (u := s) (v := v) rfl rfl rfl
    (fun _ _ => rfl) hv hl
  exact ⟨fun p => h1 p (List.mem_finRange p), h3, h4, h5, h6⟩

end Sys2Proof.Machine
end

