-- ==== Sys2Proof/Laws/Due.lean ====
section
/-!
SUPPORT. Several items due at one boundary (R75, R76): an advance takes the items up to a show frame in order, and the row that stands
after them goes on as if it had come to the boundary so.
-/

namespace Sys2Proof.Machine

set_option Elab.async false

section

variable {p : Fin 4} {s : State} {r : Row}

/-! ### An advance takes fewer items than it has steps for -/

/-- More than the steps an advance can still take: its items, and the one by which a RUNNING row meets its end frame. -/
def stepsIn (zmap : List ZoneBoot) (r : Row) : Nat := itemsIn zmap r.ctx + if r.phase = .running then 1 else 0

theorem itemsIn_dropHead (zmap : List ZoneBoot) {x : Context} {c : Cue} {later : List Cue} (hw : x.window = c :: later) :
    itemsIn zmap (dropHead x) + (zmap.length + 1) = itemsIn zmap x := by
  rw [dropHead_eq hw]; unfold itemsIn; rw [hw]; simp only [List.length_cons, Nat.add_mul]; omega

theorem itemsIn_takeSweep (zmap : List ZoneBoot) {x : Context} {c : Cue} {later : List Cue} (hw : x.window = c :: later)
    (hact : c.action = .sweepUp ∨ c.action = .sweepDown) : itemsIn zmap (takeSweep zmap c (dropHead x)).1 < itemsIn zmap x := by
  obtain ⟨⟨x', hx, he⟩, -⟩ := takeSweep_taken zmap c later x hact hw
  rw [he]
  have hset : ¬ (c.action = .set ∨ c.action = .fade) := by rcases hact with h | h <;> simp [h]
  unfold CueTaken at hx
  rw [if_neg hset] at hx
  obtain ⟨zs, todo, hnd, -, hmem, hx⟩ := hx
  have hlen := touched_length c todo hnd fun i hi => ((hmem i).1 hi).1
  have hwin : itemsIn zmap { x with window := later } + (zmap.length + 1) = itemsIn zmap x := by
    unfold itemsIn; rw [hw]; simp only [List.length_cons, Nat.add_mul]; omega
  split at hx
  · obtain ⟨-, rfl⟩ := hx
    show itemsIn zmap { x with window := later } < _
    omega
  · obtain ⟨kept, mid, h1, h2, -, rfl⟩ := hx
    have hk : (kept.map (fun w => w.todo.length)).sum ≤ (x.sweeps.map (fun w => w.todo.length)).sum := by
      by_cases h8 : x.sweeps.length < 8
      · rw [(h1 h8).1]
      · cases hsw : x.sweeps with
        | nil => simp [hsw] at h8
        | cons o rest => rw [(h2 o rest (by omega) hsw).1]; simp
    unfold itemsIn at hwin ⊢
    simp only [List.map_append, List.sum_append, List.map_cons, List.map_nil, List.sum_cons, List.sum_nil] at hwin ⊢
    omega

/-- What a MARK cue leaves of its row's context (R82). -/
theorem takeMark_row {c : Cue} {later : List Cue} (hr : s.rows[p] = some r) (hw : r.ctx.window = c :: later)
    (hg : ∀ g, r.phase ≠ .gated g) :
    ∃ r1, (takeMark p c r s).rows[p] = some r1 ∧ r1.phase = r.phase ∧ r1.ctx.window = later ∧ r1.ctx.sweeps = r.ctx.sweeps := by
  have hd := dropHead_eq hw
  set r0 : Row := { r with ctx := dropHead r.ctx } with hr0
  have h0 : (modCtx p dropHead s).rows[p] = some r0 := modCtx_get _ hr
  have hwin : r0.ctx.window = later ∧ r0.ctx.sweeps = r.ctx.sweeps := by rw [hr0, hd]; exact ⟨rfl, rfl⟩
  have hemit : ∃ r1, (emitMark p c.param (r.anchor + c.time) (modCtx p dropHead s)).rows[p] = some r1 ∧ r1.phase = r.phase ∧
      r1.ctx.window = later ∧ r1.ctx.sweeps = r.ctx.sweeps := by
    refine ⟨markFiled c.param (r.anchor + c.time) r0, ?_, ?_⟩
    · have he : emitMark p c.param (r.anchor + c.time) (modCtx p dropHead s) =
          send (newFrame 3 (markData r0.showNo r0.tag c.param (r.anchor + c.time)))
            (fileMark p c.param (r.anchor + c.time) (modCtx p dropHead s)) := by unfold emitMark; simp only [h0]
      rw [he, send_rows]
      exact markFiled_fileMark _ _ h0 hg
    · unfold markFiled; split <;> exact ⟨rfl, hwin⟩
  unfold takeMark
  split
  · dsimp only
    split
    · by_cases h4 : 4 ≤ r.ctx.pendingMarks.length
      · simp only [h4, decide_true, if_true]
        exact ⟨_, modCtx_get _ h0, rfl, hwin⟩
      · simp only [h4, decide_false, Bool.false_eq_true, if_false]
        exact ⟨_, modCtx_get _ h0, rfl, hwin⟩
    · split
      · exact ⟨r0, h0, rfl, hwin⟩
      · exact ⟨r0, h0, rfl, hwin⟩
      · exact hemit
      · exact hemit
  · exact ⟨r0, h0, rfl, hwin⟩

/-- A row whose player advances: RUNNING or RELEASING (R75). -/
def advancing (r : Row) : Prop := r.phase = .running ∨ ∃ start w, r.phase = .releasing start w

theorem advancing_not_gated (h : advancing r) : ∀ g, r.phase ≠ .gated g := by
  intro g hg; rcases h with h | ⟨a, b, h⟩ <;> rw [hg] at h <;> cases h

/-- An item taken leaves fewer to take, or no row (R75). -/
theorem advanceOne_fewer {s1 : State} (hr : s.rows[p] = some r) (ha : advancing r) (h : advanceOne p s = (.more, s1)) :
    s1.rows[p] = none ∨ ∃ r1, s1.rows[p] = some r1 ∧ advancing r1 ∧ stepsIn (zonesOf s) r1 < stepsIn (zonesOf s) r := by
  unfold advanceOne at h
  simp only [hr] at h
  cases hi : nextItem (zonesOf s) r.ctx with
  | none => rw [hi] at h; simp only [Prod.mk.injEq] at h; have := h.1; split at this <;> cases this
  | some it =>
    rw [hi] at h
    simp only at h
    split at h
    · simp only [Prod.mk.injEq] at h; have := h.1; split at this <;> cases this
    · split at h
      · rename_i hpe
        cases h
        have hrun : r.phase = .running := by
          unfold pastEndFrame at hpe; split at hpe
          · assumption
          · cases hpe
        cases he : r.endFrame with
        | none => simp [pastEndFrame, hrun, he] at hpe
        | some e =>
          have hm : meetEndFrame p s = if e + (headerOr s r.showNo).release ≤ frameNow s then askFlush (toIdle p s)
              else beginRelease p r e s := by unfold meetEndFrame; simp only [hr, he]
          rw [hm]
          have hidle : (askFlush (toIdle p s)).rows[p] = none := by
            show (setRow p none (withdrawRefill p s)).rows[p] = none
            exact setRow_get _ _ _
          split
          · exact .inl hidle
          · by_cases h0 : (headerOr s r.showNo).release = 0
            · left; rw [show beginRelease p r e s = askFlush (toIdle p s) by unfold beginRelease; simp [h0]]; exact hidle
            · right
              rw [show beginRelease p r e s = askFlush (setRow p (some { r with
                phase := .releasing e (attackWeight r.tag (headerOr s r.showNo).attack e) }) s) by unfold beginRelease; simp [h0]]
              refine ⟨_, setRow_get _ _ _, .inr ⟨_, _, rfl⟩, ?_⟩
              simp [stepsIn, hrun]
      · right
        cases it with
        | sweep c i e =>
          cases h
          obtain ⟨h1, -⟩ := nextItem_is_sweep hi
          obtain ⟨-, w, hw, hwc, hwi⟩ := nextSweepItem_mem _ _ _ _ _ h1
          refine ⟨_, modCtx_get _ hr, ha, ?_⟩
          have := sum_todo_lt c i r.ctx.sweeps ⟨w, hw, by rw [hwc], hwi⟩
          unfold stepsIn itemsIn
          rw [takeSweepItem_sweeps]
          have hwin : (takeSweepItem (zonesOf s) c i e r.ctx).window = r.ctx.window := rfl
          rw [hwin]
          dsimp only
          omega
        | cue c =>
          have hwin : ∃ later, r.ctx.window = c :: later := by
            unfold nextItem at hi
            cases hx : r.ctx.window with
            | nil => rw [hx] at hi; split at hi <;> simp_all
            | cons d ds =>
              rw [hx] at hi
              cases hn : nextSweepItem (zonesOf s) r.ctx.sweeps with
              | none => rw [hn] at hi; cases hi; exact ⟨ds, rfl⟩
              | some q =>
                obtain ⟨q1, q2, q3⟩ := q
                rw [hn] at hi
                simp only at hi
                split at hi
                · cases hi
                · cases hi; exact ⟨ds, rfl⟩
          obtain ⟨later, hw⟩ := hwin
          have hd := itemsIn_dropHead (zonesOf s) hw
          have hrow : ∀ r1 : Row, itemsIn (zonesOf s) r1.ctx < itemsIn (zonesOf s) r.ctx → (r1.phase = .running → r.phase = .running) →
              stepsIn (zonesOf s) r1 < stepsIn (zonesOf s) r := by
            intro r1 h1 h2
            unfold stepsIn
            by_cases hp : r1.phase = .running
            · rw [if_pos hp, if_pos (h2 hp)]; omega
            · rw [if_neg hp]; omega
          have hlater : ∀ r1 : Row, r1.ctx.window = later → r1.ctx.sweeps = r.ctx.sweeps → r1.phase = r.phase →
              stepsIn (zonesOf s) r1 < stepsIn (zonesOf s) r := by
            intro r1 h1 h2 h3
            refine hrow r1 ?_ (by rw [h3]; exact id)
            unfold itemsIn; rw [h1, h2, hw]; simp only [List.length_cons, Nat.add_mul]; omega
          have hzone : ∀ s1, (Halt.more, modCtx p (fun x => takeZoneCue (zonesOf s) c (dropHead x)) s) = (Halt.more, s1) →
              ∃ r1, s1.rows[p] = some r1 ∧ advancing r1 ∧ stepsIn (zonesOf s) r1 < stepsIn (zonesOf s) r := by
            intro s1 h; cases h
            refine ⟨_, modCtx_get _ hr, ha, hlater _ ?_ ?_ rfl⟩
            · show (dropHead r.ctx).window = _; rw [dropHead_eq hw]
            · show (dropHead r.ctx).sweeps = _; rw [dropHead_eq hw]
          have hsweep : c.action = .sweepUp ∨ c.action = .sweepDown → ∀ s1,
              (Halt.more, if (takeSweep (zonesOf s) c (dropHead r.ctx)).2 = true then
                bump .sweepOverflow (modCtx p (fun _ => (takeSweep (zonesOf s) c (dropHead r.ctx)).1) s)
                else modCtx p (fun _ => (takeSweep (zonesOf s) c (dropHead r.ctx)).1) s) = (Halt.more, s1) →
              ∃ r1, s1.rows[p] = some r1 ∧ advancing r1 ∧ stepsIn (zonesOf s) r1 < stepsIn (zonesOf s) r := by
            intro hact s1 h; cases h
            refine ⟨{ r with ctx := (takeSweep (zonesOf s) c (dropHead r.ctx)).1 }, ?_, ha, hrow _ (itemsIn_takeSweep _ hw hact) id⟩
            have := modCtx_get (fun _ => (takeSweep (zonesOf s) c (dropHead r.ctx)).1) hr
            split <;> exact this
          cases hact : c.action with
          | set => simp only [hact] at h; exact hzone _ h
          | fade => simp only [hact] at h; exact hzone _ h
          | sweepUp => simp only [hact] at h; exact hsweep (.inl hact) _ h
          | sweepDown => simp only [hact] at h; exact hsweep (.inr hact) _ h
          | other =>
            simp only [hact] at h; cases h
            exact ⟨_, modCtx_get _ hr, ha, hlater _ (by rw [dropHead_eq hw]) (by rw [dropHead_eq hw]) rfl⟩
          | mark =>
            simp only [hact] at h
            cases h
            obtain ⟨r1, h1, h2, h3, h4⟩ := takeMark_row hr hw (advancing_not_gated ha)
            exact ⟨r1, h1, by unfold advancing; rw [h2]; exact ha, hlater r1 h3 h4 h2⟩
          | gate =>
            simp only [hact] at h
            split at h
            · cases h
              exact ⟨_, modCtx_get _ hr, ha, hlater _ (by rw [dropHead_eq hw]) (by rw [dropHead_eq hw]) rfl⟩
            · split at h
              · cases h
              · rename_i hng _
                have hrun : r.phase = .running := by
                  rcases ha with h' | ⟨a, b, h'⟩
                  · exact h'
                  · simp [passesGates, h'] at hng
                unfold takeGate at h
                dsimp only at h
                split at h
                · cases h
                  refine ⟨_, by rw [askFlushIf_rows]; exact setRow_get _ _ _, .inl rfl, hlater _ ?_ ?_ hrun.symm⟩
                  · show (dropHead r.ctx).window = _; rw [dropHead_eq hw]
                  · show (dropHead r.ctx).sweeps = _; rw [dropHead_eq hw]
                · cases h
          | endShow =>
            simp only [hact] at h
            split at h
            · cases h
            · unfold takeEnd at h
              split at h
              · cases h
              · rename_i hnr
                have hrun : r.phase = .running := by
                  rcases ha with h' | ⟨a, b, h'⟩
                  · exact h'
                  · exact absurd h' (hnr a b)
                split at h
                · cases h
                  refine ⟨_, setRow_get _ _ _, .inl hrun, hrow _ ?_ fun _ => hrun⟩
                  have h1 : (dropHead r.ctx).window = later := by rw [dropHead_eq hw]
                  have key : ∀ x1 : Context, x1.window = later → x1.sweeps = [] → itemsIn (zonesOf s) x1 < itemsIn (zonesOf s) r.ctx := by
                    intro x1 h2 h3
                    unfold itemsIn
                    rw [h2, h3, hw]
                    simp only [List.length_cons, Nat.add_mul, List.map_nil, List.sum_nil]
                    omega
                  exact key _ (by cases (dropHead r.ctx).endRead <;> simp [h1]) (by cases (dropHead r.ctx).endRead <;> simp)
                · cases h

/-! ### What the fuel of an advance leaves open -/

theorem advanceOne_zones (p : Fin 4) (s : State) : zonesOf (advanceOne p s).2 = zonesOf s := by
  unfold zonesOf; rw [(advanceOne_frame p s).1]

theorem advanceOne_now (p : Fin 4) (s : State) : frameNow (advanceOne p s).2 = frameNow s := by
  unfold frameNow towerUs; rw [(advanceOne_frame p s).2.1]

/-- An advance comes to its end whatever steps it is given beyond its items (R75). -/
theorem advanceLoop_fuel (n m : Nat) (s : State) (h : ∀ r, s.rows[p] = some r → advancing r ∧ stepsIn (zonesOf s) r < n ∧ stepsIn (zonesOf s) r < m)
    (hn : 0 < n) (hm : 0 < m) : advanceLoop p n s = advanceLoop p m s := by
  induction n generalizing m s with
  | zero => omega
  | succ n ih =>
    obtain ⟨m, rfl⟩ : ∃ k, m = k + 1 := ⟨m - 1, by omega⟩
    unfold advanceLoop
    cases ho : advanceOne p s with
    | mk a s1 =>
      cases a with
      | starved => rfl
      | done => rfl
      | more =>
        simp only
        cases hr : s.rows[p] with
        | none => unfold advanceOne at ho; rw [hr] at ho; cases ho
        | some r =>
          obtain ⟨ha, h1, h2⟩ := h r hr
          have hz : zonesOf s1 = zonesOf s := by have := advanceOne_zones p s; rw [ho] at this; exact this
          have hless := advanceOne_fewer hr ha ho
          have h0 : ∀ k : Nat, s1.rows[p] = none → advanceLoop p k s1 = (.done, s1) := by
            intro k hk
            cases k with
            | zero => rfl
            | succ k => unfold advanceLoop advanceOne; rw [hk]
          rcases hless with hno | ⟨r1, hr1, ha1, hlt⟩
          · rw [h0 _ hno, h0 _ hno]
          · refine ih m s1 (fun q hq => ?_) (by omega) (by omega)
            rw [hr1] at hq; cases hq
            rw [hz]
            exact ⟨ha1, by omega, by omega⟩

/-! ### A row that stands elsewhere in its cue list -/

/-- A row but for its window, zone state table, sweep list and position. -/
def standing (w : List Cue) (zs : List ZoneTracks) (sw : List Sweep) (y : Int) (r : Row) : Row :=
  { r with ctx := { r.ctx with window := w, zones := zs, sweeps := sw, position := y } }

theorem standing_standing (w w' zs zs' sw sw' y y') (r : Row) : standing w zs sw y (standing w' zs' sw' y' r) = standing w zs sw y r := rfl

theorem markFiled_standing (m d : Nat) (w zs sw y) (r : Row) : markFiled m d (standing w zs sw y r) = standing w zs sw y (markFiled m d r) := by
  unfold markFiled
  show (if r.marks.any _ = true then _ else _) = _
  split <;> rfl

theorem cuePassed_standing (c : Cue) (w zs sw y) (r : Row) : cuePassed (standing w zs sw y r) c = standing w zs sw y (cuePassed r c) := by
  unfold cuePassed
  have hp : (standing w zs sw y r).phase = r.phase := rfl
  have hs : (standing w zs sw y r).suspended = r.suspended := rfl
  rw [hp, hs]
  cases c.action <;> cases r.phase <;> simp only <;> first
    | rfl
    | (split
       · rfl
       · exact markFiled_standing _ _ _ _ _ _ _)

theorem foldl_cuePassed_standing (cs : List Cue) (w zs sw y) (r : Row) :
    cs.foldl cuePassed (standing w zs sw y r) = standing w zs sw y (cs.foldl cuePassed r) := by
  induction cs generalizing r with
  | nil => rfl
  | cons c cs ih => rw [List.foldl_cons, List.foldl_cons, cuePassed_standing, ih]

/-- What passing a cue leaves of a row (R82, R84). -/
theorem cuePassed_keeps (r : Row) (c : Cue) :
    (cuePassed r c).phase = r.phase ∧ (cuePassed r c).suspended = r.suspended ∧ (cuePassed r c).anchor = r.anchor ∧
      (cuePassed r c).endFrame = r.endFrame ∧ (cuePassed r c).showNo = r.showNo ∧ (cuePassed r c).tag = r.tag ∧
      (cuePassed r c).ctx.catchUp = r.ctx.catchUp ∧ (cuePassed r c).ctx.window = r.ctx.window ∧
      (cuePassed r c).ctx.zones = r.ctx.zones ∧ (cuePassed r c).ctx.sweeps = r.ctx.sweeps ∧
      (cuePassed r c).ctx.position = r.ctx.position ∧ (cuePassed r c).ctx.lastAnswer = r.ctx.lastAnswer := by
  unfold cuePassed
  repeat' split
  all_goals first
    | exact ⟨rfl, rfl, rfl, rfl, rfl, rfl, rfl, rfl, rfl, rfl, rfl, rfl⟩
    | (unfold markFiled; split <;> exact ⟨rfl, rfl, rfl, rfl, rfl, rfl, rfl, rfl, rfl, rfl, rfl, rfl⟩)

/-! ### The effects of the cues passed -/

/-- A row's marks are emitted as it passes them (R82, R91). -/
def emitsMarks (r : Row) : Bool := !r.suspended && !isReleasing r

/-- What the cues that a player passes make of all but its row (R69, R82, R85a). -/
structure CuesPassed (p : Fin 4) (r : Row) (cs : List Cue) (s u : State) : Prop where
  same : OnlyChanges [.rows, .line, .counters] s u
  others : ∀ i : Fin 4, i ≠ p → u.rows[i] = s.rows[i]
  line : u.line = ((if emitsMarks r then cs.filter (fun c => c.action == .mark) else []).foldl
    (fun v c => send (newFrame 3 (markData r.showNo r.tag c.param (r.anchor + c.time))) v) s).line
  overflow : count u .sweepOverflow = count s .sweepOverflow
  starved : count u .cueStarved = count s .cueStarved
  unsent : Counted (if r.suspended = true ∧ isReleasing r = false then
    min (cs.filter (fun c => c.action == .mark)).length
      (r.ctx.pendingMarks.length + (cs.filter (fun c => c.action == .mark)).length - 4) else 0) .marksUnsent s u
  dropped : Counted (if emitsMarks r then tallied (fun r c =>
    (c.action == .mark && !r.marks.any (fun e => e.1 == c.param)) && decide (16 ≤ r.marks.length)) r cs else 0) .marksDropped s u
  late : Counted (if emitsMarks r then tallied (fun r c =>
    (c.action == .mark && !r.marks.any (fun e => e.1 == c.param)) && r.ctx.lateWatch == some c.param) r cs else 0) .marksLate s u

theorem Counted.trans {a b : Nat} {c : Counter} {s t u : State} (h1 : Counted a c s t) (h2 : Counted b c t u) : Counted (a + b) c s u := by
  unfold Counted at *; omega

theorem Counted.zero {c : Counter} {s t : State} (h : count t c = count s c) : Counted 0 c s t := by
  unfold Counted; rw [h]; have := (count s c).isLt; omega

theorem tallied_standing (counts : Row → Cue → Bool) (w zs sw y) (hc : ∀ r c, counts (standing w zs sw y r) c = counts r c) (r : Row)
    (cs : List Cue) : tallied counts (standing w zs sw y r) cs = tallied counts r cs := by
  induction cs generalizing r with
  | nil => rfl
  | cons c cs ih => unfold tallied; rw [hc, cuePassed_standing, ih]

theorem foldl_send_congr {α : Type} (f : α → TxFrame) (cs : List α) (a b : State) (h1 : a.start = b.start) (h2 : a.line = b.line) :
    (cs.foldl (fun v c => send (f c) v) a).line = (cs.foldl (fun v c => send (f c) v) b).line := by
  induction cs generalizing a b with
  | nil => exact h2
  | cons c cs ih =>
    rw [List.foldl_cons, List.foldl_cons]
    exact ih _ _ (by simp [h1]) (send_line_congr _ _ _ h1 h2)

/-- The effects depend on a row but for where it stands in its cue list. -/
theorem CuesPassed.standing {cs : List Cue} {u : State} {w zs sw y} (h : CuesPassed p r cs s u) : CuesPassed p (standing w zs sw y r) cs s u :=
  ⟨h.same, h.others, h.line, h.overflow, h.starved, h.unsent,
    by have := h.dropped; rw [← tallied_standing _ w zs sw y (fun _ _ => rfl)] at this; exact this,
    by have := h.late; rw [← tallied_standing _ w zs sw y (fun _ _ => rfl)] at this; exact this⟩

theorem OnlyChanges.trans {l : List Part} {a b c : State} (h1 : OnlyChanges l a b) (h2 : OnlyChanges l b c) : OnlyChanges l a c := by
  intro q hq
  have := h1 q hq; have := h2 q hq
  cases q <;> exact Eq.trans ‹_› ‹_›

theorem filter_mark {c : Cue} (h : c.action = .mark) (cs : List Cue) :
    (c :: cs).filter (fun c => c.action == .mark) = c :: cs.filter (fun c => c.action == .mark) :=
  List.filter_cons_of_pos (by simp [h])

theorem filter_no_mark {c : Cue} (h : c.action ≠ .mark) (cs : List Cue) :
    (c :: cs).filter (fun c => c.action == .mark) = cs.filter (fun c => c.action == .mark) :=
  List.filter_cons_of_neg (by simp [h])

/-- A cue is passed, then the rest. -/
theorem CuesPassed.cons {c : Cue} {cs : List Cue} {t u : State} (h1 : CuesPassed p r [c] s t) (h2 : CuesPassed p (cuePassed r c) cs t u) :
    CuesPassed p r (c :: cs) s u := by
  obtain ⟨k1, k2, k3, -, k5, k6, -⟩ := cuePassed_keeps r c
  have he : emitsMarks (cuePassed r c) = emitsMarks r := by unfold emitsMarks isReleasing; rw [k1, k2]
  have hrel : isReleasing (cuePassed r c) = isReleasing r := by unfold isReleasing; rw [k1]
  have hst : t.start = s.start := h1.same .start (by decide)
  refine ⟨h1.same.trans h2.same, fun i hi => (h2.others i hi).trans (h1.others i hi), ?_, h2.overflow.trans h1.overflow,
    h2.starved.trans h1.starved, ?_, ?_, ?_⟩
  · have l1 := h1.line
    have l2 := h2.line
    rw [he, k3, k5, k6] at l2
    rw [l2]
    cases hem : emitsMarks r
    · simp only [Bool.false_eq_true, if_false, List.foldl_nil]
      rw [l1, hem]; rfl
    · simp only [if_true]
      rw [hem] at l1
      simp only [if_true] at l1
      by_cases hc : c.action = .mark
      · rw [filter_mark hc, List.foldl_cons]
        refine foldl_send_congr _ _ _ _ (by simp [hst]) ?_
        rw [l1, filter_mark hc]; rfl
      · rw [filter_no_mark hc]
        refine foldl_send_congr _ _ _ _ hst ?_
        rw [l1, filter_no_mark hc]; rfl
  · have l1 := h1.unsent
    have l2 := h2.unsent
    rw [hrel, k2] at l2
    have := l1.trans l2
    by_cases hg : r.suspended = true ∧ isReleasing r = false
    · simp only [if_pos hg] at this ⊢
      by_cases hc : c.action = .mark
      · have hpen : (cuePassed r c).ctx.pendingMarks.length = if 4 ≤ r.ctx.pendingMarks.length then r.ctx.pendingMarks.length else
            r.ctx.pendingMarks.length + 1 := by
          have : cuePassed r c = { r with ctx := markPended c.param (r.anchor + c.time) r.ctx } := by
            unfold cuePassed
            rw [hc]
            have hnr := hg.2
            unfold isReleasing at hnr
            cases hp : r.phase <;> simp_all
          rw [this]; simp only [markPended]
          split
          all_goals simp
          all_goals omega
        rw [hpen] at this
        simp only [filter_mark hc, List.length_cons, List.filter_nil, List.length_nil] at this ⊢
        convert this using 1
        split
        all_goals omega
      · have hpen : (cuePassed r c).ctx.pendingMarks = r.ctx.pendingMarks := by
          unfold cuePassed
          cases hca : c.action <;> simp_all
        rw [hpen] at this
        simp only [filter_no_mark hc, List.filter_nil, List.length_nil] at this ⊢
        simpa using this
    · simpa only [if_neg hg] using this
  · have := h1.dropped.trans h2.dropped
    rw [he] at this
    cases hem : emitsMarks r
    · simpa [hem] using this
    · simpa [hem, tallied] using this
  · have := h1.late.trans h2.late
    rw [he] at this
    cases hem : emitsMarks r
    · simpa [hem] using this
    · simpa [hem, tallied] using this

/-- A change of the row alone has no other effect. -/
theorem CuesPassed.row (q : Option Row) : CuesPassed p r [] s (setRow p q s) := by
  refine ⟨fun q hq => ?_, fun i hi => setRow_other _ _ hi, ?_, rfl, rfl, ?_, ?_, ?_⟩
  · cases q <;> first | rfl | (exfalso; exact hq (by decide))
  · simp
  · simp only [List.filter_nil, List.length_nil, Nat.zero_min, ite_self]; exact Counted.zero rfl
  · simp only [tallied, ite_self]; exact Counted.zero rfl
  · simp only [tallied, ite_self]; exact Counted.zero rfl

/-- A cue that is no MARK, or a MARK in RELEASING, has no effect but on the row. -/
theorem CuesPassed.quiet {c : Cue} (q : Option Row) (h : c.action ≠ .mark ∨ isReleasing r = true) : CuesPassed p r [c] s (setRow p q s) := by
  refine ⟨fun q hq => ?_, fun i hi => setRow_other _ _ hi, ?_, rfl, rfl, ?_, ?_, ?_⟩
  · cases q <;> first | rfl | (exfalso; exact hq (by decide))
  · rcases h with h | h
    · simp [h]
    · simp [emitsMarks, h]
  · rcases h with h | h
    · simp only [filter_no_mark h, List.filter_nil, List.length_nil, Nat.zero_min, ite_self]
      exact Counted.zero rfl
    · simp only [h, Bool.true_eq_false, and_false, if_false]; exact Counted.zero rfl
  · rcases h with h | h
    · simp only [tallied, show (c.action == .mark) = false by simp [h], Bool.false_and, Bool.false_eq_true, if_false, ite_self]
      exact Counted.zero rfl
    · simp only [emitsMarks, h, Bool.not_true, Bool.and_false, Bool.false_eq_true, if_false]; exact Counted.zero rfl
  · rcases h with h | h
    · simp only [tallied, show (c.action == .mark) = false by simp [h], Bool.false_and, Bool.false_eq_true, if_false, ite_self]
      exact Counted.zero rfl
    · simp only [emitsMarks, h, Bool.not_true, Bool.and_false, Bool.false_eq_true, if_false]; exact Counted.zero rfl

/-- What filing a mark counts while the player is not GATED (R67, R85a). -/
theorem fileMark_effects (m d : Nat) (hr : s.rows[p] = some r) (hg : ∀ g, r.phase ≠ .gated g) :
    let t := fileMark p m d s
    let fresh := !r.marks.any (fun e => e.1 == m)
    OnlyChanges [.rows, .line, .counters] s t ∧ (∀ i : Fin 4, i ≠ p → t.rows[i] = s.rows[i]) ∧ t.line = s.line ∧
      (∀ c, c ≠ .marksDropped → c ≠ .marksLate → count t c = count s c) ∧
      Counted (if fresh && decide (16 ≤ r.marks.length) then 1 else 0) .marksDropped s t ∧
      Counted (if fresh && r.ctx.lateWatch == some m then 1 else 0) .marksLate s t := by
  have same : ∀ q, OnlyChanges [.rows, .line, .counters] s (setRow p q s) := fun q => (CuesPassed.row (r := r) q).same
  have other : ∀ (q : Option Row) (u : State) (i : Fin 4), i ≠ p → (setRow p q u).rows[i] = u.rows[i] := fun q u i hi => setRow_other _ _ hi
  dsimp only
  cases hany : r.marks.any (fun e => e.1 == m) with
  | true =>
    have : fileMark p m d s = s := by unfold fileMark; simp only [hr, hany, if_true]
    rw [this]
    exact ⟨fun q _ => by cases q <;> rfl, fun _ _ => rfl, rfl, fun _ _ _ => rfl, Counted.zero rfl, Counted.zero rfl⟩
  | false =>
    have hgo : ∀ q : Row, q.phase = r.phase → gatedOn q m = false := by
      intro q hq; unfold gatedOn; rw [hq]; cases hp : r.phase <;> simp_all
    have meet : ∀ (v : State) (q : Row), v.rows[p] = some q → q.phase = r.phase → q.ctx.lateWatch = r.ctx.lateWatch →
        meetMark p m d v = if r.ctx.lateWatch = some m then
          bump .marksLate (setRow p (some { q with ctx := { q.ctx with lateWatch := none } }) v) else v := by
      intro v q hq h1 h2
      unfold meetMark
      simp only [hq, hgo q h1, Bool.false_eq_true, if_false, h2, modCtx_eq _ hq]
    have hfile : fileMark p m d s = meetMark p m d (if decide (16 ≤ r.marks.length) = true then bump .marksDropped
          (setRow p (some { r with marks := (if decide (16 ≤ r.marks.length) = true then r.marks.tail else r.marks) ++ [(m, d)] }) s)
        else setRow p (some { r with marks := (if decide (16 ≤ r.marks.length) = true then r.marks.tail else r.marks) ++ [(m, d)] }) s) := by
      unfold fileMark; simp only [hr, hany, Bool.false_eq_true, if_false]
    rw [hfile]
    generalize hq : ({ r with marks := (if decide (16 ≤ r.marks.length) = true then r.marks.tail else r.marks) ++ [(m, d)] } : Row) = q
    have hqp : q.phase = r.phase := by rw [← hq]
    have hql : q.ctx.lateWatch = r.ctx.lateWatch := by rw [← hq]
    rw [meet _ q (by split <;> simp [setRow]) hqp hql]
    have hcnt : ∀ (a : Option Row) (u : State) (c : Counter), count (setRow p a u) c = count u c := fun _ _ _ => rfl
    have hbo : ∀ {c d : Counter} (u : State), c ≠ d → count (bump c u) d = count u d := fun u h => count_bump_other h u
    have hb1 : ∀ (c : Counter) (u : State), Counted 1 c u (bump c u) := fun c u => counted_bump c u
    by_cases h16 : 16 ≤ r.marks.length <;> by_cases hl : r.ctx.lateWatch = some m <;>
      simp only [h16, hl, decide_true, decide_false, if_true, if_false, Bool.false_eq_true, Bool.not_false, Bool.and_self, Bool.and_false,
        Bool.true_and, beq_self_eq_true]
    · refine ⟨fun q hq => ?_, fun i hi => ?_, rfl, fun c h1 h2 => ?_, ?_, ?_⟩
      · cases q <;> first | rfl | (exfalso; exact hq (by decide))
      · show (setRow p _ (setRow p _ s)).rows[i] = _; rw [other _ _ i hi, other _ _ i hi]
      · rw [hbo _ (Ne.symm h2), hcnt, hbo _ (Ne.symm h1), hcnt]
      · have := hb1 .marksDropped (setRow p (some q) s)
        unfold Counted at this ⊢
        rw [hbo _ (by decide), hcnt]; exact this
      · have := hb1 .marksLate (setRow p (some { q with ctx := { q.ctx with lateWatch := none } }) (bump .marksDropped (setRow p (some q) s)))
        unfold Counted at this ⊢
        rw [this, hcnt, hbo _ (by decide), hcnt]
    · refine ⟨fun q hq => ?_, fun i hi => ?_, rfl, fun c h1 h2 => ?_, ?_, ?_⟩
      · cases q <;> first | rfl | (exfalso; exact hq (by decide))
      · show (setRow p _ s).rows[i] = _; rw [other _ _ i hi]
      · rw [hbo _ (Ne.symm h1), hcnt]
      · exact hb1 .marksDropped (setRow p (some q) s)
      · simp only [beq_iff_eq, hl, if_false]
        exact Counted.zero (by rw [hbo _ (by decide), hcnt])
    · refine ⟨fun q hq => ?_, fun i hi => ?_, rfl, fun c h1 h2 => ?_, ?_, ?_⟩
      · cases q <;> first | rfl | (exfalso; exact hq (by decide))
      · show (setRow p _ (setRow p _ s)).rows[i] = _; rw [other _ _ i hi, other _ _ i hi]
      · rw [hbo _ (Ne.symm h2), hcnt, hcnt]
      · exact Counted.zero (by rw [hbo _ (by decide), hcnt, hcnt])
      · exact hb1 .marksLate (setRow p (some { q with ctx := { q.ctx with lateWatch := none } }) (setRow p (some q) s))
    · refine ⟨same _, other _ _, rfl, fun c h1 h2 => hcnt _ _ _, Counted.zero (hcnt _ _ _), ?_⟩
      simp only [beq_iff_eq, hl, if_false]
      exact Counted.zero (hcnt _ _ _)

/-- A MARK cue is passed (R82): what it makes of the row and its effects. -/
theorem takeMark_passed {c : Cue} {later : List Cue} (hr : s.rows[p] = some r) (hw : r.ctx.window = c :: later) (hact : c.action = .mark)
    (ha : advancing r) (hcu : r.phase = .running → r.suspended = false → r.ctx.catchUp = none) :
    (takeMark p c r s).rows[p] = some (standing later r.ctx.zones r.ctx.sweeps (headTaken c later r.ctx.position) (cuePassed r c)) ∧
      CuesPassed p r [c] s (takeMark p c r s) := by
  have hd : ({ r with ctx := dropHead r.ctx } : Row) = standing later r.ctx.zones r.ctx.sweeps (headTaken c later r.ctx.position) r := by
    rw [dropHead_eq hw]; rfl
  generalize hy : headTaken c later r.ctx.position = y at hd ⊢
  rcases ha with hp | ⟨a, b, hp⟩
  · have hrel : isReleasing r = false := by unfold isReleasing; rw [hp]
    cases hsu : r.suspended with
    | true =>
      have hcp : cuePassed r c = { r with ctx := markPended c.param (r.anchor + c.time) r.ctx } := by
        unfold cuePassed; simp [hact, hp, hsu]
      have hem : emitsMarks r = false := by simp [emitsMarks, hsu]
      have key : takeMark p c r s = (if 4 ≤ r.ctx.pendingMarks.length then bump .marksUnsent else id)
          (setRow p (some (standing later r.ctx.zones r.ctx.sweeps y (cuePassed r c))) s) := by
        have h0 := modCtx_eq dropHead hr
        rw [hd] at h0
        have hg := setRow_get p (some (standing later r.ctx.zones r.ctx.sweeps y r)) s
        unfold takeMark
        simp only [hp, hsu, if_true]
        rw [h0, modCtx_eq _ hg, setRow_setRow, hcp]
        by_cases h4 : 4 ≤ r.ctx.pendingMarks.length
        · simp only [h4, decide_true, if_true]; unfold markPended; rw [if_pos h4]; rfl
        · simp only [h4, decide_false, Bool.false_eq_true, if_false]; unfold markPended; rw [if_neg h4]; rfl
      rw [key]
      have hq := CuesPassed.row (p := p) (s := s) (r := r) (some (standing later r.ctx.zones r.ctx.sweeps y (cuePassed r c)))
      refine ⟨by split <;> simp [setRow], ⟨fun q hqq => ?_, fun i hi => ?_, ?_, ?_, ?_, ?_, ?_, ?_⟩⟩
      · have := hq.same q hqq
        split
        · cases q <;> first | exact this | (exfalso; exact hqq (by decide))
        · exact this
      · split <;> exact hq.others i hi
      · rw [hem]; split <;> rfl
      · split
        · exact (count_bump_other (by decide) _).trans hq.overflow
        · exact hq.overflow
      · split
        · exact (count_bump_other (by decide) _).trans hq.starved
        · exact hq.starved
      · rw [if_pos ⟨hsu, hrel⟩, filter_mark hact, List.filter_nil, List.length_singleton]
        split
        · rw [show min 1 (r.ctx.pendingMarks.length + 1 - 4) = 1 by omega]
          exact counted_bump .marksUnsent (setRow p _ s)
        · rw [show min 1 (r.ctx.pendingMarks.length + 1 - 4) = 0 by omega]
          exact Counted.zero rfl
      · rw [hem]
        refine Counted.zero ?_
        split
        · exact count_bump_other (by decide) _
        · rfl
      · rw [hem]
        refine Counted.zero ?_
        split
        · exact count_bump_other (by decide) _
        · rfl
    | false =>
      have hcp : cuePassed r c = markFiled c.param (r.anchor + c.time) r := by
        unfold cuePassed; simp [hact, hp, hsu]
      have hem : emitsMarks r = true := by simp [emitsMarks, hsu, hrel]
      have h0 := modCtx_eq dropHead hr
      rw [hd] at h0
      set r0 := standing later r.ctx.zones r.ctx.sweeps y r with hr0
      have hg := setRow_get p (some r0) s
      have hng : ∀ g, r0.phase ≠ .gated g := by intro g; show r.phase ≠ _; rw [hp]; simp
      have key : takeMark p c r s = send (newFrame 3 (markData r.showNo r.tag c.param (r.anchor + c.time)))
          (fileMark p c.param (r.anchor + c.time) (setRow p (some r0) s)) := by
        unfold takeMark
        simp only [hp, hsu, Bool.false_eq_true, if_false, hcu hp hsu]
        rw [h0]
        unfold emitMark
        simp only [hg]
        rfl
      rw [key]
      have hq := CuesPassed.row (p := p) (s := s) (r := r) (some r0)
      obtain ⟨e1, e2, e3, e4, e5, e6⟩ := fileMark_effects c.param (r.anchor + c.time) hg hng
      have hcs : ∀ (f : TxFrame) (u : State) (d : Counter), d ≠ .txDropped → d ≠ .txDisplaced → count (send f u) d = count u d :=
        fun f u d h1 h2 => count_send f u d h1 h2
      refine ⟨?_, ⟨?_, fun i hi => ?_, ?_, ?_, ?_, ?_, ?_, ?_⟩⟩
      · rw [send_rows, markFiled_fileMark _ _ hg hng, hr0, markFiled_standing, hcp]
      · refine (hq.same.trans e1).trans fun q hqq => ?_
        cases q <;> first | (simp [Part.same]; done) | (exfalso; exact hqq (by decide))
      · rw [send_rows]; exact (e2 i hi).trans (hq.others i hi)
      · rw [hem, if_pos rfl, filter_mark hact]
        exact send_line_congr _ _ _ (by have := e1 .start (by decide); exact this) e3
      · rw [hcs _ _ _ (by decide) (by decide), e4 _ (by decide) (by decide)]; rfl
      · rw [hcs _ _ _ (by decide) (by decide), e4 _ (by decide) (by decide)]; rfl
      · rw [if_neg (by simp [hsu])]
        exact Counted.zero (by rw [hcs _ _ _ (by decide) (by decide), e4 _ (by decide) (by decide)]; rfl)
      · rw [hem, if_pos rfl]
        unfold Counted at e5 ⊢
        rw [hcs _ _ _ (by decide) (by decide), e5]
        simp only [tallied, hact, beq_self_eq_true, Bool.true_and, Nat.add_zero]
        rfl
      · rw [hem, if_pos rfl]
        unfold Counted at e6 ⊢
        rw [hcs _ _ _ (by decide) (by decide), e6]
        simp only [tallied, hact, beq_self_eq_true, Bool.true_and, Nat.add_zero]
        rfl
  · have hrel : isReleasing r = true := by unfold isReleasing; rw [hp]
    have hcp : cuePassed r c = r := by unfold cuePassed; simp [hact, hp]
    have key : takeMark p c r s = setRow p (some (standing later r.ctx.zones r.ctx.sweeps y r)) s := by
      unfold takeMark
      simp only [hp]
      rw [modCtx_eq _ hr, hd]
    rw [key, hcp]
    exact ⟨setRow_get _ _ _, CuesPassed.quiet _ (.inr hrel)⟩

variable {zmap : List ZoneBoot} {k y : Int} {n : Nat}

/-! ### The sweeps left -/

theorem index_inj {l : List Cue} (h : l.Pairwise (fun a b => a.index < b.index)) {a b : Cue} (ha : a ∈ l) (hb : b ∈ l)
    (he : a.index = b.index) : a = b := by
  induction l with
  | nil => simp at ha
  | cons c l ih =>
    obtain ⟨h1, h2⟩ := List.pairwise_cons.1 h
    rcases List.mem_cons.1 ha with hac | hal
    · rcases List.mem_cons.1 hb with hbc | hbl
      · rw [hac, hbc]
      · have := h1 b hbl; rw [← hac] at this; omega
    · rcases List.mem_cons.1 hb with hbc | hbl
      · have := h1 a hal; rw [← hbc] at this; omega
      · exact ih h2 hal hbl

/-- With no sweep item left up to `y` the sweep list stays. -/
theorem SweepsLeft.refl {g : Bool} {x : Context} (hp : Projectable zmap g y x) (hs : sweepsBeyond zmap x.sweeps y) :
    SweepsLeft zmap y x.sweeps [] x.sweeps := by
  refine ⟨?_, fun w hw => ?_, fun c i => ?_⟩
  · have := (List.pairwise_append.1 hp.stored).1
    rwa [List.pairwise_map] at this
  · obtain ⟨-, h1, h2, h3, -⟩ := hp.sweeps w hw
    exact ⟨h1, h2, h3⟩
  · constructor
    · rintro ⟨w, hw, rfl, hi⟩
      exact ⟨hs w hw i hi, .inl ⟨w, hw, rfl, hi⟩⟩
    · rintro ⟨-, h | ⟨h, -⟩⟩
      · exact h
      · simp at h

/-- A sweep item is taken, then the rest (R76, R81). -/
theorem SweepsLeft.item {g : Bool} {x : Context} {c : Cue} {i e : Nat} {taken : List Cue} {after : List Sweep} (hp : Projectable zmap g y x)
    (hn : nextSweepItem zmap x.sweeps = some (c, i, e)) (hy : (e : Int) ≤ y)
    (h : SweepsLeft zmap y (takeSweepItem zmap c i e x).sweeps taken after) : SweepsLeft zmap y x.sweeps taken after := by
  obtain ⟨h1, h2, h3⟩ := h
  obtain ⟨he, w0, hw0, hc0, hi0⟩ := nextSweepItem_mem zmap _ _ _ _ hn
  have hinj : ∀ v ∈ x.sweeps, v.cue.index = c.index → v.cue = c := by
    intro v hv hvi
    rw [← hc0]
    exact index_inj (List.pairwise_append.1 hp.stored).1 (List.mem_map_of_mem hv) (List.mem_map_of_mem hw0) (by rw [hvi, hc0])
  refine ⟨h1, h2, fun d j => ?_⟩
  rw [h3]
  refine and_congr_right fun hyd => or_congr ?_ Iff.rfl
  rw [takeSweepItem_sweeps]
  simp only [List.mem_filter, List.mem_map, bne_iff_ne, ne_eq]
  constructor
  · rintro ⟨w, ⟨⟨v, hv, rfl⟩, -⟩, hwc, hj⟩
    rw [sweepLeft_cue] at hwc
    refine ⟨v, hv, hwc, ?_⟩
    unfold sweepLeft at hj
    split at hj
    · exact List.mem_of_mem_erase hj
    · exact hj
  · rintro ⟨v, hv, hvc, hj⟩
    have hj' : j ∈ (sweepLeft c i v).todo := by
      unfold sweepLeft
      split
      · rename_i hidx
        refine (List.mem_erase_of_ne fun hji => ?_).2 hj
        have hvc' := hinj v hv (by simpa using hidx)
        rw [← hvc, hvc', hji] at hyd
        rw [he] at hy
        omega
      · exact hj
    exact ⟨sweepLeft c i v, ⟨⟨v, hv, rfl⟩, List.ne_nil_of_mem hj'⟩, by rw [sweepLeft_cue]; exact hvc, hj'⟩

/-- A cue that is no SWEEP is passed, then the rest. -/
theorem SweepsLeft.pass {c : Cue} {before after : List Sweep} {taken : List Cue} (hc : ¬ (c.action = .sweepUp ∨ c.action = .sweepDown))
    (h : SweepsLeft zmap y before taken after) : SweepsLeft zmap y before (c :: taken) after := by
  obtain ⟨h1, h2, h3⟩ := h
  refine ⟨h1, h2, fun d j => ?_⟩
  rw [h3]
  refine and_congr_right fun _ => or_congr Iff.rfl ?_
  rw [List.mem_cons]
  constructor
  · rintro ⟨a, b⟩; exact ⟨.inr a, b⟩
  · rintro ⟨rfl | a, b, b'⟩
    · exact absurd b hc
    · exact ⟨a, b, b'⟩

/-- The sweep list of a SWEEP cue taken with room on it (R81). -/
theorem cueTaken_sweeps {c : Cue} {later : List Cue} {x x' : Context} (hact : c.action = .sweepUp ∨ c.action = .sweepDown)
    (hroom : x.sweeps.length < 8) (hx : CueTaken zmap c later x x') :
    ∃ todo, (∀ i, i ∈ todo ↔ touchesAt zmap c i ∧ reachedAt zmap c i ≠ c.time) ∧
      x'.sweeps = x.sweeps ++ if todo = [] then [] else [{ cue := c, todo := todo }] := by
  have hset : ¬ (c.action = .set ∨ c.action = .fade) := by rcases hact with h | h <;> simp [h]
  unfold CueTaken at hx
  rw [if_neg hset] at hx
  obtain ⟨zs, todo, hnd, hpw, hmem, hx⟩ := hx
  refine ⟨todo, hmem, ?_⟩
  split at hx
  · rename_i ht
    obtain ⟨hz, rfl⟩ := hx
    simp [ht]
  · rename_i ht
    obtain ⟨kept, mid, hk, -, hz, rfl⟩ := hx
    rw [(hk hroom).1, if_neg ht]

/-- A SWEEP cue is passed, then the rest (R81). -/
theorem SweepsLeft.sweep {c : Cue} {before mid after : List Sweep} {taken : List Cue} {todo : List Nat}
    (hact : c.action = .sweepUp ∨ c.action = .sweepDown) (hy : (c.time : Int) ≤ y)
    (hm : ∀ i, i ∈ todo ↔ touchesAt zmap c i ∧ reachedAt zmap c i ≠ c.time)
    (hb : mid = before ++ if todo = [] then [] else [{ cue := c, todo := todo }])
    (h : SweepsLeft zmap y mid taken after) : SweepsLeft zmap y before (c :: taken) after := by
  obtain ⟨h1, h2, h3⟩ := h
  refine ⟨h1, h2, fun d j => ?_⟩
  rw [h3]
  refine and_congr_right fun hyd => ?_
  have hin : (∃ w ∈ mid, w.cue = d ∧ j ∈ w.todo) ↔ (∃ w ∈ before, w.cue = d ∧ j ∈ w.todo) ∨ (c = d ∧ j ∈ todo) := by
    rw [hb]
    by_cases ht : todo = []
    · simp [ht]
    · simp only [ht, if_false, List.mem_append, List.mem_singleton]
      constructor
      · rintro ⟨w, hw | rfl, h4, h5⟩
        · exact .inl ⟨w, hw, h4, h5⟩
        · exact .inr ⟨h4, h5⟩
      · rintro (⟨w, hw, h4, h5⟩ | ⟨h4, h5⟩)
        · exact ⟨w, .inl hw, h4, h5⟩
        · exact ⟨_, .inr rfl, h4, h5⟩
  rw [hin, List.mem_cons, hm]
  constructor
  · rintro ((h | ⟨rfl, h4, -⟩) | ⟨h4, h5⟩)
    · exact .inl h
    · exact .inr ⟨.inl rfl, hact, h4⟩
    · exact .inr ⟨.inr h4, h5⟩
  · rintro (h | ⟨rfl | h4, h5⟩)
    · exact .inl (.inl h)
    · exact .inl (.inr ⟨rfl, h5.2, fun he => by rw [he] at hyd; omega⟩)
    · exact .inr ⟨h4, h5⟩

/-! ### The items of an advance up to a show frame -/

/-- The items of a player's row up to show frame `y` are taken at frame `n` on the way to its target `k`. -/
structure DueAt (zmap : List ZoneBoot) (k y : Int) (n : Nat) (r : Row) : Prop where
  proj : Projectable zmap (isReleasing r) y r.ctx
  adv : advancing r
  target : advanceTarget r n = k
  past : ∀ f : Nat, (f : Int) ≤ k → pastEndFrame r f = false
  free : r.phase = .running → r.suspended = false → r.ctx.catchUp = none
  reached : y ≤ k
  behind : r.ctx.position < k
  window : r.ctx.window ≠ []
  told : (∃ c ∈ r.ctx.window, c.action = .endShow) ∨ ∃ c, r.ctx.window.getLast? = some c ∧ (y < c.time ∨ k ≤ c.time)

/-- The window tells every item up to `y` (R79). -/
theorem DueAt.reach (h : DueAt zmap k y n r) : y ≤ windowReach r k := by
  by_cases h1 : (∃ c ∈ r.ctx.window, c.action = .endShow) ∨ ∃ c, r.ctx.window.getLast? = some c ∧ k ≤ c.time
  · rw [windowReach_tells r k h1 k (le_refl k)]; exact h.reached
  · have hno : ∀ c ∈ r.ctx.window, c.action ≠ .endShow := fun c hc he => h1 (.inl ⟨c, hc, he⟩)
    rcases h.told with ⟨c, hc, he⟩ | ⟨c, hc, h2 | h2⟩
    · exact absurd he (hno c hc)
    · have hce : c.action ≠ .endShow := hno c (List.mem_of_getLast? hc)
      have ho : openEnd (passCues r.ctx.window) = some c.time := by
        rw [passCues_open _ hno]; simp [openEnd, hc, hce]
      have hk := h.reached
      unfold windowReach
      split
      · exact absurd ‹_› h.window
      · rw [ho]
        simp only
        split
        · exact hk
        · split <;> omega
    · exact absurd (.inr ⟨c, hc, h2⟩) h1

/-- What stands elsewhere in its cue list after an item is still due. -/
theorem DueAt.next {w : List Cue} {zs sw} {q : Row} (h : DueAt zmap k y n r) (hq : q = r ∨ ∃ c, q = cuePassed r c)
    (hp : Projectable zmap (isReleasing r) y (standing w zs sw r.ctx.position q).ctx) (hw : w ≠ [])
    (hl : (∃ c ∈ w, c.action = .endShow) ∨ ∃ c, w.getLast? = some c ∧ (y < c.time ∨ k ≤ c.time)) :
    DueAt zmap k y n (standing w zs sw r.ctx.position q) := by
  have hk : q.phase = r.phase ∧ q.suspended = r.suspended ∧ q.anchor = r.anchor ∧ q.endFrame = r.endFrame ∧ q.ctx.catchUp = r.ctx.catchUp := by
    rcases hq with rfl | ⟨c, rfl⟩
    · exact ⟨rfl, rfl, rfl, rfl, rfl⟩
    · obtain ⟨k1, k2, k3, k4, -, -, k7, -⟩ := cuePassed_keeps r c
      exact ⟨k1, k2, k3, k4, k7⟩
  obtain ⟨k1, k2, k3, k4, k7⟩ := hk
  have hrel : isReleasing (standing w zs sw r.ctx.position q) = isReleasing r := by
    show isReleasing q = _; unfold isReleasing; rw [k1]
  refine ⟨by rw [hrel]; exact hp, ?_, ?_, fun f hf => ?_, ?_, h.reached, h.behind, hw, hl⟩
  · have := h.adv; unfold advancing at *; show q.phase = _ ∨ ∃ start w, q.phase = .releasing start w; rw [k1]; exact this
  · rw [← h.target]; unfold advanceTarget; show (match q.suspended, q.phase, q.endFrame with | _, _, _ => _) = _; simp only [standing, k1, k2, k3, k4]
  · rw [← h.past f hf]; unfold pastEndFrame; simp only [standing, k1, k3, k4, k7]
  · show q.phase = _ → q.suspended = _ → q.ctx.catchUp = _; rw [k1, k2, k7]; exact h.free

/-- With no sweep item and no cue left to take up to `y`, no item is. -/
theorem none_due {g : Bool} {x : Context} (hp : Projectable zmap g y x) (hs : sweepsBeyond zmap x.sweeps y)
    (hd : (cuesOpen g x.window).takeWhile (fun c => decide ((c.time : Int) ≤ y)) = []) (i : Nat) (j : Fin 4) (a : Cue × Nat) :
    ¬ itemOpen zmap g x y i j a := by
  rintro ⟨-, h2, h3, ⟨w, hwm, hwc, hi⟩ | ⟨h4, -, -⟩⟩
  · have hframe : a.2 = reachedAt zmap w.cue i := by
      rw [h2, ← hwc]; unfold itemFrame; rw [if_neg]; rcases (hp.sweeps w hwm).1 with h | h <;> simp [h]
    have := hs w hwm i hi
    omega
  · have h6 := time_le_itemFrame (zmap := zmap) a.1 i
    have ht := hp.timed
    cases hc : cuesOpen g x.window with
    | nil => rw [hc] at h4; simp at h4
    | cons d ds =>
      rw [hc] at hd ht h4
      have hdt : ¬ (d.time : Int) ≤ y := by
        intro hle
        rw [List.takeWhile_cons, if_pos (by simpa using hle)] at hd
        simp at hd
      rcases List.mem_cons.1 h4 with h | h
      · rw [h] at h6; rw [h] at h2; omega
      · have := (List.pairwise_cons.1 ht).1 a.1 h; omega

/-- With the next item beyond `y` no sweep item and no cue is left to take up to it (R76). -/
theorem next_beyond {g : Bool} {x : Context} {it : Item} (hp : Projectable zmap g y x) (hi : nextItem zmap x = some it) (hlt : y < it.frame) :
    sweepsBeyond zmap x.sweeps y ∧ (cuesOpen g x.window).takeWhile (fun c => decide ((c.time : Int) ≤ y)) = [] := by
  have hhead : ∀ d ds, x.window = d :: ds → y < d.time → (cuesOpen g x.window).takeWhile (fun c => decide ((c.time : Int) ≤ y)) = [] := by
    intro d ds hx hd
    rw [hx, cuesOpen_cons]
    split
    · rw [List.takeWhile_cons, if_neg (by simpa using hd)]
    · rfl
  cases it with
  | sweep c i e =>
    obtain ⟨h1, h2⟩ := nextItem_is_sweep hi
    obtain ⟨he, before, w, after, hl, hc, hwi, hb, ha⟩ := (nextSweepItem_first x.sweeps fun v hv => (hp.sweeps v hv).2.2.2.1).2 c i e h1
    simp only [Item.frame] at hlt
    refine ⟨fun v hv j hj => ?_, ?_⟩
    · rw [hl] at hv
      rcases List.mem_append.1 hv with hv | hv
      · have := hb v hv j hj; omega
      · have := ha v hv j hj; omega
    · cases hx : x.window with
      | nil => rfl
      | cons d ds =>
        have := h2 d (by rw [hx]; rfl)
        rw [← hx]
        exact hhead d ds hx (by omega)
  | cue c =>
    obtain ⟨⟨later, hw⟩, hs⟩ := nextItem_is_cue hp hi
    simp only [Item.frame] at hlt
    refine ⟨fun v hv j hj => ?_, hhead c later hw hlt⟩
    have := hs v hv j hj; omega

theorem cuePassed_other {c : Cue} (h1 : c.action ≠ .mark) (h2 : c.action ≠ .gate) : cuePassed r c = r := by
  unfold cuePassed
  split
  · rfl
  · exact absurd ‹_› h1
  · exact absurd ‹_› h2
  · rfl

/-- The row alone has changed before the cues are passed. -/
theorem CuesPassed.after_row {cs : List Cue} {q : Option Row} {u : State} (h : CuesPassed p r cs (setRow p q s) u) : CuesPassed p r cs s u := by
  have h0 := CuesPassed.row (p := p) (r := r) (s := s) q
  refine ⟨h0.same.trans h.same, fun i hi => (h.others i hi).trans (h0.others i hi), ?_, h.overflow, h.starved, h.unsent, h.dropped, h.late⟩
  rw [h.line]
  exact foldl_send_congr _ _ _ _ rfl rfl

/-- An advance takes the items up to show frame `y` in order (R75, R76): so many steps later its row is what DueTaken has. -/
theorem advanceLoop_items_due (N : Nat) (r : Row) (s : State) (hN : itemsIn zmap r.ctx < N) (hr : s.rows[p] = some r)
    (hz : zonesOf s = zmap) (hd : DueAt zmap k y (frameNow s) r) :
    ∃ m u r', u.rows[p] = some r' ∧ m + itemsIn zmap r'.ctx ≤ itemsIn zmap r.ctx ∧ (∀ f, advanceLoop p (m + f) s = advanceLoop p f u) ∧
      DueTaken zmap y r r' ∧ CuesPassed p r (dueCues y r) s u := by
  induction N generalizing r s with
  | zero => omega
  | succ N ih =>
    have hreach := hd.reach
    have hp := hd.proj
    have hk := hd.reached
    have hbehind := hd.behind
    -- with nothing due the row stands
    have stands : sweepsBeyond zmap r.ctx.sweeps y → dueCues y r = [] → ∃ m u r', u.rows[p] = some r' ∧
        m + itemsIn zmap r'.ctx ≤ itemsIn zmap r.ctx ∧ (∀ f, advanceLoop p (m + f) s = advanceLoop p f u) ∧
        DueTaken zmap y r r' ∧ CuesPassed p r (dueCues y r) s u := by
      intro hs hdue
      refine ⟨0, s, r, hr, by omega, fun f => by rw [Nat.zero_add], ?_, ?_⟩
      · refine ⟨r.ctx.zones, r.ctx.sweeps, ItemsTaken.refl (none_due hp hs hdue), by rw [hdue]; exact SweepsLeft.refl hp hs, ?_⟩
        rw [hdue]
        simp only [List.foldl_nil, List.length_nil, List.drop_zero, if_neg hd.window]
      · have := CuesPassed.row (p := p) (r := r) (s := s) (some r)
        rw [setRow_self hr] at this
        rw [hdue]; exact this
    have loop : ∀ s1, advanceOne p s = (.more, s1) → zonesOf s1 = zmap ∧ frameNow s1 = frameNow s ∧
        ∀ f, advanceLoop p (f + 1) s = advanceLoop p f s1 := by
      intro s1 h
      have h1 := advanceOne_zones p s
      have h2 := advanceOne_now p s
      rw [h] at h1 h2
      exact ⟨h1.trans hz, h2, fun f => by conv_lhs => unfold advanceLoop; rw [h]⟩
    cases hi : nextItem zmap r.ctx with
    | none =>
      exfalso
      unfold nextItem at hi
      cases hx : r.ctx.window with
      | nil => exact hd.window hx
      | cons d ds =>
        rw [hx] at hi
        split at hi <;> first | (cases hi; done) | (simp_all; done) | (split at hi <;> cases hi)
    | some it =>
      by_cases hlt : y < it.frame
      · obtain ⟨h1, h2⟩ := next_beyond hp hi hlt
        exact stands h1 h2
      have hle : (it.frame : Int) ≤ y := by omega
      have hpast := hd.past it.frame (by omega)
      have hone := fun (Q : Halt × State → Prop) => show Q (advanceOne p s) ↔ Q _ from by
        unfold advanceOne
        simp only [hr, hz, hd.target, hi, if_neg (show ¬ windowReach r k < it.frame by omega), hpast, Bool.false_eq_true, if_false]
        exact Iff.rfl
      cases it with
      | sweep c i e =>
        obtain ⟨h1, h2⟩ := nextItem_is_sweep hi
        obtain ⟨hp1, hlt1, ht⟩ := sweepItem_step hp h1 hle h2
        have ho : advanceOne p s = (.more, modCtx p (takeSweepItem zmap c i e) s) := (hone (· = _)).2 rfl
        rw [modCtx_eq _ hr] at ho
        obtain ⟨l1, l2, l3⟩ := loop _ ho
        have hrow : ({ r with ctx := takeSweepItem zmap c i e r.ctx } : Row) =
            standing r.ctx.window (takeSweepItem zmap c i e r.ctx).zones (takeSweepItem zmap c i e r.ctx).sweeps r.ctx.position r := rfl
        have hd1 : DueAt zmap k y (frameNow s) { r with ctx := takeSweepItem zmap c i e r.ctx } := by
          rw [hrow]; exact hd.next (.inl rfl) hp1 hd.window hd.told
        obtain ⟨m, u, r', u1, u2, u3, ⟨zs, sw, u4, u5, u6⟩, u7⟩ := ih _ _ (by show itemsIn zmap (takeSweepItem zmap c i e r.ctx) < N; omega)
          (setRow_get p _ s) l1 (by rw [l2]; exact hd1)
        have hdue : dueCues y { r with ctx := takeSweepItem zmap c i e r.ctx } = dueCues y r := rfl
        rw [hdue] at u5 u6 u7
        refine ⟨m + 1, u, r', u1, ?_, fun f => ?_, ⟨zs, sw, ht _ u4, u5.item hp h1 hle, ?_⟩, ?_⟩
        · have : m + itemsIn zmap r'.ctx ≤ itemsIn zmap (takeSweepItem zmap c i e r.ctx) := u2
          omega
        · rw [show m + 1 + f = (m + f) + 1 by omega, l3, u3]
        · rw [u6, hrow, foldl_cuePassed_standing]; rfl
        · rw [hrow] at u7
          exact (u7.standing (w := r.ctx.window) (zs := r.ctx.zones) (sw := r.ctx.sweeps) (y := r.ctx.position)).after_row
      | cue c =>
        obtain ⟨⟨later, hw⟩, hs⟩ := nextItem_is_cue hp hi
        simp only [Item.frame] at hle
        by_cases ho : c.action ≠ .endShow ∧ (isReleasing r = true ∨ c.action ≠ .gate)
        swap
        · -- END, or a gate that stops the player, is not before `y`
          have hc : cuesOpen (isReleasing r) r.ctx.window = [] := by rw [hw, cuesOpen_cons, if_neg ho]
          have hyc := hp.stop c later (by rw [hc, hw]; rfl)
          refine stands (fun w hwm j hj => ?_) (by unfold dueCues; rw [hc]; rfl)
          have := hs w hwm j hj; omega
        have hpg : passesGates r = isReleasing r := rfl
        -- one cue is passed, then the rest
        have step : ∀ (s1 : State) (z1 : List ZoneTracks) (sw1 : List Sweep), advanceOne p s = (.more, s1) →
            s1.rows[p] = some (standing later z1 sw1 (headTaken c later r.ctx.position) (cuePassed r c)) → CuesPassed p r [c] s s1 →
            (∀ q, Projectable zmap (isReleasing r) y (standing later z1 sw1 q (cuePassed r c)).ctx ∧
              itemsIn zmap (standing later z1 sw1 q (cuePassed r c)).ctx < itemsIn zmap r.ctx ∧
              ∀ zones, ItemsTaken zmap (isReleasing r) (standing later z1 sw1 q (cuePassed r c)).ctx y zones →
                ItemsTaken zmap (isReleasing r) r.ctx y zones) →
            (∀ w ∈ sw1, ∀ j ∈ w.todo, c.time < reachedAt zmap w.cue j) →
            (∀ taken after, SweepsLeft zmap y sw1 taken after → SweepsLeft zmap y r.ctx.sweeps (c :: taken) after) →
            ∃ m u r', u.rows[p] = some r' ∧ m + itemsIn zmap r'.ctx ≤ itemsIn zmap r.ctx ∧
              (∀ f, advanceLoop p (m + f) s = advanceLoop p f u) ∧ DueTaken zmap y r r' ∧ CuesPassed p r (dueCues y r) s u := by
          intro s1 z1 sw1 hone1 hrow1 hpass hproj hs1 hsl
          obtain ⟨l1, l2, l3⟩ := loop _ hone1
          obtain ⟨k1, -⟩ := cuePassed_keeps r c
          have hrel : ∀ q, isReleasing (standing later z1 sw1 q (cuePassed r c)) = isReleasing r := by
            intro q; show isReleasing (cuePassed r c) = _; unfold isReleasing; rw [k1]
          have hdue : ∀ q, dueCues y r = c :: dueCues y (standing later z1 sw1 q (cuePassed r c)) := by
            intro q
            unfold dueCues
            rw [hrel, hw, cuesOpen_cons, if_pos ho, List.takeWhile_cons, if_pos (by simpa using hle)]
            rfl
          have hdrop : ∀ n, r.ctx.window.drop (n + 1) = later.drop n := by intro n; rw [hw]; rfl
          by_cases hl : later = []
          · -- the last cue held
            have hcy : (c.time : Int) = y ∧ y = k := by
              rcases hd.told with ⟨d, hdm, hde⟩ | ⟨d, hdl, hdt⟩
              · rw [hw, hl, List.mem_singleton] at hdm; rw [hdm] at hde; exact absurd hde ho.1
              · rw [hw, hl, List.getLast?_singleton] at hdl; cases hdl; omega
            obtain ⟨hp1, hlt1, ht⟩ := hproj y
            have hs2 : sweepsBeyond zmap sw1 y := by
              intro w hwm j hj; have := hs1 w hwm j hj; omega
            have hnil : dueCues y (standing later z1 sw1 y (cuePassed r c)) = [] := by
              unfold dueCues; show List.takeWhile _ (cuesOpen _ later) = []; rw [hl]; rfl
            have hdue1 : dueCues y r = [c] := by rw [hdue y, hnil]
            have hpos : headTaken c later r.ctx.position = y := by unfold headTaken; rw [if_pos hl]; omega
            rw [hpos] at hrow1
            refine ⟨1, s1, _, hrow1, by omega, fun f => by rw [Nat.add_comm 1 f]; exact l3 f, ?_, ?_⟩
            · refine ⟨z1, sw1, ht _ (ItemsTaken.refl (none_due hp1 hs2 ?_)), ?_, ?_⟩
              · show List.takeWhile _ (cuesOpen _ later) = []; rw [hl]; rfl
              · rw [hdue1]; exact hsl _ _ (SweepsLeft.refl (x := (standing later z1 sw1 y (cuePassed r c)).ctx) hp1 hs2)
              · rw [hdue1]
                simp only [List.foldl_cons, List.foldl_nil, List.length_singleton, hw, List.drop_succ_cons, List.drop_zero, if_pos hl]
                rfl
            · rw [hdue1]; exact hpass
          · rw [headTaken_more hl] at hrow1
            obtain ⟨hp1, hlt1, ht⟩ := hproj r.ctx.position
            have hlast : later.getLast? = r.ctx.window.getLast? := by
              rw [hw, List.getLast?_cons]
              obtain ⟨a, ha⟩ : ∃ a, later.getLast? = some a := by
                cases h : later.getLast? with
                | none => exact absurd (List.getLast?_eq_none_iff.1 h) hl
                | some a => exact ⟨a, rfl⟩
              rw [ha]; rfl
            have hd1 := hd.next (q := cuePassed r c) (.inr ⟨c, rfl⟩) hp1 hl (by
              rw [hlast]
              rcases hd.told with ⟨d, hdm, hde⟩ | h
              · rw [hw, List.mem_cons] at hdm
                rcases hdm with rfl | hdm
                · exact absurd hde ho.1
                · exact .inl ⟨d, hdm, hde⟩
              · exact .inr h)
            obtain ⟨m, u, r', u1, u2, u3, ⟨zs, sw, u4, u5, u6⟩, u7⟩ := ih _ s1 (by omega) hrow1 l1 (by rw [l2]; exact hd1)
            rw [hrel] at u4
            refine ⟨m + 1, u, r', u1, by omega, fun f => ?_, ⟨zs, sw, ht _ u4, ?_, ?_⟩, ?_⟩
            · rw [show m + 1 + f = (m + f) + 1 by omega, l3, u3]
            · rw [hdue r.ctx.position]; exact hsl _ _ u5
            · rw [u6, hdue r.ctx.position, foldl_cuePassed_standing, List.foldl_cons, List.length_cons, hdrop]
              rfl
            · rw [hdue r.ctx.position]
              exact hpass.cons (u7.standing (w := (cuePassed r c).ctx.window) (zs := (cuePassed r c).ctx.zones)
                (sw := (cuePassed r c).ctx.sweeps) (y := (cuePassed r c).ctx.position))
        have hquiet : ¬ writesZones c → ∀ s1, advanceOne p s = (.more, s1) →
            s1.rows[p] = some (standing later r.ctx.zones r.ctx.sweeps (headTaken c later r.ctx.position) (cuePassed r c)) →
            CuesPassed p r [c] s s1 → ∃ m u r', u.rows[p] = some r' ∧ m + itemsIn zmap r'.ctx ≤ itemsIn zmap r.ctx ∧
              (∀ f, advanceLoop p (m + f) s = advanceLoop p f u) ∧ DueTaken zmap y r r' ∧ CuesPassed p r (dueCues y r) s u := by
          intro hnw s1 h1 h2 h3
          refine step s1 _ _ h1 h2 h3 (fun q => ?_) hs fun taken after h => h.pass fun h' => hnw ?_
          · obtain ⟨a, b⟩ := hp.tail (x1 := (standing later r.ctx.zones r.ctx.sweeps q (cuePassed r c)).ctx) hw ho rfl rfl
            exact ⟨a, b, fun zones h => passedCue_step (x1 := (standing later r.ctx.zones r.ctx.sweeps q (cuePassed r c)).ctx) hw ho hnw rfl rfl rfl zones h⟩
          · rcases h' with h' | h' <;> simp [writesZones, h']
        have hsame : c.action ≠ .mark → c.action ≠ .gate → cuePassed r c = r := cuePassed_other
        have hzone : c.action = .set ∨ c.action = .fade → advanceOne p s = (.more, modCtx p (fun x => takeZoneCue zmap c (dropHead x)) s) →
            ∃ m u r', u.rows[p] = some r' ∧ m + itemsIn zmap r'.ctx ≤ itemsIn zmap r.ctx ∧
              (∀ f, advanceLoop p (m + f) s = advanceLoop p f u) ∧ DueTaken zmap y r r' ∧ CuesPassed p r (dueCues y r) s u := by
          intro hact h1
          have hnm : c.action ≠ .mark ∧ c.action ≠ .gate := by rcases hact with h | h <;> simp [h]
          have hcp := hsame hnm.1 hnm.2
          obtain ⟨x', hx', he⟩ := takeZoneCue_taken zmap c later r.ctx hact hw
          unfold CueTaken at hx'
          rw [if_pos hact] at hx'
          obtain ⟨zs, hzt, rfl⟩ := hx'
          rw [modCtx_eq _ hr] at h1
          refine step _ zs r.ctx.sweeps h1 (by rw [setRow_get, he, hcp]; rfl) (CuesPassed.quiet _ (.inl hnm.1)) (fun q => ?_) hs
            fun taken after h => h.pass (by rcases hact with h | h <;> simp [h])
          rw [hcp]
          obtain ⟨a, b⟩ := hp.tail (x1 := (standing later zs r.ctx.sweeps q r).ctx) hw ho rfl rfl
          exact ⟨a, b, fun zones h => zoneCue_step (x1 := (standing later zs r.ctx.sweeps q r).ctx) hp hw hact hs hle rfl rfl hzt zones h⟩
        have hsweep : c.action = .sweepUp ∨ c.action = .sweepDown →
            (advanceOne p s = (.more, if (takeSweep zmap c (dropHead r.ctx)).2 then
              bump .sweepOverflow (modCtx p (fun _ => (takeSweep zmap c (dropHead r.ctx)).1) s)
              else modCtx p (fun _ => (takeSweep zmap c (dropHead r.ctx)).1) s)) →
            ∃ m u r', u.rows[p] = some r' ∧ m + itemsIn zmap r'.ctx ≤ itemsIn zmap r.ctx ∧
              (∀ f, advanceLoop p (m + f) s = advanceLoop p f u) ∧ DueTaken zmap y r r' ∧ CuesPassed p r (dueCues y r) s u := by
          intro hact h1
          have hnm : c.action ≠ .mark ∧ c.action ≠ .gate := by rcases hact with h | h <;> simp [h]
          have hcp := hsame hnm.1 hnm.2
          have hroom : r.ctx.sweeps.length < 8 := by
            have := hp.room
            rw [(hp.head hw ho).1, List.filter_cons, if_pos (by rcases hact with h | h <;> simp [h])] at this
            simp only [List.length_cons] at this; omega
          obtain ⟨⟨x', hx', he⟩, hover⟩ := takeSweep_taken zmap c later r.ctx hact hw
          have hno : (takeSweep zmap c (dropHead r.ctx)).2 = false := by
            by_contra h; have := hover.1 (by simpa using h); omega
          rw [hno, if_neg (by simp), modCtx_eq _ hr, he] at h1
          obtain ⟨todo, hmem, hsw⟩ := cueTaken_sweeps hact hroom hx'
          obtain ⟨hx1, hx2⟩ := cueTaken_keeps hx'
          have hctx : ∀ q, (standing later x'.zones x'.sweeps q r).ctx = { x' with position := q } := by
            intro q
            unfold CueTaken at hx'
            split at hx'
            · obtain ⟨_, -, rfl⟩ := hx'; rfl
            · obtain ⟨_, _, -, -, -, hx'⟩ := hx'
              split at hx'
              · obtain ⟨-, rfl⟩ := hx'; rfl
              · obtain ⟨_, _, -, -, -, rfl⟩ := hx'; rfl
          refine step _ x'.zones x'.sweeps h1 (by rw [setRow_get, hcp, show ({ x' with position := headTaken c later r.ctx.position } : Context) =
            (standing later x'.zones x'.sweeps (headTaken c later r.ctx.position) r).ctx from (hctx _).symm]; rfl)
            (CuesPassed.quiet _ (.inl hnm.1)) (fun q => ?_) ?_ fun taken after h => h.sweep hact hle hmem hsw
          · rw [hcp, hctx]
            exact sweepCue_step (x' := x') (x1 := { x' with position := q }) hp hw hact hs hle (touched_length c) hx' rfl rfl rfl
          · intro w hwm j hj
            rw [hsw, List.mem_append] at hwm
            rcases hwm with hwm | hwm
            · exact hs w hwm j hj
            · split at hwm
              · simp at hwm
              · rw [List.mem_singleton] at hwm
                rw [hwm] at hj ⊢
                have := (hmem j).1 hj
                have := reachedAt_ge zmap c j
                show c.time < reachedAt zmap c j
                omega
        have hnw : c.action = .mark ∨ c.action = .other ∨ c.action = .gate → ¬ writesZones c := by
          rintro h (h' | h' | h' | h') <;> simp [h'] at h
        have hdrop : ∀ q, ({ q with ctx := dropHead q.ctx } : Row) = standing (dropHead q.ctx).window q.ctx.zones q.ctx.sweeps (dropHead q.ctx).position q := by
          intro q; unfold dropHead; split <;> rfl
        cases hact : c.action with
        | set => exact hzone (.inl hact) ((hone (· = _)).2 (by simp only [hact]))
        | fade => exact hzone (.inr hact) ((hone (· = _)).2 (by simp only [hact]))
        | sweepUp => exact hsweep (.inl hact) ((hone (· = _)).2 (by simp only [hact]))
        | sweepDown => exact hsweep (.inr hact) ((hone (· = _)).2 (by simp only [hact]))
        | mark =>
          obtain ⟨m1, m2⟩ := takeMark_passed hr hw hact hd.adv hd.free
          exact hquiet (hnw (.inl hact)) _ ((hone (· = _)).2 (by simp only [hact])) m1 m2
        | other =>
          have hcp := hsame (by simp [hact]) (by simp [hact])
          have h1 : advanceOne p s = (.more, modCtx p dropHead s) := (hone (· = _)).2 (by simp only [hact])
          rw [modCtx_eq _ hr] at h1
          refine hquiet (hnw (.inr (.inl hact))) _ h1 ?_ (CuesPassed.quiet _ (.inl (by simp [hact])))
          rw [setRow_get, hcp, dropHead_eq hw]; rfl
        | gate =>
          have hg : isReleasing r = true := by
            rcases ho.2 with h | h
            · exact h
            · exact absurd hact h
          have hcp : cuePassed r c = { r with ctx := { r.ctx with lateWatch := none } } := by
            unfold cuePassed; rw [hact]
          have h1 : advanceOne p s = (.more, modCtx p (fun x => { dropHead x with lateWatch := none }) s) :=
            (hone (· = _)).2 (by simp only [hact, hpg, hg, if_true])
          rw [modCtx_eq _ hr] at h1
          refine hquiet (hnw (.inr (.inr hact))) _ h1 ?_ (CuesPassed.quiet _ (.inl (by simp [hact])))
          rw [setRow_get, hcp, dropHead_eq hw]; rfl
        | endShow => exact absurd hact ho.1

/-! ### The boundary of a row with items due -/

/-- An item taken leaves a RELEASING row RELEASING. -/
theorem advanceOne_releasing (hr : s.rows[p] = some r) (hg : isReleasing r = true) {s1 : State} {r1 : Row}
    (ho : (advanceOne p s).2 = s1) (h1 : s1.rows[p] = some r1) : isReleasing r1 = true := by
  have hmod0 : ∀ f, (modCtx p f s).rows[p] = some r1 → isReleasing r1 = true := by
    intro f h; rw [modCtx_get _ hr] at h; cases h; exact hg
  have hmod : ∀ f, modCtx p f s = s1 → isReleasing r1 = true := by
    intro f h; rw [← h] at h1; exact hmod0 f h1
  have hpe : ∀ f, pastEndFrame r f = false := by
    intro f; unfold pastEndFrame; unfold isReleasing at hg; cases hp : r.phase <;> simp_all
  have hpg : passesGates r = true := hg
  have h := ho
  unfold advanceOne at h
  simp only [hr, hpe, hpg, Bool.false_eq_true, if_false, if_true] at h
  have hend : ∀ c, (takeEnd p c r s).2 = s1 → isReleasing r1 = true := by
    intro c h
    obtain ⟨a, b, hp⟩ : ∃ a b, r.phase = .releasing a b := by
      unfold isReleasing at hg; cases hp : r.phase <;> simp_all
    unfold takeEnd at h
    rw [hp] at h
    simp only at h
    obtain ⟨q, hq, hqp⟩ : ∃ q, (withdrawRefill p s).rows[p] = some q ∧ isReleasing q = true := by
      have : (withdrawRefill p s).rows[p] = some { r with ctx := { r.ctx with refillAsked := false } } := by
        unfold withdrawRefill
        dsimp only
        split <;> exact modCtx_get _ hr
      exact ⟨_, this, hg⟩
    rw [← h, modCtx_get _ hq] at h1; cases h1; exact hqp
  cases hi : nextItem (zonesOf s) r.ctx with
  | none => rw [hi] at h; exact hmod _ h
  | some it =>
    rw [hi] at h
    simp only at h
    by_cases hlt : windowReach r (advanceTarget r (frameNow s)) < it.frame
    · rw [if_pos hlt] at h; exact hmod _ h
    rw [if_neg hlt] at h
    cases it with
    | sweep c i e => exact hmod _ h
    | cue c =>
      simp only at h
      cases hact : c.action <;> simp only [hact] at h
      case mark =>
        obtain ⟨a, b, hp⟩ : ∃ a b, r.phase = .releasing a b := by
          unfold isReleasing at hg; cases hp : r.phase <;> simp_all
        unfold takeMark at h
        rw [hp] at h
        exact hmod _ h
      case endShow =>
        split at h
        · exact hmod _ h
        · exact hend _ h
      case sweepUp =>
        split at h
        · rw [← h] at h1; exact hmod0 _ h1
        · exact hmod _ h
      case sweepDown =>
        split at h
        · rw [← h] at h1; exact hmod0 _ h1
        · exact hmod _ h
      all_goals exact hmod _ h

theorem advanceLoop_releasing (m : Nat) (r : Row) (s : State) (hr : s.rows[p] = some r) (hg : isReleasing r = true) {h : Halt} {t : State}
    {r1 : Row} (ht : advanceLoop p m s = (h, t)) (hr1 : t.rows[p] = some r1) : isReleasing r1 = true := by
  induction m generalizing r s with
  | zero => unfold advanceLoop at ht; cases ht; rw [hr] at hr1; cases hr1; exact hg
  | succ m ih =>
    unfold advanceLoop at ht
    cases ho : advanceOne p s with
    | mk a s1 =>
      have h1 := fun q => advanceOne_releasing (r1 := q) hr hg (congrArg Prod.snd ho)
      rw [ho] at ht
      cases a <;> simp only at ht
      case starved => cases ht; exact h1 _ hr1
      case done => cases ht; exact h1 _ hr1
      cases hs : s1.rows[p] with
      | none =>
        have hno : ∀ m, advanceLoop p m s1 = (.done, s1) := by
          intro m
          cases m with
          | zero => rfl
          | succ m => unfold advanceLoop advanceOne; rw [hs]
        rw [hno] at ht; cases ht; rw [hs] at hr1; cases hr1
      | some q => exact ih q s1 hs (h1 q hs) ht

/-- The cues taken stand at the head of the window, and are open. -/
theorem dueCues_window (y : Int) (r : Row) :
    r.ctx.window = dueCues y r ++ r.ctx.window.drop (dueCues y r).length ∧
      ∀ c ∈ dueCues y r, (c.time : Int) ≤ y ∧ c.action ≠ .endShow ∧ (isReleasing r = true ∨ c.action ≠ .gate) := by
  constructor
  · have : dueCues y r <+: r.ctx.window := (List.takeWhile_prefix _).trans (List.takeWhile_prefix _)
    conv_lhs => rw [← List.prefix_iff_eq_append.1 this]
  · intro c hc
    have h1 := List.mem_takeWhile_imp hc
    have h2 := List.mem_takeWhile_imp ((List.takeWhile_prefix _).subset hc)
    simpa [and_assoc] using And.intro h1 h2

/-- The flush of an emptied window is judged alike by the row before the items due and the row after them (R88, R89). -/
theorem noteEmptied_due {r' : Row} {v : State} (hd : DueTaken zmap y r r') (hw : r'.ctx.window ≠ [])
    (hg : isReleasing r = true → ∀ q, v.rows[p] = some q → isReleasing q = true) : noteEmptied p r v = noteEmptied p r' v := by
  obtain ⟨zs, sw, -, -, rfl⟩ := hd
  obtain ⟨h1, h2⟩ := dueCues_window y r
  have hkeep : ∀ (cs : List Cue) (q : Row), (cs.foldl cuePassed q).anchor = q.anchor ∧
      (cs.foldl cuePassed q).ctx.lastAnswer = q.ctx.lastAnswer := by
    intro cs
    induction cs with
    | nil => exact fun q => ⟨rfl, rfl⟩
    | cons c cs ih =>
      intro q
      obtain ⟨-, -, k3, -, -, -, -, -, -, -, -, k12⟩ := cuePassed_keeps q c
      rw [List.foldl_cons, (ih _).1, (ih _).2, k3, k12]
      exact ⟨rfl, rfl⟩
  obtain ⟨ha, hl⟩ := hkeep (dueCues y r) r
  generalize hwd : r.ctx.window.drop (dueCues y r).length = w at *
  have hw' : w ≠ [] := hw
  obtain ⟨d, ds, rfl⟩ := List.exists_cons_of_ne_nil hw'
  have hpc : passCues r.ctx.window = dueCues y r ++ passCues (d :: ds) := by
    conv_lhs => rw [h1]
    exact passCues_append _ d ds fun c hc => (h2 c hc).2.1
  have hne : passCues (d :: ds) ≠ [] := by unfold passCues; split <;> simp
  have hopen : openEnd (passCues r.ctx.window) = openEnd (passCues (d :: ds)) := by
    unfold openEnd; rw [hpc, List.getLast?_append_of_ne_nil _ hne]
  unfold noteEmptied
  cases hv : v.rows[p] with
  | none => rfl
  | some q =>
    show (match some q, openEnd (passCues r.ctx.window) with | some a, some b => _ | _, _ => _) =
      (match some q, openEnd (passCues (d :: ds)) with | some a, some b => _ | _, _ => _)
    rw [hopen]
    cases ho : openEnd (passCues (d :: ds)) with
    | none => rfl
    | some e =>
      have hgate : gateAtEnd r q e = (!passesGates q && (passCues (d :: ds)).any (fun c => c.action == .gate && c.time == e)) := by
        unfold gateAtEnd
        rw [hpc, List.any_append]
        cases hr : isReleasing r with
        | true =>
          have : passesGates q = true := hg hr q hv
          simp [this]
        | false =>
          have : (dueCues y r).any (fun c => c.action == .gate && c.time == e) = false := by
            rw [List.any_eq_false]
            intro c hc hcg
            have := (h2 c hc).2.2
            simp_all
          rw [this, Bool.false_or]
      dsimp only
      rw [hgate]
      unfold risesTo answeredBeyond gateAtEnd
      simp only [ha, hl, if_neg hw']

/-- The advance of a boundary with items due: the row goes on as one that stands after them, but for the flush of an emptied window. -/
theorem advanceAtBoundary_items_due (hr : s.rows[p] = some r) (hz : zonesOf s = zmap) (hd : DueAt zmap k y (frameNow s) r) :
    ∃ r' u, u.rows[p] = some r' ∧ DueTaken zmap y r r' ∧ CuesPassed p r (dueCues y r) s u ∧
      advanceAtBoundary p s = askFlushIf (r'.ctx.window.isEmpty &&
        match r.ctx.window.getLast? with | some c => emptiedAsks c r == 1 | none => false) (advanceAtBoundary p u) := by
  obtain ⟨m, u, r', u1, u2, u3, u4, u5⟩ := advanceLoop_items_due _ r s (Nat.lt_succ_self _) hr hz hd
  refine ⟨r', u, u1, u4, u5, ?_⟩
  have hst : u.start = s.start := u5.same .start (by decide)
  have htm : u.time = s.time := u5.same .time (by decide)
  have hzu : zonesOf u = zmap := by rw [← hz]; unfold zonesOf; rw [hst]
  have hnu : frameNow u = frameNow s := by unfold frameNow towerUs; rw [htm]
  have hphase : r'.phase = r.phase ∧ r'.suspended = r.suspended ∧ r'.anchor = r.anchor ∧ r'.endFrame = r.endFrame := by
    obtain ⟨zs, sw, -, -, rfl⟩ := u4
    have : ∀ (cs : List Cue) (q : Row), (cs.foldl cuePassed q).phase = q.phase ∧ (cs.foldl cuePassed q).suspended = q.suspended ∧
        (cs.foldl cuePassed q).anchor = q.anchor ∧ (cs.foldl cuePassed q).endFrame = q.endFrame := by
      intro cs
      induction cs with
      | nil => exact fun q => ⟨rfl, rfl, rfl, rfl⟩
      | cons c cs ih =>
        intro q
        obtain ⟨k1, k2, k3, k4, -⟩ := cuePassed_keeps q c
        rw [List.foldl_cons, (ih _).1, (ih _).2.1, (ih _).2.2.1, (ih _).2.2.2, k1, k2, k3, k4]
        exact ⟨rfl, rfl, rfl, rfl⟩
    exact this _ r
  obtain ⟨p1, p2, p3, p4⟩ := hphase
  have htgt : advanceTarget r' (frameNow u) = k := by
    rw [← hd.target, hnu]; unfold advanceTarget; simp only [p1, p2, p3, p4]
  have hadv : advancing r' := by unfold advancing; rw [p1]; exact hd.adv
  -- the advance goes on from the row that stands after the items
  have hsteps : ∀ q, u.rows[p] = some q → advancing q ∧ stepsIn (zonesOf u) q < itemFuel zmap r.ctx - m ∧
      ∀ j, itemsIn zmap q.ctx + 2 ≤ j → stepsIn (zonesOf u) q < j := by
    intro q hq
    rw [u1] at hq; cases hq
    rw [hzu]
    have h1 : itemFuel zmap r.ctx = itemsIn zmap r.ctx + 4 := rfl
    have h2 : stepsIn zmap r' ≤ itemsIn zmap r'.ctx + 1 := by unfold stepsIn; split <;> omega
    exact ⟨hadv, by omega, fun j hj => by omega⟩
  have hall : ∀ j, itemsIn zmap r'.ctx + 2 ≤ j → advanceAll p s = advanceLoop p j u := by
    intro j hj
    unfold advanceAll
    simp only [hr, hz]
    have h1 : itemFuel zmap r.ctx = itemsIn zmap r.ctx + 4 := rfl
    rw [show itemFuel zmap r.ctx = m + (itemFuel zmap r.ctx - m) by omega, u3]
    exact advanceLoop_fuel _ _ u (fun q hq => ⟨(hsteps q hq).1, (hsteps q hq).2.1, by
      rw [u1] at hq; cases hq; exact (hsteps _ u1).2.2 j hj⟩) (by omega) (by omega)
  have hlhs : advanceAtBoundary p s = noteStarved p (advanceAll p s).1 (noteEmptied p r (advanceAll p s).2) := by
    unfold advanceAtBoundary
    simp only [hr]
    have := hd.target
    have := hd.behind
    rw [if_neg (by omega)]
  by_cases hw : r'.ctx.window = []
  · -- the window is emptied at the target
    obtain ⟨zs, sw, -, hsw, hr'⟩ := u4
    obtain ⟨w1, w2⟩ := dueCues_window y r
    have hnil : r.ctx.window.drop (dueCues y r).length = [] := by rw [hr'] at hw; exact hw
    rw [hnil, List.append_nil] at w1
    obtain ⟨c, hc⟩ : ∃ c, r.ctx.window.getLast? = some c := by
      cases h : r.ctx.window.getLast? with
      | none => exact absurd (List.getLast?_eq_none_iff.1 h) hd.window
      | some c => exact ⟨c, rfl⟩
    have hcm := List.mem_of_getLast? hc
    rw [w1] at hcm
    have hcd := w2 c hcm
    have hkc : (c.time : Int) = k ∧ y = k := by
      have := hd.reached
      rcases hd.told with ⟨d, hdm, hde⟩ | ⟨d, hdl, hdt⟩
      · rw [w1] at hdm; exact absurd hde (w2 d hdm).2.1
      · rw [hc] at hdl; cases hdl; omega
    have hpos : r'.ctx.position = k := by rw [hr']; simp only [hnil, if_true]; exact hkc.2
    have hsb : sweepsBeyond zmap r'.ctx.sweeps k := by
      rw [hr', ← hkc.2]
      intro w hwm j hj
      exact ((hsw.2.2 w.cue j).1 ⟨w, hwm, rfl, hj⟩).1
    have hone := advanceOne_done p u r' k u1 (by rw [hzu]; exact hsb) (.inr ⟨hw, by rw [hpos]⟩) (by rw [htgt])
    have hstay : modCtx p (moveTo (advanceTarget r' (frameNow u))) u = u := by
      rw [modCtx_eq _ u1, htgt]
      have : ({ r' with ctx := moveTo k r'.ctx } : Row) = r' := by
        unfold moveTo; rw [← hpos, max_self]
      rw [this, setRow_self u1]
    rw [hstay] at hone
    have hloop : advanceAll p s = (.done, u) := by
      rw [hall (itemsIn zmap r'.ctx + 2) (le_refl _)]
      unfold advanceLoop
      rw [hone]
    have hrhs : advanceAtBoundary p u = noteStarved p .done u := by
      unfold advanceAtBoundary
      simp only [u1, htgt, hpos, le_refl, if_true]
    rw [hlhs, hloop, hrhs, hw, hc]
    have hopen : openEnd (passCues r.ctx.window) = some c.time := by
      rw [passCues_open _ fun d hdm => by rw [w1] at hdm; exact (w2 d hdm).2.1]
      unfold openEnd; rw [hc]; simp [hcd.2.1]
    have hgate : gateAtEnd r r' c.time = false := by
      unfold gateAtEnd
      cases hg : isReleasing r with
      | true =>
        have : passesGates r' = true := by unfold passesGates; rw [p1]; exact hg
        simp [this]
      | false =>
        have : (passCues r.ctx.window).any (fun d => d.action == .gate && d.time == c.time) = false := by
          rw [passCues_open _ fun d hdm => by rw [w1] at hdm; exact (w2 d hdm).2.1, List.any_eq_false]
          intro d hdm hdg
          rw [w1] at hdm
          have := (w2 d hdm).2.2
          simp_all
        simp [this]
    have hnote : noteEmptied p r u = askFlushIf (emptiedAsks c r == 1) u := by
      unfold noteEmptied
      simp only [u1, hopen, hw, List.isEmpty_nil, p3, beq_self_eq_true, hgate, Bool.not_false, Bool.and_true, Bool.true_and]
      congr 1
      unfold risesTo answeredBeyond emptiedAsks
      cases r.ctx.lastAnswer with
      | none => simp
      | some a =>
        simp only
        by_cases h1 : r.ctx.position < c.time <;> by_cases h2 : r.anchor + c.time ≤ a.frame
        · have : (c.time : Int) - 1 < (a.frame : Int) - r.anchor := by omega
          simp [h1, h2, this]
        · have : ¬ (c.time : Int) - 1 < (a.frame : Int) - r.anchor := by omega
          simp [h2, this]
        · simp [h1]
        · simp [h1]
    show noteStarved p .done (noteEmptied p r u) = _
    rw [hnote]
    simp only [List.isEmpty_nil, Bool.true_and]
    cases emptiedAsks c r == 1
    · rfl
    · show noteStarved p .done (askFlush u) = askFlush (noteStarved p .done u)
      rw [noteStarved_done (show (askFlush u).rows[p] = some r' from u1), noteStarved_done u1]
      rfl
  · have hpos : r'.ctx.position = r.ctx.position := by
      obtain ⟨zs, sw, -, -, rfl⟩ := u4
      exact if_neg hw
    have hrhs : advanceAtBoundary p u = noteStarved p (advanceAll p u).1 (noteEmptied p r' (advanceAll p u).2) := by
      unfold advanceAtBoundary
      simp only [u1]
      have := hd.behind
      rw [if_neg (by rw [htgt, hpos]; omega)]
    have heq : advanceAll p u = advanceAll p s := by
      rw [hall (itemFuel zmap r'.ctx) (by unfold itemFuel itemsIn; omega)]
      unfold advanceAll
      simp only [u1, hzu]
    have hemp : r'.ctx.window.isEmpty = false := by cases h : r'.ctx.window <;> simp_all
    rw [hlhs, hrhs, heq, hemp, Bool.false_and]
    show _ = noteStarved p _ _
    rw [noteEmptied_due u4 hw]
    intro hg q hq
    have hall2 := hall (itemFuel zmap r'.ctx) (by unfold itemFuel itemsIn; omega)
    have hg' : isReleasing r' = true := by unfold isReleasing; rw [p1]; exact hg
    exact advanceLoop_releasing (h := (advanceAll p s).1) (t := (advanceAll p s).2) _ r' u u1 hg' hall2.symm hq

/-- Becoming RUNNING makes no difference to the cues passed (R77). -/
theorem cuePassed_begun (hp : r.phase = .armed) (c : Cue) : cuePassed { r with phase := .running } c = { cuePassed r c with phase := .running } := by
  unfold cuePassed
  rw [hp]
  cases c.action <;> simp only
  · split
    · rfl
    · unfold markFiled; dsimp only; split <;> rfl

theorem foldl_cuePassed_begun (cs : List Cue) (r : Row) (hp : r.phase = .armed) :
    cs.foldl cuePassed { r with phase := .running } = { cs.foldl cuePassed r with phase := .running } := by
  induction cs generalizing r with
  | nil => rfl
  | cons c cs ih =>
    rw [List.foldl_cons, List.foldl_cons, cuePassed_begun hp, ih _ (by rw [(cuePassed_keeps r c).1, hp])]

theorem foldl_cuePassed_phase (cs : List Cue) (r : Row) :
    (cs.foldl cuePassed r).phase = r.phase ∧ (cs.foldl cuePassed r).showNo = r.showNo ∧ (cs.foldl cuePassed r).suspended = r.suspended ∧
      (cs.foldl cuePassed r).anchor = r.anchor ∧ (cs.foldl cuePassed r).endFrame = r.endFrame ∧
      (cs.foldl cuePassed r).ctx.catchUp = r.ctx.catchUp := by
  induction cs generalizing r with
  | nil => exact ⟨rfl, rfl, rfl, rfl, rfl, rfl⟩
  | cons c cs ih =>
    obtain ⟨k1, k2, k3, k4, k5, -, k7, -⟩ := cuePassed_keeps r c
    obtain ⟨i1, i2, i3, i4, i5, i6⟩ := ih (cuePassed r c)
    rw [List.foldl_cons]
    exact ⟨i1.trans k1, i2.trans k5, i3.trans k2, i4.trans k3, i5.trans k4, i6.trans k7⟩

/-- A row's phase but for RELEASING makes no difference to the effects of the cues passed. -/
theorem CuesPassed.begun {cs : List Cue} {u : State} (h : CuesPassed p (begunRow r) cs s u) : CuesPassed p r cs s u := by
  by_cases hp : r.phase = .armed
  · have hb : begunRow r = { r with phase := .running } := if_pos hp
    rw [hb] at h
    have hrel : isReleasing { r with phase := .running } = isReleasing r := by unfold isReleasing; rw [hp]
    have hem : emitsMarks { r with phase := .running } = emitsMarks r := by unfold emitsMarks; rw [hrel]
    have htal : ∀ (counts : Row → Cue → Bool), (∀ q c, counts { q with phase := .running } c = counts q c) → ∀ (cs : List Cue) (q : Row),
        q.phase = .armed → tallied counts { q with phase := .running } cs = tallied counts q cs := by
      intro counts hc cs
      induction cs with
      | nil => intros; rfl
      | cons c cs ih =>
        intro q hq
        unfold tallied
        rw [hc, cuePassed_begun hq, ih _ (by rw [(cuePassed_keeps q c).1, hq])]
    refine ⟨h.same, h.others, ?_, h.overflow, h.starved, ?_, ?_, ?_⟩
    · have := h.line; rw [hem] at this; exact this
    · have := h.unsent; rw [hrel] at this; exact this
    · have := h.dropped; rw [hem, htal _ (fun _ _ => rfl) cs r hp] at this; exact this
    · have := h.late; rw [hem, htal _ (fun _ _ => rfl) cs r hp] at this; exact this
  · have : begunRow r = r := if_neg hp
    rwa [this] at h

/-- Several items due at the boundary of frame `n` (R75, R76): the player's work is that of the row that stands after them, and the flush of
an emptied window. -/
theorem playerBoundary_items_due (hr : s.rows[p] = some r) (hn : frameNow s = n) (ha : advancesAt (headerOr s r.showNo).release n r)
    (hk : r.ctx.position < (n : Int) - r.anchor) (hd : ItemsDue (zonesOf s) ((n : Int) - r.anchor) y r) :
    ∃ r' u, DueTaken (zonesOf s) y r r' ∧ CuesPassed p r (dueCues y r) s u ∧ u.rows[p] = some r' ∧
      playerBoundary n p s = askFlushIf (r'.ctx.window.isEmpty &&
        match r.ctx.window.getLast? with | some c => emptiedAsks c r == 1 | none => false) (playerBoundary n p u) := by
  obtain ⟨b1, b2, b3⟩ := playerBoundary_advances hr hn ha
  obtain ⟨f1, f2, f3, f4, f5, f6, f7, f8⟩ := begunRow_fields r
  have hrel : isReleasing (begunRow r) = isReleasing r := by
    by_cases hp : r.phase = .armed
    · rw [show begunRow r = { r with phase := .running } from if_pos hp]; unfold isReleasing; rw [hp]
    · rw [show begunRow r = r from if_neg hp]
  have hdue : dueCues y (begunRow r) = dueCues y r := by unfold dueCues; rw [hrel, f1]
  have hg := setRow_get p (some (begunRow r)) s
  have hda : DueAt (zonesOf s) ((n : Int) - r.anchor) y (frameNow (setRow p (some (begunRow r)) s)) (begunRow r) := by
    have ho := hd.order
    rw [← f1, ← hrel] at ho
    refine ⟨⟨ho.sweeps, ho.stored, ho.timed, ?_, ho.room⟩, ?_, by rw [frameNow_setRow, hn, b2], fun f hf => begunRow_not_past b3 hf, ?_,
      hd.reached, by rw [f1]; exact hk, by rw [f1]; exact hd.window, by rw [f1]; exact hd.told⟩
    · rw [hrel, f1]; exact hd.stop
    · unfold advancesAt at ha
      unfold advancing begunRow
      cases hp : r.phase <;> simp_all
    · intro hp hs
      rw [f3] at hs
      rw [f1]
      unfold advancesAt at ha
      unfold begunRow at hp
      cases hp' : r.phase <;> simp_all
  obtain ⟨r0, u0, u1, u2, u3, u4⟩ := advanceAtBoundary_items_due hg rfl hda
  rw [hdue] at u3
  have u5 : CuesPassed p r (dueCues y r) s u0 := u3.begun.after_row
  rw [b1, u4]
  -- the row that stands after the items, in the phase it came with
  have hrow : DueTaken (zonesOf s) y r { r0 with phase := r.phase } ∧ begunRow { r0 with phase := r.phase } = r0 := by
    obtain ⟨zs, sw, d1, d2, d3⟩ := u2
    rw [hrel, f1] at d1
    rw [hdue, f1] at d2 d3
    by_cases hp : r.phase = .armed
    · have hb : begunRow r = { r with phase := .running } := if_pos hp
      rw [hb, foldl_cuePassed_begun _ _ hp] at d3
      have hph := (foldl_cuePassed_phase (dueCues y r) r).1
      refine ⟨⟨zs, sw, d1, d2, ?_⟩, ?_⟩
      · rw [d3]; simp only [← hph]
      · rw [d3]; simp [begunRow, hp]
    · have hb : begunRow r = r := if_neg hp
      rw [hb] at d3
      have hph := (foldl_cuePassed_phase (dueCues y r) r).1
      have hr0 : ({ r0 with phase := r.phase } : Row) = r0 := by rw [d3]; simp only [← hph]
      rw [hr0]
      refine ⟨⟨zs, sw, d1, d2, d3⟩, ?_⟩
      have : r0.phase = r.phase := by rw [d3]; exact hph
      exact if_neg (by rw [this]; exact hp)
  refine ⟨{ r0 with phase := r.phase }, setRow p (some { r0 with phase := r.phase }) u0, hrow.1, ?_, setRow_get _ _ _, ?_⟩
  · have h0 := CuesPassed.row (p := p) (r := r) (s := u0) (some { r0 with phase := r.phase })
    refine ⟨u5.same.trans h0.same, fun i hi => (h0.others i hi).trans (u5.others i hi), u5.line, u5.overflow, u5.starved, u5.unsent,
      u5.dropped, u5.late⟩
  · have hst : u0.start = s.start := u5.same .start (by decide)
    have htm : u0.time = s.time := u5.same .time (by decide)
    have hlib : u0.lib = s.lib := u5.same .lib (by decide)
    have hh : ∀ q, headerOr (setRow p (some { r0 with phase := r.phase }) u0) q = headerOr s q := by
      intro q
      rw [headerOr_setRow]
      unfold headerOr headerOf slotOf
      rw [hlib]
    obtain ⟨zs, sw, -, -, d3⟩ := hrow.1
    obtain ⟨-, e2, e3, e4, e5, e6⟩ := foldl_cuePassed_phase (dueCues y r) r
    have hs2 : r0.showNo = r.showNo := by have := congrArg Row.showNo d3; exact this.trans e2
    have hs3 : r0.suspended = r.suspended := by have := congrArg Row.suspended d3; exact this.trans e3
    have hs4 : r0.anchor = r.anchor := by have := congrArg Row.anchor d3; exact this.trans e4
    have hs5 : r0.endFrame = r.endFrame := by have := congrArg Row.endFrame d3; exact this.trans e5
    have hs6 : r0.ctx.catchUp = r.ctx.catchUp := by have := congrArg (fun q : Row => q.ctx.catchUp) d3; exact this.trans e6
    have ha' : advancesAt (headerOr (setRow p (some { r0 with phase := r.phase }) u0) { r0 with phase := r.phase }.showNo).release n
        { r0 with phase := r.phase } := by
      rw [hh]
      unfold advancesAt at ha ⊢
      simp only [hs2, hs3, hs4, hs5, hs6]
      exact ha
    have hnu : frameNow (setRow p (some { r0 with phase := r.phase }) u0) = n := by
      rw [frameNow_setRow, ← hn]; unfold frameNow towerUs; rw [htm]
    have := (playerBoundary_advances (setRow_get p (some { r0 with phase := r.phase }) u0) hnu ha').1
    rw [this, setRow_setRow, hrow.2, setRow_self u1, f1]
    congr 2
    unfold emptiedAsks
    rw [f1, f2]

end

end Sys2Proof.Machine
end

