-- ==== Sys2Proof/Laws/Memory.lean ====
section
/-!
SUPPORT. Show memory: what a read gives after each write (R114, R121), and that every operation on it keeps its canonical form.
-/

namespace Sys2Proof.Machine

/-! ### Ascending lists -/

theorem mem_insertNat (n m : Nat) (l : List Nat) : m ∈ insertNat n l ↔ m = n ∨ m ∈ l := by
  induction l with
  | nil => simp [insertNat]
  | cons a l ih =>
    simp only [insertNat]
    split
    · simp only [List.mem_cons, ih]; tauto
    · split <;> simp_all

/-- A number joins an ascending list and leaves it ascending. -/
theorem insertNat_ascending (n : Nat) (l : List Nat) (h : l.Pairwise (· < ·)) : (insertNat n l).Pairwise (· < ·) := by
  induction l with
  | nil => simp [insertNat]
  | cons a l ih =>
    rw [List.pairwise_cons] at h
    simp only [insertNat]
    split
    · rename_i ha
      refine List.pairwise_cons.2 ⟨fun b hb => ?_, ih h.2⟩
      rcases (mem_insertNat n b l).1 hb with rfl | hb
      · exact ha
      · exact h.1 b hb
    · split
      · exact List.pairwise_cons.2 h
      · rename_i h1 h2
        refine List.pairwise_cons.2 ⟨fun b hb => ?_, List.pairwise_cons.2 h⟩
        rcases List.mem_cons.1 hb with rfl | hb
        · omega
        · have := h.1 b hb; omega

theorem mem_insertBlock (k m : Nat) (b : Block) (l : List (Nat × Block)) :
    m ∈ (insertBlock k b l).map (·.1) ↔ m = k ∨ m ∈ l.map (·.1) := by
  induction l with
  | nil => simp [insertBlock]
  | cons e l ih =>
    simp only [insertBlock]
    split
    · simp only [List.map_cons, List.mem_cons, ih]; tauto
    · split <;> simp_all

/-- A written block takes its place among ascending positions. -/
theorem insertBlock_ascending (k : Nat) (b : Block) (l : List (Nat × Block)) (h : (l.map (·.1)).Pairwise (· < ·)) :
    ((insertBlock k b l).map (·.1)).Pairwise (· < ·) := by
  induction l with
  | nil => simp [insertBlock]
  | cons e l ih =>
    rw [List.map_cons, List.pairwise_cons] at h
    simp only [insertBlock]
    split
    · rename_i he
      rw [List.map_cons]
      refine List.pairwise_cons.2 ⟨fun m hm => ?_, ih h.2⟩
      rcases (mem_insertBlock k m b l).1 hm with rfl | hm
      · exact he
      · exact h.1 m hm
    · split
      · rename_i h1 h2
        rw [List.map_cons]
        exact List.pairwise_cons.2 ⟨fun m hm => h2 ▸ h.1 m hm, h.2⟩
      · rename_i h1 h2
        rw [List.map_cons, List.map_cons]
        refine List.pairwise_cons.2 ⟨fun m hm => ?_, List.pairwise_cons.2 h⟩
        rcases List.mem_cons.1 hm with rfl | hm
        · omega
        · have := h.1 m hm; omega

/-! ### A read after a write -/

theorem find_insertBlock (k m : Nat) (b : Block) (l : List (Nat × Block)) :
    (insertBlock k b l).find? (fun e => e.1 == m) = if m = k then some (k, b) else l.find? (fun e => e.1 == m) := by
  induction l with
  | nil =>
    by_cases hm : m = k
    · simp [insertBlock, hm]
    · have hkm : k ≠ m := fun x => hm x.symm
      simp [insertBlock, hm, hkm]
  | cons e l ih =>
    simp only [insertBlock]
    by_cases hm : m = k
    · subst hm
      simp only [if_true] at ih ⊢
      split
      · rename_i he
        rw [List.find?_cons_of_neg (by simpa using Nat.ne_of_lt he)]
        exact ih
      · split <;> simp
    · simp only [if_neg hm] at ih ⊢
      have hkm : k ≠ m := fun x => hm x.symm
      split
      · by_cases hem : e.1 = m
        · simp [hem]
        · rw [List.find?_cons_of_neg (by simpa using hem), List.find?_cons_of_neg (by simpa using hem), ih]
      · split
        · rename_i h2
          have hem : e.1 ≠ m := h2 ▸ hkm
          rw [List.find?_cons_of_neg (by simpa using hkm), List.find?_cons_of_neg (by simpa using hem)]
        · rw [List.find?_cons_of_neg (by simpa using hkm)]

/-- A block reads as it was written, and every other block as before (R114). -/
theorem readBlock_writeData (f : FlashSlot) (k m : Nat) (b : Block) :
    readBlock (f.writeData k b) m = if m = k then b else readBlock f m := by
  unfold readBlock FlashSlot.writeData
  rw [find_insertBlock k m b f.data]
  by_cases hm : m = k
  · rw [if_pos hm, if_pos hm]
  · rw [if_neg hm, if_neg hm]

@[simp] theorem readBlock_writeMark (f : FlashSlot) (k m : Nat) : readBlock (f.writeMark k) m = readBlock f m := rfl
@[simp] theorem readBlock_writeTag (f : FlashSlot) (n b m : Nat) : readBlock (f.writeTag n b) m = readBlock f m := rfl
@[simp] theorem readBlock_writeDead (f : FlashSlot) (m : Nat) : readBlock f.writeDead m = readBlock f m := rfl

/-! ### The canonical form is kept (R114) -/

theorem FlashSlot.wf_iff (f : FlashSlot) :
    f.wf = true ↔ f.marks.Pairwise (· < ·) ∧ (f.data.map (·.1)).Pairwise (· < ·) := by
  simp [FlashSlot.wf, ascending]

theorem wf_blank : FlashSlot.blank.wf = true := by decide

theorem wf_writeData (f : FlashSlot) (k : Nat) (b : Block) (h : f.wf = true) : (f.writeData k b).wf = true := by
  rw [FlashSlot.wf_iff] at *
  exact ⟨h.1, insertBlock_ascending k b f.data h.2⟩

theorem wf_writeMark (f : FlashSlot) (k : Nat) (h : f.wf = true) : (f.writeMark k).wf = true := by
  rw [FlashSlot.wf_iff] at *
  exact ⟨insertNat_ascending k f.marks h.1, h.2⟩

theorem wf_writeTag (f : FlashSlot) (n b : Nat) (h : f.wf = true) : (f.writeTag n b).wf = true := h

theorem wf_writeDead (f : FlashSlot) (h : f.wf = true) : f.writeDead.wf = true := h

theorem wf_eraseSector (f : FlashSlot) (k : Nat) (h : f.wf = true) : (f.eraseSector k).wf = true := by
  rw [FlashSlot.wf_iff] at *
  unfold FlashSlot.eraseSector
  split
  · exact ⟨List.Pairwise.nil, h.2⟩
  · exact ⟨h.1, h.2.sublist (List.filter_sublist.map _)⟩

theorem Memory.wf_iff (m : Vector FlashSlot 32) : Memory.wf m = true ↔ ∀ i : Fin 32, m[i].wf = true := by
  simp only [Memory.wf, List.all_eq_true, Vector.mem_toList_iff, Vector.mem_iff_getElem]
  exact ⟨fun h i => h _ ⟨i.val, i.isLt, rfl⟩, fun h x ⟨i, hi, e⟩ => e ▸ h ⟨i, hi⟩⟩

/-- A slot in its canonical form takes the place of one. -/
theorem Memory.wf_set (m : Vector FlashSlot 32) (i : Fin 32) (f : FlashSlot) (h : Memory.wf m = true) (hf : f.wf = true) :
    Memory.wf (m.set i f) = true := by
  rw [Memory.wf_iff] at *
  intro j
  have : (m.set i f)[j] = if i.val = j.val then f else m[j] := by
    simp [Vector.getElem_set]
  rw [this]
  split
  · exact hf
  · exact h j

/-- What a unit of port work leaves in flash is in its canonical form (R114). -/
theorem Memory.wf_written (u : PortUnit) (s : State) (h : Memory.wf s.flash = true) : Memory.wf (u.written s).flash = true := by
  have slot := (Memory.wf_iff s.flash).1 h
  cases u with
  | refill p live => exact h
  | checkRead i k => exact h
  | deadMark i => exact Memory.wf_set _ i _ h (wf_writeDead _ (slot i))
  | tagWrite i n b => exact Memory.wf_set _ i _ h (wf_writeTag _ n b (slot i))
  | blockWrite i b live => exact Memory.wf_set _ i _ h (wf_writeMark _ _ (wf_writeData _ _ _ (slot i)))
  | sectorErase i k live => exact Memory.wf_set _ i _ h (wf_eraseSector _ k (slot i))

/-- So is what a loss of power leaves of a block write that was cut between its data and its mark (R126). -/
theorem Memory.wf_torn (i : Fin 32) (k : Nat) (b : Block) (s : State) (h : Memory.wf s.flash = true) :
    Memory.wf (setFlash i (s.flash[i].writeData k b) s).flash = true :=
  Memory.wf_set _ i _ h (wf_writeData _ k b ((Memory.wf_iff s.flash).1 h i))

/-- Show memory is in its canonical form at reset. -/
theorem Memory.wf_reset : Memory.wf State.reset.flash = true := by decide

end Sys2Proof.Machine
end

