-- ==== Sys2Proof/Laws/Start.lean ====
section
/-!
SUPPORT. What a start makes of the station: the rebuild of the directory slot by slot (R126), and the blocks at their start values and
STARTING left (R177), in the words of Safety.
-/

namespace Sys2Proof.Machine

set_option Elab.async false

/-! ### The rebuild (R126) -/

/-- A directory entry is INVALID. -/
def isInvalid (d : SlotState) : Bool := match d with | .invalid _ _ _ _ => true | _ => false

theorem rebuilt_slot (f : FlashSlot) (held : List Nat) (h0 : 0 ∉ held) :
    SlotRebuilt f (fun n => n ∈ held) (rebuiltOf f held) (if isDuplicate f held then f.writeDead else f) := by
  unfold SlotRebuilt
  dsimp only
  constructor
  · intro h; simp [rebuiltOf, isDuplicate, h]
  · intro g hg
    refine ⟨fun hb => ?_, fun hb ht => ?_, fun hb ht => ?_⟩
    · constructor
      · unfold rebuiltOf; simp only [hg]
        rw [if_pos]
        rcases hb with h | h | h | h <;> simp [h]
      · rw [if_neg]
        unfold isDuplicate; simp only [hg]
        rcases hb with h | h | h | h
        · simp [h]
        · simp [h, h0]
        · simp; omega
        · simp; omega
    · simp only [not_or, not_lt, Bool.not_eq_true] at hb
      constructor
      · unfold rebuiltOf; simp only [hg]
        rw [if_pos]; simp [ht]
      · rw [if_pos]
        · unfold FlashSlot.writeDead; simp [hg]
        · unfold isDuplicate; simp [hg, hb.1, hb.2.2.1, hb.2.2.2, ht]
    · simp only [not_or, not_lt, Bool.not_eq_true] at hb
      have hd : isDuplicate f held = false := by unfold isDuplicate; simp [hg, ht]
      have hn : ¬ (g.dead || g.showNo == 0 || decide (g.blocks < 3) || decide (1024 < g.blocks) || held.contains g.showNo) = true := by
        simp [hb.1, hb.2.1, ht]; omega
      rw [hd]
      refine ⟨fun h => ?_, fun h hx => ?_, fun h hx => ?_⟩ <;> refine ⟨?_, rfl⟩ <;> unfold rebuiltOf <;> simp only [hg] <;> rw [if_neg hn]
      · rw [if_pos h]
      · rw [if_neg h, if_pos]; simpa using hx
      · rw [if_neg h, if_neg]; simpa using hx

/-- What the rebuild of one slot does, beside what it leaves as it was. -/
theorem rebuildSlot_eq (v : State) (p : Fin 32) :
    let d := rebuiltOf v.flash[p] (heldShows v.lib.dir)
    let u : State := { v with
      lib := { v.lib with dir := v.lib.dir.set p d }
      flash := v.flash.set p (if isDuplicate v.flash[p] (heldShows v.lib.dir) then v.flash[p].writeDead else v.flash[p]) }
    rebuildSlot v p = if isInvalid d then bump .showsInvalid u else u := by
  intro d u
  have hself : v.flash.set p v.flash[p] = v.flash := by ext i; simp
  have hu : (if isDuplicate v.flash[p] (heldShows v.lib.dir) then setFlash p v.flash[p].writeDead (setDir p d v) else setDir p d v) = u := by
    unfold setFlash setDir
    split
    · rename_i h; show _ = u; simp only [u, h, if_true]
    · rename_i h
      have h' : isDuplicate v.flash[p] (heldShows v.lib.dir) = false := by simpa using h
      simp only [u, h', Bool.false_eq_true, if_false, hself]
  unfold rebuildSlot
  dsimp only
  rw [hu]
  show (match d with | .invalid _ _ _ _ => bump .showsInvalid u | _ => u) = _
  cases d <;> rfl

theorem mem_heldShows (dir : Vector SlotState 32) (n : Nat) : n ∈ heldShows dir ↔ ∃ j : Fin 32, slotShow dir[j] = some n := by
  unfold heldShows
  simp only [List.mem_filterMap, Vector.mem_toList_iff, Vector.mem_iff_getElem]
  constructor
  · rintro ⟨d, ⟨i, hi, rfl⟩, h⟩; exact ⟨⟨i, hi⟩, h⟩
  · rintro ⟨j, h⟩; exact ⟨_, ⟨j, j.2, rfl⟩, h⟩

theorem rebuiltOf_show (f : FlashSlot) (held : List Nat) : slotShow (rebuiltOf f held) ≠ some 0 := by
  unfold rebuiltOf
  split
  · simp [slotShow]
  · rename_i g _
    split
    · simp [slotShow]
    · rename_i h
      have : g.showNo ≠ 0 := by intro h0; simp [h0] at h
      dsimp only
      repeat' split
      all_goals simpa [slotShow] using this

/-- What the rebuild of the slots `pre`, the lowest first, makes of a directory that was empty (R126). -/
structure RebuiltTo (pre : List (Fin 32)) (v0 v : State) : Prop where
  only : OnlyChanges [.lib, .flash, .counters] v0 v
  lib : v.lib = { v0.lib with dir := v.lib.dir }
  zero : ∀ j : Fin 32, slotShow v.lib.dir[j] ≠ some 0
  later : ∀ i : Fin 32, i ∉ pre → v.lib.dir[i] = .empty ∧ v.flash[i] = v0.flash[i]
  done : ∀ i : Fin 32, i ∈ pre →
    SlotRebuilt v0.flash[i] (fun n => ∃ j : Fin 32, j < i ∧ slotShow v.lib.dir[j] = some n) v.lib.dir[i] v.flash[i]
  counts : ∀ c, c ≠ .showsInvalid → count v c = count v0 c
  torn : (count v .showsInvalid).toNat = (count v0 .showsInvalid).toNat + (pre.filter (fun i => isInvalid v.lib.dir[i])).length

theorem RebuiltTo.step {pre : List (Fin 32)} {p : Fin 32} {v0 v : State} (h : RebuiltTo pre v0 v) (hp : p ∉ pre)
    (hlt : ∀ i, i ∈ pre ↔ i < p) (h0 : (count v0 .showsInvalid).toNat = 0) (hlen : pre.length ≤ 32) :
    RebuiltTo (pre ++ [p]) v0 (rebuildSlot v p) := by
  have he := rebuildSlot_eq v p
  dsimp only at he
  have hheld : ∀ n, n ∈ heldShows v.lib.dir ↔ ∃ j : Fin 32, j < p ∧ slotShow v.lib.dir[j] = some n := by
    intro n
    rw [mem_heldShows]
    constructor
    · rintro ⟨j, hj⟩
      refine ⟨j, ?_, hj⟩
      by_contra hn
      have := (h.later j (fun hm => hn ((hlt j).1 hm))).1
      rw [this] at hj; cases hj
    · rintro ⟨j, -, hj⟩; exact ⟨j, hj⟩
  have hdir : (rebuildSlot v p).lib = { v.lib with dir := v.lib.dir.set p (rebuiltOf v.flash[p] (heldShows v.lib.dir)) } := by
    rw [he]; split <;> rfl
  have hfl : (rebuildSlot v p).flash = v.flash.set p
      (if isDuplicate v.flash[p] (heldShows v.lib.dir) then v.flash[p].writeDead else v.flash[p]) := by rw [he]; split <;> rfl
  have hd : ∀ i : Fin 32, (rebuildSlot v p).lib.dir[i] = if i = p then rebuiltOf v.flash[p] (heldShows v.lib.dir) else v.lib.dir[i] := by
    intro i; rw [hdir]; simp only [Fin.getElem_fin, Vector.getElem_set]
    by_cases hi : i = p
    · simp [hi]
    · rw [if_neg (fun e : (p : Nat) = i => hi (Fin.ext e.symm)), if_neg hi]
  have hf : ∀ i : Fin 32, (rebuildSlot v p).flash[i] = if i = p then
      (if isDuplicate v.flash[p] (heldShows v.lib.dir) then v.flash[p].writeDead else v.flash[p]) else v.flash[i] := by
    intro i; rw [hfl]; simp only [Fin.getElem_fin, Vector.getElem_set]
    by_cases hi : i = p
    · simp [hi]
    · rw [if_neg (fun e : (p : Nat) = i => hi (Fin.ext e.symm)), if_neg hi]
  have hsame : ∀ i j : Fin 32, i ≤ p → j < i → (rebuildSlot v p).lib.dir[j] = v.lib.dir[j] := by
    intro i j hi hj; rw [hd, if_neg (by omega)]
  refine ⟨?_, ?_, ?_, ?_, ?_, ?_, ?_⟩
  · intro q hq
    have := h.only q hq
    rw [he]
    cases q <;> first | (simp at hq; done) | (split <;> simpa [Part.same] using this)
  · rw [hdir]; rw [h.lib]
  · intro j; rw [hd]; split
    · exact rebuiltOf_show _ _
    · exact h.zero j
  · intro i hi
    have hi' : i ∉ pre ∧ i ≠ p := by simpa using hi
    rw [hd, hf, if_neg hi'.2, if_neg hi'.2]; exact h.later i hi'.1
  · intro i hi
    rcases List.mem_append.1 hi with hi | hi
    · have hlt' := (hlt i).1 hi
      have := h.done i hi
      rw [hd i, hf i, if_neg (by omega), if_neg (by omega)]
      have hcongr : (fun n => ∃ j : Fin 32, j < i ∧ slotShow (rebuildSlot v p).lib.dir[j] = some n) =
          (fun n => ∃ j : Fin 32, j < i ∧ slotShow v.lib.dir[j] = some n) := by
        funext n; apply propext
        exact exists_congr fun j => and_congr_right fun hj => by rw [hsame i j (by omega) hj]
      rw [hcongr]; exact this
    · have hip : i = p := by simpa using hi
      subst hip
      rw [hd i, hf i, if_pos rfl, if_pos rfl, (h.later i hp).2]
      have hcongr : (fun n => ∃ j : Fin 32, j < i ∧ slotShow (rebuildSlot v i).lib.dir[j] = some n) =
          (fun n => n ∈ heldShows v.lib.dir) := by
        funext n; apply propext
        rw [hheld n]
        exact exists_congr fun j => and_congr_right fun hj => by rw [hsame i j (by omega) hj]
      rw [hcongr]
      exact rebuilt_slot _ _ (fun hm => by obtain ⟨j, -, hj⟩ := (hheld 0).1 hm; exact h.zero j hj)
  · intro c hc
    rw [← h.counts c hc, he]
    split
    · unfold bump; rw [count_bumpBy, if_neg (Ne.symm hc)]; rfl
    · rfl
  · have hfilter : (pre.filter (fun i => isInvalid (rebuildSlot v p).lib.dir[i])) = pre.filter (fun i => isInvalid v.lib.dir[i]) :=
      List.filter_congr fun i hi => by rw [hd i, if_neg (by rintro rfl; exact hp hi)]
    rw [List.filter_append, List.length_append, hfilter]
    have hpp : (rebuildSlot v p).lib.dir[p] = rebuiltOf v.flash[p] (heldShows v.lib.dir) := by rw [hd p, if_pos rfl]
    have hle := List.length_filter_le (fun i => isInvalid v.lib.dir[i]) pre
    have ht := h.torn
    by_cases hin : isInvalid (rebuiltOf v.flash[p] (heldShows v.lib.dir)) = true
    · have : (count (rebuildSlot v p) .showsInvalid).toNat = (count v .showsInvalid).toNat + 1 := by
        rw [he, if_pos hin]; unfold bump; rw [count_bumpBy, if_pos rfl]
        show (BitVec.ofNat 16 (min 65535 ((count v .showsInvalid).toNat + 1))).toNat = _
        rw [BitVec.toNat_ofNat]; omega
      rw [this]
      simp only [List.filter_cons, List.filter_nil, hpp, hin, if_true, List.length_singleton]; omega
    · have : (count (rebuildSlot v p) .showsInvalid).toNat = (count v .showsInvalid).toNat := by
        rw [he, if_neg hin]; rfl
      rw [this]
      simp only [List.filter_cons, List.filter_nil, hpp, Bool.not_eq_true] at hin ⊢
      simp only [hin, Bool.false_eq_true, if_false, List.length_nil]; omega

theorem rebuilt_all (ps pre : List (Fin 32)) {v0 v : State} (h : RebuiltTo pre v0 v) (hall : pre ++ ps = List.finRange 32)
    (h0 : (count v0 .showsInvalid).toNat = 0) : RebuiltTo (List.finRange 32) v0 (ps.foldl rebuildSlot v) := by
  induction ps generalizing pre v with
  | nil => rw [List.append_nil] at hall; rw [← hall]; exact h
  | cons p ps ih =>
    have hsort : (pre ++ p :: ps).Pairwise (· < ·) := by rw [hall]; exact List.pairwise_lt_finRange 32
    rw [List.pairwise_append] at hsort
    obtain ⟨-, h2, h3⟩ := hsort
    have hlt : ∀ i, i ∈ pre ↔ i < p := by
      intro i
      constructor
      · intro hi; exact h3 i hi p (by simp)
      · intro hi
        have : i ∈ pre ++ p :: ps := by rw [hall]; exact List.mem_finRange i
        rcases List.mem_append.1 this with h' | h'
        · exact h'
        · rcases List.mem_cons.1 h' with rfl | h'
          · exact absurd hi (lt_irrefl _)
          · exact absurd (List.rel_of_pairwise_cons h2 h') (by omega)
    refine ih (pre ++ [p]) (h.step (fun hm => absurd ((hlt p).1 hm) (lt_irrefl _)) hlt h0 ?_) (by simpa using hall)
    have := congrArg List.length hall
    simp at this; omega

/-! ### STARTING left (R177) -/

theorem checking_iff (s : State) : checking s = true ↔ checksLeft s := by
  unfold checking checkWork checksLeft
  rw [List.isSome_findSome?]
  simp only [List.any_eq_true, List.mem_finRange, true_and]
  exact exists_congr fun i => by
    cases hd : s.lib.dir[i] with
    | loading m n received check => cases check <;> simp
    | _ => simp

theorem readInputs_spec (s : State) :
    OnlyChanges [.inputs] s (readInputs s) ∧ ∀ i : Fin 8, (readInputs s).inputs[i] = s.inputs[i].read (senseOf s i) := by
  have key : ∀ (is : List (Fin 8)), is.Nodup → ∀ u : State, u.start = s.start →
      let t := is.foldl (fun s i => readInput i s) u
      OnlyChanges [.inputs] u t ∧ ∀ i : Fin 8, t.inputs[i] = if i ∈ is then u.inputs[i].read (senseOf s i) else u.inputs[i] := by
    intro is
    induction is with
    | nil => intro _ u _; exact ⟨fun p _ => by cases p <;> rfl, fun i => by simp⟩
    | cons i is ih =>
      intro hnd u hu
      obtain ⟨hi, hnd⟩ := List.nodup_cons.1 hnd
      obtain ⟨h1, h2⟩ := ih hnd (readInput i u) hu
      have hs : senseOf u i = senseOf s i := by unfold senseOf; rw [hu]
      have hin : ∀ j : Fin 8, (readInput i u).inputs[j] = if j = i then u.inputs[i].read (senseOf s i) else u.inputs[j] := by
        intro j; unfold readInput; simp only [Fin.getElem_fin, Vector.getElem_set]
        by_cases hj : j = i
        · simp [hj, hs]
        · rw [if_neg (fun e : (i : Nat) = j => hj (Fin.ext e.symm)), if_neg hj]
      refine ⟨fun p hp => ?_, fun j => ?_⟩
      · have := h1 p hp
        cases p <;> first | (simp at hp; done) | exact this
      · show (is.foldl _ (readInput i u)).inputs[j] = _
        rw [h2 j, hin j]
        by_cases hj : j = i
        · subst hj; simp [hi]
        · simp [hj]
  obtain ⟨h1, h2⟩ := key (List.finRange 8) (List.nodup_finRange 8) s rfl
  exact ⟨h1, fun i => (h2 i).trans (if_pos (List.mem_finRange i))⟩

theorem selectWindows_mixer (s : State) : (selectWindows s).mixer =
    { s.mixer with
      curfew := (selectCurfew s.cal.entries).map (·.2), base := (selectBase s.cal.entries).map (·.2)
      flushAsked := s.mixer.flushAsked + if (selectCurfew s.cal.entries).map (·.2) = s.mixer.curfew ∧
        (selectBase s.cal.entries).map (·.2) = s.mixer.base then 0 else 1 } := by
  unfold selectWindows askFlushIf
  by_cases h1 : (selectCurfew s.cal.entries).map (·.2) = s.mixer.curfew <;>
    by_cases h2 : (selectBase s.cal.entries).map (·.2) = s.mixer.base <;> simp [h1, h2]

theorem selectWindows_keeps (s : State) : OnlyChanges [.cal, .mixer] s (selectWindows s) ∧
    (selectWindows s).cal.entries = s.cal.entries ∧ (selectWindows s).cal.dusk = s.cal.dusk ∧
    (selectWindows s).cal.seasons = s.cal.seasons := by
  unfold selectWindows askFlushIf
  dsimp only
  split <;> exact ⟨fun p hp => by cases p <;> first | (simp at hp; done) | rfl, rfl, rfl, rfl⟩

theorem resense_sense (s : State) (k : SenseClass) : (resense s).mon.sense k =
    (s.mon.sense k).read (sensedIn s (s.mon.sense k).present k) := by
  cases k with
  | link l c =>
    cases c <;> (simp only [resense, Monitors.sense, LinkMonitor.sense, readLink, sensedIn, Fin.getElem_fin, Vector.getElem_ofFn]; try congr)
  | station c => cases c <;> (simp only [resense, Monitors.sense, sensedIn]; congr)

theorem resense_quantities (s : State) : SameQuantities s (resense s) := by
  unfold SameQuantities resense; simp [readLink]

theorem resense_cause (s : State) (l : Fin 4) : linkEnabled (resense s) l = linkEnabled s l := by
  simp [linkEnabled, resense, readLink, Sense.read]

theorem linkSlots_const (v : Nat) (mapped : List (Fin 4 × Fin 256 × Nat × Nat)) (l : Fin 4) :
    (linkSlots (fun _ _ => v) mapped l).length = 256 ∧ ∀ k : Fin 256,
      (linkSlots (fun _ _ => v) mapped l)[k.val]? = some (if ∃ m ∈ mapped, m.1 = l ∧ m.2.1 = k then v else 0) := by
  unfold linkSlots
  refine ⟨by simp, fun k => ?_⟩
  rw [List.getElem?_map, List.getElem?_range k.2, Option.map_some]
  congr 1
  split
  · rename_i h
    obtain ⟨m, hm, hl, hk⟩ := h
    cases hf : List.find? (fun e => e.1 == k.val) ((mapped.filter (fun m => m.1 == l)).map (fun m => (m.2.1.val, v))) with
    | none =>
      rw [List.find?_eq_none] at hf
      have := hf (m.2.1.val, v) (List.mem_map.2 ⟨m, by simp [hm, hl], rfl⟩)
      simp [hk] at this
    | some e =>
      have := List.mem_of_find?_eq_some hf
      obtain ⟨m', -, rfl⟩ := List.mem_map.1 this
      rfl
  · rename_i h
    rw [List.find?_eq_none.2]
    · rfl
    · intro e he hk
      obtain ⟨m, hm, rfl⟩ := List.mem_map.1 he
      simp only [List.mem_filter, beq_iff_eq] at hm
      exact h ⟨m, hm.1, hm.2, Fin.ext (by simpa using hk)⟩

theorem mem_mappedSlots (zs : List ZoneBoot) (l : Fin 4) (k : Fin 256) :
    (∃ m ∈ mappedSlots zs, m.1 = l ∧ m.2.1 = k) ↔ ∃ z ∈ zs, (l, k) ∈ z.slots := by
  unfold mappedSlots
  constructor
  · rintro ⟨m, hm, rfl, rfl⟩
    obtain ⟨⟨z, i⟩, hz, hm⟩ := List.mem_flatMap.1 hm
    obtain ⟨⟨e, j⟩, he, rfl⟩ := List.mem_map.1 hm
    exact ⟨z, (List.mem_zipIdx' hz).2 ▸ List.getElem_mem _, (List.mem_zipIdx' he).2 ▸ List.getElem_mem _⟩
  · rintro ⟨z, hz, he⟩
    obtain ⟨i, hi, rfl⟩ := List.mem_iff_getElem.1 hz
    obtain ⟨j, hj, hje⟩ := List.mem_iff_getElem.1 he
    refine ⟨(l, k, i, j), List.mem_flatMap.2 ⟨(zs[i], i), ?_, List.mem_map.2 ⟨((l, k), j), ?_, rfl⟩⟩, rfl, rfl⟩
    · rw [List.mk_mem_zipIdx_iff_getElem?]; simp [hi]
    · rw [List.mk_mem_zipIdx_iff_getElem?]; simp [hj, hje]

/-- The safe frame of a link is 256 levels, the safe level scaled to the budget on each mapped slot and 0 elsewhere (R132). -/
theorem safeFrameOf_spec (s : State) (l : Fin 4) : (safeFrameOf s l).length = 256 ∧ ∀ k : Fin 256,
    (safeFrameOf s l)[k.val]? = some (if ∃ z ∈ zonesOf s, (l, k) ∈ z.slots then safeSlot s l else 0) := by
  obtain ⟨h1, h2⟩ := linkSlots_const (safeSlot s l) (mappedSlots (zonesOf s)) l
  refine ⟨h1, fun k => (h2 k).trans ?_⟩
  congr 1
  exact if_congr (mem_mappedSlots _ _ _) rfl rfl

/-- An input read (R153): while UNSETTLED its timer restarts at a change; settled, it runs while the raw state differs. -/
theorem Input.read_eq (sense : InputSense) (x : Input) :
    let closed := if x.millivolts < 800 then true else if 2000 < x.millivolts then false else x.closed
    let active := if sense = .activeOpen then !closed else closed
    x.read sense = { x with
      closed := closed
      timer := match x.state with
        | .unsettled => some (if closed = x.closed then x.timer.getD 20000 else 20000)
        | .active => if active then none else some (x.timer.getD 20000)
        | .inactive => if active then some (x.timer.getD 20000) else none } := by
  intro closed active
  have hc : readVoltage x.millivolts x.closed = closed := rfl
  have ha : rawActive sense closed = active := by cases sense <;> rfl
  clear_value closed
  clear_value active
  unfold Input.read
  dsimp only
  rw [hc, ha]
  cases x.state <;> cases active <;> simp [debouncedOf]
  all_goals split <;> rfl

theorem leaveStarting_spec (s : State) : LeavesStarting s (leaveStarting s) := by
  unfold leaveStarting
  generalize hs1 : modStart (fun c => { c with state := if c.reason.isSome then .configFault else .running }) s = s1
  dsimp only
  have e1 : s1 = { s with start := { s.start with state := if s.start.reason.isSome then .configFault else .running } } := by
    rw [← hs1]; rfl
  generalize hs2 : recomputeAll s1 = s2
  generalize hs3 : setSafeFrames s2 = s3
  generalize hs4 : resense s3 = s4
  obtain ⟨i1, i2⟩ := readInputs_spec s4
  generalize readInputs s4 = t at i1 i2
  have hr : s2 = selectWindows (recomputeWhere (fun _ => true) s1) := by rw [← hs2]; rfl
  have hw : recomputeWhere (fun _ => true) s1 = { s1 with cal := { s1.cal with
      entries := s1.cal.entries.map (fun e => e.recompute s1.cal.dusk s1.cal.seasons s1.time.timeValid (secondNow s1)) } } := by
    unfold recomputeWhere setEntries recomputeEntry; simp
  obtain ⟨w1, w2, w3, w4⟩ := selectWindows_keeps (recomputeWhere (fun _ => true) s1)
  have w5 := selectWindows_mixer (recomputeWhere (fun _ => true) s1)
  rw [← hr] at w1 w2 w3 w4 w5
  have keep2 : ∀ p : Part, p ≠ .cal → p ≠ .mixer → p.same s1 s2 := by
    intro p h1 h2
    have := w1 p (by simp [h1, h2])
    rw [hw] at this
    cases p <;> first | exact absurd rfl h1 | exact absurd rfl h2 | exact this
  have keep3 : ∀ p : Part, p ≠ .drivers → p.same s2 s3 := by
    intro p h; rw [← hs3]; cases p <;> first | exact absurd rfl h | rfl
  have keep4 : ∀ p : Part, p ≠ .mon → p.same s3 s4 := by
    intro p h; rw [← hs4]; cases p <;> first | exact absurd rfl h | rfl
  have keep5 : ∀ p : Part, p ≠ .inputs → p.same s4 t := fun p h => i1 p (by simpa using h)
  have keep : ∀ p : Part, p ≠ .cal → p ≠ .mixer → p ≠ .drivers → p ≠ .mon → p ≠ .inputs → p.same s1 t := by
    intro p h1 h2 h3 h4 h5
    have a := keep2 p h1 h2
    have b := keep3 p h3
    have c := keep4 p h4
    have d := keep5 p h5
    cases p <;> exact d.trans (c.trans (b.trans a))
  have tstart : t.start = s1.start := keep .start (by decide) (by decide) (by decide) (by decide) (by decide)
  have ttime : t.time = s1.time := keep .time (by decide) (by decide) (by decide) (by decide) (by decide)
  have tcal : t.cal = s2.cal := (keep5 .cal (by decide)).trans ((keep4 .cal (by decide)).trans (keep3 .cal (by decide)))
  have tmix : t.mixer = s2.mixer := (keep5 .mixer (by decide)).trans ((keep4 .mixer (by decide)).trans (keep3 .mixer (by decide)))
  have tdrv : t.drivers = s3.drivers := (keep5 .drivers (by decide)).trans (keep4 .drivers (by decide))
  have tmon : t.mon = s4.mon := keep5 .mon (by decide)
  have mon3 : s3.mon = s.mon := (keep3 .mon (by decide)).trans ((keep2 .mon (by decide) (by decide)).trans (by rw [e1]))
  have inp4 : s4.inputs = s.inputs := (keep4 .inputs (by decide)).trans ((keep3 .inputs (by decide)).trans
    ((keep2 .inputs (by decide) (by decide)).trans (by rw [e1])))
  have start2 : s2.start = s1.start := keep2 .start (by decide) (by decide)
  have start3 : s3.start = s1.start := (keep3 .start (by decide)).trans start2
  have start4 : s4.start = s1.start := (keep4 .start (by decide)).trans start3
  have drv2 : s2.drivers = s.drivers := (keep2 .drivers (by decide) (by decide)).trans (by rw [e1])
  have boot1 : s1.start.boot = s.start.boot := by rw [e1]
  refine ⟨⟨fun p hp => ?_, ?_, ?_⟩, ?_, ⟨⟨?_, ?_, ?_⟩, ?_, ?_⟩, ?_, ?_, ?_, ?_, ?_⟩
  · have hp' : p ≠ .start ∧ p ≠ .cal ∧ p ≠ .mixer ∧ p ≠ .drivers ∧ p ≠ .mon ∧ p ≠ .inputs := by simp at hp; tauto
    obtain ⟨h0, h1, h2, h3, h4, h5⟩ := hp'
    have := keep p h1 h2 h3 h4 h5
    rw [e1] at this
    cases p <;> first | (simp at hp; done) | exact this
  · have := keep .lib (by decide) (by decide) (by decide) (by decide) (by decide)
    have h : t.lib = s.lib := this.trans (by rw [e1])
    unfold SameLibrary; rw [h]
  · have := keep .rows (by decide) (by decide) (by decide) (by decide) (by decide)
    have h : t.rows = s.rows := this.trans (by rw [e1])
    intro p; rw [h]
  · rw [tstart, e1]
  · rw [tcal, w2, hw, ttime, e1]; rfl
  · rw [tmix, w5, tcal, w2]
  · rw [tmix, w5, tcal, w2]
  · rw [tcal, w3, hw, e1]
  · rw [tcal, w4, hw, e1]
  · rw [tmix, w5]; dsimp only; rw [hw, e1]
  · intro l
    have hd : t.drivers[l] = { s.drivers[l] with safeFrame := some (safeFrameOf s2 l) } := by
      rw [tdrv, ← hs3]; unfold setSafeFrames; simp [drv2]
    have hz : zonesOf s2 = zonesOf s := by unfold zonesOf; rw [start2, boot1]
    have hl : safeSlot s2 l = safeSlot s l := by
      unfold safeSlot safeLevelOf budgetOf zonesOf; rw [start2, boot1]
    obtain ⟨f1, f2⟩ := safeFrameOf_spec s2 l
    refine ⟨_, hd, f1, fun k => ?_⟩
    rw [f2 k, hz, hl]
    rfl
  · unfold SameQuantities
    have := resense_quantities s3
    unfold SameQuantities at this
    rw [hs4, mon3] at this
    rw [tmon]; exact this
  · intro k
    have hk := resense_sense s3 k
    have hsen : sensedIn t (s.mon.sense k).present k = sensedIn s3 (s.mon.sense k).present k := by
      have hq := resense_quantities s3
      unfold SameQuantities at hq
      rw [hs4, ← tmon] at hq
      have hen : ∀ l, linkEnabled t l = linkEnabled s3 l := by
        intro l
        rw [← resense_cause s3 l, hs4]; unfold linkEnabled; rw [tmon]
      have hrun : isRunning t = isRunning s3 := by unfold isRunning awake; rw [tstart, start3]
      have hst : started t = started s3 := by unfold started awake; rw [tstart, start3]
      have hdr : ∀ l, linkDriven t l = linkDriven s3 l := by
        intro l; unfold linkDriven; rw [hen, hrun, tdrv]
      cases k with
      | link l c => cases c <;> simp only [sensedIn, hdr, hst, (hq.2 l).1, (hq.2 l).2]
      | station c => cases c <;> simp only [sensedIn, hst, hq.1]
    rw [tmon, ← hs4, hk, mon3, ← hsen]
    rfl
  · intro i
    rw [i2 i, inp4]
    have hsn : senseOf s4 i = senseOf s i := by unfold senseOf; rw [start4, boot1]
    rw [hsn]
    exact Input.read_eq _ _

theorem settleStart_spec (s : State) (h : s.start.state = .starting) : StartSettled s (settleStart s) := by
  unfold settleStart StartSettled
  have hc := checking_iff s
  constructor
  · intro hl
    rw [if_neg (by rw [hc.2 hl]; simp)]
    exact ⟨fun p _ => by cases p <;> rfl, rfl, fun _ => rfl⟩
  · intro hl
    have : checking s = false := by
      cases hb : checking s with
      | false => rfl
      | true => exact absurd (hc.1 hb) hl
    rw [if_pos ⟨h, this⟩]
    exact leaveStarting_spec s

/-! ### The whole start (R177) -/

theorem finishUnit_spec (s : State) : UnitFinished s (finishUnit s).flash := by
  unfold UnitFinished finishUnit endUnit PortUnit.written
  cases hp : s.lib.port with
  | none => rfl
  | some u =>
    cases u with
    | refill p live => rfl
    | checkRead i k => rfl
    | deadMark i => rfl
    | tagWrite i m b => rfl
    | sectorErase i k live => rfl
    | blockWrite i b live =>
      have hother : ∀ j : Fin 32, j ≠ i →
          (s.flash.set i ((s.flash[i].writeData b.index b.data).writeMark b.index))[j] = s.flash[j] := by
        intro j hj; simp only [Fin.getElem_fin]
        rw [Vector.getElem_set_ne]; exact fun e => hj (Fin.ext e.symm)
      have hself : (s.flash.set i ((s.flash[i].writeData b.index b.data).writeMark b.index))[i] =
          (s.flash[i].writeData b.index b.data).writeMark b.index := by simp
      refine ⟨hother, ?_⟩
      show _ ∧ _
      simp only [setFlash, setPort]
      rw [hself]
      refine ⟨rfl, ?_, ?_, ?_, ?_⟩
      · rw [readBlock_writeMark, readBlock_writeData, if_pos rfl]
      · intro k hk; rw [readBlock_writeMark, readBlock_writeData, if_neg hk]
      · intro k; exact mem_insertBlock _ _ _ _
      · intro k; exact mem_insertNat _ _ _

theorem checkWork_first {v : State} {i : Fin 32} {m n k : Nat} {received : List Nat}
    (h : v.lib.dir[i] = .loading m n received (some k))
    (hb : ∀ (j : Fin 32) (a b : Nat) (r : List Nat) (k : Nat), j < i → v.lib.dir[j] ≠ .loading a b r (some k)) :
    checkWork v = some (.checkRead i k) := by
  unfold checkWork
  obtain ⟨l1, l2, hl⟩ := List.append_of_mem (List.mem_finRange i)
  have hsort : (l1 ++ i :: l2).Pairwise (· < ·) := by rw [← hl]; exact List.pairwise_lt_finRange 32
  rw [List.pairwise_append] at hsort
  rw [List.findSome?_eq_some_iff]
  refine ⟨l1, i, l2, hl, by rw [h], fun j hj => ?_⟩
  have := hsort.2.2 j hj i (by simp)
  have hn := hb j
  cases hd : v.lib.dir[j] with
  | loading a b r c =>
    cases c with
    | none => rfl
    | some k' => exact absurd hd (hn a b r k' this)
  | _ => rfl

/-- The steps of STARTING from a station whose blocks hold their start values (R126, R177). -/
theorem runStart_spec (straps : LineNumber) (image : BootImage) (s u : State) (tables : CalendarUnit)
    (hs : u.start.state = .starting ∧ u.start.powered = true ∧ u.start.pinLow = false ∧ u.start.page = 0 ∧ u.start.restart = none)
    (hc : u.cal = { tables with entries := tables.entries.map Entry.underive, curfew := none, base := none })
    (hrest : u.rows = Vector.replicate 4 none ∧ u.mixer = Mixer.start ∧ u.out = OutputQueue.start ∧
      u.drivers = Vector.replicate 4 Driver.start ∧
      u.mon = { s.mon with links := s.mon.links.map LinkMonitor.start, hotWarn := Sense.start, hotShutdown := Sense.start } ∧
      u.safety = SafetyHold.start ∧ u.inputs = s.inputs.map Input.start ∧ u.line = LineInterface.start ∧
      u.counters = Counters.zero) :
    let t := runStart straps image u
    (∃ w, StartsUp straps image tables u.flash s w ∧ StartSettled w t ∧ t.lib.port = w.lib.port) ∧
      t.time = { u.time with ref := Reference.start (if referenceFitted t then .absent else .notFitted) } ∧
      t.backup = u.backup ∧ t.start.retainLost = u.start.retainLost ∧ t.start.readings = u.start.readings ∧ t.pending = u.pending := by
  intro t
  obtain ⟨s1, s2, s3, s4, s5⟩ := hs
  obtain ⟨r1, r2, r3, r4, r5, r6, r7, r8, r9⟩ := hrest
  obtain ⟨v0, hv0⟩ : ∃ v0, v0 = ({ readBoot straps image u with lib := Library.start } : State) := ⟨_, rfl⟩
  obtain ⟨v, hv⟩ : ∃ v, v = (List.finRange 32).foldl rebuildSlot v0 := ⟨_, rfl⟩
  have hcount : ∀ c, count v0 c = 0 := by
    intro c; subst hv0; show (readBoot straps image u).counters[c.place] = 0
    rw [show (readBoot straps image u).counters = u.counters from rfl, r9]; simp [Counters.zero]
  have hR : RebuiltTo (List.finRange 32) v0 v := by
    rw [hv]
    refine rebuilt_all _ [] ⟨fun p _ => by cases p <;> rfl, rfl, fun j => ?_, fun i _ => ⟨?_, rfl⟩, by simp, fun _ _ => rfl, by simp⟩
      (by simp) (by rw [hcount]; rfl)
    · subst hv0; simp [Library.start, slotShow]
    · subst hv0; simp [Library.start]
  have hlib : v.lib.queue = [] ∧ v.lib.erase = [] ∧ v.lib.deadMarks = [] ∧ v.lib.port = none := by
    rw [hR.lib, hv0]; exact ⟨rfl, rfl, rfl, rfl⟩
  have hkeep : ∀ q : Part, q ≠ .lib → q ≠ .flash → q ≠ .counters → q.same v0 v := fun q a b c => hR.only q (by simp [a, b, c])
  have hrows : v.rows = Vector.replicate 4 none :=
    (hkeep .rows (by decide) (by decide) (by decide)).trans (by rw [hv0]; exact r1)
  obtain ⟨w, hw⟩ : ∃ w, w = rebuild (readBoot straps image u) := ⟨_, rfl⟩
  have hwv : w = setPort (checkWork v) v := by
    rw [hw]; unfold rebuild; rw [← hv0, ← hv]
    unfold arbitrate
    have h1 : refillWork v = none := by
      unfold refillWork; rw [List.find?_eq_none]; intro p _; rw [hrows]; simp
    have h2 : deadMarkWork v = none := by unfold deadMarkWork; rw [hlib.2.2.1]; rfl
    have h3 : tagWork v = none := by unfold tagWork; rw [hlib.2.1]
    have h4 : blockWork v = none := by unfold blockWork; rw [hlib.1]; rfl
    have h5 : eraseWork v = none := by unfold eraseWork; rw [hlib.2.1]
    simp only [hlib.2.2.2, h1, h2, h3, h4, h5]
    simp
  have hwk : ∀ q : Part, q ≠ .lib → q ≠ .flash → q ≠ .counters → q.same v0 w := by
    intro q a b c
    have := hkeep q a b c
    rw [hwv]
    cases q <;> first | exact absurd rfl a | exact this
  have hstart : w.start = (readBoot straps image u).start := by
    have := hwk .start (by decide) (by decide) (by decide); exact this.trans (by rw [hv0])
  have htime : w.time = (readBoot straps image u).time := by
    have := hwk .time (by decide) (by decide) (by decide); exact this.trans (by rw [hv0])
  have hmon : w.mon = u.mon := (hwk .mon (by decide) (by decide) (by decide)).trans (by rw [hv0]; rfl)
  have hinp : w.inputs = u.inputs := (hwk .inputs (by decide) (by decide) (by decide)).trans (by rw [hv0]; rfl)
  have hdir : w.lib.dir = v.lib.dir := by rw [hwv]; rfl
  have hcw : checkWork w = checkWork v := by unfold checkWork; rw [hdir]
  have hsettle : StartSettled w (settleStart w) := settleStart_spec w (by rw [hstart]; exact s1)
  have ht : t = settleStart w := by rw [hw]; rfl
  clear_value t
  have hport : t.lib.port = w.lib.port := by
    rw [ht]; unfold settleStart
    split
    · simp
    · rfl
  have hflash : v0.flash = u.flash := by rw [hv0]; rfl
  have hreason : w.start.reason = bootFault image := by rw [hstart]; rfl
  have tstart : t.start = { w.start with state := t.start.state } := by
    by_cases hc : checksLeft w
    · have := (hsettle.1 hc).1 .start (by decide)
      rw [ht, show (settleStart w).start = w.start from this]
    · have := (hsettle.2 hc).start
      rw [ht, this]
  have ttime : t.time = w.time := by rw [ht]; simp
  refine ⟨⟨w, ?_, by rw [ht]; exact hsettle, hport⟩, ?_, ?_, ?_, ?_, ?_⟩
  · constructor
    · rw [hstart]; rfl
    · rw [hstart]; exact ⟨rfl, rfl⟩
    · exact hreason
    · rw [hstart]; rfl
    · rw [hstart]; exact ⟨s1, s2, s3⟩
    · rw [hstart]; exact ⟨s4, s5⟩
    · exact (hwk .cal (by decide) (by decide) (by decide)).trans (by rw [hv0]; exact hc)
    · exact (hwk .rows (by decide) (by decide) (by decide)).trans (by rw [hv0]; exact r1)
    · exact (hwk .mixer (by decide) (by decide) (by decide)).trans (by rw [hv0]; exact r2)
    · exact (hwk .out (by decide) (by decide) (by decide)).trans (by rw [hv0]; exact r3)
    · intro l
      have : w.drivers = u.drivers := (hwk .drivers (by decide) (by decide) (by decide)).trans (by rw [hv0]; rfl)
      have hd : (Vector.replicate 4 Driver.start)[l] = Driver.start := by simp
      rw [this, r4]; exact hd
    · unfold SameQuantities; rw [hmon, r5]; simp [LinkMonitor.start]
    · intro k; rw [hmon, r5]
      cases k with
      | link l c => cases c <;> simp [Monitors.sense, LinkMonitor.sense, LinkMonitor.start, Sense.start]
      | station c => cases c <;> simp [Monitors.sense, Sense.start]
    · exact (hwk .safety (by decide) (by decide) (by decide)).trans (by rw [hv0]; exact r6)
    · intro i; rw [hinp, r7]; simp [Input.start]
    · exact (hwk .line (by decide) (by decide) (by decide)).trans (by rw [hv0]; exact r8)
    · intro c hcn
      have : count w c = count v c := by rw [hwv]; rfl
      rw [this, hR.counts c hcn, hcount]
    · have : count w .showsInvalid = count v .showsInvalid := by rw [hwv]; rfl
      rw [this, hR.torn, hcount, hdir]
      show 0 + _ = _
      rw [Nat.zero_add]; rfl
    · rw [hwv]; exact ⟨hlib.1, hlib.2.1, hlib.2.2.1⟩
    · intro i
      have := hR.done i (List.mem_finRange i)
      rw [hflash] at this
      rw [hdir, show w.flash = v.flash by rw [hwv]; rfl]
      exact this
    · intro hn
      have : checkWork w = none := by
        cases hcc : checkWork w with
        | none => rfl
        | some x => exact absurd ((checking_iff w).1 (by unfold checking; rw [hcc]; rfl)) hn
      rw [hwv]; show checkWork v = none; rw [← hcw]; exact this
    · intro i m n received hd hb
      have := checkWork_first hd hb
      rw [hwv]; show checkWork v = _; rw [← hcw]; exact this
  · have href : referenceFitted t = referenceFitted w := by unfold referenceFitted; rw [tstart]
    rw [ttime, htime, href]
    have : referenceFitted w = referenceFitted (modStart (fun c => { c with
        straps := straps, image := image, number := straps.toNat
        boot := if (bootFault image).isSome then none else image, reason := bootFault image }) u) := by
      unfold referenceFitted; rw [hstart]; rfl
    rw [this]; rfl
  · rw [ht]; simp only [settleStart_frame]
    exact (hwk .backup (by decide) (by decide) (by decide)).trans (by rw [hv0]; rfl)
  · rw [tstart, hstart]; rfl
  · rw [tstart, hstart]; rfl
  · rw [ht]; simp only [settleStart_frame]
    exact (hwk .pending (by decide) (by decide) (by decide)).trans (by rw [hv0]; rfl)

/-- What the unit of port work that runs to its end at a start leaves as it was (R126). -/
theorem finishUnit_rest (s : State) : OnlyChanges [.flash, .lib] s (finishUnit s) := by
  intro q hq
  unfold finishUnit endUnit PortUnit.written
  split
  · split <;> (cases q <;> first | (simp at hq; done) | rfl)
  · cases q <;> rfl

/-- Every block at its start values (R24, R46, R100, R126, R139, R152, R161, R173). -/
theorem startBlocks_values (s : State) :
    (startBlocks s).start = s.start.begin ∧ (startBlocks s).time = s.time.start ∧ (startBlocks s).backup = s.backup ∧
      (startBlocks s).cal = { s.cal with entries := s.cal.entries.map Entry.underive, curfew := none, base := none } ∧
      (startBlocks s).flash = (finishUnit s).flash ∧ (startBlocks s).pending = s.pending ∧
      (startBlocks s).rows = Vector.replicate 4 none ∧ (startBlocks s).mixer = Mixer.start ∧ (startBlocks s).out = OutputQueue.start ∧
      (startBlocks s).drivers = Vector.replicate 4 Driver.start ∧
      (startBlocks s).mon = { s.mon with links := s.mon.links.map LinkMonitor.start, hotWarn := Sense.start
                                         hotShutdown := Sense.start } ∧
      (startBlocks s).safety = SafetyHold.start ∧ (startBlocks s).inputs = s.inputs.map Input.start ∧
      (startBlocks s).line = LineInterface.start ∧ (startBlocks s).counters = Counters.zero := by
  have h := finishUnit_rest s
  have a1 : (finishUnit s).start = s.start := h .start (by decide)
  have a2 : (finishUnit s).time = s.time := h .time (by decide)
  have a3 : (finishUnit s).backup = s.backup := h .backup (by decide)
  have a4 : (finishUnit s).cal = s.cal := h .cal (by decide)
  have a5 : (finishUnit s).mon = s.mon := h .mon (by decide)
  have a6 : (finishUnit s).inputs = s.inputs := h .inputs (by decide)
  have a7 : (finishUnit s).pending = s.pending := h .pending (by decide)
  unfold startBlocks
  dsimp only
  rw [a1, a2, a3, a4, a5, a6, a7]
  exact ⟨rfl, rfl, rfl, rfl, rfl, rfl, rfl, rfl, rfl, rfl, rfl, rfl, rfl, rfl, rfl⟩

/-- A start from the beginning of STARTING, with what it finds of time, retained memory and tables put in (R24, R25, R46, R177). -/
theorem startsFrom (straps : LineNumber) (image : BootImage) (s u : State) (tables : CalendarUnit)
    (hs : u.start.state = .starting ∧ u.start.powered = true ∧ u.start.pinLow = false ∧ u.start.page = 0 ∧ u.start.restart = none)
    (hc : u.cal = { tables with entries := tables.entries.map Entry.underive, curfew := none, base := none })
    (hu : OnlyChanges [.start, .time, .backup, .cal] (startBlocks s) u) :
    let t := runStart straps image u
    (∃ flash w, UnitFinished s flash ∧ StartsUp straps image tables flash s w ∧ StartSettled w t ∧ t.lib.port = w.lib.port) ∧
      t.time = { u.time with ref := Reference.start (if referenceFitted t then .absent else .notFitted) } ∧
      t.backup = u.backup ∧ t.start.retainLost = u.start.retainLost ∧ t.start.readings = u.start.readings ∧ t.pending = s.pending := by
  obtain ⟨-, -, -, -, v5, v6, v7, v8, v9, v10, v11, v12, v13, v14, v15⟩ := startBlocks_values s
  have hf : u.flash = (finishUnit s).flash := (hu .flash (by decide)).trans v5
  obtain ⟨⟨w, h1, h2, h3⟩, h4, h5, h6, h7, h8⟩ := runStart_spec straps image s u tables hs hc
    ⟨(hu .rows (by decide)).trans v7, (hu .mixer (by decide)).trans v8, (hu .out (by decide)).trans v9,
      (hu .drivers (by decide)).trans v10, (hu .mon (by decide)).trans v11, (hu .safety (by decide)).trans v12,
      (hu .inputs (by decide)).trans v13, (hu .line (by decide)).trans v14, (hu .counters (by decide)).trans v15⟩
  exact ⟨⟨_, w, finishUnit_spec s, hf ▸ h1, h2, h3⟩, h4, h5, h6, h7, h8.trans ((hu .pending (by decide)).trans v6)⟩

end Sys2Proof.Machine
end

