-- ==== Sys2Proof/WellFormed.lean ====
section
/-!
DEFINITION. What a command must satisfy to be one that the outside world can send: the limits on its operands that its type does
not carry. The meanings are total on every term; the blocks judge frame fields themselves (R171, R174).
-/

namespace Sys2Proof

/-- Tower time reaches the other blocks as a 56-bit count of µs (1.1). -/
def arrivalGood (arrival : Nat) : Bool := decide (arrival < 2 ^ 56)

/-- A frame that reached its end field carries as many data bytes as its length says; one that broke off carries no more
(R162, R171). -/
def LineFrame.wellFormed (f : LineFrame) : Bool :=
  (if f.endGood then f.data.length == f.length.toNat else decide (f.data.length ≤ f.length.toNat)) && arrivalGood f.arrival

/-- The classes that admit mode RETRY (R142), and so have a retry timer (R146). -/
def LinkClass.hasRetry : LinkClass → Bool
  | .short | .openLine => true
  | .feedLow => false

/-- A temperature is not below absolute zero. -/
def Reading.wellFormed : Reading → Bool
  | .temperature t => decide (-2731 ≤ t)
  | .current _ _ | .feed _ _ => true

/-- The items that R180 lists. -/
def isListedItem (item : Byte) : Bool := decide (1 ≤ item.toNat ∧ item.toNat ≤ 12)

/-- A command's operands are ones that it can carry. -/
def Instr.wellFormed : Instr → Bool
  | .powerStart _ _ _ | .restartPinFall _ | .restartPinRise _ _ | .restart _ _ | .restartTimeout => true
  | .towerFrameBoundary | .wholeSecond | .holdEnd | .referencePulse => true
  | .referenceMessage _ | .referenceMessageTimeout | .referenceSilence => true
  | .beacon _ arrival _ _ => arrivalGood arrival
  | .timeSet _ _ arrival _ => arrivalGood arrival
  | .entryWrite _ _ _ | .entryExtra _ _ _ | .entryDelete _ _ _ | .calendarClear _ _ | .duskBlock _ _ _ _ => true
  | .seasonWrite _ _ _ _ | .seasonClear _ _ => true
  | .startShow _ _ _ | .announceStart _ _ | .announceRunning _ _ | .stopShow _ _ _ | .stopAll _ _ => true
  | .announceStop _ _ | .mark _ _ _ _ _ | .catchUpComplete _ => true
  | .flushRequest | .renderBegin | .renderComplete | .linkFrameEnd _ | .refreshExpiry => true
  | .senseChange reading => reading.wellFormed
  | .deglitchExpiry _ => true
  | .retryExpiry _ cls => cls.hasRetry
  | .clearFaults _ _ | .inputChange _ _ | .debounceExpiry _ | .resendExpiry => true
  | .safetySet _ | .safetyClear _ | .safetyClearAll _ _ => true
  | .showBegin _ _ _ _ | .showBlock _ _ _ _ _ | .showDelete _ _ _ => true
  | .refillComplete | .sectorEraseComplete | .tagWriteComplete | .deadMarkWriteComplete => true
  | .blockWriteComplete | .checkReadComplete => true
  | .lineIdle | .arbitrationLost | .dataFieldContention | .frameSent | .lineFault => true
  | .frameReceived frame => frame.wellFormed
  | .queryStatusPage _ _ _ | .queryTime _ _ _ | .queryPeer _ _ _ | .queryInstance _ _ _ | .querySlot _ _ _ => true
  | .queryReceivedSet _ _ _ | .queryEntry _ _ _ | .queryCalendar _ _ _ | .queryLink _ _ _ => true
  | .queryHoldList _ _ _ | .queryInputs _ _ _ | .queryBoot _ _ _ => true
  | .mainPowerLoss _ | .backupSecond => true
  | .queryUnknownItem _ _ item _ => !isListedItem item

end Sys2Proof
end

