-- ==== Sys2Proof/Tests/Slice0.lean ====
section
/-!
SUPPORT. The model's own tests: the smoke tests of WellFormed, the manual's worked examples one step at a time, and witnesses
that the hypotheses of the statements can be met.
-/

namespace Sys2Proof.Tests

set_option Elab.async false

open Sys2Proof.Machine

/-! ### Small stations -/

/-- The state that a command answers. -/
def nextOf : Answered → State
  | .next s => s
  | .fault f => nomatch f
  | .refused _ => State.reset

/-- A command has run. -/
def ran (c : Instr) (s : State) : State := nextOf (exec c s)

/-- A local zone of one slot position on link 0. -/
def zone (tower : BitVec 12) (slot : Fin 256) : ZoneBoot := { tower := tower, slots := [(0, slot)] }

/-- Boot fields of four local zones 131 to 134, modes as in 8.8 and 8.9, input 0 SAFETY, 1 GO, 2 STOP ALL. -/
def bootFields : BootFields :=
  { zones := [zone 131 0, zone 132 1, zone 133 2, zone 134 3]
    links := Vector.replicate 4 { safeLevel := 1000, budget := 3000 }, depth := 3
    modes := { short := .latched, openLine := .retry, feedLow := .recover, hotWarn := .warn, hotShutdown := .latched }
    coast := { spread := true, solo := false, line := false, steppedPeer := true }, reference := true, position := 120
    inputs := ((Vector.replicate 8 { function := .noFunction, sense := .activeClosed }).set 0
      { function := .safety, sense := .activeClosed }).set 1 { function := .go, sense := .activeClosed } |>.set 2
      { function := .stopAll, sense := .activeOpen } }

/-- A boot record of them. -/
def boot : BootRecord := { bootFields with check := recordCheck bootFields }

/-- Its checks pass. -/
theorem boot_good : bootFault (some boot) = none := by
  have h : (boot.check != recordCheck boot.toBootFields) = false := by simp [boot]
  simp only [bootFault, bootTests, h]
  decide +kernel

/-- A boot record of the same fields with a depth of 9. -/
def deepBoot : BootRecord :=
  { { bootFields with depth := 9 } with check := recordCheck { bootFields with depth := 9 } }

theorem deepBoot_depth : bootFault (some deepBoot) = some .depth := by
  have h : (deepBoot.check != recordCheck deepBoot.toBootFields) = false := by simp [deepBoot]
  simp only [bootFault, bootTests, h]
  decide +kernel


/-- Station 7, RUNNING and time-valid, at tower frame 80,000. -/
def up : State :=
  { State.reset with
    start := { State.reset.start with state := .running, straps := 7, image := some boot, number := 7, boot := some boot }
    time := { State.reset.time with ns := 2000000000000, lastBoundary := 80000, lastSecond := 2000, hops := 3,
                                    timeValid := true, ref := Reference.start .absent } }

/-- Station 7 in another start state, with the boot record in use or none. -/
def inState (st : StartState) : State := { up with start := { up.start with state := st } }

/-- Station 7 in CONFIG FAULT. -/
def faulted : State := { up with start := { up.start with state := .configFault, boot := none, reason := some .depth } }

/-- Station 7 with its restart pin held low. -/
def pinned : State := { State.reset with start := { State.reset.start with pinLow := true } }

/-- The part without main power. -/
def off : State := { State.reset with start := { State.reset.start with powered := false } }

/-- A listen-only station. -/
def listening : State := { up with start := { up.start with number := 0, straps := 0 } }

/-- Station 7 with a safety hold of station 9. -/
def holding : State := { up with safety := { up.safety with holdList := [9] } }

/-- Station 7 in a hold of its counter. -/
def held : State := { up with time := { up.time with hold := some 500 } }

/-- A cue. -/
def cue (index time : Nat) (action : Action) (low high param : Nat) (level : Nat) : Cue :=
  { index := index, time := time, action := action, track := 1, zoneLow := low, zoneHigh := high, param := param
    levels := { l1 := level, l2 := level, l3 := level, l4 := level } }

/-- Show 44: 1,000 frames, attack 64, release 80, zones 131 to 134. -/
def header : ShowHeader := { length := 1000, attack := 64, release := 80, low := 131, high := 134 }

/-- A row that plays show 44 from anchor `anchor`, its window the cues `cues` to the show's END. -/
def row (anchor : Nat) (position : Int) (cues : List Cue) : Row :=
  { phase := .running, suspended := false, showNo := 44, priority := 6, tag := 79000, anchor := anchor, endFrame := none
    mode := .once, passes := 0, origin := .console 0, announcer := false, lastHeard := 80000, marks := []
    ctx := { freshContext 4 with position := position, window := cues, nextCue := cues.length, endRead := true } }

/-- Station 7 with one row, whose show 44 stands COMPLETE in slot 0. -/
def playing (r : Row) : State :=
  { up with rows := up.rows.set 0 (some r), lib := { up.lib with dir := up.lib.dir.set 0 (.complete 44 4 [0, 1, 2, 3] header) } }

/-- Show 44 at show frame 199, with a sweep at 200. -/
def sweeping : State :=
  playing (row 79801 199 [cue 0 200 .sweepUp 131 134 (8 * 256 + 6) 4000, cue 1 1000 .endShow 0 0 0 0])

/-- A gate on mark 3 at show frame 700 with a timeout of 10 s. -/
def gate (anchor : Nat) : Gate := gateAt 700 3 10 anchor

/-- Show 44 GATED. -/
def gated : State := playing { row 79300 700 [cue 1 1000 .endShow 0 0 0 0] with phase := .gated (gate 79300) }

/-- A peer whose last sample was `previous`, LOCKED or not. -/
def peer (n : Nat) (lock : Lock) (previous : Int) : Peer :=
  { number := n, lock := lock, consistentRun := 6, inconsistentRun := 0, previous := some previous, sample := none
    lastArrival := 1999500000
    body := { hops := 2, discipline := .track, timeValid := true, stepFlag := false, safetyFlag := false, faults := 0
              instances := 0, position := 540 } }

/-- A sample this period of 2 hops. -/
def sample (x : Int) : Option PeriodSample := some { value := x, hops := 2, timeValid := true, stepFlag := false }

/-- Station 7 with peers. -/
def among (ps : List Peer) : State := { up with time := { up.time with peers := ps } }

/-- The image of an ENTRY WRITE: entry 30, SHOW, DAILY, CLOCK 9,000 s, show 44, priority 6 (2.5). -/
def image30 : EntryImage :=
  { id := 30, kind := 0, enabled := true, recurrence := 1, day6 := 0, day7 := 0, anchor := 9000, validFrom := 0xFFFF
    validUntil := 0xFFFF, duration := 0, byte18 := 44, byte19 := 6, byte20 := 0 }

/-- Entry 30 of 2.5. -/
def entry30 : Entry :=
  { id := 30, enabled := true, recurrence := .daily, anchor := .clock 9000, validFrom := none, validUntil := none, skips := []
    duration := 0, kind := .playShow 44 6 .once 0, nextFire := none, windowEnd := none }

/-- Station 7 with entry 30. -/
def scheduled : State := { up with cal := { up.cal with entries := [entry30] } }

/-- The transitions of 2030 (2.5). -/
def seasons2030 : List Season := [{ instant := 15907800, offset := 60 }, { instant := 16210200, offset := 0 }]

/-- An open window entry. -/
def windowEntry (id : Nat) (kind : EntryKind) : Entry :=
  { entry30 with id := id, duration := 3600, kind := kind, windowEnd := some 90000 }

/-- A START SHOW of show 44 (3.8): priority 6, ONCE, from a console. -/
def image44 : StartImage := { showNo := 44, priority := 6, tag := 0, duration := 0, mode := 0, passes := 0 }

/-- An ANNOUNCE of show 44. -/
def announcement (tag anchor : Nat) : Announcement :=
  { showNo := 44, priority := 6, tag := BitVec.ofNat 40 tag, anchor := BitVec.ofNat 40 anchor, duration := 0, mode := .once
    passes := 0 }

/-- Station 7 with frames of these classes in its transmit queue, numbered by their data. -/
def queued (classes : List Nat) : State :=
  { up with line := { up.line with tx := classes.zipIdx.map (fun e => newFrame e.1 [byteOf e.2]) } }

/-- Station 7 with the first queued frame being sent. -/
def transmitting (f : TxFrame) : State := { up with line := { up.line with tx := [{ f with sending := true }] } }

/-- Station 7 with a sense of link 2 in a state. -/
def sensed (c : SenseClass) (x : Sense) : State := { up with mon := up.mon.setSense c x }

/-- Station 7 with an input in a state. -/
def contact (i : Fin 8) (x : Input) : State := { up with inputs := up.inputs.set i x }

/-- Station 7 with a slot in a state. -/
def slot (i : Fin 32) (d : SlotState) : State := { up with lib := { up.lib with dir := up.lib.dir.set i d } }

/-- Station 7 with a unit of port work in progress. -/
def busy (u : PortUnit) (s : State) : State := { s with lib := { s.lib with port := some u } }

/-- The levels of a record: 256 times a level on every link. -/
def flat (v : Nat) : LinkLevels := Vector.replicate 4 (List.replicate 256 v)

/-- Station 7 with records in its Output Queue, primed. -/
def buffered (frames : List Nat) : State :=
  { up with out := { up.out with records := frames.map (fun n => { frame := n, safe := false, levels := flat n }), primed := true }
            mixer := { up.mixer with cursor := frames.getLast? } }

/-! ### WellFormed refuses ill-formed terms -/

theorem test_wf_beacon : (Instr.beacon 3 (2 ^ 56) 0 (peer 3 .locked 0).body).wellFormed = false := by decide +kernel
theorem test_wf_beacon_good : (Instr.beacon 3 (2 ^ 56 - 1) 0 (peer 3 .locked 0).body).wellFormed = true := by decide +kernel
theorem test_wf_timeSet : (Instr.timeSet 3 7 (2 ^ 56) 0).wellFormed = false := by decide +kernel
theorem test_wf_frame_short :
    (Instr.frameReceived { cls := 0, sender := 3, length := 2, data := [1], check := 0, endGood := true, arrival := 0 }).wellFormed
      = false := by decide +kernel
theorem test_wf_frame_broken :
    (Instr.frameReceived { cls := 0, sender := 3, length := 1, data := [1, 2], check := 0, endGood := false, arrival := 0 }).wellFormed
      = false := by decide +kernel
theorem test_wf_frame_arrival :
    (Instr.frameReceived { cls := 0, sender := 3, length := 1, data := [1], check := 0, endGood := true, arrival := 2 ^ 56 }).wellFormed
      = false := by decide +kernel
theorem test_wf_retry : (Instr.retryExpiry 0 .feedLow).wellFormed = false := by decide +kernel
theorem test_wf_temperature : (Instr.senseChange (.temperature (-2732))).wellFormed = false := by decide +kernel
theorem test_wf_item : (Instr.queryUnknownItem 0 7 12 0).wellFormed = false := by decide +kernel
theorem test_wf_item_good : (Instr.queryUnknownItem 0 7 13 0).wellFormed = true := by decide +kernel

/-! ### No word spells a command -/

theorem test_no_word_spells : decodeTableWord 8 1 = none := by decide +kernel
theorem test_queue_front : step { up with pending := [.lineFault, .lineIdle] } = exec .lineFault { up with pending := [.lineIdle] } := rfl

/-! ### Tower time: the examples of R8, 1.5 and 1.6 -/

theorem test_delay : delayUs 540 120 = 2 ∧ delayUs 310 120 = 1 ∧ delayUs 900 120 = 4 ∧ delayUs 0 1023 = 5 := by decide +kernel

theorem test_beacon_sample :
    ((ran (.beacon 20 9300000 9301598 (peer 20 .locked 0).body) (among [peer 20 .locked 1575])).time.peers.map
      (fun p => (p.previous, p.sample.map (·.value)))) = [(some 1600, some 1600)] := by decide +kernel
theorem test_beacon_inconsistent :
    ((ran (.beacon 20 9400000 9402598 (peer 20 .locked 0).body) (among [peer 20 .locked 1900])).time.peers.map
      (fun p => (p.lock, p.inconsistentRun, p.previous, p.sample))) = [(.locked, 1, some 2600, none)] := by decide +kernel

/-- The event of 1.5. -/
def tracking : State :=
  { up with time := { up.time with
      discipline := .track, trim := -8000
      peers := [{ peer 3 .locked 1120 with sample := sample 1120 }, { peer 12 .locked 1450 with sample := sample 1450 },
                { peer 20 .locked 1600 with sample := sample 1600 }, peer 25 .locked 0, peer 31 .locked 2600] } }

theorem test_second_tracks :
    (fun t : TimeUnit => (t.discipline, t.slew, t.trim, t.hops)) (ran .wholeSecond tracking).time = (.track, 362, -2336, 3) := by
  decide +kernel

/-- The seventh event of 1.6. -/
def behind : State :=
  { up with time := { up.time with
      discipline := .holdover, hops := 4
      peers := [{ peer 40 .locked (-7300) with sample := sample (-7300) },
                { peer 42 .locked (-7301) with sample := sample (-7301) }] } }

theorem test_second_holds :
    (fun t : TimeUnit => (t.discipline, t.hold, t.stepFlags, t.peers.map (·.previous))) (ran .wholeSecond behind).time =
      (.acquire, some 7301, 8, [some 1, some 0]) := by decide +kernel

theorem test_hold_end : (ran .holdEnd held).time.hold = none := by decide +kernel
theorem test_backup_second : (ran .backupSecond off).backup.seconds = 1 := by decide +kernel
theorem test_second_loads : (ran .wholeSecond up).backup.seconds = 2001 := by decide +kernel

theorem test_pulse : (ran .referencePulse up).time.ref.waiting = some { stamp := 2000000000, left := 500000 } := by decide +kernel

/-- A pulse waits for its message, two seconds of the run behind it. -/
def pulsed : State :=
  { up with time := { up.time with
      ref := { up.time.ref with run := 2, lastSecond := 1999, waiting := some { stamp := 2000000100, left := 500000 } } } }

theorem test_message_makes_valid :
    (fun r : Reference => (r.state, r.run, r.offset, r.silence)) (ran (.referenceMessage (some 2000)) pulsed).time.ref =
      (.valid, 3, some (-100), some 2000000) := by decide +kernel
theorem test_message_out_of_run :
    (fun r : Reference => (r.state, r.run, r.lastSecond)) (ran (.referenceMessage (some 2001)) pulsed).time.ref =
      (.absent, 1, 2001) := by decide +kernel
theorem test_message_timeout : (ran .referenceMessageTimeout pulsed).time.ref.run = 0 := by decide +kernel
theorem test_silence :
    (ran .referenceSilence { up with time := { up.time with ref := { up.time.ref with state := .valid, silence := some 0 } } }).time.ref.state
      = .absent := by decide +kernel

/-- The night of 2.5: a TIME SET 75 s forward over the firings of entries 31 and 30. -/
def spring : State :=
  { up with
    time := { up.time with ns := 954467980400000000, lastSecond := 954467980, lastBoundary := 38178719216 }
    cal := { up.cal with
      entries := [{ entry30 with nextFire := some (954468000 * 40) },
                  { entry30 with id := 31, anchor := .clock 7190, kind := .playShow 45 6 .once 0,
                                 nextFire := some (954467990 * 40) }]
      seasons := seasons2030 }
    lib := { up.lib with dir := up.lib.dir.set 0 (.complete 44 4 [0, 1, 2, 3] header) } }

/-- It is taken. -/
def sprung : State := ran (.timeSet 0 0 954467980400000 954468055400000) spring

theorem test_late_firing :
    (count sprung .missedFirings, count sprung .lateFirings, count sprung .steps) = (1, 1, 1) ∧
      (sprung.rows[0]).map (·.tag) = some 38178720080 := by decide +kernel
theorem test_next_fire_after :
    sprung.cal.entries.head?.map (·.nextFire) = some (some (954552600 * 40)) := by decide +kernel

/-! ### The calendar: the examples of 2.3 and 2.5 -/

theorem test_spring_instants :
    instantOf [] seasons2030 (.clock 9000) 11047 = 954468000 ∧ instantOf [] seasons2030 (.clock 9000) 11048 = 954552600 ∧
      instantOf [] seasons2030 (.clock 9000) 11257 = 972610200 := by decide +kernel

theorem test_last_sunday :
    Entry.recursOn { entry30 with recurrence := .nth 10 6 none } 11257 = true ∧
      Entry.recursOn { entry30 with recurrence := .nth 10 6 none } 11250 = false := by decide +kernel

/-- 29 February 2028, day 10,286, in a leap year only, and the second Tuesday of its month, 8 February (R28). -/
theorem test_dates :
    dateOf 10286 = (2, 29) ∧ dateOf 10287 = (3, 1) ∧ dateOf (10286 + 366) = (3, 1) ∧
      ([.yearly 2 29, .nth 2 1 (some 2), .nth 2 1 none] : List Recurrence).map (fun r =>
        [10265, 10272, 10286].map (fun day => Entry.recursOn { entry30 with recurrence := r } day)) =
      [[false, false, true], [true, false, false], [false, false, true]] := by decide +kernel

/-- The dusk of 29 February is index 60 of the table; a missing value is 18:00; the sum stays within the day (R29, R32). -/
theorem test_dusk_instants :
    ([-100, 0, 180].map (fun o => instantOf [(60, 1430), (61, 90)] [] (.dusk o) 10286) =
      [10286 * 86400 + 1330 * 60, 10286 * 86400 + 1430 * 60, 10286 * 86400 + 86399]) ∧
      [-100, 0].map (fun o => instantOf [(60, 1430), (61, 90)] [] (.dusk o) 10287) = [10287 * 86400, 10287 * 86400 + 90 * 60] ∧
      instantOf [(60, 1430), (61, 90)] [] (.dusk 0) 10288 = 10288 * 86400 + 1080 * 60 := by decide +kernel

theorem test_lowest_ceiling :
    selectCurfew [windowEntry 5 (.base 3 Levels.zero), windowEntry 9 (.curfew 1500 12), windowEntry 14 (.curfew 800 16)] =
      some (14, 800, 16) := by decide +kernel
theorem test_highest_base :
    (selectBasePriority [windowEntry 5 (.base 3 Levels.zero), windowEntry 17 (.base 5 Levels.zero)]).map (·.1) = some 17 := by
  decide +kernel

/-- The firing of 00:30 civil, at 23:30 standard of the day before, opens its window for its hour (R38). -/
def midnight : State :=
  { up with
    time := { up.time with ns := 959124599000000000, lastSecond := 959124599, lastBoundary := 38364983960 }
    cal := { up.cal with
      entries := [{ windowEntry 9 (.curfew 800 16) with
        anchor := .clock 1800, nextFire := some (959124600 * 40), windowEnd := none }]
      seasons := seasons2030 } }

theorem test_window_next_day :
    (ran .wholeSecond midnight).cal.entries.map (·.windowEnd) = [some (959128200 * 40)] := by decide +kernel

theorem test_entry_written : (ran (.entryWrite 0 0 image30) up).cal.entries.map (·.id) = [30] := by decide +kernel
/-- The fields of an ENTRY WRITE as bytes 4 to 20 lay them out: NTH LAST Sunday of October, DUSK −30, and each kind's settings, clamped. -/
theorem test_entry_fields :
    [({ image30 with recurrence := 4, day6 := 10, day7 := 0x76, anchor := 0x80FFE2, kind := 2, duration := 1, byte18 := 200 } : EntryImage),
     { image30 with recurrence := 2, day6 := 0x41, kind := 1, duration := 345600, byte18 := 0 },
     { image30 with recurrence := 0, day6 := 0x2C, day7 := 7, byte18 := 44, byte19 := 0, byte20 := 0x1F }].map
      (fun f => (entryOf f).map (fun e => (e.recurrence, e.anchor, e.kind))) =
    [some (.nth 10 6 none, .dusk (-30), .base 15 Levels.zero), some (.weekly 0x41, .clock 9000, .curfew 0 1),
     some (.once 11271, .clock 9000, .playShow 44 1 .loop 15)] := by decide +kernel
theorem test_entry_day_bad : count (ran (.entryWrite 0 0 { image30 with recurrence := 5 }) up) .scheduleRefused = 1 := by
  decide +kernel
theorem test_extra_skips :
    (ran (.entryExtra 0 0 { id := 30, skipCount := 2, skips := Vector.replicate 4 11047, levels := 0, ceiling := 0 }) scheduled).cal.entries.map
      (·.skips) = [[11047, 11047]] := by decide +kernel
theorem test_entry_deleted : (ran (.entryDelete 0 0 30) scheduled).cal.entries = [] := by decide +kernel
theorem test_entry_not_there : count (ran (.entryDelete 0 0 31) scheduled) .scheduleRefused = 1 := by decide +kernel
theorem test_cleared : (ran (.calendarClear 0 7) scheduled).cal.entries = [] := by decide +kernel
theorem test_dusk_written :
    (ran (.duskBlock 0 0 361 (Vector.replicate 8 1230)) up).cal.dusk.map (·.1) = [361, 362, 363, 364, 365, 366] := by decide +kernel
theorem test_season_written : (ran (.seasonWrite 0 0 15907800 60) up).cal.seasons = [{ instant := 15907800, offset := 60 }] := by
  decide +kernel
theorem test_season_offset_bad : count (ran (.seasonWrite 0 0 15907800 121) up) .scheduleRefused = 1 := by decide +kernel
theorem test_seasons_cleared :
    (ran (.seasonClear 0 0) { up with cal := { up.cal with seasons := seasons2030 } }).cal.seasons = [] := by decide +kernel

/-! ### Instances: the examples of 3.8 and 3.9 -/

/-- Station 7 with show 44 COMPLETE and no row. -/
def loaded : State := slot 0 (.complete 44 4 [0, 1, 2, 3] header) 

theorem test_start_tag :
    ((ran (.startShow 0 7 image44) loaded).rows[0]).map (fun r => (r.tag, r.phase, r.announcer)) =
      some (80000 + 1 + 80, .armed, true) := by decide +kernel
theorem test_start_absent : count (ran (.startShow 0 7 { image44 with showNo := 45 }) loaded) .showAbsent = 1 := by decide +kernel

theorem test_announce_joins :
    ((ran (.announceStart 12 (announcement 80080 80080)) loaded).rows[0]).map (fun r => (r.phase, r.origin, r.announcer)) =
      some (.armed, .peer 12, false) := by decide +kernel
theorem test_announce_starting :
    count (ran (.announceRunning 5 (announcement 79000 79120)) (inState .starting)) .announceIgnored = 1 := by decide +kernel
theorem test_announce_smaller_pair :
    ((ran (.announceRunning 5 (announcement 79000 79120)) (playing (row 79200 700 []))).rows[0]).map
      (fun r => (r.anchor, r.origin)) = some (79120, .peer 5) := by decide +kernel
theorem test_announce_larger_pair :
    (fun s : State => (s.rows[0].map (·.anchor), s.line.tx.map (·.cls)))
      (ran (.announceRunning 40 (announcement 79000 79200)) (playing (row 79120 700 []))) = (some 79120, [2]) := by decide +kernel

theorem test_stop_releases :
    ((ran (.stopShow 0 7 44) (playing (row 79000 900 []))).rows[0]).map (·.phase) = some (.releasing 80001 256) := by decide +kernel
theorem test_stop_unknown :
    (ran (.stopShow 0 7 45) up).line.tx.map (·.data) = [[2, 0, 4, 2, 4, 0, 45]] := by decide +kernel
theorem test_stop_all_armed :
    (ran (.stopAll 0 0) (playing { row 81000 (-1) [] with phase := .armed })).rows[0] = none := by decide +kernel
theorem test_announce_stop_earlier :
    ((ran (.announceStop 5 (announcement 78999 78999)) (playing (row 79000 900 []))).rows[0]).map (·.phase) = some .running := by
  decide +kernel

/-! ### Players: the examples of 4.4 and 4.5 -/

theorem test_sweep_first_zone :
    ((ran .towerFrameBoundary sweeping).rows[0]).map (fun r => (r.ctx.position, r.ctx.sweeps.map (·.todo))) =
      some (200, [[1, 2, 3]]) := by decide +kernel
theorem test_sweep_frames :
    [131, 132, 133, 134].map (sweepFrame (cue 0 200 .sweepUp 131 134 (8 * 256 + 6) 0)) = [200, 201, 203, 204] ∧
      [131, 132, 133, 134].map (sweepFrame (cue 0 200 .sweepDown 131 134 (8 * 256 + 6) 0)) = [204, 203, 201, 200] := by
  decide +kernel

theorem test_mark_after_gate :
    ((ran (.mark 5 44 79000 3 (79300 + 950)) { gated with time := { gated.time with ns := (79300 + 951) * 25000000 } }).rows[0]).map
      (fun r => (r.anchor, r.phase, r.marks)) = some (79300 + 254, .running, [(3, 79300 + 950)]) := by decide +kernel
theorem test_mark_of_no_row : count (ran (.mark 5 44 78000 3 79000) gated) .marksDiscarded = 1 := by decide +kernel

theorem test_gate_filed_before :
    evalGate { row 79300 700 [] with marks := [(3, 79300 + 698)] } (gate 79300) (79300 + 700) = some (79300 + 702, false) := by
  decide +kernel
theorem test_gate_timeout :
    ((ran .towerFrameBoundary { gated with time := { gated.time with ns := (79300 + 1099) * 25000000, lastBoundary := 79300 + 1099 } }).rows[0]).map
      (fun r => (r.anchor, r.ctx.lateWatch)) = some (79300 + 400, some 3) := by decide +kernel

theorem test_catch_up_completes :
    ((ran (.catchUpComplete 0) (playing
      { row 79000 999 [cue 1 1000 .endShow 0 0 0 0] with
        anchor := 79001, ctx := { (row 79000 999 [cue 1 1000 .endShow 0 0 0 0]).ctx with
          catchUp := some { kind := .forward, held := [] } } })).rows[0]).map (·.ctx.catchUp) = some none := by decide +kernel

/-- Show 44 in RELEASING at show frame 199, its gate at 200, with the late watch of a gate before it. -/
def passing : Row :=
  let r := row 79801 199 [cue 0 200 .gate 0 0 (10 * 256 + 3) 0, cue 1 1000 .endShow 0 0 0 0]
  { r with phase := .releasing 79990 256, ctx := { r.ctx with lateWatch := some 2 } }

theorem test_gate_in_release :
    ((ran .towerFrameBoundary (playing passing)).rows[0]).map (fun r => (r.ctx.lateWatch, r.ctx.window.length)) = some (none, 1) := by
  decide +kernel

/-- Twenty cues of show frame 200, no END read after them. -/
def crowded (anchor : Nat) : Row :=
  let r := row anchor 199 ((List.range 20).map (fun i => cue i 200 .set 131 134 0 i))
  { r with ctx := { r.ctx with endRead := false } }

/-- A starved player stops before them and, with 16 cues or more held, asks for no refill; a catch-up takes them all (R78, R79, R90). -/
theorem test_crowded_boundary :
    (fun t : State => ((t.rows[0]).map (fun r => (r.ctx.window.length, r.ctx.starved)), t.lib.port))
      (ran .towerFrameBoundary (playing (crowded 79800))) = (some (20, true), none) := by decide +kernel
theorem test_crowded_catch_up :
    (fun t : State => ((t.rows[0]).map (fun r => (r.ctx.window.length, r.ctx.position)), t.lib.port))
      (ran (.catchUpComplete 0) (playing { crowded 79799 with
        ctx := { (crowded 79799).ctx with catchUp := some { kind := .forward, held := [] } } })) =
      (some (0, 200), some (.refill 0 true)) := by decide +kernel

/-- Show 44 at show frame 199, a GATE and the last cue held, a SET, at 200; its player last answered frame `n`. -/
def gateAtLast (n : Nat) : Row :=
  let r := row 79801 199 [cue 0 200 .gate 0 0 (10 * 256 + 3) 0, cue 1 200 .set 131 134 0 0]
  { r with ctx := { r.ctx with endRead := false, lastAnswer := some { frame := n, values := [] } } }

/-- The gate raises the projection limit from 199 to 200 as it is taken (R88): a flush only when frame 80,001 has been answered (R89). -/
theorem test_gate_raises_limit :
    [80001, 80000].map (fun n => (fun t : State => (t.mixer.flushAsked, (t.rows[0]).map (fun r => (r.phase == .running, r.ctx.position))))
      (ran .towerFrameBoundary (playing (gateAtLast n)))) = [(1, some (false, 200)), (0, some (false, 200))] := by decide +kernel

/-- Show 44 at show frame 195: a sweep in progress reaches the zones 1 to 3 of the map at 198, 200 and 201, and up to 200 the window
holds two MARKs, two SETs and a SWEEP that reaches zone 1 at 202. -/
def severalDue : Row :=
  let r := row 79801 195 [cue 1 196 .mark 0 0 20 0, cue 2 198 .set 131 134 0 100, cue 3 198 .mark 0 0 21 0,
    cue 4 200 .sweepUp 131 132 8 40, cue 5 200 .set 131 131 0 70, cue 6 1000 .endShow 0 0 0 0]
  { r with ctx := { r.ctx with sweeps := [{ cue := cue 0 197 .sweepUp 131 134 6 50, todo := [1, 2, 3] }] } }

/-- Items due at one boundary, in ascending effective frame and then stored order (R76): the SET of 198 comes after the sweep's item of 198
in zone 1, and the SET of 200 after the SWEEP's in zone 0; both sweeps go on, and the marks are filed and sent in order (R69, R81, R82). -/
theorem test_several_due :
    ((ran .towerFrameBoundary (playing severalDue)).rows[0]).map (fun r =>
        (r.ctx.zones.map (fun z => z[(1 : Fin 4)].map (fun o => (o.toLevels.l1, o.effective))),
          r.ctx.sweeps.map (fun w => (w.cue.index, w.todo)))) =
      some ([some (70, 200), some (100, 198), some (50, 200), some (100, 198)], [(0, [3]), (4, [1])]) := by decide +kernel
theorem test_several_marks :
    (fun t : State => ((t.rows[0]).map (·.marks), t.line.tx.map (fun f => (f.cls, f.data[6]?))))
      (ran .towerFrameBoundary (playing severalDue)) = (some [(20, 79997), (21, 79999)], [(3, some 20), (3, some 21)]) := by decide +kernel

/-! ### Frame computation: the examples of 5.3 to 5.6 -/

theorem test_fade : [1, 2, 3, 4, 5].map (fun k => (fadeLevel 4 k 200 3000, fadeLevel 4 k 3000 1000)) =
    [(900, 2500), (1600, 2000), (2300, 1500), (3000, 1000), (3000, 1000)] := by decide +kernel
theorem test_release_weights :
    releaseWeight 0 0 100 200 80 130 = 125 ∧ [100, 101, 102, 103].map (releaseWeight 0 0 100 256 3) = [256, 170, 85, 0] := by
  decide +kernel
theorem test_zone_slot_stages :
    fadeLevel 40 10 200 3000 = 900 ∧ attackWeight 84 64 100 = 64 ∧
      mixSlot (some (1500, 8)) (some { Levels.zero with l1 := 800 })
        [{ priority := 4, tag := 0, player := 1, weight := 256, values := { Levels.zero with l1 := 900 } },
         { priority := 9, tag := 84, player := 0, weight := 64, values := { Levels.zero with l1 := 4095 } }] 0 = 1698 ∧
      1698 * 400000 / 540000 = 1257 := by decide +kernel
theorem test_three_layers :
    mixSlot none none
      (orderLayers
        [{ priority := 6, tag := 90040, player := 3, weight := 125, values := { Levels.zero with l1 := 3500 } },
         { priority := 6, tag := 90000, player := 1, weight := 256, values := { Levels.zero with l1 := 2000 } },
         { priority := 3, tag := 0, player := 0, weight := 256, values := { Levels.zero with l1 := 1200 } }]) 0 = 2732 := by
  decide +kernel
theorem test_scaled_link : scaleLink 10000 [4095, 4095, 3000, 2000] = [3104, 3104, 2274, 1516] := by decide +kernel

theorem test_flush : (fun t : State => (t.out.records.length, t.mixer.cursor, count t .flushes)) (ran .flushRequest (buffered [80001, 80002])) =
    (0, none, 1) := by decide +kernel
theorem test_render_frame : ((ran .renderBegin (buffered [80001, 80002])).mixer.render).map (·.frame) = some 80003 := by decide +kernel
theorem test_render_safe :
    ((ran .renderBegin holding).mixer.render).map (fun r => (r.levels[0].take 5)) = some [1000, 1000, 1000, 1000, 0] := by decide +kernel

/-- A render of a frame that the counter has reached, and one that it has not. -/
def rendering (n : Nat) : State :=
  { up with mixer := { up.mixer with render := some { frame := n, safe := true, levels := Vector.replicate 4 [1000, 1000, 1000, 1000] } } }

theorem test_render_late : count (ran .renderComplete (rendering 80000)) .renderLate = 1 := by decide +kernel
theorem test_render_scaled :
    (ran .renderComplete (rendering 80001)).out.records.map (fun r => r.levels[0]) = [[750, 750, 750, 750]] := by decide +kernel

/-! ### The Output Queue and the links: the examples of 7.7 -/

theorem test_boundary_live :
    (fun t : State => (t.out.records.map (·.frame), t.drivers[0].sending.map (fun f => (f.kind, f.count)), t.out.lowWater))
      (ran .towerFrameBoundary (buffered [80001, 80002, 80003])) =
    ([80002, 80003], some (.live, 80001), false) := by decide +kernel
theorem test_boundary_underrun :
    (fun t : State => (t.out.underrun, t.out.lowWater, t.drivers[0].lastKind, count t .underruns, count t .lowWater))
      (ran .towerFrameBoundary (buffered [])) = (true, true, .held, 1, 1) := by decide +kernel

/-- Link 0 sends a frame, and another waits. -/
def sendingLink : State :=
  { up with drivers := up.drivers.set 0 { Driver.start with
      sending := some { kind := .live, count := 1, levels := [] }, waiting := some { kind := .held, count := 1, levels := [] } } }

theorem test_link_frame_end :
    ((ran (.linkFrameEnd 0) sendingLink).drivers[0]).sending.map (·.kind) = some .held := by decide +kernel

/-- Refresh timers that run out. -/
def refreshing : State := { up with drivers := up.drivers.map (fun d => { d with refresh := some 0, lastCount := 5 }) }

theorem test_refresh :
    (fun t : State => (t.drivers[2].sending.map (fun f => (f.kind, f.count)), t.drivers[2].refresh, count t .refreshes))
      (ran .refreshExpiry refreshing) = (some (.held, 5), some 25000, 1) := by decide +kernel

/-! ### Link Monitors: the examples of 8.8 and 8.9 -/

/-- SHORT of link 2. -/
def short2 : SenseClass := .link 2 .short

theorem test_short_reads :
    ((ran (.senseChange (.current 2 180001)) up).mon.sense short2).deglitch = some 100000 := by decide +kernel
theorem test_feed_boundary :
    ((ran (.senseChange (.feed 2 18000)) up).mon.sense (.link 2 .feedLow)).raw = false := by decide +kernel

/-- The raw SHORT sense of link 2 has stood for 100 ms (8.8). -/
def shorted : State :=
  { sensed short2 { Sense.start with raw := true, deglitch := some 0 } with
    mon := (up.mon.setSense short2 { Sense.start with raw := true, deglitch := some 0 }) }

theorem test_short_latches :
    (fun t : State => ((t.mon.sense short2).sticky, linkEnabled t 2, faultSummary t, count t .shorts)) (ran (.deglitchExpiry short2) shorted) =
      (true, false, 0xA0, 1) := by decide +kernel
theorem test_clear_too_soon :
    linkEnabled (ran (.clearFaults 0 0) (sensed short2 { Sense.start with present := true, sticky := true, cause := true })) 2 = false := by
  decide +kernel
theorem test_clear_in_time :
    (fun t : State => (linkEnabled t 2, count t .clearsTaken)) (ran (.clearFaults 0 0) (sensed short2 { Sense.start with sticky := true, cause := true })) =
      (true, 1) := by decide +kernel
theorem test_retry_enables :
    (fun t : State => (linkEnabled t 1, count t .retries))
      (ran (.retryExpiry 1 .openLine) (sensed (.link 1 .openLine) { Sense.start with sticky := true, cause := true, retry := some 0 })) =
    (true, 1) := by decide +kernel

/-! ### Safety Hold and contacts: the example of 9.5 -/

/-- An input whose reading has stood for 20 ms. -/
def closedFor (st : Debounced) : Input := { millivolts := 100, closed := true, state := st, timer := some 0 }

theorem test_own_hold_begins :
    (fun t : State => (t.safety, t.line.tx.map (fun f => (f.cls, f.data)), count t .safetyHolds))
      (ran (.debounceExpiry 0) (contact 0 (closedFor .inactive))) =
    ({ holdList := [7], ownHold := true, resend := some 2000000 }, [(0, [1])], 1) := by decide +kernel
theorem test_go_raised :
    (fun t : State => (t.line.tx.map (·.data), count t .goRaised)) (ran (.debounceExpiry 1) (contact 1 (closedFor .inactive))) =
      ([[0, 0, 0, 0, 0, 0, 0, 0, 0, 1, 0x38, 0x80]], 1) := by decide +kernel
theorem test_input_closes :
    (ran (.inputChange 0 799) (contact 0 { closedFor .inactive with closed := false, timer := none })).inputs[0].timer = some 20000 := by
  decide +kernel
theorem test_input_keeps : (ran (.inputChange 0 2000) (contact 0 (closedFor .active))).inputs[0].closed = true := by decide +kernel
theorem test_resend :
    (ran .resendExpiry { up with safety := { holdList := [7], ownHold := true, resend := some 0 } }).line.tx.map (·.cls) = [0] := by
  decide +kernel
theorem test_two_holders : (ran (.safetySet 30) { up with safety := { up.safety with holdList := [18] } }).safety.holdList = [18, 30] := by
  decide +kernel
theorem test_one_leaves : (ran (.safetyClear 18) { up with safety := { up.safety with holdList := [18, 30] } }).safety.holdList = [30] := by
  decide +kernel
theorem test_clear_all :
    (fun t : State => (t.safety.holdList, count t .clearAllTaken)) (ran (.safetyClearAll 0 0) holding) = ([], 1) := by decide +kernel
theorem test_clear_all_refused :
    (fun t : State => (t.safety.holdList, count t .clearAllRefused))
      (ran (.safetyClearAll 18 0) { among [peer 18 .locked 0] with safety := holding.safety }) = ([9], 1) := by decide +kernel

/-! ### The show library: the example of 6.8 -/

theorem test_show_begin :
    (fun t : State => (t.lib.dir[0], t.lib.port)) (ran (.showBegin 0 7 61 5) up) = (.erasing 61 5, some (.sectorErase 0 0 true)) := by
  decide +kernel
theorem test_block_beyond :
    (fun t : State => (count t .blocksOutOfRange, count t .libraryRefused)) (ran (.showBlock 0 7 61 7 0) (slot 0 (.erasing 61 5))) =
      (1, 1) := by decide +kernel
theorem test_block_again :
    count (ran (.showBlock 0 7 61 2 0) (slot 0 (.loading 61 5 [2] none))) .blocksDuplicate = 1 := by decide +kernel
theorem test_delete_in_use : count (ran (.showDelete 0 7 44) sweeping) .libraryRefused = 1 := by decide +kernel
theorem test_delete_dead : (ran (.showDelete 0 7 44) loaded).lib.port = some (.deadMark 0) := by decide +kernel

theorem test_last_sector_then_tag :
    (ran .sectorEraseComplete (busy (.sectorErase 0 4 true)
      { slot 0 (.erasing 61 5) with lib := { (slot 0 (.erasing 61 5)).lib with erase := [{ slot := 0, erased := 4 }] } })).lib.port =
    some (.tagWrite 0 61 5) := by decide +kernel
theorem test_tag_written :
    (ran .tagWriteComplete (busy (.tagWrite 0 61 5)
      { slot 0 (.erasing 61 5) with lib := { (slot 0 (.erasing 61 5)).lib with erase := [{ slot := 0, erased := 5 }] } })).lib.dir[0] =
    .loading 61 5 [] none := by decide +kernel
theorem test_last_block_checks :
    (ran .blockWriteComplete (busy (.blockWrite 0 { showNo := 61, index := 4, data := 0 } true)
      (slot 0 (.loading 61 5 [0, 1, 2, 3] none)))).lib.port = some (.checkRead 0 0) := by decide +kernel
theorem test_dead_written :
    ((ran .deadMarkWriteComplete (busy (.deadMark 0)
      { up with flash := up.flash.set 0 { FlashSlot.blank with tag := some { showNo := 61, blocks := 5, dead := false } } })).flash[0]).tag =
    some { showNo := 61, blocks := 5, dead := true } := by decide +kernel

/-- Show 44 in flash, written out by the layouts of R174: a header, a blank block, and one END cue at show frame 1,000. -/
def shortShow : FlashSlot :=
  { tag := some { showNo := 44, blocks := 3, dead := false }, marks := [0, 1, 2]
    data := [(0, BitVec.ofNat 128 (0x2C000100_03E84050_00830086_00000000 + (crcBytes (blockBytes endBlock)).toNat * 2 ^ 16)), (1, 0),
             (2, endBlock)] }
where
  /-- The END cue. -/
  endBlock : Block := 0x0003E860_00000000_00000000_00000000#128

/-- The last read of its check. -/
def lastRead : State :=
  busy (.checkRead 3 2) { slot 3 (.loading 44 3 [0, 1, 2] (some 2)) with flash := up.flash.set 3 shortShow }

theorem test_check_passes :
    (ran .checkReadComplete lastRead).lib.dir[3] =
      .complete 44 3 [0, 1, 2] { length := 1000, attack := 64, release := 80, low := 131, high := 134 } := by decide +kernel

/-- A player of that show waits for its first refill. -/
def refilling : State :=
  let s := playing { row 79000 999 [] with ctx := { (row 79000 999 []).ctx with endRead := false, nextCue := 0 } }
  busy (.refill 0 true) { s with flash := up.flash.set 0 shortShow, lib := { s.lib with dir := s.lib.dir.set 0 (.complete 44 3 [0, 1, 2] header) } }

theorem test_refill :
    ((ran .refillComplete refilling).rows[0]).map (fun r => (r.ctx.window.map (·.action), r.ctx.endRead)) =
      some ([.endShow], true) := by decide +kernel

/-- The same player in RELEASING, its show a LOOP whose END stands in the window: it reads on from the first cue (R78). -/
def loopRelease : State :=
  let r := row 79000 999 [cue 0 1000 .endShow 0 0 0 0]
  { refilling with rows := refilling.rows.set 0 (some { r with phase := .releasing 79990 256, mode := .loop }) }

theorem test_refill_loop_release :
    ((ran .refillComplete loopRelease).rows[0]).map (fun r => (r.ctx.window.take 3).map (·.action)) =
      some [.endShow, .endShow, .endShow] := by decide +kernel

/-! ### The link frame (R135) -/

/-- The line break, the start code 01h and the kind 02h SAFE; two levels, the lower slot first, each most significant bit first. -/
theorem test_link_frame_sent :
    (fun x : List LinkSymbol => (x.take 101, (x.drop 107).take 9, (x.drop 132).take 24))
      (linkFrameSent { kind := .safe, count := 0x8001, levels := [0x801, 0x00F] }) =
    (List.replicate 100 .lineBreak ++ [.bit false],
     [true, false, false, false, false, false, false, true, false].map .bit,
     [true, false, false, false, false, false, false, false, false, false, false, true,
      false, false, false, false, false, false, false, false, true, true, true, true].map .bit) := by decide +kernel
/-- A link frame occupies its link for 3,220 µs. -/
theorem test_link_frame_time :
    (linkFrameSent { kind := .held, count := 0, levels := List.replicate 256 0 }).length = 3220 := by decide +kernel

/-! ### The tower line: the example of 10.3 -/

/-- The full queue of station 21: B1, A1 to A3, M1 to M4, R1 to R4. -/
def full : State := queued [1, 2, 2, 2, 3, 3, 3, 3, 5, 5, 5, 5]

theorem test_full_drops_report :
    (fun t : State => (t.line.tx.length, count t .txDropped)) (send (newFrame 5 [99]) full) = (12, 1) := by decide +kernel
theorem test_full_displaces :
    (fun t : State => (t.line.tx.map (fun f => f.data), count t .txDisplaced)) (send (newFrame 3 [99]) full) =
      ([[0], [1], [2], [3], [4], [5], [6], [7], [99], [8], [9], [10]], 1) := by decide +kernel

/-- The check of the tower line over the nine digits, a known answer of its generator. -/
theorem test_check_known : crcBytes [0x31, 0x32, 0x33, 0x34, 0x35, 0x36, 0x37, 0x38, 0x39] = 0x29B1 := by decide +kernel

theorem test_idle_stamps :
    (ran .lineIdle (queued [1])).line.tx.map (fun f => (f.sending, f.data)) =
      [(true, [0, 0, 0, 0x77, 0x35, 0x94, 0x00])] := by decide +kernel
theorem test_arbitration_lost :
    (ran .arbitrationLost (transmitting (newFrame 2 [1]))).line.tx.map (fun f => (f.sending, f.contention)) = [(false, 0)] := by
  decide +kernel
theorem test_third_contention :
    (fun t : State => (t.line.tx.length, t.line.duplicate, count t .contentionDrops))
      (ran .dataFieldContention (transmitting { newFrame 2 [1] with contention := 2 })) = (0, true, 1) := by decide +kernel
theorem test_frame_sent : (ran .frameSent (transmitting (newFrame 2 [1]))).line.tx = [] := by decide +kernel
theorem test_line_fault : (fun t : State => (t.line.fault, count t .lineFaults)) (ran .lineFault up) = (true, 1) := by decide +kernel
theorem test_line_fault_idle :
    (fun t : State => (t.line.fault, t.line.wire)) (ran .lineFault { up with line := { up.line with wire := .idle } }) =
      (true, .busy) := by decide +kernel

/-- The same queue on a line that stands idle. -/
def onIdleLine (s : State) : State := { s with line := { s.line with wire := .idle } }

theorem test_idle_line_starts : (nextOf (step (onIdleLine (queued [2])))).pending = [.lineIdle] := by decide +kernel
theorem test_idle_line_quiet :
    (nextOf (step (onIdleLine (inState .starting)))).line.sinceIdle = 0 ∧ (nextOf (step (inState .starting))).line.sinceIdle = 1 ∧
      (nextOf (step pinned)).line.sinceIdle = 0 := by decide +kernel
/-- A frame goes out under the station's number: start bit, class 2, sender 7, length 1 (R162, R168). -/
theorem test_sent_sender :
    (sentBits (ran .lineIdle (queued [2]))).map (·.take 15) =
      some [false, false, true, false, false, false, false, true, true, true, false, false, false, false, true] := by decide +kernel

/-- A line frame as received, its check as computed. -/
def heard (cls : BitVec 3) (sender : LineNumber) (data : List Byte) : LineFrame :=
  { cls := cls, sender := sender, length := BitVec.ofNat 5 data.length, data := data
    check := lineCheck cls.toNat sender.toNat data.length data, endGood := true, arrival := 2000000000 }

theorem test_received_set : (ran (.frameReceived (heard 0 18 [1])) up).safety.holdList = [18] := by decide +kernel
/-- A SAFETY SET that ends an idle line: 42 bits of 4 µs since its start bit (R162, R170). -/
theorem test_idle_since_frame :
    (fun l : LineInterface => (l.sinceIdle, l.wire)) (ran (.safetySet 18) (onIdleLine up)).line = (168, .busy) := by decide +kernel
theorem test_received_bad_check :
    count (ran (.frameReceived { heard 0 18 [1] with check := 0 }) up) .checkErrors = 1 := by decide +kernel

/-! ### Starts -/

theorem test_power_start :
    (fun t : State => (t.start.state, t.start.number, t.start.retainLost, t.time.hops, t.time.ref.state))
      (ran (.powerStart 7 (some boot) true) State.reset) = (.running, 7, true, 15, .absent) := by
  simp only [ran, nextOf, exec, execPowerStart, powerStart, runStart, readBoot, boot_good]
  decide +kernel
theorem test_power_start_fault :
    (fun t : State => (t.start.state, t.start.reason))
      (ran (.powerStart 7 (some deepBoot) true) State.reset) = (.configFault, some .depth) := by
  simp only [ran, nextOf, exec, execPowerStart, powerStart, runStart, readBoot, deepBoot_depth]
  decide +kernel
theorem test_pin_short : (ran (.restartPinFall 9) up).start.pinLow = false := by decide +kernel
theorem test_pin_rises :
    (fun t : State => (t.start.state, t.start.number, t.time.ns)) (ran (.restartPinRise 8 (some boot)) (ran (.restartPinFall 10) up)) =
      (.running, 8, 2000000000000) := by
  simp only [ran, nextOf, exec, execRestartPinRise, runStart, readBoot, boot_good]
  decide +kernel
theorem test_restart_waits :
    (fun t : State => (t.start.restart, t.line.tx.map (·.data))) (ran (.restart 0 7) up) = (some 100000, [[2, 0, 4, 6, 0, 0, 0]]) := by
  decide +kernel
/-- A restart by command begins with an empty hold list and an empty transmit queue (R178), whatever the straps and boot memory present
to it. -/
theorem warmRestart_empties (s : State) :
    (warmRestart s).safety = SafetyHold.start ∧ (warmRestart s).line = LineInterface.start := by
  simp [warmRestart, startBlocks]

theorem test_restart_timeout (s : State) (h : awake s = true) (hr : s.start.restart.isSome = true) :
    (ran .restartTimeout s).safety.holdList = [] := by
  simp [ran, nextOf, exec, execRestartTimeout, onEvent, h, hr, (warmRestart_empties s).1, SafetyHold.start]
theorem test_power_loss :
    (ran (.mainPowerLoss .dataOnly) (busy (.blockWrite 0 { showNo := 61, index := 2, data := 5 } true) up)).flash[0] =
      { tag := none, marks := [], data := [(2, 5)] } := by decide +kernel

/-! ### Queries (R180) -/

/-- What a query of station 7 queues. -/
def replied (c : Instr) (s : State) : List (List Byte) := (ran c s).line.tx.map (·.data)

/-- RUNNING, time-valid and a hold; nothing in the summary but UNDERRUN (R151, R174). -/
theorem test_station_bits :
    (stationByte holding, faultSummary { up with out := { up.out with underrun := true } }) = (0xC1, 0x02) := by decide +kernel
theorem test_query_hold_list : replied (.queryHoldList 0 7 0) holding = [[3, 0, 10, 0, 0, 0, 9]] := by decide +kernel
theorem test_query_unknown : replied (.queryUnknownItem 0 7 13 0) up = [[2, 0, 4, 7, 3, 0, 13]] := by decide +kernel
theorem test_query_page : replied (.queryStatusPage 0 7 6) up = [[2, 0, 4, 7, 3, 0, 1]] := by decide +kernel
theorem test_query_time : replied (.queryTime 0 7 1) up = [[2, 0, 4, 7, 3, 0, 2]] := by decide +kernel
theorem test_query_peer : replied (.queryPeer 0 7 9) up = [[2, 0, 4, 7, 4, 0, 3]] := by decide +kernel
theorem test_query_instance : replied (.queryInstance 0 7 4) up = [[2, 0, 4, 7, 3, 0, 4]] := by decide +kernel
theorem test_query_slot : replied (.querySlot 0 7 32) up = [[2, 0, 4, 7, 3, 0, 5]] := by decide +kernel
theorem test_query_received :
    (replied (.queryReceivedSet 0 7 0) (slot 0 (.loading 61 5 [0, 1] none))).head? =
      some [3, 0, 6, 0, 0, 0x07, 0xC0, 0, 0, 0, 0, 0, 0, 0, 0, 0, 0, 0, 0, 0, 0, 0, 0, 0] := by decide +kernel
theorem test_query_entry : replied (.queryEntry 0 7 30) up = [[2, 0, 4, 7, 4, 0, 7]] := by decide +kernel
theorem test_query_calendar : replied (.queryCalendar 0 7 1) up = [[2, 0, 4, 7, 3, 0, 8]] := by decide +kernel
theorem test_query_link : replied (.queryLink 0 7 4) up = [[2, 0, 4, 7, 3, 0, 9]] := by decide +kernel
theorem test_query_inputs : replied (.queryInputs 0 7 1) up = [[2, 0, 4, 7, 3, 0, 11]] := by decide +kernel
theorem test_query_boot : replied (.queryBoot 0 7 1) up = [[2, 0, 4, 7, 3, 0, 12]] := by decide +kernel

/-! ### Witnesses: the hypotheses of every statement can be met

Each theorem is named after its statement and gives, for every clause that has hypotheses, a state and operands that meet them,
at a boundary value where the clause has a range. -/

theorem witness_StepTakesTheFront : { up with pending := [Instr.lineFault, .lineIdle] }.pending = .lineFault :: [.lineIdle] := rfl

/-- Station 7 one boundary behind its counter. -/
def late : State := { up with time := { up.time with lastBoundary := 79999 } }

theorem witness_IdleStationTicks :
    (off.pending = [] ∧ off.start.powered = false) ∧ (late.pending = [] ∧ dueEvent late = some .towerFrameBoundary) ∧
      let s := inState .starting
      (s.pending = [] ∧ s.start.powered = true ∧ dueEvent s = none ∧ s.time.hold = none ∧ s.time.trim = 0 ∧ s.time.slew = 0 ∧
        s.time.fraction = 0) ∧
      let h := { s with time := held.time }
      h.pending = [] ∧ h.start.powered = true ∧ dueEvent h = none ∧ h.time.hold = some 500 := by decide +kernel

theorem witness_NothingWithoutPower :
    awake off = false ∧ awake pinned = false ∧ actsAsleep .lineIdle = false ∧ actsAsleep (.safetySet 3) = false := by decide +kernel

theorem witness_FramesForOthersIgnored :
    (frameSender (.stopAll 3 9) = some 3 ∧ frameTarget (.stopAll 3 9) = some (9, false) ∧ targetTaken up (9, false) = false) ∧
      (frameSender (.restart 3 0) = some 3 ∧ frameTarget (.restart 3 0) = some (0, true) ∧ targetTaken up (0, true) = false) ∧
      awake up = true := by decide +kernel

theorem witness_StartingDiscardsFrames :
    frameSender (.stopAll 3 0) = some 3 ∧ frameSender (.mark 3 0 0 0 0) = some 3 ∧
      frameSender (.announceStart 3 (announcement 0 0)) = some 3 ∧ awake (inState .starting) = true ∧
      (inState .starting).start.state = .starting := by decide +kernel

theorem witness_OwnNumberIsDuplicate :
    frameSender (.safetySet 7) = some 7 ∧ frameSender (.safetySet 8) = some 8 ∧ awake up = true ∧ up.start.number = 7 := by
  decide +kernel

/-- Station 7 with something in every table and queue, and a command waiting. -/
def rich : State :=
  { among [peer 3 .locked 0, peer 9 .seeking 5] with
    cal := { up.cal with entries := [entry30, windowEntry 31 (.curfew 800 16)], dusk := [(1, 1080), (366, 1439)], seasons := seasons2030 }
    safety := holding.safety
    line := (queued [0, 1, 5]).line
    lib := { up.lib with queue := [{ showNo := 61, index := 0, data := 0 }] }
    pending := [.safetySet 18] }

theorem witness_LimitsKept : WithinLimits rich ∧ ∃ t, step rich = .next t := by
  refine ⟨?_, _, rfl⟩
  constructor
  case asleep => intro h; exact absurd h (by decide +kernel)
  all_goals decide +kernel

/-- Show 44 GATED with a command waiting. -/
def gatedWaiting : State := { gated with pending := [.mark 5 44 79000 3 79000] }

theorem witness_ShowsHeldKept : ShowsHeld gatedWaiting ∧ ∃ t, step gatedWaiting = .next t := by
  have only : ∀ p : Fin 4, ∀ r ∈ gatedWaiting.rows[p], p = 0 ∧ r.showNo = 44 ∧ r.phase = .gated (gate 79300) ∧ r.tag ≤ r.anchor ∧
      r.anchor = 79300 ∧ r.marks = [] ∧ r.ctx.window.length ≤ 32 ∧ r.ctx.sweeps.length ≤ 8 ∧ r.ctx.pendingMarks.length ≤ 4 := by
    decide +kernel
  have slots : ∀ i j : Fin 32, slotShow gatedWaiting.lib.dir[i] = slotShow gatedWaiting.lib.dir[j] →
      slotShow gatedWaiting.lib.dir[i] ≠ none → i = j := by decide +kernel
  refine ⟨⟨fun p r h => ?_, fun p q a b ha hb _ => (only p a ha).1.trans (only q b hb).1.symm, fun p r h => ?_, fun i j n hi hj => ?_,
    fun h => absurd h (by decide +kernel)⟩, _, rfl⟩
  · obtain ⟨-, -, phase, tag, anchor, marks, window, sweeps, pend⟩ := only p r h
    refine ⟨tag, fun g hg => ?_, by simp [marks], by simp [marks], window, sweeps, pend⟩
    rw [phase] at hg
    cases hg
    rw [anchor]
    decide
  · rw [(only p r h).2.1]
    exact ⟨0, 4, [0, 1, 2, 3], header, by decide +kernel⟩
  · exact slots i j (hi.trans hj.symm) (by rw [hi]; exact Option.some_ne_none n)

/-- Two records wait, a render is in progress, and a command waits. -/
def renderingThird : State :=
  { buffered [80001, 80002] with
    mixer := { (buffered [80001, 80002]).mixer with render := some { frame := 80003, safe := false, levels := flat 0 } }
    pending := [.renderComplete] }

theorem witness_RecordsInOrderKept : RecordsInOrder renderingThird ∧ ∃ t, step renderingThird = .next t := by
  refine ⟨⟨by decide +kernel, by decide +kernel, fun r h => ⟨80002, by decide +kernel, ?_⟩, fun r h => ?_,
    fun h => absurd h (by decide +kernel)⟩, _, rfl⟩
  · exact (by decide +kernel : ∀ r ∈ renderingThird.out.records, r.frame ≤ 80002) r h
  · cases h
    exact ⟨by decide +kernel, fun k hk => by cases hk; decide⟩

theorem witness_ListenOnlyIsSilent :
    ListensOnly { listening with pending := [.safetySet 18] } ∧ ∃ t, step { listening with pending := [.safetySet 18] } = .next t :=
  ⟨⟨fun _ => by decide +kernel, fun h => absurd h (by decide +kernel)⟩, _, rfl⟩

theorem witness_ShowMemoryKept : Memory.wf { lastRead with pending := [.checkReadComplete] }.flash = true ∧
    ∃ t, step { lastRead with pending := [.checkReadComplete] } = .next t := ⟨by decide +kernel, _, rfl⟩

theorem witness_CountersNeverFall : canStart .flushRequest = false ∧ ∃ t, exec .flushRequest up = .next t := ⟨rfl, _, rfl⟩

theorem witness_DelayFromPositions :
    (1023 : Nat) ≤ 1023 ∧ { (peer 3 .locked 0).body with position := 1023 }.position.toNat ≤ 1023 ∧ faulted.start.boot = none ∧
      up.start.boot = some boot := ⟨by decide, by decide, rfl, rfl⟩

theorem witness_LockFilter :
    (newPeer 3 (peer 3 .locked 0).body 0).previous = none ∧
      ((peer 3 .seeking 100).previous = some 100 ∧ (peer 3 .seeking 100).lock = .seeking ∧ (500 - 100 : Int).natAbs ≤ 400 ∧
        400 < (501 - 100 : Int).natAbs) ∧
      ((peer 3 .locked 100).previous = some 100 ∧ (peer 3 .locked 100).lock = .locked ∧ (peer 3 .locked 100).inconsistentRun + 1 < 12) ∧
      12 ≤ { peer 3 .locked 100 with inconsistentRun := 11 }.inconsistentRun + 1 := by decide +kernel

theorem witness_FadeBetweenLevels : (1 : Int) ≤ 1 ∧ ((4 : Nat) : Int) ≤ 4 ∧ (3 : Int) < (4 : Nat) := by decide

theorem witness_WeightsRiseAndFall :
    (99 < 100 ∧ 100 ≤ 100 ∧ 100 + 64 ≤ 164 ∧ 163 < 100 + 64) ∧ 1 ≤ 80 ∧ 179 < 100 + 80 ∧ 100 + 80 ≤ 180 := by decide

theorem witness_MixStepByWeight : (256 : Nat) ≤ 256 ∧ (0 : Nat) ≤ 256 := by decide

/-- Two layers of full weight, the second of exempt priority. -/
def twoLayers : List Layer :=
  [{ priority := 4, tag := 0, player := 1, weight := 256, values := unpackLevels (2 ^ 48 - 1) },
   { priority := 9, tag := 0, player := 0, weight := 0, values := unpackLevels 0 }]

theorem witness_CurfewCapsTheMix :
    (∀ l ∈ twoLayers, 8 ≤ l.priority → l.weight = 0) ∧ (∀ l ∈ twoLayers, l.values.get 0 ≤ 4095 ∧ l.weight ≤ 256) ∧
      (∀ b, some (unpackLevels (2 ^ 48 - 1)) = some b → b.get 0 ≤ 4095) ∧
      (twoLayers.filter (fun l => l.priority < 9)).length = 1 ∧ (twoLayers.filter (fun l => 9 ≤ l.priority)).length = 1 := by
  exact ⟨by decide +kernel, by decide +kernel, fun b h => by cases h; decide +kernel, by decide +kernel⟩

theorem witness_BudgetIsKept :
    0 < 10000 ∧ 10000 < [4095, 4095, 3000, 2000].sum ∧ [4095, 4095].sum ≤ 8190 ∧ 0 < budgetOf up 0 := by decide +kernel

theorem witness_ConsensusIsLowerMedian :
    [3, 1, 2] ≠ ([] : List Int) ∧ ∀ x ∈ [PeriodSample.mk 5 15 true false], x.hops ≤ 15 := by decide +kernel

theorem witness_ClockInstantIsEarliest : (seasons2030.map (·.instant)).Pairwise (· < ·) := by decide +kernel

/-- Entries 9 and 14, both open. -/
def openEntries : List Entry := [windowEntry 9 (.curfew 1500 12), windowEntry 14 (.curfew 800 16), windowEntry 17 (.base 5 Levels.zero)]

theorem witness_SelectionAmongOpen :
    (openEntries.map (·.id)).Pairwise (· < ·) ∧ selectCurfew openEntries = some (14, 800, 16) ∧
      selectBasePriority openEntries = some (17, 5, Levels.zero) := by decide +kernel

theorem witness_FullQueueDisplaces :
    (queued [1]).line.tx.length < 12 ∧
      (let q := (queued (List.replicate 12 5)).line.tx.map (fun f => { f with sending := true })
       12 ≤ q.length ∧ ∀ g ∈ q, g.sending = true) ∧
      12 ≤ full.line.tx.length ∧ full.line.tx.Pairwise (fun a b => a.cls ≤ b.cls) ∧
      full.line.tx = full.line.tx.dropLast ++ newFrame 5 [11] :: [] := by decide +kernel

/-- Station 7 with a row whose player asks for a refill. -/
def asking : State := playing { row 79000 999 [] with ctx := { (row 79000 999 []).ctx with endRead := false, refillAsked := true } }

theorem witness_PortServesInOrder :
    (busy (.deadMark 0) up).lib.port.isSome = true ∧
      (asking.lib.port = none ∧ (asking.rows[0].map (·.ctx.refillAsked)) = some true) ∧
      (up.lib.port = none ∧ ∀ p : Fin 4, ∀ r ∈ up.rows[p], r.ctx.refillAsked = false) ∧
      { up.lib with deadMarks := [3] }.deadMarks = 3 :: [] ∧
      up.lib.deadMarks = [] ∧
      ({ up.lib with erase := [{ slot := 0, erased := 5 }] }.erase = { slot := 0, erased := 5 } :: [] ∧
        (slot 0 (.erasing 61 5)).lib.dir[(0 : Fin 32)] = .erasing 61 5) ∧
      ({ up.lib with erase := [{ slot := 0, erased := 4 }] }.erase = { slot := 0, erased := 4 } :: []) ∧
      ({ up.lib with queue := [{ showNo := 60, index := 0, data := 0 }, { showNo := 61, index := 0, data := 0 }] }.queue =
          [{ showNo := 60, index := 0, data := 0 }] ++ { showNo := 61, index := 0, data := 0 } :: [] ∧
        (slot 0 (.loading 61 5 [] none)).lib.dir[(0 : Fin 32)] = .loading 61 5 [] none ∧
        ∀ i : Fin 32, slotShow (slot 0 (.loading 61 5 [] none)).lib.dir[i] ≠ some 60) ∧
      ((slot 3 (.loading 44 3 [0, 1, 2] (some 0))).lib.dir[(3 : Fin 32)] = .loading 44 3 [0, 1, 2] (some 0) ∧
        ∀ i : Fin 32, i < 3 → (slot 3 (.loading 44 3 [0, 1, 2] (some 0))).lib.dir[i] = .empty) := by decide +kernel

/-- A row with `cues` cues held and END read, or cues left to read (R78). -/
def cuesHeld (cues : Nat) (endRead : Bool) : Row :=
  { row 79000 999 [] with ctx := { (row 79000 999 []).ctx with window := List.replicate cues (cue 0 2000 .mark 0 0 0 0), endRead := endRead } }

/-- Station 7 with two rows that need a refill. -/
def twoShort : State := { up with rows := (up.rows.set 0 (some (cuesHeld 0 false))).set 1 (some (cuesHeld 15 false)) }

/-- The clauses of R78: a row that needs no refill (16 cues held; END read); one that needs it with the port busy, or behind another row; and
the first that needs it with the port free. -/
theorem witness_PortServesInOrder_refills :
    (¬ AskedFor none 0 (cuesHeld 16 false) ∧ ¬ AskedFor none 0 (cuesHeld 0 true)) ∧
      (AskedFor (some (.deadMark 0)) 0 (cuesHeld 15 false) ∧ (busy (.deadMark 0) twoShort).lib.port.isSome = true) ∧
      (twoShort.lib.port = none ∧ AskedFor none 0 (cuesHeld 0 false) ∧ AskedFor none 1 (cuesHeld 15 false)) ∧
      ¬ AskedFor (some (.refill 0 true)) 0 (cuesHeld 15 false) := by decide +kernel

/-- The first takes the port and is asked for no more; the second goes on asking. -/
theorem test_refill_asked_and_taken :
    (servePort twoShort).lib.port = some (.refill 0 true) ∧
      (List.finRange 4).map (fun p => (servePort twoShort).rows[p].map (·.ctx.refillAsked)) = [some false, some true, none, none] := by
  decide +kernel

theorem witness_RecomputeLooksAheadAndBack :
    nextFireOf [] seasons2030 954468000 entry30 = some (954552600 * 40) ∧
      windowEndOf [] seasons2030 954468000 (windowEntry 9 (.curfew 1500 12)) = some ((954468000 + 3600) * 40) ∧
      ({ entry30 with enabled := false }.enabled = false) ∧ entry30.enabled = true ∧ entry30.kind = .playShow 44 6 .once 0 ∧
      (windowEntry 9 (.curfew 1500 12)).enabled = true := by decide +kernel

/-- The first and the last day and a 29 February are dates of the clause on recurrence days; a dusk value that the table holds once, and
one that it does not hold. -/
theorem witness_RecomputeLooksAheadAndBack_days :
    let day : Nat → Nat → Nat → Nat := fun y m d => 365 * y + (y + 3) / 4 +
      (([31, if y % 4 = 0 then 29 else 28, 31, 30, 31, 30, 31, 31, 30, 31, 30, 31].take (m - 1)).sum) + (d - 1)
    (day 0 1 1 = 0 ∧ day 28 2 29 = 10286 ∧ day 30 10 27 = 11257 ∧ day 99 12 31 = 36524) ∧
      (([(60, 1430), (61, 90)] : List (Nat × Nat)).filter (fun e => e.1 == 60)) = [(60, 1430)] ∧
      ([(60, 1430), (61, 90)] : List (Nat × Nat)).all (fun e => e.1 != 62) = true := by decide +kernel

theorem witness_EntryChecks : (entryOf image30).isSome = true := by decide +kernel

/-- An entry that is disabled, or while time-valid is clear, loses its next-fire and its window (R33, R36). -/
theorem test_recompute_off :
    let open' := { windowEntry 9 (.curfew 1500 12) with nextFire := some 7 }
    let off' := fun (valid en : Bool) => ({ open' with enabled := en }.recompute [] seasons2030 valid 954468000)
    [off' true false, off' false true].map (fun e => (e.nextFire, e.windowEnd)) = [(none, none), (none, none)] := by decide +kernel

/-! ### Witnesses: starts and time -/

/-- The contents of a slot of tag `g` with marks and written blocks. -/
def tagged (g : SlotTag) (marks written : List Nat) : FlashSlot :=
  { tag := some g, marks := marks, data := written.map (fun k => (k, 0)) }

/-- The rows of the table of SlotRebuilt: no tag, a tag that is dead, of no show or out of range, a show held below, every mark written, a
torn block, and a show still loading; and a unit of port work in progress at the start, and none. -/
theorem witness_PowerStartTakesStartValues :
    (off.start.powered = false ∧ up.start.powered = true) ∧ FlashSlot.blank.tag = none ∧
      ((tagged { showNo := 61, blocks := 5, dead := true } [] []).tag.map (·.dead) = some true ∧ (2 < 3) ∧ (1024 < 1025)) ∧
      (slotShow (slot 0 (.loading 61 5 [] none)).lib.dir[(0 : Fin 32)] = some 61 ∧ (0 : Fin 32) < 1) ∧
      (shortShow.marks.filter (fun k => k < 3)).length = 3 ∧
      (let torn := tagged { showNo := 61, blocks := 5, dead := false } [0] [0, 1]
       (torn.marks.filter (fun k => k < 5)).length ≠ 5 ∧ (torn.data.map (·.1)).any (fun k => !torn.marks.contains k) = true) ∧
      (let open' := tagged { showNo := 61, blocks := 1024, dead := false } [0, 1] [0, 1]
       (open'.marks.filter (fun k => k < 1024)).length ≠ 1024 ∧ ∀ e ∈ open'.data, e.1 ∈ open'.marks) ∧
      ((busy (.sectorErase 0 4 true) off).lib.port = some (.sectorErase 0 4 true) ∧ off.lib.port = none) ∧
      (lastRead.lib.dir[(3 : Fin 32)] = .loading 44 3 [0, 1, 2] (some 2) ∧ ∀ i : Fin 32, up.lib.dir[i] = .empty) := by decide +kernel

theorem witness_RestartPinRestarts :
    awake up = true ∧ 9 < 10 ∧ 10 ≤ 10 ∧ pinned.start.powered = true ∧ pinned.start.pinLow = true := by decide +kernel

theorem witness_RestartCommandRestarts :
    (started up = true ∧ targeted 7 up = true) ∧ { up.start with restart := some 0 }.restart.isSome = true ∧
      sendingFrame (transmitting { newFrame 5 [] with restart := true }) = some { newFrame 5 [] with restart := true, sending := true } ∧
      awake (transmitting (newFrame 5 [])) = true := by decide +kernel

theorem witness_PowerLossKeepsRetained :
    up.start.powered = true ∧ up.lib.port = none ∧
      (∀ u ∈ [PortUnit.refill 0 true, .checkRead 0 0, .tagWrite 0 61 5, .deadMark 0, .sectorErase 0 4 true],
        (busy u up).lib.port = some u ∧ ∀ i b live, u ≠ .blockWrite i b live) ∧
      (busy (.blockWrite 0 { showNo := 61, index := 2, data := 5 } true) up).lib.port =
        some (.blockWrite 0 { showNo := 61, index := 2, data := 5 } true) :=
  ⟨by decide +kernel, by decide +kernel, fun u h => by
    simp only [List.mem_cons, List.not_mem_nil, or_false] at h
    obtain rfl | rfl | rfl | rfl | rfl := h <;> exact ⟨rfl, by intros; exact nofun⟩, rfl⟩

/-- A dead mark that is cut leaves the tag as it was, or is written whole (R119, R126). -/
theorem test_power_loss_at_dead_mark :
    let s := { busy (.deadMark 0) up with flash := up.flash.set 0 shortShow }
    [CutPoint.nothing, .dataOnly, .whole].map (fun c => (ran (.mainPowerLoss c) s).flash[(0 : Fin 32)].tag.map (·.dead)) =
      [some false, some false, some true] := by decide +kernel

theorem witness_BoundaryHandsOver :
    (held.start.powered = true ∧ held.time.hold.isSome = true) ∧
      (pinned.start.powered = true ∧ pinned.time.hold = none ∧ pinned.start.pinLow = true) ∧
      (up.start.powered = true ∧ up.time.hold = none ∧ up.start.pinLow = false ∧ up.start.state ≠ .starting ∧ isRunning up = true ∧
        linkEnabled up 0 = true ∧ up.drivers[(0 : Fin 4)].sending = none) ∧
      (inState .starting).start.state = .starting ∧ isRunning faulted = false ∧
      (isRunning sendingLink = true ∧ linkEnabled sendingLink 0 = true ∧ sendingLink.drivers[(0 : Fin 4)].sending.isSome = true) := by
  decide +kernel

/-- The cues of show 44 up to a first one at show frame 200. -/
def first (action : Action) : List Cue := [cue 0 200 action 131 134 (8 * 256 + 6) 4000, cue 1 1000 .endShow 0 0 0 0]

/-- A row in another phase. -/
def phased (ph : Phase) (r : Row) : Row := { r with phase := ph }

/-- A SUSPENDED row. -/
def suspend (r : Row) : Row := { r with suspended := true }

/-- A row whose window does not tell what comes next. -/
def unread (r : Row) : Row := { r with ctx := { r.ctx with endRead := false } }

/-- A row with one sweep in progress, which reaches zone 1 of the map at show frame 200 or zones 1 and 2 in turn. -/
def midSweep (todo : List Nat) (r : Row) : Row :=
  { r with ctx := { r.ctx with sweeps := [{ cue := cue 0 199 .sweepUp 131 134 6 4000, todo := todo }] } }

/-- Rows that reach show frame 200 at frame `n`: the cases of a boundary and of a catch-up that name no cue. -/
theorem witness_rows_at_200 :
    sweepsBeyond (zonesOf up) (row 79801 199 (first .endShow)).ctx.sweeps 200 ∧
      cuesBeyond [cue 1 1000 .endShow 0 0 0 0] 200 ∧ cuesBeyond [cue 1 201 .fade 131 134 0 0] 200 ∧
      (cuesBeyond [cue 0 5 .set 131 134 0 0] 0 ∧ ∀ c ∈ first .set, c.index = 0 → c.time = 200) ∧
      (reachedAt (zonesOf up) (cue 0 199 .sweepUp 131 134 6 4000) 1 = 200 ∧
        reachedAt (zonesOf up) (cue 0 199 .sweepUp 131 134 6 4000) 2 = 202) ∧
      (∃ i, touchesAt (zonesOf up) (cue 0 200 .sweepUp 131 134 6 4000) i ∧
        reachedAt (zonesOf up) (cue 0 200 .sweepUp 131 134 6 4000) i ≠ 200) ∧
      (∀ i, touchesAt (zonesOf up) (cue 0 200 .sweepUp 131 131 6 4000) i →
        reachedAt (zonesOf up) (cue 0 200 .sweepUp 131 131 6 4000) i = 200) := by
  refine ⟨by simp [sweepsBeyond, row, freshContext], by simp [cuesBeyond, cue], by simp [cuesBeyond, cue],
    ⟨by simp [cuesBeyond, cue], by decide +kernel⟩, by decide +kernel,
    ⟨1, ⟨zone 132 1, by decide +kernel, by decide +kernel⟩, by decide +kernel⟩, fun i ⟨b, hb, hlo, hhi⟩ => ?_⟩
  have : i = 0 := by
    match i, hb with
    | 0, _ => rfl
    | 1, hb => cases hb; exact absurd hhi (by decide +kernel)
    | 2, hb => cases hb; exact absurd hhi (by decide +kernel)
    | 3, hb => cases hb; exact absurd hhi (by decide +kernel)
  rw [this]
  decide +kernel

/-- The rows of the clauses of BoundaryCase at the boundary of frame 80,001. -/
theorem witness_BoundaryHandsOver_rows :
    (max (up.time.lastBoundary + 1) (frameNow up) = 80001 ∧ (headerOr (playing (row 79801 199 [])) 44).release = 80 ∧
      zonesOf (playing (row 79801 199 [])) = zonesOf up ∧ ∀ q : Fin 4, q ≠ 0 → (playing (row 79801 199 [])).rows[q] = none) ∧
      (∀ action, advancesAt 80 80001 (row 79801 199 (first action)) ∧ (199 : Int) < 200) ∧
      advancesAt 80 80001 (row 79802 199 (first .endShow)) ∧ advancesAt 80 80001 (phased .armed (row 80001 (-1) (first .set))) ∧
      advancesAt 80 80001 (phased (.releasing 79922 256) (row 79801 199 (first .mark))) ∧
      advancesAt 80 80001 (suspend (row 79801 199 (first .mark))) ∧
      79921 + 80 ≤ 80001 ∧ (row 79801 199 []).phase = .running ∧ (row 79801 199 (first .endShow)).mode = .once ∧
      (gate 79300).timeoutFrame = 79300 + 1100 ∧
      (GateWaits (gateOf (cue 0 200 .gate 0 0 (10 * 256 + 3) 0) 79801) 80001 (row 79801 199 (first .gate)) ∧
        GateReleased (gateOf (cue 0 160 .gate 0 0 (256 + 3) 0) 79801) 80001 (row 79801 199 (first .gate)) 80001 (some 3) ∧
        GateReleased (gateOf (cue 0 200 .gate 0 0 (10 * 256 + 3) 0) 79801) 80001
          { row 79801 199 (first .gate) with marks := [(3, 79997)] } 80001 none) ∧
      ((unread (row 79801 199 [])).ctx.window = [] ∧ (unread (row 79801 199 [])).ctx.endRead = false ∧
        ∀ c ∈ (row 79801 199 [cue 0 200 .set 131 134 0 0]).ctx.window, c.action ≠ .endShow ∧ c.time = 200) ∧
      (List.replicate 8 (Sweep.mk (cue 0 199 .sweepUp 131 134 6 4000) [2])).length = 8 ∧
      ((phased (.releasing 79922 256) (row 79801 199 [])).ctx.window = [] ∧
        (phased (.releasing 79922 256) (row 79801 199 [])).ctx.endRead = true) ∧
      (let past := fun e : Nat => { suspend (row 79801 199 (first .set)) with endFrame := some e }
       ((past 80000).endFrame = some 80000 ∧ ((80000 : Nat) : Int) - (past 80000).anchor ≤ (past 80000).ctx.position) ∧
         (past 80001).endFrame = some 80001 ∧ (past 80001).ctx.position < ((80001 : Nat) : Int) - (past 80001).anchor ∧
         ((80001 : Nat) : Int) - (past 80001).anchor = 200) := by
  refine ⟨by decide +kernel, fun a => ⟨by simp [advancesAt, row, freshContext], by decide⟩, by simp [advancesAt, row, freshContext],
    by simp [advancesAt, row, phased, freshContext], by simp [advancesAt, row, phased, freshContext],
    by simp [advancesAt, row, suspend], by decide, rfl, rfl, by decide +kernel, ⟨?_, ?_, ?_⟩, by decide +kernel, by decide, by decide +kernel,
    by decide +kernel⟩
  · exact ⟨.inr (by decide +kernel), by decide +kernel⟩
  · exact .inr ⟨.inr (by decide +kernel), by decide +kernel, by decide +kernel, by decide +kernel⟩
  · exact .inl ⟨by decide +kernel, rfl, [], 79997, [], rfl, by decide +kernel, by decide +kernel⟩

/-- A gate that waits before the last cue held, both of show frame 200, in a row that has answered frame 80,001: alone and SUSPENDED. -/
theorem witness_BoundaryHandsOver_gate :
    advancesAt 80 80001 (gateAtLast 80001) ∧ advancesAt 80 80001 (suspend (gateAtLast 80001)) ∧
      (∃ c later a, (gateAtLast 80001).ctx.window = c :: later ∧ c.action = .gate ∧ (199 : Int) < c.time ∧ c.time = 200 ∧
        (∀ d ∈ later, d.action ≠ .endShow ∧ d.time = c.time) ∧ (gateAtLast 80001).ctx.lastAnswer = some a ∧ 79801 + c.time ≤ a.frame ∧
        GateWaits (gateOf c 79801) 80001 (gateAtLast 80001)) := by
  refine ⟨by simp [advancesAt, gateAtLast, row, freshContext], by simp [advancesAt, gateAtLast, row, suspend], _, _, _, rfl, rfl, ?_, ?_,
    by decide +kernel, rfl, ?_, .inr (by decide +kernel), ?_⟩ <;> decide +kernel

/-- Several items are due up to 200 in `severalDue`, with nothing due after them, and up to 198 or 197 with some; a window of two cues of
200 is emptied there; a gate or END stands next; and a row, RUNNING or GATED, that meets its end frame releases. -/
theorem witness_BoundaryHandsOver_several :
    (advancesAt 80 80001 severalDue ∧ (∀ y ∈ [(197 : Int), 198, 200], ItemsDue (zonesOf up) 200 y severalDue) ∧
      (dueCues 200 severalDue).length = 5 ∧ (dueCues 197 severalDue).length = 1 ∧ cuesBeyond (severalDue.ctx.window.drop 5) 200) ∧
      (let last := row 79801 199 [cue 0 200 .set 131 134 0 0, cue 1 200 .mark 0 0 20 0]
       ItemsDue (zonesOf up) 200 200 last ∧ last.ctx.window.drop (dueCues 200 last).length = []) ∧
      (ItemsDue (zonesOf up) 200 200 (gateAtLast 80001) ∧ dueCues 200 (gateAtLast 80001) = [] ∧
        isReleasing (gateAtLast 80001) = false) ∧
      (let ends := row 79001 998 [cue 0 999 .mark 0 0 20 0, cue 1 1000 .endShow 0 0 0 0]
       advancesAt 80 80001 ends ∧ ItemsDue (zonesOf up) 1000 1000 ends ∧ (dueCues 1000 ends).length = 1 ∧ ends.mode = .once) ∧
      (let ended := { severalDue with endFrame := some 79990 }
       ended.suspended = false ∧ ended.ctx.catchUp = none ∧ 79990 ≤ 80001 ∧ 80001 < 79990 + 80 ∧ ended.phase = .running ∧
         (phased (.gated (gate 79801)) ended).phase = .gated (gate 79801) ∧
         advancesAt 80 80001 (phased (.releasing 79990 256) ended) ∧ isReleasing (phased (.releasing 79990 256) ended) = true) := by
  have stop : ∀ c later, severalDue.ctx.window = cuesOpen (isReleasing severalDue) severalDue.ctx.window ++ c :: later →
      c = cue 6 1000 .endShow 0 0 0 0 := by
    intro c later h
    have h5 : cuesOpen (isReleasing severalDue) severalDue.ctx.window = severalDue.ctx.window.take 5 := by decide +kernel
    rw [h5] at h
    exact (List.cons.inj (List.append_cancel_left ((List.take_append_drop 5 severalDue.ctx.window).trans h))).1.symm
  have due : ∀ y ∈ [(197 : Int), 198, 200], ItemsDue (zonesOf up) 200 y severalDue := by
    intro y hy
    have h200 : y ≤ 200 := by simp only [List.mem_cons, List.not_mem_nil, or_false] at hy; omega
    refine ⟨⟨by decide +kernel, ?_, by decide +kernel, by decide +kernel, fun c later h => by rw [stop c later h]; decide +kernel,
      by decide +kernel⟩, h200, by decide +kernel, .inl (by decide +kernel), fun c later h => by
        rw [stop c later h]; exact le_trans h200 (by decide +kernel)⟩
    intro w hw
    rw [List.mem_singleton.1 hw]
    refine ⟨.inl rfl, by decide +kernel, by decide +kernel, by decide +kernel, fun i hi => ?_⟩
    have : i = 1 ∨ i = 2 ∨ i = 3 := by simpa using hi
    rcases this with rfl | rfl | rfl
    · exact ⟨zone 132 1, by decide +kernel, by decide +kernel⟩
    · exact ⟨zone 133 2, by decide +kernel, by decide +kernel⟩
    · exact ⟨zone 134 3, by decide +kernel, by decide +kernel⟩
  refine ⟨⟨by simp [advancesAt, severalDue, row, freshContext], due, by decide +kernel, by decide +kernel, ?_⟩, ⟨?_, by decide +kernel⟩,
    ⟨?_, by decide +kernel, by decide +kernel⟩, ⟨by simp [advancesAt, row, freshContext], ?_, by decide +kernel, rfl⟩,
    ⟨rfl, rfl, by decide, by decide, rfl, rfl, by simp [advancesAt, phased, severalDue, row, freshContext], rfl⟩⟩
  · simp [cuesBeyond, severalDue, row, cue]
  · refine ⟨⟨by decide +kernel, fun w hw => (List.not_mem_nil hw).elim, by decide +kernel, by decide +kernel, fun c later h => ?_,
      by decide +kernel⟩, by decide, by decide +kernel, .inr ⟨_, rfl, .inr (by decide +kernel)⟩, fun c later h => ?_⟩
    all_goals
      have := congrArg List.length h
      rw [List.length_append, show (cuesOpen (isReleasing _) _).length = 2 by decide +kernel] at this
      simp [row] at this
  · refine ⟨⟨by decide +kernel, fun w hw => (List.not_mem_nil hw).elim, by decide +kernel, by decide +kernel, fun c later h => ?_,
      by decide +kernel⟩, by decide, by decide +kernel, .inr ⟨_, rfl, .inr (by decide +kernel)⟩, fun c later h => ?_⟩
    all_goals
      have h0 : cuesOpen (isReleasing (gateAtLast 80001)) (gateAtLast 80001).ctx.window = [] := by decide +kernel
      rw [h0] at h
      rw [← (List.cons.inj h).1]
      decide +kernel
  · refine ⟨⟨by decide +kernel, fun w hw => (List.not_mem_nil hw).elim, by decide +kernel, by decide +kernel, fun c later h => ?_,
      by decide +kernel⟩, by decide, by decide +kernel, .inl (by decide +kernel), fun c later h => ?_⟩
    all_goals
      have h0 : cuesOpen (isReleasing (row 79001 998 [cue 0 999 .mark 0 0 20 0, cue 1 1000 .endShow 0 0 0 0]))
        (row 79001 998 [cue 0 999 .mark 0 0 20 0, cue 1 1000 .endShow 0 0 0 0]).ctx.window = [cue 0 999 .mark 0 0 20 0] := by decide +kernel
      rw [h0] at h
      rw [← (List.cons.inj (List.cons.inj h).2).1]
      decide +kernel

/-- Entry 30 due at second 2001, and a curfew that opens at it. -/
def dueNow : State :=
  { loaded with cal := { up.cal with entries := [{ entry30 with nextFire := some 80040 },
      { windowEntry 31 (.curfew 800 16) with nextFire := some 80040, windowEnd := none }] } }

theorem witness_WholeSecondLoadsBackup_calendar :
    (dueNow.time.timeValid = true ∧ consensus { dueNow.time with ns := 2001000000000, lastSecond := 2001, peers := [] } = none ∧
      isRunning dueNow = true ∧ headerOf dueNow 44 = some header ∧ headerOf { dueNow with lib := up.lib } 44 = none) ∧
      (dueNow.cal.entries.filter (fun f => f.isShow && f.enabled && f.nextFire == some (2001 * 40))).map (·.id) = [30] ∧
      (dueNow.cal.entries.map (·.id)).Pairwise (· < ·) ∧ dueNow.line.tx.length ≤ 9 ∧
      (isRunning { dueNow with start := faulted.start } = false ∧ started { dueNow with start := faulted.start } = true) ∧
      2001 % 10 ≠ 7 % 10 ∧ max ({ up.time with lastSecond := 2006 }.lastSecond + 1) 2000 = 2007 ∧ 2007 % 10 = 7 % 10 ∧
      ((queued [0, 1, 5]).line.tx = [newFrame 0 [0]] ++ newFrame 1 [1] :: [newFrame 5 [2]]) ∧
      (∀ g ∈ (transmitting (newFrame 1 [])).line.tx, g.cls = 1 → g.sending = true) ∧
      { up.time with timeValid := false }.timeValid = false := by decide +kernel

theorem witness_WholeSecondLoadsBackup :
    (held.start.powered = true ∧ held.time.hold.isSome = true) ∧ (pinned.time.hold = none ∧ pinned.start.pinLow = true) ∧
      (inState .starting).start.state = .starting ∧
      (up.time.hold = none ∧ started up = true ∧ up.start.number ≠ 0 ∧ up.line.tx.length ≤ 10 ∧ up.cal.entries = []) ∧
      (started listening = true ∧ listening.start.number = 0) := by decide +kernel

/-- The Time Unit of a state when its discipline event begins. -/
def atEvent (s : State) : TimeUnit :=
  let n := max (s.time.lastSecond + 1) (secondNow s)
  let ns := max s.time.ns (n * 1000000000)
  { s.time with ns := ns, lastSecond := n, peers := measureSilence (ns / 1000) s.time.peers }

/-- Station 7 with one peer's sample. -/
def sampled (d : Discipline) (x : Int) (flag : Bool) : State :=
  { up with time := { up.time with
      discipline := d, peers := [{ peer 3 .locked 0 with sample := some { value := x, hops := 2, timeValid := true, stepFlag := flag } }] } }

theorem witness_DisciplineEventActs :
    (started up = true ∧ up.time.hold = none ∧ consensus (atEvent up) = none) ∧
      ((consensus (atEvent (sampled .track 5 true))).map (coastHolds (coastOf up) false) = some true) ∧
      ((consensus (atEvent (sampled .track 50000 false))).map (fun k => (coastHolds (coastOf up) false k, k.c)) = some (false, 50000)) ∧
      ((consensus (atEvent (sampled .track 50001 false))).map (·.c) = some 50001) ∧
      ((consensus (atEvent (sampled .coast (-60000000) false))).map (·.c) = some (-60000000)) ∧
      ((consensus (atEvent (sampled .coast (-60000001) false))).map (·.c) = some (-60000001)) ∧
      (up.time.timeValid = true ∧ { up.time with timeValid := false }.timeValid = false) ∧
      ((openEntries.map (·.id)).Pairwise (· < ·) ∧
        (∀ e ∈ openEntries.map Entry.underive, e.nextFire = none ∧ e.windowEnd = none)) ∧
      (∀ e ∈ openEntries, e.enabled = true → e.isShow = false → e.nextFire ≠ some (2001 * 40)) ∧
      (∀ e ∈ (openEntries.drop 1), e.isShow = false) := by decide +kernel

/-- A CURFEW entry due at 00:00 civil of the next day, at the second of a step: its window opens though the look-back, which ends at the
standard day, does not find that firing (R38, R39, log entry 15). -/
theorem test_step_keeps_due_window :
    let due := { windowEntry 9 (.curfew 800 16) with anchor := .clock 0, nextFire := some (959295600 * 40), windowEnd := none }
    let s := { sampled .acquire 5000000 false with cal := { up.cal with entries := [due], seasons := seasons2030 } }
    let at' := { s with time := { s.time with
      ns := 959295599999999000, lastSecond := 959295599, lastBoundary := 959295600 * 40 - 1
      peers := s.time.peers.map (fun p => { p with lastArrival := 959295599500000 }) } }
    (secondNow (ran .wholeSecond at'), (ran .wholeSecond at').cal.entries.map (·.windowEnd),
        windowEndOf [] seasons2030 959295605 due) =
      (959295605, [some ((959295600 + 3600) * 40)], none) := by decide +kernel

theorem witness_HoldEndAndReference :
    awake up = true ∧ (up.time.ref.state ≠ .notFitted ∧ up.time.hold = none ∧ up.time.ref.waiting = none) ∧
      held.time.hold.isSome = true ∧
      (pulsed.time.ref.waiting = some { stamp := 2000000100, left := 500000 } ∧ (2000 : Int) = pulsed.time.ref.lastSecond + 1) ∧
      ((3155759999 : Int) < 3155760000 ∧ pulsed.time.ref.run ≠ 0 ∧ (3155759999 : Int) ≠ pulsed.time.ref.lastSecond + 1) ∧
      (∀ y, some (3155760000 : Int) = some y → y < 0 ∨ 3155760000 ≤ y) ∧
      { up.time.ref with silence := some 0 }.silence.isSome = true :=
  ⟨by decide +kernel, by decide +kernel, by decide +kernel, by decide +kernel, by decide +kernel,
    fun y h => by cases h; decide, by decide +kernel⟩

theorem witness_BeaconTaken :
    started up = true ∧ (0 : LineNumber).toNat = 0 ∧ (7 : LineNumber).toNat = up.start.number ∧
      ((3 : LineNumber).toNat ≠ 0 ∧ (3 : LineNumber).toNat ≠ up.start.number) ∧
      (up.time.peers.any (fun p => p.number == 3) = false ∧ up.time.peers.length < 48) ∧
      (let s := among ((List.range 48).map (fun i => peer (i + 10) .seeking 0))
       s.time.peers.any (fun p => p.number == 3) = false ∧ 48 ≤ s.time.peers.length) ∧
      (among [peer 3 .lapsed 0]).time.peers.any (fun p => p.number == 3) = true := by decide +kernel

theorem witness_TimeSetCorrects :
    (started up = true ∧ concerns 0 up = true) ∧ 3155760000000000 ≤ (3155760000000000 : BitVec 56).toNat ∧
      (3155759999999999 : BitVec 56).toNat < 3155760000000000 ∧
      (let t := { up.time with hops := 0, ref := { up.time.ref with state := .valid } }
       t.hops = 0 ∧ t.ref.state = .valid) ∧
      ¬ (up.time.hops = 0 ∧ up.time.ref.state = .valid) ∧
      (((1997999999 : BitVec 56).toNat : Int) - 2000000000 < -2000000 ∧ up.time.timeValid = true) ∧
      ((1998000000 : BitVec 56).toNat : Int) - 2000000000 = -2000000 ∧ { up.time with timeValid := false }.timeValid = false := by
  decide +kernel

/-- A TIME SET over the one firing of entry 30, and to 60 s and a microsecond past it. -/
theorem witness_TimeSetCorrects_skipped :
    let s := { spring with cal := { spring.cal with entries := spring.cal.entries.take 1 } }
    (started s = true ∧ s.time.timeValid = true ∧ isRunning s = true ∧ (headerOf s 44).isSome = true) ∧
      (s.cal.entries.map (·.id)).Pairwise (· < ·) ∧ skippedOn s 954467980 954468055 { entry30 with nextFire := some (954468000 * 40) } 11047 ∧
      (∀ e day, skippedOn s 954467980 954468055 e day → e = { entry30 with nextFire := some (954468000 * 40) } ∧ day = 11047) ∧
      954468060000000 ≤ 954468000 * 1000000 + 60000000 ∧ (∀ e day, ¬ skippedOn s 954467980 954467999 e day) := by
  intro s
  have days : ∀ e day before now, skippedOn s before now e day → 954467980 = before → now ≤ 954468055 →
      e = { entry30 with nextFire := some (954468000 * 40) } ∧ day ≤ 11048 ∧ 11046 ≤ day ∧
        before < instantOf [] seasons2030 (.clock 9000) day ∧
        instantOf [] seasons2030 (.clock 9000) day ≤ now := by
    rintro e day before now ⟨he, -, -, -, -, hlo, hhi, hb, hn⟩ hbefore hnow
    have : e = { entry30 with nextFire := some (954468000 * 40) } := by
      simpa [s, spring] using he
    subst this
    subst hbefore
    refine ⟨rfl, by omega, by omega, hb, hn⟩
  have at3 : ∀ day, 11046 ≤ day → day ≤ 11048 → day ≠ 11047 →
      ¬ (954467980 < instantOf [] seasons2030 (.clock 9000) day ∧ instantOf [] seasons2030 (.clock 9000) day ≤ 954468055) := by
    intro day h1 h2 h3
    have : day = 11046 ∨ day = 11048 := by omega
    rcases this with rfl | rfl <;> decide +kernel
  refine ⟨by decide +kernel, by decide +kernel, ⟨by decide +kernel, by decide +kernel, by decide +kernel, by decide +kernel, by decide,
    by decide, by decide, by decide +kernel, by decide +kernel⟩, fun e day h => ?_, by decide, fun e day h => ?_⟩
  · obtain ⟨he, h2, h1, -, hn⟩ := days e day _ _ h rfl (by decide)
    refine ⟨he, Classical.byContradiction fun hd => at3 day h1 h2 hd ⟨?_, hn⟩⟩
    have := h.2.2.2.2.2.2.2.1
    rwa [he] at this
  · obtain ⟨he, h2, h1, -, hn⟩ := days e day _ _ h rfl (by decide)
    have hb := h.2.2.2.2.2.2.2.1
    rw [he] at hb
    by_cases hd : day = 11047
    · subst hd
      exact absurd hn (by decide +kernel)
    · exact at3 day h1 h2 hd ⟨hb, Nat.le_trans hn (by decide)⟩

/-! ### Witnesses: the calendar -/

theorem witness_EntryWrittenInPlace :
    (started up = true ∧ concerns 0 up = true) ∧ entryOf { image30 with recurrence := 5 } = none ∧ (entryOf image30).isSome = true ∧
      (let es := (List.range 96).map (fun i => windowEntry (i + 100) (.curfew 800 16))
       (∀ e ∈ es, e.id ≠ 30) ∧ 96 ≤ es.length) ∧
      ((∀ e ∈ up.cal.entries, e.id ≠ image30.id.toNat) ∧ up.cal.entries.length < 96) ∧
      (scheduled.cal.entries = [] ++ entry30 :: [] ∧ entry30.id = image30.id.toNat) ∧
      (entry30.kind.code = (EntryKind.playShow 45 6 .once 0).code ∧ entry30.kind.code ≠ (EntryKind.curfew 0 16).code) ∧
      ((5 : Byte).toNat > 4 ∧ (4 : Byte).toNat ≤ 4) := by decide +kernel

theorem witness_EntriesRemoved :
    (started scheduled = true ∧ concerns 7 scheduled = true) ∧ (∀ e ∈ scheduled.cal.entries, e.id ≠ 31) ∧
      ∃ e ∈ scheduled.cal.entries, e.id = 30 := by decide +kernel

theorem witness_DuskAndSeasonsWritten :
    (started up = true ∧ concerns 0 up = true) ∧ (366 < (367 : BitVec 16).toNat ∧ ¬ 366 < (366 : BitVec 16).toNat) ∧
      52596000 ≤ (52596000 : BitVec 32).toNat ∧ (120 : Byte).toInt ≤ 120 ∧ 120 < (121 : Byte).toInt ∧
      (let w := (List.range 16).map (fun i => Season.mk (i * 1000) 60)
       w.any (fun x => x.instant == 5) = false ∧ 16 ≤ w.length) ∧
      (seasons2030.any (fun w => w.instant == 15907800) = true ∧ (seasons2030.map (·.instant)).Pairwise (· < ·)) := by decide +kernel

/-! ### Witnesses: instances and players -/

/-- A row that plays another show. -/
def otherRow (showNo : Nat) : Row := { row 79000 900 [] with showNo := showNo }

/-- Station 7 with every row taken by shows of priority 6. -/
def busyRows : State := { loaded with rows := Vector.ofFn (fun p => some (otherRow (50 + p.val))) }

theorem witness_StartShowTakesPlayer :
    (started loaded = true ∧ concerns 0 loaded = true) ∧ faulted.start.state = .configFault ∧ started faulted = true ∧
      (loaded.start.state ≠ .configFault ∧ loaded.time.timeValid = true ∧ headerOf loaded 44 = some header ∧
        headerOf loaded 45 = none) ∧
      (∀ p : Fin 4, ∀ r ∈ loaded.rows[p], r.showNo ≠ 44) ∧ (loaded.rows[(0 : Fin 4)] = none ∧ frameNow loaded < 80081) ∧
      (∀ p : Fin 4, ∃ r ∈ busyRows.rows[p], 6 ≤ r.priority ∧ r.showNo ≠ 44) ∧
      (79000 + header.length ≤ frameNow loaded) := by decide +kernel

/-- A request for show 44 from a console. -/
def request (priority tag anchor : Nat) : Request :=
  { showNo := 44, priority := priority, tag := tag, anchor := anchor, endFrame := none, mode := .once, passes := 0, origin := .console 0 }

/-- The cases of RequestTaken: no IDLE row and one that gives way, or none; a held row that is RELEASING, or of a larger pair, or not. -/
theorem witness_RequestTaken :
    ((∀ i : Fin 4, busyRows.rows[i] ≠ none) ∧ Evicted busyRows 7 3 ∧ ∀ p : Fin 4, ∃ r ∈ busyRows.rows[p], 6 ≤ r.priority) ∧
      ((playing (phased (.releasing 79990 256) (row 79000 900 []))).rows[(0 : Fin 4)]).map (·.phase) = some (.releasing 79990 256) ∧
      ((request 6 78999 80100).tag < (row 79000 900 []).tag) ∧
      ((request 6 79000 78999).tag = (row 79000 900 []).tag ∧ (request 6 79000 78999).anchor < (row 79000 900 []).anchor) ∧
      ¬ ((request 6 79000 79000).tag < (row 79000 900 []).tag ∨
        ((request 6 79000 79000).tag = (row 79000 900 []).tag ∧ (request 6 79000 79000).anchor < (row 79000 900 []).anchor)) ∧
      (GateWaits (gate 79300) 80000 (row 79300 700 []) ∧
        GateReleased (gate 78900) 80000 { row 78900 700 [] with marks := [(3, 79596)] } 79600 none) := by
  have all : ∀ i : Fin 4, i ≠ 3 → ∀ o ∈ busyRows.rows[i], o.priority = 6 ∧ o.tag = 79000 ∧ i < 3 := by decide +kernel
  refine ⟨⟨by decide +kernel, ⟨otherRow 53, by decide +kernel, by decide +kernel, fun i o hi ho _ => ?_⟩, by decide +kernel⟩,
    by decide +kernel, by decide +kernel, by decide +kernel, by decide +kernel, ⟨.inr (by decide +kernel), by decide +kernel⟩,
    .inl ⟨by decide +kernel, rfl, [], 79596, [], rfl, by decide +kernel, by decide +kernel⟩⟩
  obtain ⟨h1, h2, h3⟩ := all i hi o ho
  exact .inr ⟨by rw [h1]; rfl, .inr ⟨by rw [h2]; rfl, h3⟩⟩

theorem witness_AnnouncementsMerge :
    announceActedOn (announceRequest 12 (announcement 80080 80080)) loaded = true ∧
      announceActedOn (announceRequest 12 (announcement 79000 79000)) loaded = false ∧ started loaded = true ∧
      (∀ i : Fin 4, ∀ r ∈ loaded.rows[i], r.showNo ≠ 44) ∧ loaded.rows[(0 : Fin 4)] = none ∧
      (let s := playing (row 79200 700 [])
       announceActedOn (announceRequest 5 (announcement 79000 79120)) s = true ∧
         (s.rows[(0 : Fin 4)]).map (fun r => (r.showNo, r.phase, r.tag, decide (79120 < r.anchor))) = some (44, .running, 79000, true)) ∧
      ShowsHeld gatedWaiting ∧ started gatedWaiting = true ∧
      announceActedOn (announceRequest 5 (announcement 79000 79200)) gatedWaiting = true ∧
      (5 : LineNumber).toNat < gatedWaiting.start.number :=
  ⟨by decide +kernel, by decide +kernel, by decide +kernel, by decide +kernel, by decide +kernel, by decide +kernel,
    witness_ShowsHeldKept.1, by decide +kernel, by decide +kernel, by decide +kernel⟩

theorem witness_StopsRelease :
    started gatedWaiting = true ∧ concerns 0 gatedWaiting = true ∧ ShowsHeld gatedWaiting ∧
      (gatedWaiting.rows[(0 : Fin 4)]).map (·.showNo) = some 44 ∧ (∀ p : Fin 4, ∀ r ∈ gatedWaiting.rows[p], r.showNo ≠ 45) ∧
      (∀ p : Fin 4, ∀ r ∈ gatedWaiting.rows[p], r.showNo = 44 → 78999 < r.tag) ∧
      (gatedWaiting.rows[(0 : Fin 4)]).map (fun r => decide (r.tag ≤ 79000)) = some true :=
  ⟨by decide +kernel, by decide +kernel, witness_ShowsHeldKept.1, by decide +kernel, by decide +kernel, by decide +kernel,
    by decide +kernel⟩

theorem witness_MarksFiledAndOffered :
    awake gatedWaiting = true ∧ isRunning gatedWaiting = true ∧ isRunning faulted = false ∧ ShowsHeld gatedWaiting ∧
      ((gatedWaiting.rows[(0 : Fin 4)]).map (fun r => (r.showNo, r.tag, r.phase)) = some (44, 79000, .gated (gate 79300)) ∧
        (gatedWaiting.rows[(0 : Fin 4)]).map (fun r => (r.suspended, r.marks)) = some (false, [])) ∧
      (∀ p : Fin 4, ∀ r ∈ gatedWaiting.rows[p], ¬ (r.showNo = 44 ∧ r.tag = 78000)) ∧ (gate 79300).mark = 3 ∧
      { row 79000 900 [] with marks := (List.range 16).map (fun i => (i + 1, 0)) }.marks.length = 16 :=
  ⟨by decide +kernel, by decide +kernel, by decide +kernel, witness_ShowsHeldKept.1, by decide +kernel, by decide +kernel,
    by decide +kernel, by decide +kernel⟩

/-- A catch-up that stands at its target. -/
def caughtUp : Row :=
  { row 79001 999 [cue 1 1000 .endShow 0 0 0 0] with
    ctx := { (row 79001 999 [cue 1 1000 .endShow 0 0 0 0]).ctx with catchUp := some { kind := .forward, held := [] } } }

/-- A row in a catch-up. -/
def catching (kind : CatchKind) (r : Row) : Row := { r with ctx := { r.ctx with catchUp := some { kind := kind, held := [] } } }

/-- The rows of the clauses of CatchUpRun at frame 80,000, whose items are those of witness_rows_at_200. -/
theorem witness_CatchUpCompletes :
    (awake (playing caughtUp) = true ∧ (playing caughtUp).rows[(0 : Fin 4)] = some caughtUp ∧ caughtUp.suspended = false ∧
      caughtUp.phase = .running ∧ caughtUp.endFrame = none ∧ (row 79000 999 []).ctx.catchUp = none) ∧
      ((frameNow (playing caughtUp) : Int) - caughtUp.anchor ≤ caughtUp.ctx.position ∧
        ∀ i, nextItem (zonesOf (playing caughtUp)) caughtUp.ctx = some i → (frameNow (playing caughtUp) : Int) - caughtUp.anchor < i.frame) ∧
      (let c := catching .resume (row 79800 199 (first .mark))
       c.ctx.catchUp = some { kind := .resume, held := [] } ∧ c.suspended = false ∧ c.ctx.position < 200 ∧ frameNow up - c.anchor = 200) ∧
      (79920 + 80 ≤ frameNow up ∧ frameNow up < 79921 + 80) ∧
      (let c := phased (.releasing 79921 256) (catching .forward (row 79800 199 []))
       c.ctx.window = [] ∧ c.ctx.endRead = true) ∧
      (let c := { catching .join (row 79800 199 (first .set)) with endFrame := some 79921 }
       c.endFrame = some 79921 ∧ 79921 ≤ frameNow up ∧ frameNow up < 79921 + 80 ∧ (79921 : Int) < c.anchor + 200) ∧
      (GateWaits (gateOf (cue 0 200 .gate 0 0 (10 * 256 + 3) 0) 79800) 80000 (row 79800 199 (first .gate)) ∧
        GateReleased (gateOf (cue 0 160 .gate 0 0 (256 + 3) 0) 79800) 80000 (row 79800 199 (first .gate)) 80000 (some 3)) := by
  have next : nextItem (zonesOf (playing caughtUp)) caughtUp.ctx = some (.cue (cue 1 1000 .endShow 0 0 0 0)) := by decide +kernel
  refine ⟨by decide +kernel, ⟨by decide +kernel, fun i h => ?_⟩, by decide +kernel, by decide +kernel, by decide +kernel,
    by decide +kernel, ⟨.inr (by decide +kernel), by decide +kernel⟩,
    .inr ⟨.inr (by decide +kernel), by decide +kernel, by decide +kernel, by decide +kernel⟩⟩
  rw [next] at h
  cases h
  decide +kernel

/-! ### Witnesses: rendering, links, monitors -/

theorem witness_RendersAndFlushes :
    awake up = true ∧ (isRunning faulted = false ∧ (rendering 80001).mixer.render.isSome = true ∧
        depthOf up ≤ (buffered [80001, 80002, 80003]).out.records.length) ∧
      (isRunning up = true ∧ up.mixer.render = none ∧ (buffered [80001, 80002]).out.records.length < depthOf up) ∧
      ((zonesOf up)[0]? = some (zone 131 0) ∧ (zone 131 0).slots[0]? = some (0, 0) ∧ holding.safety.holdList ≠ [] ∧
        up.safety.holdList = [] ∧ ∀ z ∈ zonesOf up, ((0 : Fin 4), (4 : Fin 256)) ∉ z.slots) ∧
      (frameNow (rendering 80001) < 80001 ∧ 80000 ≤ frameNow (rendering 80000)) := by decide +kernel

/-- Windows of the projection limit: one empty, one with a GATE before END, passed in RELEASING alone, and one with neither. -/
theorem witness_RendersAndFlushes_limit :
    (row 79801 199 []).ctx.window = [] ∧
      ((row 79801 199 (first .gate)).ctx.window = [] ++ cue 0 200 .gate 131 134 (8 * 256 + 6) 4000 :: [cue 1 1000 .endShow 0 0 0 0] ∧
        projectionLimit (row 79801 199 (first .gate)) = 200 ∧
        projectionLimit (phased (.releasing 79922 256) (row 79801 199 (first .gate))) = 1000) ∧
      ((∀ d ∈ (unread (row 79801 199 [cue 0 260 .set 131 134 0 0])).ctx.window, d.action ≠ .endShow) ∧
        projectionLimit (unread (row 79801 199 [cue 0 260 .set 131 134 0 0])) = 259) := by decide +kernel

/-- A zone state table with a record of track 1 at each of the four local zones. -/
def tracked (r : Row) : Row :=
  { r with ctx := { r.ctx with zones := List.replicate 4 ((Vector.replicate 4 none).set 1
      (some { fromLevels := Levels.zero, toLevels := Levels.zero, effective := 100, fade := 0 })) } }

/-- The player states of the answers, two records of a zone the higher of which governs, and cues that stand in order: a sweep in progress
before a FADE and a SWEEP of the window. -/
theorem witness_RendersAndFlushes_answers :
    ((catching .join (row 79000 999 [])).ctx.catchUp = some { kind := .join, held := [] } ∧
      (suspend (row 79801 199 [])).suspended = true ∧ (phased .armed (row 80002 (-1) [])).phase = .armed ∧ 80001 < 80002 ∧
      (phased .armed (row 80001 (-1) (first .set))).anchor ≤ 80001 ∧ (row 79801 199 []).phase = .running) ∧
      CuesInOrder (zonesOf up) false
        (midSweep [1, 2, 3] (row 79801 199 [cue 1 200 .fade 131 134 8 0, cue 2 201 .sweepUp 131 134 6 0, cue 3 1000 .endShow 0 0 0 0])).ctx ∧
      sweepsBeyond (zonesOf up) (row 79801 199 (first .sweepUp)).ctx.sweeps 200 ∧
      (∃ l, l ∈ zoneLayers (playing (tracked (row 79801 199 []))) 80001 0) := by
  refine ⟨by decide +kernel, ⟨by decide +kernel, fun w hw => ?_, by decide +kernel, by decide +kernel, fun c later h => ?_,
    by decide +kernel⟩, by simp [sweepsBeyond, row, freshContext],
    ⟨_, List.head?_eq_some_iff.mp (by decide +kernel : (zoneLayers (playing (tracked (row 79801 199 []))) 80001 0).head? =
      some { priority := 6, tag := 79000, player := 0, weight := 256, values := Levels.zero }) |>.elim (fun _ h => by rw [h]; exact .head _)⟩⟩
  · cases List.mem_singleton.mp hw
    refine ⟨.inl rfl, by decide +kernel, by decide +kernel, by decide +kernel, fun i hi => ?_⟩
    rcases List.mem_cons.mp hi with rfl | hi
    · exact ⟨zone 132 1, by decide +kernel, by decide +kernel, by decide +kernel⟩
    · rcases List.mem_cons.mp hi with rfl | hi
      · exact ⟨zone 133 2, by decide +kernel, by decide +kernel, by decide +kernel⟩
      · cases List.mem_singleton.mp hi
        exact ⟨zone 134 3, by decide +kernel, by decide +kernel, by decide +kernel⟩
  · have last : some (cue 3 1000 .endShow 0 0 0 0) = some c := congrArg (fun l => l[2]?) h
    cases last
    decide +kernel

theorem witness_LinkFramesEndAndRefresh :
    (List.replicate 256 0).length = 256 ∧ (∀ l : Fin 4, sendingLink.drivers[l].sending = none ↔ linkSent sendingLink l = none) ∧
      awake up = true ∧ up.drivers[(0 : Fin 4)].sending = none ∧ sendingLink.drivers[(0 : Fin 4)].sending.isSome = true ∧
      (∀ l : Fin 4, up.drivers[l].refresh = none) ∧
      (∃ l : Fin 4, refreshing.drivers[l].refresh.isSome = true ∧ linkEnabled refreshing l = true) ∧ isRunning refreshing = true ∧
      isRunning { refreshing with start := faulted.start } = false := by decide +kernel

theorem witness_SensesRead : started (inState .starting) = false ∧ started up = true := by decide +kernel

theorem witness_FaultsDetectedAndCleared :
    awake shorted = true ∧ (shorted.mon.sense short2).deglitch.isSome = true ∧ (shorted.mon.sense short2).raw = true ∧
      (up.mon.sense short2).deglitch = none ∧ (modeOf up short2 ≠ .off ∧ modeOf up short2 ≠ .unknown) ∧
      modeOf { up with start := { up.start with boot := some { boot with modes := { boot.modes with short := .off } } } } short2 = .off ∧
      ({ Sense.start with retry := some 0 }.retry.isSome = true ∧ (up.mon.sense (.link 1 .openLine)).retry = none) ∧
      (started up = true ∧ concerns 0 up = true) ∧ (up.mon.sense short2).present = false ∧
      ((sensed short2 { Sense.start with present := true }).mon.sense short2).present = true := by decide +kernel

/-! ### Witnesses: contacts and Safety Hold -/

theorem witness_ContactsDebounced :
    started (inState .starting) = false ∧ started up = true ∧ awake up = true ∧ up.inputs[(0 : Fin 8)].timer = none ∧
      functionOf up 3 = .noFunction ∧ functionOf up 1 = .go ∧ functionOf up 2 = .stopAll ∧
      ((contact 1 (closedFor .inactive)).inputs[(1 : Fin 8)].timer.isSome = true ∧
        (contact 1 (closedFor .inactive)).inputs[(1 : Fin 8)].state = .inactive ∧
        (contact 1 (closedFor .inactive)).inputs[(1 : Fin 8)].closed = true) ∧
      (senseOf up 2 = .activeOpen ∧ { closedFor .inactive with closed := false }.closed = false) := by decide +kernel

/-- Station 7 holds, by its input 0 alone or with another holder. -/
def ownHolding (list : List Nat) (st : Debounced) (closed : Bool) : State :=
  { contact 0 { closedFor st with closed := closed } with safety := { holdList := list, ownHold := true, resend := some 0 } }

theorem witness_OwnHoldBeginsAndEnds :
    (awake up = true ∧ functionOf up 0 = .safety ∧ (contact 0 (closedFor .inactive)).inputs[(0 : Fin 8)].timer.isSome = true) ∧
      up.safety.ownHold = false ∧ (ownHolding [7] .unsettled true).safety.ownHold = true ∧
      ((ownHolding [7] .active false).inputs[(0 : Fin 8)].state ≠ .unsettled ∧
        (∀ j : Fin 8, j ≠ 0 → ¬ (functionOf (ownHolding [7] .active false) j = .safety ∧
          (ownHolding [7] .active false).inputs[j].state = .active)) ∧
        (ownHolding [7, 9] .active false).safety.holdList.filter (fun m => m != 7) ≠ []) ∧
      (∃ j : Fin 8, j ≠ 0 ∧
        functionOf { up with start := { up.start with boot := some { boot with
          inputs := Vector.replicate 8 { function := .safety, sense := .activeClosed } } } } j = .safety) ∧
      ((ownHolding [7] .active true).safety.resend.isSome = true ∧ up.start.number ≠ 0 ∧ up.safety.resend = none) := by
  decide +kernel

/-- The cases of Resumed at frame 80,000: ARMED ahead of its anchor, at it, and past its end frame; RUNNING; RELEASING over and not; GATED that
waits, is released by a mark taken while suspended, and is past its end frame; and the pending marks of a row. -/
theorem witness_HoldListBecomes :
    (holding.safety.holdList ≠ [] ∧ up.safety.holdList = []) ∧
      ((suspend (phased .armed (row 80001 (-1) []))).suspended = true ∧ 80000 < 80001 ∧
        { phased .armed (row 80000 (-1) []) with endFrame := some 80000 }.endFrame = some 80000 ∧ frameNow holding = 80000) ∧
      (suspend (row 79801 199 [])).phase = .running ∧ (79920 + 80 ≤ 80000 ∧ ¬ 79921 + 80 ≤ 80000) ∧
      (GateWaits (gate 79300) 80000 (freedRow (suspend (row 79300 700 []))) ∧
        let r := { row 79300 700 [] with suspended := true, ctx := { (row 79300 700 []).ctx with pendingMarks := [(3, 79996)] } }
        (freedRow r).marks = [(3, 79996)] ∧ GateReleased (gate 79300) 80000 (freedRow r) 80000 none) ∧
      ({ phased (.gated (gate 79300)) (row 79300 700 []) with endFrame := some 79921 }.endFrame = some 79921 ∧
        ¬ 79921 + header.release ≤ 80000) := by
  refine ⟨by decide +kernel, by decide +kernel, rfl, by decide, ⟨⟨.inr (by decide +kernel), by decide +kernel⟩, by decide +kernel,
    .inl ⟨by decide +kernel, rfl, [], 79996, [], by decide +kernel, by decide +kernel, by decide +kernel⟩⟩, by decide +kernel⟩

theorem witness_SafetyFramesChangeTheList :
    awake up = true ∧ awake (inState .starting) = true ∧ (0 : LineNumber).toNat = 0 ∧ (7 : LineNumber).toNat = up.start.number ∧
      ((9 : LineNumber).toNat ≠ 0 ∧ (9 : LineNumber).toNat ≠ holding.start.number ∧ holding.safety.holdList.Pairwise (· < ·) ∧
        (9 : LineNumber).toNat ∈ holding.safety.holdList ∧ (18 : LineNumber).toNat ∉ holding.safety.holdList) := by decide +kernel

theorem witness_ClearAllEmptiesTheList :
    (started holding = true ∧ concerns 0 holding = true) ∧ (∀ p ∈ holding.time.peers, p.number ≠ 0) ∧
      (∃ p ∈ (among [peer 18 .locked 0]).time.peers, p.number = 18) ∧ up.safety.holdList = [] ∧
      (ownHolding [7, 9] .active true).safety.ownHold = true ∧ holding.rows = Vector.replicate 4 none := by decide +kernel

/-! ### Witnesses: the show library -/

/-- A full directory. -/
def allSlots : State :=
  { up with lib := { up.lib with dir := Vector.ofFn (fun i => .complete (i.val + 100) 4 [] header) } }

theorem witness_ShowsBegunAndDeleted :
    (started up = true ∧ concerns 0 up = true) ∧ ((3 : BitVec 16).toNat ≥ 3 ∧ (1024 : BitVec 16).toNat ≤ 1024) ∧
      ((2 : BitVec 16).toNat < 3 ∧ 1024 < (1025 : BitVec 16).toNat) ∧
      ((∀ i : Fin 32, slotShow allSlots.lib.dir[i] ≠ some 61) ∧ ∀ i : Fin 32, slotShow allSlots.lib.dir[i] ≠ none) ∧
      ((∀ i : Fin 32, slotShow loaded.lib.dir[i] ≠ some 61) ∧ slotShow loaded.lib.dir[(1 : Fin 32)] = none ∧
        ∀ j : Fin 32, j < 1 → slotShow loaded.lib.dir[j] ≠ none) ∧
      (slotShow loaded.lib.dir[(0 : Fin 32)] = some 44 ∧ ∀ j : Fin 32, slotShow loaded.lib.dir[j] = some 44 → j = 0) ∧
      (inUse loaded 44 = 0 ∧ 0 < inUse sweeping 44) ∧
      (slot 0 (.erasing 44 5)).lib.dir[(0 : Fin 32)] = .erasing 44 5 ∧
      (busy (.tagWrite 0 44 5) up).lib.port = some (.tagWrite 0 44 5) ∧
      (busy (.blockWrite 0 { showNo := 44, index := 2, data := 5 } true) loaded).lib.port =
        some (.blockWrite 0 { showNo := 44, index := 2, data := 5 } true) ∧
      (busy (.sectorErase 0 4 true) loaded).lib.port = some (.sectorErase 0 4 true) ∧
      (∀ b live, PortUnit.deadMark 1 ≠ .blockWrite 0 b live) ∧ ∀ k live, PortUnit.deadMark 1 ≠ .sectorErase 0 k live := by
  refine ⟨?_, ?_, ?_, ?_, ?_, ?_, ?_, ?_, ?_, ?_, ?_, nofun, nofun⟩ <;> decide +kernel

theorem witness_ShowBlockJudged :
    (started up = true ∧ concerns 0 up = true) ∧
      (∀ i : Fin 32, slotShow up.lib.dir[i] ≠ some 61) ∧
      ((slot 0 (.erasing 61 5)).lib.dir[(0 : Fin 32)] = .erasing 61 5 ∧
        (slot 0 (.loading 61 5 [2] none)).lib.dir[(0 : Fin 32)] = .loading 61 5 [2] none ∧
        ∀ j : Fin 32, slotShow (slot 0 (.erasing 61 5)).lib.dir[j] = some 61 → j = 0) ∧
      (5 ≤ (5 : BitVec 16).toNat ∧ (4 : BitVec 16).toNat < 5 ∧ (2 : BitVec 16).toNat ∈ [2] ∧ (4 : BitVec 16).toNat ∉ [2]) ∧
      8 ≤ ((List.range 8).map (fun k => QueuedBlock.mk 61 k 0)).length ∧ up.lib.queue.length < 8 := by decide +kernel

theorem witness_PortUnitsComplete :
    awake up = true ∧ up.lib.port = none ∧
      (busy (.sectorErase 0 4 true) up).lib.port = some (.sectorErase 0 4 true) ∧
      (busy (.tagWrite 0 61 5) up).lib.port = some (.tagWrite 0 61 5) ∧ (busy (.deadMark 0) up).lib.port = some (.deadMark 0) ∧
      (busy (.blockWrite 0 { showNo := 61, index := 4, data := 0 } true) (slot 0 (.loading 61 5 [0, 1, 2, 3] none))).lib.dir[(0 : Fin 32)] =
        .loading 61 5 [0, 1, 2, 3] none ∧
      (lastRead.lib.port = some (.checkRead 3 2) ∧ lastRead.lib.dir[(3 : Fin 32)] = .loading 44 3 [0, 1, 2] (some 2) ∧
        lastRead.start.state ≠ .starting ∧ showFault lastRead.flash[(3 : Fin 32)] 44 3 = none) ∧
      showFault lastRead.flash[(3 : Fin 32)] 45 3 = some .showNumber ∧
      (3 ≤ 3 ∧ showFault lastRead.flash[(3 : Fin 32)] 44 1024 = some .cueCount) ∧ (busy (.refill 0 false) up).lib.port = some (.refill 0 false) := by
  decide +kernel

/-- The clauses of a refill: a row whose player waits for its first cues, one that reads on past END in a loop, one with none left to read,
one that is starved, and one in a catch-up. -/
theorem witness_PortUnitsComplete_refill :
    refilling.lib.port = some (.refill 0 true) ∧ slotOf refilling 44 = some 0 ∧
      (refilling.rows[(0 : Fin 4)]).map (fun r => (r.showNo, r.ctx.catchUp, r.ctx.starved, r.ctx.endRead)) =
        some (44, none, false, false) ∧
      ((loopRelease.rows[(0 : Fin 4)]).map (fun r => (r.mode, r.passes, r.ctx.endRead, r.ctx.window.length)) =
        some (.loop, 0, true, 1)) ∧
      ((row 79000 999 []).ctx.endRead = true ∧ (row 79000 999 []).mode = .once) ∧
      (let r := unread { row 79801 198 [] with ctx := { (row 79801 198 []).ctx with starved := true } }
       r.ctx.starved = true ∧ r.phase = .running ∧ r.ctx.position < (frameNow up : Int) - r.anchor) ∧
      (catching .join (row 79000 999 [])).ctx.catchUp = some { kind := .join, held := [] } := by decide +kernel

/-- The clauses of CHECK_READ_COMPLETE: in STARTING and after it, with a check left in another slot and with none. -/
theorem witness_PortUnitsComplete_check :
    (inState .starting).start.state = .starting ∧ up.start.state ≠ .starting ∧
      (slot 4 (.loading 45 3 [0, 1, 2] (some 0))).lib.dir[(4 : Fin 32)] = .loading 45 3 [0, 1, 2] (some 0) ∧
      (∀ i : Fin 32, up.lib.dir[i] = .empty) ∧ (3 ≤ 2 + 1 ∧ ¬ 3 ≤ 1 + 1) := by decide +kernel

/-! ### Witnesses: the tower line and queries -/

theorem witness_LineSendsAndReceives :
    awake up = true ∧ listening.start.number = 0 ∧
      (up.start.number ≠ 0 ∧ (∀ g ∈ (queued [1]).line.tx, g.sending = false) ∧ (queued [1]).line.tx = newFrame 1 [0] :: []) ∧
      ((transmitting (newFrame 2 [1])).line.tx = [] ++ { newFrame 2 [1] with sending := true } :: [] ∧
        (newFrame 2 [1]).contention + 1 < 3 ∧ 3 ≤ { newFrame 2 [1] with contention := 2 }.contention + 1 ∧
        (newFrame 2 [1]).restart = false) ∧
      (up.line.fault = false ∧ up.line.wire ≠ .idle ∧ (onIdleLine up).line.wire = .idle ∧ { up.line with fault := true }.fault = true) ∧
      (let s := onIdleLine (transmitting (newFrame 2 []))
       s.line.wire = .idle) ∧
      (let s := onIdleLine { queued [2] with start := { up.start with state := .configFault } }
       awake s = true ∧ s.pending = [] ∧ s.line.wire = .idle ∧ s.start.number ≠ 0 ∧ s.line.tx ≠ [] ∧ (∀ f ∈ s.line.tx, f.sending = false) ∧
         dueEvent { s with line := { s.line with tx := [] } } = none) := by decide +kernel

theorem witness_LineSendsAndReceives_tests :
    (24 < (25 : BitVec 5).toNat ∧ (24 : BitVec 5).toNat ≤ 24) ∧ lengthsOf (heard 0 18 [1]) = some (1, 1) ∧
      lengthsOf (heard 0 18 [4]) = none ∧ receiveFault (heard 0 18 [1]) = none ∧
      receiveFault (heard 5 18 (statusData up)) = none ∧ (heard 5 18 (statusData up)).cls.toNat = 5 ∧
      receiveFault { heard 0 18 [1] with check := 0 } = some .checkErrors ∧
      receiveFault { heard 0 18 [1] with endGood := false } = some .checkErrors := by decide +kernel

theorem witness_BuiltFramesDecode :
    let r := row 79000 0 []
    let a := { announcement 79000 79000 with priority := 6 }
    r.showNo = a.showNo.toNat ∧ r.priority = a.priority.toNat ∧ r.tag = a.tag.toNat ∧ r.anchor = a.anchor.toNat ∧ r.mode = a.mode ∧
      r.passes = a.passes.toNat ∧ (r.endFrame = none ∧ a.duration = 0) ∧ (List.replicate 18 (0 : Byte)).length ≤ 18 := by decide +kernel

theorem witness_QueriesAnswered :
    (started up = true ∧ targeted 7 up = true) ∧ (5 ≤ 5 ∧ 5 < 6) ∧ (∀ p ∈ (among [peer 3 .locked 0]).time.peers, p.number ≠ 63) ∧
      ((among [peer 3 .locked 0]).time.peers = [] ++ peer 3 .locked 0 :: [] ∧ (peer 3 .locked 0).number = 3) ∧
      ((playing (row 79000 999 [])).rows[(0 : Fin 4)] = some (row 79000 999 []) ∧ up.rows[(0 : Fin 4)] = none) ∧
      (scheduled.cal.entries = [] ++ entry30 :: [] ∧ entry30.id = 30 ∧ ∀ e ∈ scheduled.cal.entries, e.id ≠ 31) ∧
      (List.replicate 288 (0 : Byte)).length ≤ 288 ∧
      (up.start.number ≠ 0 ∧ up.line.tx.length + (cutParts 15 (List.replicate 200 0)).length ≤ 12 ∧ ∀ f ∈ up.line.tx, f.cls ≤ 5) := by
  decide +kernel

end Sys2Proof.Tests
end

section
/-!
PROOFS. The calendar (02_the_calendar.md): the selection of the active curfew and base look (R40).
-/

namespace Sys2Proof.Machine.CalendarProofs

/-! ### Selection (R40) -/

/-- What an open CURFEW entry offers for selection: its id, ceiling and exempt priority (R40). -/
def openCurfew (e : Entry) : Option (Nat × Nat × Nat) :=
  match e.kind, e.windowEnd with
  | .curfew ceiling exempt, some _ => some (e.id, ceiling, exempt)
  | _, _ => none

/-- What an open BASE entry offers for selection: its id, priority and levels (R40). -/
def openBase (e : Entry) : Option (Nat × Nat × Levels) :=
  match e.kind, e.windowEnd with
  | .base priority levels, some _ => some (e.id, priority, levels)
  | _, _ => none

theorem openCurfew_eq_some (e : Entry) (id c x : Nat) :
    openCurfew e = some (id, c, x) ↔ e.id = id ∧ e.kind = .curfew c x ∧ e.windowEnd.isSome = true := by
  unfold openCurfew
  cases e.kind <;> cases e.windowEnd <;> simp

theorem openBase_eq_some (e : Entry) (id p : Nat) (l : Levels) :
    openBase e = some (id, p, l) ↔ e.id = id ∧ e.kind = .base p l ∧ e.windowEnd.isSome = true := by
  unfold openBase
  cases e.kind <;> cases e.windowEnd <;> simp

/-- Keeping the first curfew of the lowest ceiling is the library's `argmin` over what the open entries offer. -/
theorem selectCurfew_eq_argmin (es : List Entry) :
    selectCurfew es = (es.filterMap openCurfew).argmin (fun b => b.2.1) := by
  unfold selectCurfew List.argmin
  rw [List.foldl_filterMap]
  congr 1
  funext best e
  unfold openCurfew
  cases e.kind <;> cases e.windowEnd <;> cases best <;> rfl

/-- Keeping the first base look of the highest priority is the library's `argmax` over what the open entries offer. -/
theorem selectBasePriority_eq_argmax (es : List Entry) :
    selectBasePriority es = (es.filterMap openBase).argmax (fun b => b.2.1) := by
  unfold selectBasePriority List.argmax
  rw [List.foldl_filterMap]
  congr 1
  funext best e
  unfold openBase
  cases e.kind <;> cases e.windowEnd <;> cases best <;> rfl

/-- Offers made by entries in ascending id are in ascending id themselves. -/
theorem offers_ascending {β : Type} {offer : Entry → Option (Nat × β)} (hid : ∀ e b, offer e = some b → b.1 = e.id)
    {es : List Entry} (hes : (es.map (·.id)).Pairwise (· < ·)) :
    (es.filterMap offer).Pairwise (fun a b => a.1 < b.1) := by
  refine List.Pairwise.filterMap offer ?_ (List.pairwise_map.1 hes)
  intro d e hlt a ha b hb
  rw [hid d a ha, hid e b hb]
  exact hlt

/-- In a list in ascending rank, what stands no later has no greater rank. -/
theorem rank_le_of_idxOf_le {α : Type} [DecidableEq α] {rank : α → Nat} {l : List α}
    (hl : l.Pairwise (fun a b => rank a < rank b)) {a b : α} (ha : a ∈ l) (hb : b ∈ l) (h : l.idxOf a ≤ l.idxOf b) :
    rank a ≤ rank b := by
  have la := List.idxOf_lt_length_iff.2 ha
  have lb := List.idxOf_lt_length_iff.2 hb
  have ga : l[l.idxOf a] = a := List.getElem_idxOf la
  have gb : l[l.idxOf b] = b := List.getElem_idxOf lb
  rcases Nat.lt_or_eq_of_le h with hlt | heq
  · have := List.pairwise_iff_getElem.1 hl _ _ la lb hlt
    rw [ga, gb] at this
    exact this.le
  · have : a = b := by rw [← ga, ← gb]; simp only [heq]
    rw [this]

theorem selectCurfew_eq_none (es : List Entry) :
    selectCurfew es = none ↔ ∀ e ∈ es, ∀ c x, e.kind = .curfew c x → e.windowEnd = none := by
  rw [selectCurfew_eq_argmin, List.argmin_eq_none, List.filterMap_eq_nil_iff]
  refine forall₂_congr fun e _ => ?_
  unfold openCurfew
  cases e.kind <;> cases e.windowEnd <;> simp

theorem selectBasePriority_eq_none (es : List Entry) :
    selectBasePriority es = none ↔ ∀ e ∈ es, ∀ p l, e.kind = .base p l → e.windowEnd = none := by
  rw [selectBasePriority_eq_argmax, List.argmax_eq_none, List.filterMap_eq_nil_iff]
  refine forall₂_congr fun e _ => ?_
  unfold openBase
  cases e.kind <;> cases e.windowEnd <;> simp

/-- The curfew selected has the lowest ceiling of the open ones, and of equal ceilings the lowest id. -/
theorem selectCurfew_lowest {es : List Entry} (hes : (es.map (·.id)).Pairwise (· < ·)) {id c x : Nat}
    (h : selectCurfew es = some (id, c, x)) :
    (∃ e ∈ es, e.id = id ∧ e.kind = .curfew c x ∧ e.windowEnd.isSome = true) ∧
      ∀ e ∈ es, ∀ d y, e.kind = .curfew d y → e.windowEnd.isSome = true → c < d ∨ (c = d ∧ id ≤ e.id) := by
  have asc := offers_ascending (offer := openCurfew)
    (fun e b hb => ((openCurfew_eq_some e b.1 b.2.1 b.2.2).1 hb).1.symm) hes
  rw [selectCurfew_eq_argmin] at h
  obtain ⟨hm, hle, hfirst⟩ := List.argmin_eq_some_iff.1 h
  constructor
  · obtain ⟨e, he, ho⟩ := List.mem_filterMap.1 hm
    exact ⟨e, he, (openCurfew_eq_some e id c x).1 ho⟩
  · intro e he d y hk hw
    have hoffer : (e.id, d, y) ∈ es.filterMap openCurfew :=
      List.mem_filterMap.2 ⟨e, he, (openCurfew_eq_some e e.id d y).2 ⟨rfl, hk, hw⟩⟩
    have hcd : c ≤ d := hle _ hoffer
    rcases Nat.lt_or_eq_of_le hcd with hlt | heq
    · exact .inl hlt
    · exact .inr ⟨heq, rank_le_of_idxOf_le asc hm hoffer (hfirst _ hoffer heq.ge)⟩

/-- The base look selected has the highest priority of the open ones, and of equal priorities the lowest id. -/
theorem selectBasePriority_highest {es : List Entry} (hes : (es.map (·.id)).Pairwise (· < ·)) {id p : Nat} {l : Levels}
    (h : selectBasePriority es = some (id, p, l)) :
    (∃ e ∈ es, e.id = id ∧ e.kind = .base p l ∧ e.windowEnd.isSome = true) ∧
      ∀ e ∈ es, ∀ q m, e.kind = .base q m → e.windowEnd.isSome = true → q < p ∨ (q = p ∧ id ≤ e.id) := by
  have asc := offers_ascending (offer := openBase)
    (fun e b hb => ((openBase_eq_some e b.1 b.2.1 b.2.2).1 hb).1.symm) hes
  rw [selectBasePriority_eq_argmax] at h
  obtain ⟨hm, hle, hfirst⟩ := List.argmax_eq_some_iff.1 h
  constructor
  · obtain ⟨e, he, ho⟩ := List.mem_filterMap.1 hm
    exact ⟨e, he, (openBase_eq_some e id p l).1 ho⟩
  · intro e he q m hk hw
    have hoffer : (e.id, q, m) ∈ es.filterMap openBase :=
      List.mem_filterMap.2 ⟨e, he, (openBase_eq_some e e.id q m).2 ⟨rfl, hk, hw⟩⟩
    have hqp : q ≤ p := hle _ hoffer
    rcases Nat.lt_or_eq_of_le hqp with hlt | heq
    · exact .inl hlt
    · exact .inr ⟨heq, rank_le_of_idxOf_le asc hm hoffer (hfirst _ hoffer heq.ge)⟩

theorem selectWindows_cal (s : State) :
    (selectWindows s).cal = { s.cal with curfew := selectCurfew s.cal.entries, base := selectBase s.cal.entries } := by
  unfold selectWindows
  simp

/-- Settles O25: each selection is a first extremum of what the open entries offer, so the library's `argmin` and `argmax` say which
entry it is; what is handed over is `selectWindows_mixer`. -/
theorem selectionAmongOpen : Obligations.SelectionAmongOpen := by
  unfold Obligations.SelectionAmongOpen
  refine ⟨fun es hes => ⟨selectCurfew_eq_none es, fun _ _ _ => selectCurfew_lowest hes, selectBasePriority_eq_none es,
    fun _ _ _ => selectBasePriority_highest hes⟩, fun es => ⟨?_, ?_⟩, fun s => ?_⟩
  · simp [selectBase]
  · intro id p l h
    simp [selectBase, h]
  · have hm := selectWindows_mixer s
    refine ⟨(selectWindows_keeps s).1, selectWindows_cal s, ?_, ?_, ?_, ?_, ?_⟩ <;> rw [hm]

end Sys2Proof.Machine.CalendarProofs
end

section
/-!
PROOFS. The calendar (02_the_calendar.md): the checks of an ENTRY WRITE and the entry an accepted one carries (R27, R42, R174).
-/

namespace Sys2Proof.Machine.CalendarProofs

/-! ### Recurrence (R27, R174) -/

/-- February counts as 29 days, and no other number is a month. -/
theorem longestMonth_eq (m : Nat) : longestMonth m =
    if m = 0 ∨ 12 < m then 0 else ([31, 29, 31, 30, 31, 30, 31, 31, 30, 31, 30, 31][m - 1]?).getD 0 := by
  unfold longestMonth monthLengths
  simp only [if_true]
  by_cases h0 : m = 0
  · simp only [h0, if_true, true_or]
  · by_cases h12 : 12 < m
    · rw [if_neg h0, if_pos (Or.inr h12), List.getElem?_eq_none (by simp; omega)]; rfl
    · rw [if_neg h0, if_neg (by omega)]

theorem recurrenceOf_eq_none (f : EntryImage) : recurrenceOf f = none ↔
    4 < f.recurrence.toNat ∨ (f.recurrence.toNat = 0 ∧ 36524 < f.day6.toNat * 256 + f.day7.toNat) ∨
      (f.recurrence.toNat = 2 ∧ f.day6.toNat % 128 = 0) ∨
      (f.recurrence.toNat = 3 ∧
        (f.day6.toNat = 0 ∨ 12 < f.day6.toNat ∨ f.day7.toNat = 0 ∨
          ([31, 29, 31, 30, 31, 30, 31, 31, 30, 31, 30, 31][f.day6.toNat - 1]?).getD 0 < f.day7.toNat)) ∨
      (f.recurrence.toNat = 4 ∧
        (f.day6.toNat = 0 ∨ 12 < f.day6.toNat ∨ f.day7.toNat % 8 = 7 ∨ f.day7.toNat / 16 % 8 ∈ [0, 5, 6])) := by
  unfold recurrenceOf nthFields
  generalize f.recurrence.toNat = r
  match r with
  | 0 =>
    have hl : lastDay = 36524 := rfl
    simp only
    split <;> simp <;> omega
  | 1 => simp
  | 2 => simp
  | 3 =>
    simp only [longestMonth_eq]
    split <;> simp <;> omega
  | 4 =>
    simp only [List.mem_cons, List.not_mem_nil, or_false]
    split
    · split
      · simp; omega
      · split <;> simp <;> omega
    · simp; omega
  | r + 5 => simp

/-- What an accepted recurrence is. -/
theorem recurrenceOf_eq_some {f : EntryImage} {r : Recurrence} (h : recurrenceOf f = some r) :
    r = (writtenEntry f).recurrence := by
  unfold recurrenceOf nthFields at h
  unfold writtenEntry
  dsimp only at h ⊢
  split at h <;> rename_i hr <;> simp only [hr]
  · split at h <;> simp_all
  · simp_all
  · split at h <;> simp_all
  · split at h <;> simp_all
  · split at h
    · split at h
      · simp_all
      · split at h <;> simp_all
    · simp_all
  · simp_all

/-! ### Anchor (R27, R174) -/

theorem anchor_minutes (a : BitVec 24) : (a.setWidth 16).toInt =
    if a.toNat % 2 ^ 16 < 2 ^ 15 then ((a.toNat % 2 ^ 16 : Nat) : Int) else ((a.toNat % 2 ^ 16 : Nat) : Int) - 2 ^ 16 := by
  rw [BitVec.toInt_eq_toNat_cond, BitVec.toNat_setWidth]
  norm_num
  split <;> split <;> omega

theorem anchor_isDusk (a : BitVec 24) : a.getLsbD 23 = true ↔ 2 ^ 23 ≤ a.toNat := by
  have := a.isLt
  rw [BitVec.getLsbD, Nat.testBit_eq_decide_div_mod_eq]
  simp; omega

theorem anchorOf_eq_none (a : BitVec 24) : anchorOf a = none ↔
    (a.toNat < 2 ^ 23 ∧ 86399 < a.toNat % 2 ^ 17) ∨
      (2 ^ 23 ≤ a.toNat ∧ 180 < a.toNat % 2 ^ 16 ∧ a.toNat % 2 ^ 16 < 2 ^ 16 - 180) := by
  unfold anchorOf
  simp only [anchor_isDusk, anchor_minutes]
  by_cases hd : 2 ^ 23 ≤ a.toNat
  · rw [if_pos hd]
    split <;> split <;> simp <;> omega
  · rw [if_neg hd]
    split <;> simp <;> omega

theorem anchorOf_eq_some {f : EntryImage} {a : Anchor} (h : anchorOf f.anchor = some a) : a = (writtenEntry f).anchor := by
  unfold anchorOf at h
  unfold writtenEntry
  simp only [anchor_isDusk, anchor_minutes] at h
  dsimp only
  by_cases hd : 2 ^ 23 ≤ f.anchor.toNat
  · rw [if_pos hd] at h
    rw [if_neg (by omega)]
    split at h <;> split at h <;> rename_i hm hr
    · rw [if_pos hm]; exact (Option.some.inj h).symm
    · cases h
    · rw [if_neg hm]; exact (Option.some.inj h).symm
    · cases h
  · rw [if_neg hd] at h
    rw [if_pos (by omega)]
    split at h
    · exact (Option.some.inj h).symm
    · cases h

/-! ### Kind, validity and duration (R27, R42) -/

theorem kindOf_eq_none (f : EntryImage) : kindOf f = none ↔
    2 < f.kind.toNat ∨ (f.kind.toNat = 0 ∧
      (f.byte18.toNat = 0 ∨ 1 < f.byte20.toNat / 16 ∨ (f.byte20.toNat / 16 = 0 ∧ f.byte20.toNat % 16 ≠ 0))) := by
  have h18 : f.byte18 = 0 ↔ f.byte18.toNat = 0 := ⟨fun h => by rw [h]; rfl, fun h => BitVec.eq_of_toNat_eq h⟩
  unfold kindOf
  simp only [h18]
  generalize f.kind.toNat = k
  generalize f.byte20.toNat / 16 = mode
  match k with
  | 0 =>
    match mode with
    | 0 => simp only; split <;> simp_all
    | 1 => simp
    | m + 2 => simp
  | 1 => simp
  | 2 => simp
  | k + 3 => simp

theorem kindOf_eq_some {f : EntryImage} {k : EntryKind} (h : kindOf f = some k) : k = (writtenEntry f).kind := by
  unfold kindOf at h
  unfold writtenEntry
  dsimp only at h ⊢
  split at h <;> rename_i hk
  · rw [hk]
    split at h <;> rename_i hm
    · split at h
      · cases h
      · rename_i hp
        have : f.byte20.toNat % 16 = 0 := by tauto
        rw [this, hm]; exact (Option.some.inj h).symm
    · split at h
      · cases h
      · rw [hm]; exact (Option.some.inj h).symm
    · cases h
  · rw [hk]; exact (Option.some.inj h).symm
  · rw [hk]; exact (Option.some.inj h).symm
  · cases h

theorem optionalDay_eq (d : BitVec 16) : optionalDay d = if d.toNat = 0xFFFF then none else some d.toNat := by
  have : d = 0xFFFF ↔ d.toNat = 0xFFFF := ⟨fun h => by rw [h]; rfl, fun h => BitVec.eq_of_toNat_eq h⟩
  unfold optionalDay
  simp only [this]

theorem validityGood_eq_false (f : EntryImage) : validityGood f = false ↔
    (f.validFrom.toNat ≠ 0xFFFF ∧ 36524 < f.validFrom.toNat) ∨ (f.validUntil.toNat ≠ 0xFFFF ∧ 36524 < f.validUntil.toNat) ∨
      (f.validFrom.toNat ≠ 0xFFFF ∧ f.validUntil.toNat ≠ 0xFFFF ∧ f.validUntil.toNat < f.validFrom.toNat) := by
  have hl : lastDay = 36524 := rfl
  unfold validityGood
  rw [optionalDay_eq, optionalDay_eq]
  by_cases ha : f.validFrom.toNat = 0xFFFF <;> by_cases hb : f.validUntil.toNat = 0xFFFF <;>
    simp [ha, hb] <;> omega

theorem durationGood_eq_false (f : EntryImage) : durationGood f = false ↔
    345600 < f.duration.toNat ∨ (f.kind.toNat ≠ 0 ∧ f.duration.toNat = 0) := by
  have hk : f.kind = 0 ↔ f.kind.toNat = 0 := ⟨fun h => by rw [h]; rfl, fun h => BitVec.eq_of_toNat_eq h⟩
  have hd : f.duration = 0 ↔ f.duration.toNat = 0 := ⟨fun h => by rw [h]; rfl, fun h => BitVec.eq_of_toNat_eq h⟩
  unfold durationGood
  simp only [Bool.and_eq_false_iff, decide_eq_false_iff_not, not_le, Bool.or_eq_false_iff, beq_eq_false_iff_ne,
    bne_eq_false_iff_eq, ne_eq, hk, hd]

/-! ### The entry (R27, R42) -/

/-- An ENTRY WRITE is refused when one of its checks fails. -/
theorem entryOf_eq_none (f : EntryImage) : entryOf f = none ↔
    kindOf f = none ∨ recurrenceOf f = none ∨ anchorOf f.anchor = none ∨ validityGood f = false ∨ durationGood f = false := by
  unfold entryOf
  cases recurrenceOf f <;> cases anchorOf f.anchor <;> cases kindOf f <;> cases validityGood f <;> cases durationGood f <;> simp

/-- An accepted ENTRY WRITE gives the entry that `writtenEntry` spells out. -/
theorem entryOf_eq_some {f : EntryImage} {new : Entry} (h : entryOf f = some new) : new = writtenEntry f := by
  unfold entryOf at h
  split at h
  · rename_i r a k hr ha hk
    split at h
    · rw [← Option.some.inj h, recurrenceOf_eq_some hr, anchorOf_eq_some ha, kindOf_eq_some hk, optionalDay_eq, optionalDay_eq]
      rfl
    · cases h
  · cases h

/-- Settles O24: each field's own check gives its clauses, and an entry is refused when one of them fails. -/
theorem entryChecks : Obligations.EntryChecks := by
  unfold Obligations.EntryChecks
  intro f
  refine ⟨fun new => entryOf_eq_some, ?_⟩
  rw [entryOf_eq_none, kindOf_eq_none, recurrenceOf_eq_none, anchorOf_eq_none, validityGood_eq_false, durationGood_eq_false]
  apply Iff.of_eq
  ac_rfl

end Sys2Proof.Machine.CalendarProofs
end

section
/-!
PROOFS. The calendar (02_the_calendar.md): the firing instant of a CLOCK anchor over the seasonal transitions (R30, R31).
-/

namespace Sys2Proof.Machine.CalendarProofs

/-- The offset in force at standard second `t`: that of the latest of the transitions at or before it, `offset` before the first
of them (R30). -/
def offsetIn (offset : Int) (ws : List Season) (t : Nat) : Int :=
  (((ws.filter (fun w => w.instant * 60 ≤ t)).getLast?).map (·.offset)).getD offset

theorem offsetIn_before {offset : Int} {ws : List Season} {t : Nat} (h : ∀ w ∈ ws, t < w.instant * 60) :
    offsetIn offset ws t = offset := by
  have : ws.filter (fun w => w.instant * 60 ≤ t) = [] := List.filter_eq_nil_iff.2 fun w hw => by simpa using h w hw
  simp [offsetIn, this]

/-- From a transition on, the offset before it no longer matters. -/
theorem offsetIn_after {offset : Int} {w : Season} {ws : List Season} {t : Nat} (h : w.instant * 60 ≤ t) :
    offsetIn offset (w :: ws) t = offsetIn w.offset ws t := by
  unfold offsetIn
  rw [List.filter_cons_of_pos (by simpa using h), List.getLast?_cons]
  cases (ws.filter (fun w => w.instant * 60 ≤ t)).getLast? <;> rfl

/-- With `offset` in force from `start` to the first of the ascending transitions, the search ends at the earliest second from
`start` on at which civil time is at or past the target. -/
theorem clockInstant_earliest (target : Int) : ∀ (ws : List Season) (start : Nat) (offset : Int),
    ws.Pairwise (fun v w => v.instant < w.instant) → (∀ w ∈ ws, start ≤ w.instant * 60) →
    ∃ r : Nat, clockInstant target start offset ws = r ∧ start ≤ r ∧ target ≤ r + offsetIn offset ws r * 60 ∧
      ∀ t : Nat, start ≤ t → target ≤ t + offsetIn offset ws t * 60 → r ≤ t := by
  intro ws
  induction ws with
  | nil =>
    intro start offset _ _
    have hoff : ∀ t, offsetIn offset [] t = offset := fun t => offsetIn_before (by simp)
    refine ⟨(max (start : Int) (target - offset * 60)).toNat, ?_, ?_, ?_, ?_⟩
    · simp only [clockInstant]; omega
    · omega
    · rw [hoff]; omega
    · intro t ht htarget
      rw [hoff] at htarget; omega
  | cons w ws ih =>
    intro start offset hasc hstart
    obtain ⟨hw, hws⟩ := List.pairwise_cons.1 hasc
    have hstartw : start ≤ w.instant * 60 := hstart w (by simp)
    have hbefore : ∀ t, t < w.instant * 60 → offsetIn offset (w :: ws) t = offset := by
      intro t ht
      refine offsetIn_before fun v hv => ?_
      rcases List.mem_cons.1 hv with rfl | hv
      · exact ht
      · have := hw v hv; omega
    by_cases hfirst : max (start : Int) (target - offset * 60) < w.instant * 60
    · -- the target is met before the first transition
      refine ⟨(max (start : Int) (target - offset * 60)).toNat, ?_, ?_, ?_, ?_⟩
      · simp only [clockInstant]; rw [if_pos hfirst]; omega
      · omega
      · rw [hbefore _ (by omega)]; omega
      · intro t ht htarget
        by_contra hlt
        rw [hbefore t (by omega)] at htarget
        omega
    · -- no second before the first transition meets the target
      obtain ⟨r, hr, hwr, hmeets, hleast⟩ := ih (w.instant * 60) w.offset hws (fun v hv => by have := hw v hv; omega)
      refine ⟨r, ?_, by omega, ?_, ?_⟩
      · simp only [clockInstant]; rw [if_neg hfirst]; simpa using hr
      · rw [offsetIn_after hwr]; exact hmeets
      · intro t ht htarget
        by_cases hlt : t < w.instant * 60
        · rw [hbefore t hlt] at htarget
          omega
        · exact hleast t (by omega) (by rwa [offsetIn_after (by omega)] at htarget)

/-- Settles O23: `clockInstant_earliest` from second 0 with offset 0. -/
theorem clockInstantIsEarliest : Obligations.ClockInstantIsEarliest := by
  unfold Obligations.ClockInstantIsEarliest
  intro seasons dusk day seconds hasc
  obtain ⟨r, hr, -, hmeets, hleast⟩ :=
    clockInstant_earliest (day * 86400 + seconds : Nat) seasons 0 0 (List.pairwise_map.1 hasc) (by simp)
  have hfires : instantOf dusk seasons (.clock seconds) day = r := by
    simp only [instantOf]
    push_cast at hr
    rw [hr, Int.toNat_natCast]
  simp only [hfires]
  exact ⟨hmeets, fun t => hleast t (Nat.zero_le t)⟩

end Sys2Proof.Machine.CalendarProofs
end

section
/-!
PROOFS. The calendar (02_the_calendar.md): dates and recurrence days (R28), the instant of a DUSK anchor (R29, R32), and the recompute
of an entry by look-ahead and look-back (R33, R39).
-/

namespace Sys2Proof.Machine.CalendarProofs

/-! ### Look-ahead and look-back (R33, R39) -/

/-- A firing instant of an entry: that of one of its recurrence days from day 0 to the last day (R28, R31, R32). -/
def RecursAt (dusk : List (Nat × Nat)) (seasons : List Season) (e : Entry) (day : Int) (t : Nat) : Prop :=
  0 ≤ day ∧ day ≤ 36524 ∧ e.recursOn day.toNat = true ∧ t = instantOf dusk seasons e.anchor day.toNat

theorem mem_firingInstants {dusk : List (Nat × Nat)} {seasons : List Season} {e : Entry} {first : Int} {count t : Nat} :
    t ∈ firingInstants dusk seasons e first count ↔
      ∃ day : Int, first ≤ day ∧ day < first + count ∧ RecursAt dusk seasons e day t := by
  have hl : lastDay = 36524 := rfl
  unfold firingInstants RecursAt
  simp only [List.mem_filterMap, List.bind_eq_flatMap, List.pure_def, List.mem_flatMap, List.mem_singleton, List.mem_range, hl]
  constructor
  · rintro ⟨_, ⟨i, hi, rfl⟩, h⟩
    split at h
    · rename_i hday
      split at h
      · rename_i hrec
        exact ⟨first + i, by omega, by omega, hday.1, hday.2, hrec, (Option.some.inj h).symm⟩
      · cases h
    · cases h
  · rintro ⟨day, h1, h2, h3, h4, hrec, rfl⟩
    have hi : first + ((day - first).toNat : Nat) = day := by omega
    refine ⟨_, ⟨(day - first).toNat, by omega, rfl⟩, ?_⟩
    rw [hi, if_pos ⟨h3, by exact_mod_cast h4⟩, if_pos hrec]

theorem smallest_eq_none {l : List Nat} : smallest l = none ↔ l = [] := by
  cases l with
  | nil => simp [smallest]
  | cons a l => unfold smallest; cases smallest l <;> simp

theorem smallest_eq_some {l : List Nat} {a : Nat} : smallest l = some a ↔ a ∈ l ∧ ∀ b ∈ l, a ≤ b := by
  induction l generalizing a with
  | nil => simp [smallest]
  | cons c l ih =>
    unfold smallest
    cases h : smallest l with
    | none =>
      rw [smallest_eq_none.1 h]
      simp; omega
    | some m =>
      obtain ⟨hm, hle⟩ := ih.1 h
      simp only [Option.some.injEq, List.mem_cons, forall_eq_or_imp]
      constructor
      · rintro rfl
        refine ⟨?_, Nat.min_le_left c m, fun b hb => (Nat.min_le_right c m).trans (hle b hb)⟩
        rcases Nat.le_total c m with hcm | hmc
        · exact .inl (Nat.min_eq_left hcm)
        · rw [Nat.min_eq_right hmc]; exact .inr hm
      · rintro ⟨rfl | ha, hac, hal⟩
        · exact Nat.min_eq_left (hal m hm)
        · have := hle a ha; have := hal m hm; omega

theorem largest_eq_none {l : List Nat} : largest l = none ↔ l = [] := by
  cases l with
  | nil => simp [largest]
  | cons a l => unfold largest; cases largest l <;> simp

theorem largest_eq_some {l : List Nat} {a : Nat} : largest l = some a ↔ a ∈ l ∧ ∀ b ∈ l, b ≤ a := by
  induction l generalizing a with
  | nil => simp [largest]
  | cons c l ih =>
    unfold largest
    cases h : largest l with
    | none =>
      rw [largest_eq_none.1 h]
      simp; omega
    | some m =>
      obtain ⟨hm, hle⟩ := ih.1 h
      simp only [Option.some.injEq, List.mem_cons, forall_eq_or_imp]
      constructor
      · rintro rfl
        refine ⟨?_, Nat.le_max_left c m, fun b hb => (hle b hb).trans (Nat.le_max_right c m)⟩
        rcases Nat.le_total c m with hcm | hmc
        · rw [Nat.max_eq_right hcm]; exact .inr hm
        · exact .inl (Nat.max_eq_left hmc)
      · rintro ⟨rfl | ha, hac, hal⟩
        · exact Nat.max_eq_left (hal m hm)
        · have := hle a ha; have := hal m hm; omega

/-- The firing instants that the look-ahead of R33 finds: after the current second, of the days from the one before today. -/
def Ahead (dusk : List (Nat × Nat)) (seasons : List Season) (current : Nat) (e : Entry) (t : Nat) : Prop :=
  current < t ∧ ∃ day : Int, (current / 86400 : Nat) - 1 ≤ day ∧ day ≤ (current / 86400 : Nat) + 400 ∧ RecursAt dusk seasons e day t

/-- The firing instants that the look-back of R39 finds: those whose window is open at the current second. -/
def Back (dusk : List (Nat × Nat)) (seasons : List Season) (current : Nat) (e : Entry) (t : Nat) : Prop :=
  t ≤ current ∧ current < t + e.duration ∧
    ∃ day : Int, (current / 86400 : Nat) - 5 ≤ day ∧ day ≤ (current / 86400 : Nat) ∧ RecursAt dusk seasons e day t

section
variable (dusk : List (Nat × Nat)) (seasons : List Season) (current : Nat) (e : Entry)

theorem mem_lookAhead (t : Nat) :
    t ∈ (firingInstants dusk seasons e ((current / 86400 : Nat) - 1) 402).filter (fun t => current < t) ↔
      Ahead dusk seasons current e t := by
  simp only [List.mem_filter, mem_firingInstants, decide_eq_true_eq, Ahead, and_comm (b := current < t)]
  refine and_congr_right fun _ => exists_congr fun day => and_congr_right fun _ => and_congr_left fun _ => ?_
  omega

theorem mem_lookBack (t : Nat) :
    t ∈ (firingInstants dusk seasons e ((current / 86400 : Nat) - 5) 6).filter
        (fun t => t ≤ current && current < t + e.duration) ↔ Back dusk seasons current e t := by
  simp only [List.mem_filter, mem_firingInstants, Bool.and_eq_true, decide_eq_true_eq, Back]
  rw [and_comm, and_assoc]
  refine and_congr_right fun _ => and_congr_right fun _ => exists_congr fun day => and_congr_right fun _ => and_congr_left fun _ => ?_
  omega

theorem nextFireOf_eq_some (frame : Nat) : nextFireOf dusk seasons current e = some frame ↔
    ∃ t, frame = t * 40 ∧ Ahead dusk seasons current e t ∧ ∀ t', Ahead dusk seasons current e t' → t ≤ t' := by
  unfold nextFireOf
  simp only [Option.map_eq_some_iff, smallest_eq_some, mem_lookAhead]
  exact exists_congr fun t => ⟨fun ⟨h, hf⟩ => ⟨hf.symm, h⟩, fun ⟨hf, h⟩ => ⟨h, hf.symm⟩⟩

theorem nextFireOf_eq_none : nextFireOf dusk seasons current e = none ↔ ∀ t, ¬ Ahead dusk seasons current e t := by
  unfold nextFireOf
  rw [Option.map_eq_none_iff, smallest_eq_none, List.eq_nil_iff_forall_not_mem]
  exact forall_congr' fun t => not_congr (mem_lookAhead dusk seasons current e t)

theorem windowEndOf_eq_some (frame : Nat) : windowEndOf dusk seasons current e = some frame ↔
    ∃ t, frame = (t + e.duration) * 40 ∧ Back dusk seasons current e t ∧ ∀ t', Back dusk seasons current e t' → t' ≤ t := by
  unfold windowEndOf
  simp only [Option.map_eq_some_iff, largest_eq_some, List.mem_map, mem_lookBack]
  constructor
  · rintro ⟨_, ⟨⟨t, ht, rfl⟩, hmax⟩, rfl⟩
    exact ⟨t, rfl, ht, fun t' ht' => by have := hmax _ ⟨t', ht', rfl⟩; omega⟩
  · rintro ⟨t, rfl, ht, hmax⟩
    refine ⟨_, ⟨⟨t, ht, rfl⟩, ?_⟩, rfl⟩
    rintro _ ⟨t', ht', rfl⟩
    have := hmax t' ht'; omega

theorem windowEndOf_eq_none : windowEndOf dusk seasons current e = none ↔ ∀ t, ¬ Back dusk seasons current e t := by
  unfold windowEndOf
  rw [Option.map_eq_none_iff, largest_eq_none, List.map_eq_nil_iff, List.eq_nil_iff_forall_not_mem]
  exact forall_congr' fun t => not_congr (mem_lookBack dusk seasons current e t)

/-- With time-valid clear or the entry disabled nothing is derived (R33, R36, R39). -/
theorem recompute_off {valid : Bool} (h : valid = false ∨ e.enabled = false) :
    e.recompute dusk seasons valid current = { e with nextFire := none, windowEnd := none } := by
  unfold Entry.recompute
  rw [if_neg (by rcases h with h | h <;> simp [h])]

theorem recompute_show (h : e.isShow = true) (hen : e.enabled = true) :
    e.recompute dusk seasons true current = { e with nextFire := nextFireOf dusk seasons current e, windowEnd := none } := by
  unfold Entry.recompute
  rw [if_pos (by simp [hen]), if_pos h]

theorem recompute_window (h : e.isShow = false) (hen : e.enabled = true) :
    e.recompute dusk seasons true current =
      { e with nextFire := nextFireOf dusk seasons current e, windowEnd := windowEndOf dusk seasons current e } := by
  unfold Entry.recompute
  rw [if_pos (by simp [hen]), if_neg (by simp [h])]

end

theorem isShow_eq_false {e : Entry} (h : ∀ n p m k, e.kind ≠ .playShow n p m k) : e.isShow = false := by
  unfold Entry.isShow
  cases hk : e.kind with
  | playShow n p m k => exact absurd hk (h n p m k)
  | curfew c x => rfl
  | base p l => rfl

/-! ### Dates (R28) -/

theorem monthLengths_isLeap (y : Nat) :
    monthLengths (isLeap y) = [31, if y % 4 = 0 then 29 else 28, 31, 30, 31, 30, 31, 31, 30, 31, 30, 31] := by
  simp [monthLengths, isLeap]

theorem yearOf_of_day (y k : Nat) (hk : k < 365 + if y % 4 = 0 then 1 else 0) :
    yearOf (365 * y + (y + 3) / 4 + k) = (y, k) := by
  obtain ⟨q, r, hr, rfl⟩ : ∃ q r, r < 4 ∧ y = 4 * q + r := ⟨y / 4, y % 4, by omega, by omega⟩
  have hleap : (4 * q + r + 3) / 4 = q + (r + 3) / 4 := by omega
  have hyear : (4 * q + r) % 4 = r := by omega
  rw [hyear] at hk
  -- the day of the cycle of 1,461 days that began with year `4 * q`
  obtain ⟨c, hc⟩ : ∃ c, c = 365 * r + (r + 3) / 4 + k := ⟨_, rfl⟩
  have hlt : c < 1461 := by split at hk <;> omega
  have hday : 365 * (4 * q + r) + (4 * q + r + 3) / 4 + k = 1461 * q + c := by omega
  have hmod : (1461 * q + c) % 1461 = c := by omega
  have hdiv : (1461 * q + c) / 1461 = q := by omega
  unfold yearOf
  simp only [hday, hmod, hdiv]
  rcases Nat.eq_zero_or_pos r with rfl | hpos
  · rw [if_pos rfl] at hk
    rw [if_pos (by omega)]
    exact Prod.ext rfl (by simp only; omega)
  · have hone : (r + 3) / 4 = 1 := by omega
    rw [if_neg (by omega)] at hk
    rw [if_neg (by omega)]
    exact Prod.ext (by simp only; omega) (by simp only; omega)

/-- Day `j` of month `i`, both from 0, after the months before it. -/
theorem splitMonths_at {ns : List Nat} {i : Nat} (month j : Nat) (hi : i < ns.length) (hj : j < ns[i]) :
    splitMonths ns month ((ns.take i).sum + j) = (month + i, j + 1) := by
  induction ns generalizing month i with
  | nil => simp at hi
  | cons n ns ih =>
    cases i with
    | zero => simp_all [splitMonths]
    | succ i =>
      have hge : ¬ (((n :: ns).take (i + 1)).sum + j < n) := by simp; omega
      have hrest : ((n :: ns).take (i + 1)).sum + j - n = (ns.take i).sum + j := by simp; omega
      unfold splitMonths
      rw [if_neg hge, hrest, ih (month + 1) (by simpa using hi) (by simpa using hj)]
      exact Prod.ext (by simp only; omega) rfl

/-- Day number `day` is the `d`-th of month `m` of year 2000 + `y`, by counting the days of the years and months before it (R28). -/
structure IsDate (day y m d : Nat) : Prop where
  month : 1 ≤ m ∧ m ≤ 12
  dayOfMonth : 1 ≤ d ∧ d ≤ ((monthLengths (isLeap y))[m - 1]?).getD 0
  count : day = 365 * y + (y + 3) / 4 + ((monthLengths (isLeap y)).take (m - 1)).sum + (d - 1)

theorem month_fits (y m : Nat) (hm : 1 ≤ m ∧ m ≤ 12) :
    ((monthLengths (isLeap y)).take (m - 1)).sum + ((monthLengths (isLeap y))[m - 1]?).getD 0 ≤
      365 + (if y % 4 = 0 then 1 else 0) ∧ ((monthLengths (isLeap y))[m - 1]?).getD 0 ≤ 31 := by
  rw [monthLengths_isLeap]
  obtain ⟨h1, h2⟩ := hm
  split <;> interval_cases m <;> decide

namespace IsDate
variable {day y m d : Nat} (h : IsDate day y m d)
include h

theorem yearOf_eq : yearOf day = (y, ((monthLengths (isLeap y)).take (m - 1)).sum + (d - 1)) := by
  obtain ⟨h1, h2⟩ := h.dayOfMonth
  have := (month_fits y m h.month).1
  rw [h.count, Nat.add_assoc]
  exact yearOf_of_day y _ (by omega)

theorem dateOf_eq : dateOf day = (m, d) := by
  obtain ⟨hm1, hm2⟩ := h.month
  obtain ⟨hd1, hd2⟩ := h.dayOfMonth
  have hlen : m - 1 < (monthLengths (isLeap y)).length := by simp [monthLengths]; omega
  rw [List.getElem?_eq_getElem hlen, Option.getD_some] at hd2
  unfold dateOf
  rw [h.yearOf_eq]
  simp only
  rw [splitMonths_at 1 (d - 1) hlen (by omega)]
  exact Prod.ext (by simp only; omega) (by simp only; omega)

theorem monthLengthOf_eq : monthLengthOf day = ((monthLengths (isLeap y))[m - 1]?).getD 0 := by
  have hlen : m - 1 < (monthLengths (isLeap y)).length := by have := h.month; simp [monthLengths]; omega
  unfold monthLengthOf
  rw [h.yearOf_eq, h.dateOf_eq]
  simp only [List.getElem?_eq_getElem hlen, Option.getD_some]

theorem le_31 : d ≤ 31 := h.dayOfMonth.2.trans (month_fits y m h.month).2

theorem le_day : d ≤ day + 1 := by have := h.count; omega

/-- On a day of weekday `w`, the days of its month up to it that are `w` are one more than its full weeks (R28). -/
theorem weekdays_so_far {w : Nat} (hw : (day + 5) % 7 = w) :
    ((List.range d).filter (fun j => decide ((day - j + 5) % 7 = w))).length = (d - 1) / 7 + 1 := by
  have hday := h.le_day
  have hsevenths : (List.range d).filter (fun j => decide ((day - j + 5) % 7 = w)) =
      (List.range d).filter (fun j => decide (j % 7 = 0)) := by
    refine List.filter_congr fun j hj => decide_eq_decide.2 ?_
    have := List.mem_range.1 hj
    omega
  have hcount : ∀ d ≤ 31, 1 ≤ d → ((List.range d).filter (fun j => decide (j % 7 = 0))).length = (d - 1) / 7 + 1 := by decide
  rw [hsevenths, hcount d h.le_31 h.dayOfMonth.1]

end IsDate

/-- On a day of weekday `w`, no later day of a month of `n` days is `w` exactly when fewer than seven days follow (R28). -/
theorem last_weekday_iff {day d n w : Nat} (hw : (day + 5) % 7 = w) :
    n < d + 7 ↔ ∀ j, 1 ≤ j → d + j ≤ n → (day + j + 5) % 7 ≠ w := by
  constructor
  · intro h j h1 h2; omega
  · intro h
    by_contra hn
    exact h 7 (by omega) (by omega) (by omega)

/-! ### Recurrence days (R28) -/

theorem recursOn_iff (e : Entry) (day : Nat) : e.recursOn day = true ↔
    (∀ a, e.validFrom = some a → a ≤ day) ∧ (∀ b, e.validUntil = some b → day ≤ b) ∧ day ∉ e.skips ∧
      e.recurrence.names day = true := by
  unfold Entry.recursOn
  cases e.validFrom <;> cases e.validUntil <;> simp <;> tauto

theorem names_nth {day y m d : Nat} (h : IsDate day y m d) (month w k : Nat) :
    (Recurrence.nth month w (some k)).names day = true ↔ m = month ∧ (day + 5) % 7 = w ∧
      ((List.range d).filter (fun j => decide ((day - j + 5) % 7 = w))).length = k := by
  simp only [Recurrence.names, h.dateOf_eq, weekdayOf, Bool.and_eq_true, beq_iff_eq, and_assoc]
  refine and_congr_right fun _ => and_congr_right fun hw => ?_
  rw [h.weekdays_so_far hw]

theorem names_last {day y m d : Nat} (h : IsDate day y m d) (month w : Nat) :
    (Recurrence.nth month w none).names day = true ↔ m = month ∧ (day + 5) % 7 = w ∧
      ∀ j, 1 ≤ j → d + j ≤ ((monthLengths (isLeap y))[m - 1]?).getD 0 → (day + j + 5) % 7 ≠ w := by
  simp only [Recurrence.names, h.dateOf_eq, h.monthLengthOf_eq, weekdayOf, Bool.and_eq_true, beq_iff_eq, decide_eq_true_eq, and_assoc]
  exact and_congr_right fun _ => and_congr_right fun hw => last_weekday_iff hw

/-! ### Dusk (R29, R32) -/

theorem duskValue_eq {table : List (Nat × Nat)} {index v : Nat}
    (h : ((index, v) ∈ table ∧ ∀ v', (index, v') ∈ table → v' = v) ∨ ((∀ v', (index, v') ∉ table) ∧ v = 1080)) :
    duskValue table index = v := by
  unfold duskValue
  cases hf : table.find? (fun e => e.1 == index) with
  | none =>
    rcases h with ⟨hm, -⟩ | ⟨-, rfl⟩
    · exact absurd (List.find?_eq_none.1 hf _ hm) (by simp)
    · rfl
  | some e =>
    have hm : (index, e.2) ∈ table := by
      have hi : e.1 = index := by simpa using List.find?_some hf
      rw [← hi]; exact List.mem_of_find?_eq_some hf
    rcases h with ⟨-, huniq⟩ | ⟨habsent, -⟩
    · exact huniq _ hm
    · exact absurd hm (habsent _)

theorem instantOf_dusk {day y m d : Nat} (h : IsDate day y m d) (dusk : List (Nat × Nat)) (seasons : List Season) (o : Int) :
    (instantOf dusk seasons (.dusk o) day : Int) =
      (day : Int) * 86400 + max 0 (min 86399 ((duskValue dusk (duskIndex m d) : Int) * 60 + o * 60)) := by
  unfold instantOf clampInt
  simp only [h.dateOf_eq]
  push_cast
  rw [Int.toNat_of_nonneg (Int.le_max_left _ _)]

/-- Settles O28: the look-ahead and look-back by the members of `firingInstants`, the days by `IsDate`. -/
theorem recomputeLooksAheadAndBack : Obligations.RecomputeLooksAheadAndBack := by
  unfold Obligations.RecomputeLooksAheadAndBack
  intro dusk seasons current e
  refine ⟨nextFireOf_eq_some dusk seasons current e, nextFireOf_eq_none dusk seasons current e,
    windowEndOf_eq_some dusk seasons current e, windowEndOf_eq_none dusk seasons current e, ?_, ?_⟩
  · intro valid
    refine ⟨recompute_off dusk seasons current e, ?_⟩
    rintro rfl hen
    exact ⟨fun n p m k hk => recompute_show dusk seasons current e (by simp [Entry.isShow, hk]) hen,
      fun hk => recompute_window dusk seasons current e (isShow_eq_false hk) hen⟩
  · intro lengths last weekday day y m d _ hm1 hm12 hd1 hdlast hday
    have hlengths : ∀ y, lengths y = monthLengths (isLeap y) := fun y => (monthLengths_isLeap y).symm
    have hlast : last y m = ((monthLengths (isLeap y))[m - 1]?).getD 0 := by simp only [last, hlengths]
    have hdate : IsDate day y m d := ⟨⟨hm1, hm12⟩, ⟨hd1, hlast ▸ hdlast⟩, hlengths y ▸ hday⟩
    refine ⟨?_, fun o v hv => ?_⟩
    · rw [recursOn_iff]
      refine and_congr_right fun _ => and_congr_right fun _ => and_congr_right fun _ => ?_
      cases e.recurrence with
      | once named => simp [Recurrence.names]
      | daily => simp [Recurrence.names]
      | weekly days => rfl
      | yearly month date => simp [Recurrence.names, hdate.dateOf_eq]
      | nth month w n =>
        cases n with
        | some k => exact names_nth hdate month w k
        | none => rw [names_last hdate, ← hlast]
    · rw [instantOf_dusk hdate, duskValue_eq (index := duskIndex m d) (v := v) ?_]
      have hindex : duskIndex m d = ((lengths 0).take (m - 1)).sum + d := by rw [hlengths]; rfl
      rw [hindex]; exact hv

end Sys2Proof.Machine.CalendarProofs
end

section
/-!
PROOFS. A loss of main power: what stays in retained memory and what each cut leaves in flash (R45, R114, R126, R176).
-/

namespace Sys2Proof.Machine.CalendarProofs

/-- What a loss of power leaves in flash: what the unit of port work in progress had written where it is cut (R114, R126). -/
def flashAfterCut (cut : CutPoint) (s : State) : Vector FlashSlot 32 :=
  match s.lib.port, cut with
  | some u, .whole => (u.written s).flash
  | some (.blockWrite i b _), .dataOnly => s.flash.set i (s.flash[i].writeData b.index b.data)
  | _, _ => s.flash

/-- A unit of port work that runs to its end frees the port and writes flash, and nothing else. -/
theorem endUnit_eq (u : PortUnit) (s : State) : endUnit u s = { setPort none s with flash := (u.written s).flash } := by
  cases u <;> rfl

/-- A loss of power takes the station to its start values with flash as the cut left it. -/
theorem losePower_eq (cut : CutPoint) (s : State) : losePower cut s =
    modStart (fun c => { c with powered := false }) (startBlocks (setPort none { s with flash := flashAfterCut cut s })) := by
  unfold losePower flashAfterCut
  cases hp : s.lib.port with
  | none => rfl
  | some u =>
    cases cut with
    | nothing => cases u <;> rfl
    | dataOnly => cases u <;> rfl
    | whole => simp only [endUnit_eq]; rfl

/-- With a free port a start finds no unit to run to its end. -/
theorem finishUnit_of_free {s : State} (h : s.lib.port = none) : finishUnit s = s := by
  unfold finishUnit; rw [h]

theorem losePower_flash (cut : CutPoint) (s : State) : (losePower cut s).flash = flashAfterCut cut s := by
  obtain ⟨-, -, -, -, hflash, -⟩ := startBlocks_values (setPort none { s with flash := flashAfterCut cut s })
  rw [losePower_eq, modStart_flash, hflash, finishUnit_of_free rfl]
  rfl

/-- What a loss of power makes of the other blocks: retained memory stays, derived fields and volatile state take their start values. -/
theorem losePower_values (cut : CutPoint) (s : State) :
    (losePower cut s).start.powered = false ∧
      (losePower cut s).cal = { s.cal with entries := s.cal.entries.map Entry.underive, curfew := none, base := none } ∧
      (losePower cut s).rows = Vector.replicate 4 none ∧ (losePower cut s).line = LineInterface.start ∧
      (losePower cut s).counters = Counters.zero := by
  obtain ⟨-, -, -, hcal, -, -, hrows, -, -, -, -, -, -, hline, hcounters⟩ :=
    startBlocks_values (setPort none { s with flash := flashAfterCut cut s })
  rw [losePower_eq]
  exact ⟨rfl, hcal, hrows, hline, hcounters⟩

theorem exec_mainPowerLoss {s : State} (h : s.start.powered = true) (cut : CutPoint) :
    exec (.mainPowerLoss cut) s = .next (losePower cut s) := by
  show Host.Outcome.next (if s.start.powered then losePower cut s else s) = _
  rw [if_pos h]

@[simp] theorem underive_underive (e : Entry) : e.underive.underive = e.underive := rfl

/-! ### What each cut leaves in flash (R114, R126) -/

section
variable {s : State}

theorem flashAfterCut_nothing (cut : CutPoint) (h : cut = .nothing ∨ s.lib.port = none) : flashAfterCut cut s = s.flash := by
  unfold flashAfterCut
  rcases h with rfl | h
  · cases hp : s.lib.port with
    | none => rfl
    | some u => cases u <;> rfl
  · rw [h]

theorem flashAfterCut_whole {u : PortUnit} (h : s.lib.port = some u) : flashAfterCut .whole s = (u.written s).flash := by
  unfold flashAfterCut; rw [h]

theorem flashAfterCut_dataOnly {i : Fin 32} {b : QueuedBlock} {live : Bool} (h : s.lib.port = some (.blockWrite i b live)) :
    flashAfterCut .dataOnly s = s.flash.set i (s.flash[i].writeData b.index b.data) := by
  unfold flashAfterCut; rw [h]

/-- Only a block write can be cut with its data written and its mark not. -/
theorem flashAfterCut_dataOnly_other {u : PortUnit} (h : s.lib.port = some u) (hu : ∀ i b live, u ≠ .blockWrite i b live) :
    flashAfterCut .dataOnly s = s.flash := by
  unfold flashAfterCut
  rw [h]
  cases u with
  | blockWrite i b live => exact absurd rfl (hu i b live)
  | _ => rfl

end

/-- Settles O32: `losePower_eq` says that a loss of power is a start from flash as the cut left it. -/
theorem powerLossKeepsRetained : Obligations.PowerLossKeepsRetained := by
  unfold Obligations.PowerLossKeepsRetained
  intro cut s hpower
  obtain ⟨hpowered, hcal, hrows, hline, hcounters⟩ := losePower_values cut s
  refine ⟨losePower cut s, exec_mainPowerLoss hpower cut, hpowered, (losePower_frame cut s).1, ?_, ?_, ?_, hrows, hline,
    hcounters, ?_⟩
  · simp [hcal, Function.comp_def]
  · rw [hcal]
  · rw [hcal]
  rw [losePower_flash]
  refine ⟨flashAfterCut_nothing cut, ?_, ?_, fun i b live hp => ⟨?_, ?_⟩⟩
  · rintro u hp hu rfl; exact flashAfterCut_dataOnly_other hp hu
  · rintro rfl
    refine ⟨fun p live hp => ?_, fun i k hp => ?_, fun i m b hp => ?_, fun i hp => ?_, fun i k live hp => ?_⟩ <;>
      exact flashAfterCut_whole hp
  · rintro rfl; exact flashAfterCut_dataOnly hp
  · rintro rfl; exact flashAfterCut_whole hp

end Sys2Proof.Machine.CalendarProofs
end

section
/-!
PROOFS. The calendar (02_the_calendar.md): what the SCHEDULE frames do to the tables (R29, R30, R34, R41 to R45).
-/

namespace Sys2Proof.Machine.CalendarProofs

/-! ### A SCHEDULE frame that is taken (R41) -/

theorem started_iff (s : State) : started s = true ↔ awake s = true ∧ s.start.state ≠ .starting := by
  simp [started]

/-- Outside STARTING a SCHEDULE frame that concerns the station takes effect, is counted or noted, and is answered. -/
theorem onSchedule_taken {s : State} (hs : started s = true) {target : Byte} (hc : concerns target s = true)
    {sub bytes : Nat} (hb : frameLength 6 sub = bytes) {sender : LineNumber} {subject : Nat} {effect : State → Verdict × State}
    {v : Verdict} {t : State} (h : effect (noteSender sender bytes s) = (v, t)) :
    onSchedule sender target sub subject effect s = .next (answerResult sender target 6 sub v subject (settleSchedule v t)) := by
  obtain ⟨hawake, hstate⟩ := (started_iff s).1 hs
  have hc' : concerns target (noteSender sender bytes s) = true := by simpa [concerns] using hc
  unfold onSchedule onFrameStarted onFrame
  simp only [hb, if_pos hawake, if_pos hc', h, noteSender_frame, if_neg hstate]

theorem onSchedule_accepted {s : State} (hs : started s = true) {target : Byte} (hc : concerns target s = true)
    {sub bytes : Nat} (hb : frameLength 6 sub = bytes) {sender : LineNumber} {subject : Nat} {effect : State → Verdict × State}
    {t : State} (h : effect (noteSender sender bytes s) = (.accepted, t)) :
    onSchedule sender target sub subject effect s = .next (answerResult sender target 6 sub .accepted subject (noteAccepted t)) :=
  onSchedule_taken hs hc hb h

theorem onSchedule_refused {s : State} (hs : started s = true) {target : Byte} (hc : concerns target s = true)
    {sub bytes : Nat} (hb : frameLength 6 sub = bytes) {sender : LineNumber} {subject : Nat} {effect : State → Verdict × State}
    {v : Verdict} (hv : v ≠ .accepted) (h : effect (noteSender sender bytes s) = (v, noteSender sender bytes s)) :
    onSchedule sender target sub subject effect s =
      .next (answerResult sender target 6 sub v subject (bump .scheduleRefused (noteSender sender bytes s))) := by
  rw [onSchedule_taken hs hc hb h, settleSchedule, if_neg hv]

theorem exec_entryWrite (n : LineNumber) (target : Byte) (f : EntryImage) (s : State) :
    exec (.entryWrite n target f) s = onSchedule n target 1 f.id.toNat (entryWrite f) s := rfl

theorem exec_entryExtra (n : LineNumber) (target : Byte) (f : ExtraImage) (s : State) :
    exec (.entryExtra n target f) s = onSchedule n target 2 f.id.toNat (entryExtra f) s := rfl

theorem exec_entryDelete (n : LineNumber) (target : Byte) (id : BitVec 16) (s : State) :
    exec (.entryDelete n target id) s = onSchedule n target 3 id.toNat (entryDelete id.toNat) s := rfl

theorem exec_calendarClear (n : LineNumber) (target : Byte) (s : State) : exec (.calendarClear n target) s =
    onSchedule n target 4 0 (fun s => (.accepted, selectWindows (setEntries [] s))) s := rfl

theorem exec_duskBlock (n : LineNumber) (target : Byte) (first : BitVec 16) (values : Vector (BitVec 16) 8) (s : State) :
    exec (.duskBlock n target first values) s = onSchedule n target 5 0 (duskBlock first.toNat values) s := rfl

theorem exec_seasonWrite (n : LineNumber) (target : Byte) (instant : BitVec 32) (offset : Byte) (s : State) :
    exec (.seasonWrite n target instant offset) s = onSchedule n target 6 0 (seasonWrite instant.toNat offset.toInt) s := rfl

theorem exec_seasonClear (n : LineNumber) (target : Byte) (s : State) : exec (.seasonClear n target) s =
    onSchedule n target 7 0 (fun s => (.accepted, recomputeAll { s with cal := { s.cal with seasons := [] } })) s := rfl

/-! ### The table of entries (R26, R42) -/

@[simp] theorem recompute_id (dusk : List (Nat × Nat)) (seasons : List Season) (valid : Bool) (current : Nat) (e : Entry) :
    (e.recompute dusk seasons valid current).id = e.id := by
  unfold Entry.recompute
  split <;> rfl

@[simp] theorem recomputeEntry_id (s : State) (e : Entry) : (recomputeEntry s e).id = e.id := recompute_id _ _ _ _ e

/-- A recompute reads the tables and the time, which the Line Interface leaves alone. -/
@[simp] theorem recomputeEntry_noteSender (sender : LineNumber) (bytes : Nat) (s : State) (e : Entry) :
    recomputeEntry (noteSender sender bytes s) e = recomputeEntry s e := by
  simp [recomputeEntry, secondNow, towerUs]

theorem entryAt_eq_none {s : State} {id : Nat} (h : ∀ e ∈ s.cal.entries, e.id ≠ id) : entryAt s id = none := by
  unfold entryAt
  exact List.find?_eq_none.2 fun e he => by simpa using h e he

/-- An entry with only smaller ids before it is the one of its id. -/
theorem entryAt_eq_some {s : State} {before after : List Entry} {old : Entry} (hes : s.cal.entries = before ++ old :: after)
    (hbefore : ∀ e ∈ before, e.id < old.id) : entryAt s old.id = some old := by
  unfold entryAt
  rw [hes, List.find?_append, List.find?_eq_none.2 fun e he => by simpa using (hbefore e he).ne]
  simp

theorem insertEntry_append {e : Entry} {before after : List Entry} (h : ∀ g ∈ before, g.id < e.id) :
    insertEntry e (before ++ after) = before ++ insertEntry e after := by
  induction before with
  | nil => rfl
  | cons g before ih =>
    obtain ⟨hg, hrest⟩ := List.forall_mem_cons.1 h
    simp only [List.cons_append, insertEntry, if_pos hg, ih hrest]

theorem insertEntry_replaces {e old : Entry} (h : old.id = e.id) (after : List Entry) :
    insertEntry e (old :: after) = e :: after := by
  unfold insertEntry
  rw [if_neg (by omega), if_pos h]

theorem insertEntry_first {e : Entry} {after : List Entry} (h : ∀ g, after.head? = some g → e.id < g.id) :
    insertEntry e after = e :: after := by
  cases after with
  | nil => rfl
  | cons g after =>
    have := h g rfl
    unfold insertEntry
    rw [if_neg (by omega), if_neg (by omega)]

/-- Where an id is not in the table, it has a place: behind the smaller ids that begin it, before a greater one. -/
theorem exists_place {es : List Entry} {id : Nat} (h : ∀ e ∈ es, e.id ≠ id) :
    ∃ before after, es = before ++ after ∧ (∀ e ∈ before, e.id < id) ∧ ∀ e, after.head? = some e → id < e.id := by
  induction es with
  | nil => exact ⟨[], [], rfl, by simp, by simp⟩
  | cons g es ih =>
    obtain ⟨hg, hes⟩ := List.forall_mem_cons.1 h
    by_cases hlt : g.id < id
    · obtain ⟨before, after, rfl, hb, ha⟩ := ih hes
      exact ⟨g :: before, after, rfl, List.forall_mem_cons.2 ⟨hlt, hb⟩, ha⟩
    · refine ⟨[], g :: es, rfl, by simp, fun e he => ?_⟩
      obtain rfl : g = e := by simpa using he
      omega

/-! ### ENTRY_WRITE (R42) -/

@[simp] theorem keepExtras_id (old new : Entry) : (keepExtras old new).id = new.id := by
  unfold keepExtras
  split <;> rfl

/-- A write of another kind keeps nothing of the entry it replaces. -/
theorem keepExtras_other {old new : Entry} (h : old.kind.code ≠ new.kind.code) : keepExtras old new = new := by
  unfold keepExtras
  cases ho : old.kind <;> cases hn : new.kind <;> simp_all [EntryKind.code]

/-- A write of the same kind keeps the skip list, the levels and the ceiling. -/
theorem keepExtras_same {old new : Entry} (h : old.kind.code = new.kind.code) : keepExtras old new = { new with
    skips := old.skips
    kind := match old.kind, new.kind with
      | .curfew ceiling _, .curfew _ exempt => .curfew ceiling exempt
      | .base _ levels, .base priority _ => .base priority levels
      | _, k => k } := by
  obtain ⟨id, enabled, recurrence, anchor, from', until', skips, duration, kind, next, fin⟩ := new
  unfold keepExtras
  cases ho : old.kind <;> cases kind <;> simp_all [EntryKind.code]

theorem keepExtras_kept {old new : Entry} (h : old.kind.code = new.kind.code) :
    (keepExtras old new).skips = old.skips ∧ (keepExtras old new).kind.levels = old.kind.levels ∧
      (keepExtras old new).kind.ceiling = old.kind.ceiling ∧ (keepExtras old new).kind.code = new.kind.code := by
  rw [keepExtras_same h]
  cases ho : old.kind <;> cases hn : new.kind <;> simp_all [EntryKind.code, EntryKind.levels, EntryKind.ceiling]

theorem entryWrite_invalid {f : EntryImage} (h : entryOf f = none) (s : State) : entryWrite f s = (.invalid, s) := by
  simp [entryWrite, h]

theorem entryWrite_full {f : EntryImage} {new : Entry} (h : entryOf f = some new) {s : State}
    (habsent : ∀ e ∈ s.cal.entries, e.id ≠ new.id) (hfull : 96 ≤ s.cal.entries.length) : entryWrite f s = (.full, s) := by
  simp [entryWrite, h, entryAt_eq_none habsent, hfull]

theorem entryWrite_new {f : EntryImage} {new : Entry} (h : entryOf f = some new) {s : State}
    (habsent : ∀ e ∈ s.cal.entries, e.id ≠ new.id) (hroom : s.cal.entries.length < 96) {before after : List Entry}
    (hes : s.cal.entries = before ++ after) (hbefore : ∀ e ∈ before, e.id < new.id)
    (hafter : ∀ e, after.head? = some e → new.id < e.id) :
    entryWrite f s = (.accepted, selectWindows (setEntries (before ++ recomputeEntry s new :: after) s)) := by
  have hplace : insertEntry (recomputeEntry s new) s.cal.entries = before ++ recomputeEntry s new :: after := by
    rw [hes, insertEntry_append (by simpa using hbefore), insertEntry_first (by simpa using hafter)]
  simp [entryWrite, h, entryAt_eq_none habsent, hroom, hplace]

theorem entryWrite_over {f : EntryImage} {new : Entry} (h : entryOf f = some new) {s : State} {before after : List Entry}
    {old : Entry} (hes : s.cal.entries = before ++ old :: after) (hid : old.id = new.id) (hbefore : ∀ e ∈ before, e.id < new.id) :
    entryWrite f s =
      (.accepted, selectWindows (setEntries (before ++ recomputeEntry s (keepExtras old new) :: after) s)) := by
  have hat : entryAt s new.id = some old := by rw [← hid]; exact entryAt_eq_some hes (by simpa only [hid] using hbefore)
  have hplace : insertEntry (recomputeEntry s (keepExtras old new)) s.cal.entries =
      before ++ recomputeEntry s (keepExtras old new) :: after := by
    rw [hes, insertEntry_append (by simpa using hbefore), insertEntry_replaces (by simpa using hid)]
  simp [entryWrite, h, hat, hplace]

/-! ### ENTRY_EXTRA (R43) -/

theorem entryExtra_unknown {f : ExtraImage} {s : State} (h : ∀ e ∈ s.cal.entries, e.id ≠ f.id.toNat) :
    entryExtra f s = (.unknown, s) := by
  simp [entryExtra, entryAt_eq_none h]

section
variable {f : ExtraImage} {s : State} {before after : List Entry} {old : Entry}
  (hes : s.cal.entries = before ++ old :: after) (hid : old.id = f.id.toNat) (hbefore : ∀ e ∈ before, e.id < f.id.toNat)
include hes hid hbefore

theorem entryExtra_invalid (hbad : 4 < f.skipCount.toNat ∨
    ∃ d ∈ (f.skips.toList.take f.skipCount.toNat).map BitVec.toNat, 36524 < d) : entryExtra f s = (.invalid, s) := by
  have hat : entryAt s f.id.toNat = some old := by rw [← hid]; exact entryAt_eq_some hes (by simpa only [hid] using hbefore)
  have hskips : skipsOf f = none := by
    unfold skipsOf
    refine if_neg fun ⟨hcount, hdays⟩ => ?_
    rcases hbad with h | ⟨d, hd, hlate⟩
    · omega
    · have hle : d ≤ lastDay := by simpa using List.all_eq_true.1 hdays d hd
      exact absurd hle (Nat.not_le.2 hlate)
  simp [entryExtra, hat, hskips]

theorem entryExtra_taken (hcount : f.skipCount.toNat ≤ 4)
    (hdays : ∀ d ∈ (f.skips.toList.take f.skipCount.toNat).map BitVec.toNat, d ≤ 36524) :
    entryExtra f s = (.accepted, selectWindows (setEntries (before ++
      recomputeEntry s (takeExtras f ((f.skips.toList.take f.skipCount.toNat).map BitVec.toNat) old) :: after) s)) := by
  have hat : entryAt s f.id.toNat = some old := by rw [← hid]; exact entryAt_eq_some hes (by simpa only [hid] using hbefore)
  have hskips : skipsOf f = some ((f.skips.toList.take f.skipCount.toNat).map BitVec.toNat) := by
    unfold skipsOf
    exact if_pos ⟨hcount, List.all_eq_true.2 fun d hd => decide_eq_true (hdays d hd)⟩
  have hplace : ∀ skips, insertEntry (recomputeEntry s (takeExtras f skips old)) s.cal.entries =
      before ++ recomputeEntry s (takeExtras f skips old) :: after := by
    intro skips
    rw [hes, insertEntry_append (by simpa [takeExtras, hid] using hbefore), insertEntry_replaces (by simp [takeExtras])]
  simp only [entryExtra, hat, hskips, hplace]

end

/-- Settles O39: `entryWrite` and `entryExtra` case by case, each as its frame is taken. -/
theorem entryWrittenInPlace : Obligations.EntryWrittenInPlace := by
  unfold Obligations.EntryWrittenInPlace
  refine ⟨?_, fun old new => keepExtras_kept, ?_, ?_⟩
  · intro n target f s hs hc u refused accepted
    have hes : u.cal.entries = s.cal.entries := by simp [u]
    rw [exec_entryWrite, ← hes]
    refine ⟨fun h => onSchedule_refused hs hc rfl (by decide) (entryWrite_invalid h _), fun new hnew => ?_⟩
    have hid : f.id.toNat = new.id := by rw [entryOf_eq_some hnew]; rfl
    refine ⟨fun habsent hfull => ?_, fun habsent hroom => ?_, fun before old after hsplit hold hbefore => ?_⟩
    · rw [hid] at habsent
      exact onSchedule_refused hs hc rfl (by decide) (entryWrite_full hnew habsent hfull)
    · obtain ⟨before, after, hsplit, hbefore, hafter⟩ := exists_place habsent
      refine ⟨before, after, hsplit, hbefore, hafter, ?_⟩
      rw [hid] at habsent hbefore hafter
      rw [← recomputeEntry_noteSender n 21 s]
      exact onSchedule_accepted hs hc rfl (entryWrite_new hnew habsent hroom hsplit hbefore hafter)
    · rw [hid] at hold hbefore
      rw [← recomputeEntry_noteSender n 21 s]
      exact onSchedule_accepted hs hc rfl (entryWrite_over hnew hsplit hold hbefore)
  · intro f new hnew
    refine ⟨entryOf_eq_some hnew, fun old => ⟨keepExtras_other, fun h => (keepExtras_same h).trans ?_⟩⟩
    cases old.kind <;> cases new.kind <;> rfl
  · intro n target f s hs hc u days refused
    have hes : u.cal.entries = s.cal.entries := by simp [u]
    rw [exec_entryExtra, ← hes]
    refine ⟨fun habsent => onSchedule_refused hs hc rfl (by decide) (entryExtra_unknown habsent),
      fun before old after hsplit hold hbefore => ⟨fun hbad => ?_, fun hcount hdays => ?_⟩⟩
    · exact onSchedule_refused hs hc rfl (by decide) (entryExtra_invalid hsplit hold hbefore hbad)
    · rw [← recomputeEntry_noteSender n 21 s]
      have htaken := entryExtra_taken hsplit hold hbefore hcount hdays
      rw [onSchedule_accepted (bytes := 21) hs hc rfl htaken]
      unfold takeExtras
      cases old.kind <;> rfl

end Sys2Proof.Machine.CalendarProofs
end

section
/-!
PROOFS. The calendar (02_the_calendar.md): entries removed (R44), and the dusk and season tables written (R29, R30, R34).
-/

namespace Sys2Proof.Machine.CalendarProofs

/-! ### ENTRY_DELETE and CALENDAR_CLEAR (R44) -/

theorem entryDelete_unknown {s : State} {id : Nat} (h : ∀ e ∈ s.cal.entries, e.id ≠ id) :
    entryDelete id s = (.unknown, s) := by
  simp [entryDelete, entryAt_eq_none h]

theorem entryDelete_taken {s : State} {id : Nat} (h : ∃ e ∈ s.cal.entries, e.id = id) :
    entryDelete id s = (.accepted, selectWindows (setEntries (s.cal.entries.filter (fun e => e.id != id)) s)) := by
  have hsome : (entryAt s id).isSome = true := by
    unfold entryAt
    rw [List.find?_isSome]
    simpa using h
  obtain ⟨e, he⟩ := Option.isSome_iff_exists.1 hsome
  simp only [entryDelete, he]

/-- Settles O40: the table without the entry, or empty, is selected over again. -/
theorem entriesRemoved : Obligations.EntriesRemoved := by
  unfold Obligations.EntriesRemoved
  refine ⟨?_, ?_, ?_⟩
  · intro n target id s hs hc u
    have hes : u.cal.entries = s.cal.entries := by simp [u]
    rw [exec_entryDelete, ← hes]
    exact ⟨fun habsent => onSchedule_refused hs hc rfl (by decide) (entryDelete_unknown habsent),
      fun hheld => onSchedule_accepted hs hc rfl (entryDelete_taken hheld)⟩
  · intro n target s hs hc
    rw [exec_calendarClear]
    exact onSchedule_accepted hs hc rfl rfl
  · intro es s
    obtain ⟨-, hentries, hdusk, hseasons⟩ := selectWindows_keeps (setEntries es s)
    refine ⟨hdusk, hseasons, hentries, ?_⟩
    rintro rfl
    rw [selectWindows_mixer]
    refine ⟨rfl, rfl, ?_⟩
    simp [selectCurfew, selectBase, selectBasePriority, eq_comm (a := none)]

/-! ### A table that every entry is recomputed against (R34) -/

theorem recomputeAll_cal (s : State) :
    (recomputeAll s).cal.entries =
        s.cal.entries.map (fun e => e.recompute s.cal.dusk s.cal.seasons s.time.timeValid (secondNow s)) ∧
      (recomputeAll s).cal.dusk = s.cal.dusk ∧ (recomputeAll s).cal.seasons = s.cal.seasons := by
  obtain ⟨-, hentries, hdusk, hseasons⟩ := selectWindows_keeps (recomputeWhere (fun _ => true) s)
  exact ⟨hentries, hdusk, hseasons⟩

/-- What a RESULT makes of the Line Interface depends on the Line Interface and the own number alone. -/
theorem answerResult_line {s t : State} (hline : t.line = s.line) (hnumber : t.start.number = s.start.number)
    (sender : LineNumber) (target : Byte) (cls sub : Nat) (v : Verdict) (subject : Nat) :
    (answerResult sender target cls sub v subject t).line = (answerResult sender target cls sub v subject s).line := by
  have henqueue : ∀ f, (enqueue f t).line = (enqueue f s).line := by
    intro f
    unfold enqueue
    rw [hline]
    split
    · simp [hline]
    · split
      · split <;> simp [hline]
      · simp [hline]
  unfold answerResult targeted send
  rw [hnumber]
  split
  · split
    · exact hline
    · exact henqueue _
  · exact hline

/-- `t` is `s` after a SCHEDULE frame that wrote a table: every entry is recomputed against the tables of `t`, retained memory and its
marker are written, and the line is as in `v` (R34, R45, R176). -/
def RecomputedAfter (s t v : State) : Prop :=
  t.cal.entries = s.cal.entries.map (fun e => e.recompute t.cal.dusk t.cal.seasons s.time.timeValid (secondNow s)) ∧
    OnlyChanges [.cal, .mixer, .backup, .start, .line, .counters] s t ∧ t.backup = { s.backup with intact := true } ∧
    t.start = { s.start with retainLost := false } ∧ t.line = v.line

/-- A SCHEDULE frame puts a dusk or season table in place, and every entry is recomputed against it. -/
theorem tables_taken {s : State} (hs : started s = true) {target : Byte} (hc : concerns target s = true)
    {sub bytes : Nat} (hb : frameLength 6 sub = bytes) (sender : LineNumber) {effect : State → Verdict × State} {cal : CalendarUnit}
    (hentries : cal.entries = s.cal.entries)
    (h : effect (noteSender sender bytes s) = (.accepted, recomputeAll { noteSender sender bytes s with cal := cal })) :
    ∃ t, onSchedule sender target sub 0 effect s = .next t ∧
      RecomputedAfter s t (answerResult sender target 6 sub .accepted 0 (noteSender sender bytes s)) ∧
      t.cal.dusk = cal.dusk ∧ t.cal.seasons = cal.seasons := by
  refine ⟨_, onSchedule_accepted hs hc hb h, ?_⟩
  generalize hw : ({ noteSender sender bytes s with cal := cal } : State) = w
  have hcal : w.cal = cal := by rw [← hw]
  have htime : w.time = s.time := by rw [← hw]; simp
  have hline : (noteAccepted (recomputeAll w)).line = (noteSender sender bytes s).line := by
    rw [← hw]; simp [noteAccepted]
  have hnumber : (noteAccepted (recomputeAll w)).start.number = (noteSender sender bytes s).start.number := by
    rw [← hw]; simp [noteAccepted]
  obtain ⟨hre, hdusk, hseasons⟩ := recomputeAll_cal w
  have hsecond : secondNow w = secondNow s := by simp only [secondNow, towerUs, htime]
  rw [hcal] at hdusk hseasons
  rw [hcal, hentries, htime, hsecond] at hre
  refine ⟨⟨?_, ?_, ?_, ?_, answerResult_line hline hnumber sender target 6 sub .accepted 0⟩, ?_, ?_⟩
  · simp only [answerResult_frame, noteAccepted, hre, hdusk, hseasons]
  · intro p hp
    cases p <;> simp at hp <;> simp [Part.same, noteAccepted, ← hw]
  · simp [noteAccepted, ← hw]
  · simp [noteAccepted, ← hw]
  · simp only [answerResult_frame, noteAccepted, hdusk]
  · simp only [answerResult_frame, noteAccepted, hseasons]

/-! ### The dusk table (R29) -/

/-- The value the dusk table holds at an index. -/
def duskAt (table : List (Nat × Nat)) (index : Nat) : Option Nat := (table.find? (fun e => e.1 == index)).map (·.2)

theorem duskAt_setDusk (index value : Nat) (table : List (Nat × Nat)) (i : Nat) :
    duskAt (setDusk index value table) i = if i = index then some value else duskAt table i := by
  unfold duskAt
  induction table with
  | nil =>
    by_cases h : i = index
    · simp [setDusk, h]
    · simp [setDusk, h, Ne.symm h]
  | cons e table ih =>
    unfold setDusk
    split
    · by_cases he : e.1 = i
      · have : i ≠ index := by omega
        simp [he, this]
      · simpa [he] using ih
    · split
      · rename_i heq
        by_cases h : i = index
        · simp [h]
        · have : e.1 ≠ i := by omega
          simp [h, Ne.symm h, this]
      · by_cases h : i = index
        · simp [h]
        · simp [h, Ne.symm h]

theorem duskAt_writes_other {writes : List (Nat × Nat)} {i : Nat} (h : i ∉ writes.map (·.1)) (table : List (Nat × Nat)) :
    duskAt (writes.foldl (fun t e => setDusk e.1 e.2 t) table) i = duskAt table i := by
  induction writes generalizing table with
  | nil => rfl
  | cons e writes ih =>
    simp only [List.map_cons, List.mem_cons, not_or] at h
    rw [List.foldl_cons, ih h.2, duskAt_setDusk, if_neg h.1]

theorem duskAt_writes {writes : List (Nat × Nat)} (hnodup : (writes.map (·.1)).Nodup) {i v : Nat} (h : (i, v) ∈ writes)
    (table : List (Nat × Nat)) : duskAt (writes.foldl (fun t e => setDusk e.1 e.2 t) table) i = some v := by
  induction writes generalizing table with
  | nil => simp at h
  | cons e writes ih =>
    obtain ⟨he, hrest⟩ := List.nodup_cons.1 hnodup
    rw [List.foldl_cons]
    rcases List.mem_cons.1 h with rfl | h
    · rw [duskAt_writes_other he, duskAt_setDusk, if_pos rfl]
    · exact ih hrest h _

theorem mem_duskWrites (first : Nat) (values : Vector (BitVec 16) 8) (i v : Nat) :
    (i, v) ∈ duskWrites first values ↔ ∃ k : Fin 8, first + k ≤ 366 ∧ i = first + k ∧ v = values[k].toNat := by
  unfold duskWrites
  simp only [List.mem_filter, List.mem_map, Prod.exists, List.mk_mem_zipIdx_iff_getElem?, decide_eq_true_eq, Prod.mk.injEq]
  constructor
  · rintro ⟨⟨x, k, hk, rfl, rfl⟩, hle⟩
    obtain ⟨hlt, hx⟩ := List.getElem?_eq_some_iff.1 hk
    refine ⟨⟨k, by simpa using hlt⟩, hle, rfl, ?_⟩
    rw [← hx]; simp
  · rintro ⟨k, hle, rfl, rfl⟩
    exact ⟨⟨values[k], k, by simp, rfl, rfl⟩, hle⟩

theorem duskWrites_nodup (first : Nat) (values : Vector (BitVec 16) 8) : ((duskWrites first values).map (·.1)).Nodup := by
  unfold duskWrites
  have hall : ((values.toList.zipIdx.map (fun (v, i) => (first + i, v.toNat))).map (·.1)).Nodup := by
    have : ((values.toList.zipIdx.map (fun (v, i) => (first + i, v.toNat))).map (·.1)) =
        (values.toList.zipIdx.map Prod.snd).map (first + ·) := by
      rw [List.map_map, List.map_map]; rfl
    rw [this, List.zipIdx_map_snd]
    exact List.Nodup.map (fun a b h => by simpa using h) List.nodup_range'
  exact hall.sublist (List.filter_sublist.map _)

/-- The values of a DUSK BLOCK that would be written are minutes of the day. -/
theorem duskWrites_good (first : Nat) (values : Vector (BitVec 16) 8) : (duskWrites first values).all (fun e => e.2 ≤ 1439) = true ↔
    ∀ k : Fin 8, first + k ≤ 366 → values[k].toNat ≤ 1439 := by
  simp only [List.all_eq_true, Prod.forall, decide_eq_true_eq, mem_duskWrites]
  constructor
  · intro h k hk; exact h _ _ ⟨k, hk, rfl, rfl⟩
  · rintro h _ _ ⟨k, hk, rfl, rfl⟩; exact h k hk

theorem duskBlock_refused {first : Nat} {values : Vector (BitVec 16) 8}
    (h : first = 0 ∨ 366 < first ∨ ∃ k : Fin 8, first + k ≤ 366 ∧ 1439 < values[k].toNat) (s : State) :
    duskBlock first values s = (.invalid, s) := by
  unfold duskBlock
  refine if_neg fun ⟨h1, h2, hgood⟩ => ?_
  rcases h with h | h | ⟨k, hk, hbad⟩
  · omega
  · omega
  · have := (duskWrites_good first values).1 hgood k hk; omega

theorem duskBlock_taken {first : Nat} {values : Vector (BitVec 16) 8}
    (h : ¬ (first = 0 ∨ 366 < first ∨ ∃ k : Fin 8, first + k ≤ 366 ∧ 1439 < values[k].toNat)) (s : State) :
    duskBlock first values s = (.accepted, recomputeAll { s with
      cal := { s.cal with dusk := (duskWrites first values).foldl (fun t e => setDusk e.1 e.2 t) s.cal.dusk } }) := by
  push Not at h
  obtain ⟨h1, h2, hgood⟩ := h
  unfold duskBlock
  exact if_pos ⟨by omega, h2, (duskWrites_good first values).2 hgood⟩

/-! ### The season table (R30) -/

theorem mem_insertSeason {x w : Season} {l : List Season} (hl : (l.map (·.instant)).Pairwise (· < ·)) :
    w ∈ insertSeason x l ↔ w = x ∨ (w ∈ l ∧ w.instant ≠ x.instant) := by
  induction l with
  | nil => simp [insertSeason]
  | cons v l ih =>
    rw [List.map_cons, List.pairwise_cons] at hl
    obtain ⟨hv, hl⟩ := hl
    have hlater : ∀ w ∈ l, v.instant < w.instant := fun w hw => hv _ (List.mem_map_of_mem hw)
    unfold insertSeason
    split
    · rw [List.mem_cons, ih hl, List.mem_cons]
      constructor
      · rintro (rfl | rfl | ⟨hw, hne⟩)
        · exact .inr ⟨.inl rfl, by omega⟩
        · exact .inl rfl
        · exact .inr ⟨.inr hw, hne⟩
      · rintro (rfl | ⟨rfl | hw, hne⟩)
        · exact .inr (.inl rfl)
        · exact .inl rfl
        · exact .inr (.inr ⟨hw, hne⟩)
    · have hne : ∀ w ∈ l, w.instant ≠ x.instant := fun w hw => by have := hlater w hw; omega
      split
      · rename_i heq
        simp only [List.mem_cons]
        constructor
        · rintro (rfl | hw)
          · exact .inl rfl
          · exact .inr ⟨.inr hw, hne w hw⟩
        · rintro (rfl | ⟨rfl | hw, hw'⟩)
          · exact .inl rfl
          · exact absurd heq hw'
          · exact .inr hw
      · rename_i hvx
        simp only [List.mem_cons]
        constructor
        · rintro (rfl | rfl | hw)
          · exact .inl rfl
          · exact .inr ⟨.inl rfl, hvx⟩
          · exact .inr ⟨.inr hw, hne w hw⟩
        · rintro (rfl | ⟨hw, -⟩)
          · exact .inl rfl
          · exact .inr hw

/-- A transition joins an ascending table and leaves it ascending. -/
theorem insertSeason_ascending (x : Season) {l : List Season} (hl : (l.map (·.instant)).Pairwise (· < ·)) :
    ((insertSeason x l).map (·.instant)).Pairwise (· < ·) := by
  induction l with
  | nil => simp [insertSeason]
  | cons v l ih =>
    have hcons := hl
    rw [List.map_cons, List.pairwise_cons] at hl
    obtain ⟨hv, hl⟩ := hl
    unfold insertSeason
    split
    · rename_i hlt
      rw [List.map_cons, List.pairwise_cons]
      refine ⟨fun t ht => ?_, ih hl⟩
      obtain ⟨w, hw, rfl⟩ := List.mem_map.1 ht
      rcases (mem_insertSeason hl).1 hw with rfl | ⟨hw, -⟩
      · exact hlt
      · exact hv _ (List.mem_map_of_mem hw)
    · split
      · rename_i heq
        rw [List.map_cons, List.pairwise_cons]
        exact ⟨heq ▸ hv, hl⟩
      · rw [List.map_cons, List.pairwise_cons]
        refine ⟨fun t ht => ?_, hcons⟩
        rcases List.mem_cons.1 ht with rfl | ht
        · dsimp only; omega
        · have := hv t ht; omega

theorem seasonWrite_refused {instant : Nat} {offset : Int} (h : 52596000 ≤ instant ∨ offset < -120 ∨ 120 < offset) (s : State) :
    seasonWrite instant offset s = (.invalid, s) := if_pos h

theorem seasonWrite_full {instant : Nat} {offset : Int} (h : ¬ (52596000 ≤ instant ∨ offset < -120 ∨ 120 < offset)) {s : State}
    (hnew : s.cal.seasons.any (fun w => w.instant == instant) = false) (hfull : 16 ≤ s.cal.seasons.length) :
    seasonWrite instant offset s = (.full, s) := by
  unfold seasonWrite
  rw [if_neg h, if_neg (by rw [hnew]; simpa using hfull)]

theorem seasonWrite_taken {instant : Nat} {offset : Int} (h : ¬ (52596000 ≤ instant ∨ offset < -120 ∨ 120 < offset)) {s : State}
    (hroom : s.cal.seasons.any (fun w => w.instant == instant) = true ∨ s.cal.seasons.length < 16) :
    seasonWrite instant offset s = (.accepted, recomputeAll { s with
      cal := { s.cal with seasons := insertSeason { instant := instant, offset := offset } s.cal.seasons } }) := by
  unfold seasonWrite
  rw [if_neg h, if_pos hroom.symm]

/-- Settles O41: each frame's refusals, and `tables_taken` with what its table then holds. -/
theorem duskAndSeasonsWritten : Obligations.DuskAndSeasonsWritten := by
  unfold Obligations.DuskAndSeasonsWritten
  intro n target s hs hc u tableAt recomputed
  refine ⟨?_, ?_, ?_⟩
  · intro first values bad
    rw [exec_duskBlock]
    refine ⟨fun h => onSchedule_refused hs hc rfl (by decide) (duskBlock_refused h _), fun h => ?_⟩
    obtain ⟨t, ht, hrec, hdusk, hseasons⟩ := tables_taken hs hc (sub := 5) (bytes := 20) rfl n (by simp) (duskBlock_taken h _)
    refine ⟨t, ht, hrec, hseasons.trans (by simp), fun k hk => ?_, fun i hi => ?_⟩
    · rw [hdusk]
      exact duskAt_writes (duskWrites_nodup _ _) ((mem_duskWrites _ _ _ _).2 ⟨k, hk, rfl, rfl⟩) _
    · have hother : i ∉ (duskWrites first.toNat values).map (·.1) := by
        intro hm
        obtain ⟨⟨_, v⟩, hw, rfl⟩ := List.mem_map.1 hm
        obtain ⟨k, hk, rfl, -⟩ := (mem_duskWrites _ _ _ _).1 hw
        have := k.isLt
        rcases hi with hi | hi | hi <;> simp only at hi <;> omega
      have hsame : (noteSender n 20 s).cal.dusk = s.cal.dusk := by simp
      rw [hdusk, hsame]
      exact duskAt_writes_other hother s.cal.dusk
  · intro instant offset held bad
    rw [exec_seasonWrite]
    have hcal : (u 7).cal = s.cal := by simp [u]
    refine ⟨fun h => onSchedule_refused hs hc rfl (by decide) (seasonWrite_refused h _),
      fun h hnew hfull => onSchedule_refused hs hc rfl (by decide) (seasonWrite_full h (hcal.symm ▸ hnew) (hcal.symm ▸ hfull)),
      fun h hroom hasc => ?_⟩
    obtain ⟨t, ht, hrec, hdusk, hseasons⟩ := tables_taken hs hc (sub := 6) (bytes := 7) rfl n (by simp) (seasonWrite_taken h (hcal.symm ▸ hroom))
    have hseasons' : t.cal.seasons = insertSeason { instant := instant.toNat, offset := offset.toInt } s.cal.seasons :=
      hseasons.trans (by simp)
    refine ⟨t, ht, hrec, hdusk.trans (by simp), ?_, fun w => ?_⟩
    · rw [hseasons']; exact insertSeason_ascending _ hasc
    · rw [hseasons']; exact mem_insertSeason hasc
  · rw [exec_seasonClear]
    obtain ⟨t, ht, hrec, hdusk, hseasons⟩ := tables_taken hs hc (sub := 7) (bytes := 2) rfl n
      (effect := fun s => (.accepted, recomputeAll { s with cal := { s.cal with seasons := [] } }))
      (cal := { (u 2).cal with seasons := [] }) (by simp [u]) rfl
    exact ⟨t, ht, hrec, hdusk.trans (by simp [u]), hseasons⟩

end Sys2Proof.Machine.CalendarProofs
end

section
/-!
PROOFS. Show instances (03_show_instances.md): the laws of the show rows and the slot directory are not kept by every step from
every state that satisfies them (R48, R84, R113).
-/

namespace Sys2Proof.Machine.InstanceProofs

/-! ### A GATED player in a catch-up (R84, R90) -/

/-- A GATED row of show 1, a LOOP of one frame, whose player stands in a catch-up with the pass's END at the head of its window: no start
leads here, since a catch-up that takes a gate completes there (R90), but the laws of ShowsHeld do not exclude it. -/
def loopingGate : Row :=
  { phase := .gated (gateAt 0 3 10 0), suspended := false, showNo := 1, priority := 1, tag := 0, anchor := 0, endFrame := none
    mode := .loop, passes := 0, origin := .console 0, announcer := false, lastHeard := 0, marks := []
    ctx := { freshContext 0 with
      position := 0, endRead := true, catchUp := some { kind := .forward, held := [] }
      window := [{ index := 1, time := 1, action := .endShow, track := 0, zoneLow := 0, zoneHigh := 0, param := 0
                   levels := Levels.zero }] } }

/-- A station that is RUNNING at frame 1, with that row, its show COMPLETE in slot 0, and the completion of its catch-up waiting. -/
def gateBeforeEnd : State :=
  { State.reset with
    start := { State.reset.start with state := .running }
    time := { State.reset.time with ns := 25000000, lastBoundary := 1 }
    rows := State.reset.rows.set 0 (some loopingGate)
    lib := { State.reset.lib with
      dir := State.reset.lib.dir.set 0
        (.complete 1 3 [0, 1, 2] { length := 1, attack := 0, release := 0, low := 1, high := 1 }) }
    pending := [.catchUpComplete 0] }

theorem gateBeforeEnd_row (p : Fin 4) (r : Row) (h : gateBeforeEnd.rows[p] = some r) : p = 0 ∧ r = loopingGate := by
  have only : ∀ p : Fin 4, ∀ r ∈ gateBeforeEnd.rows[p], p = 0 ∧ r = loopingGate := by decide +kernel
  exact only p r h

theorem gateBeforeEnd_showsHeld : ShowsHeld gateBeforeEnd where
  row p r h := by
    obtain ⟨-, rfl⟩ := gateBeforeEnd_row p r h
    constructor
    case gate => rintro g ⟨⟩; exact ⟨rfl, rfl⟩
    all_goals decide +kernel
  distinct p q a b ha hb _ := (gateBeforeEnd_row p a ha).1.trans (gateBeforeEnd_row q b hb).1.symm
  complete p r h := by
    obtain ⟨-, rfl⟩ := gateBeforeEnd_row p r h
    exact ⟨0, 3, [0, 1, 2], _, rfl⟩
  oneSlot i j n hi hj := by
    have slots : ∀ i j : Fin 32, slotShow gateBeforeEnd.lib.dir[i] = slotShow gateBeforeEnd.lib.dir[j] →
        slotShow gateBeforeEnd.lib.dir[i] ≠ none → i = j := by decide +kernel
    exact slots i j (hi.trans hj.symm) (by rw [hi]; exact Option.some_ne_none n)
  idle h := absurd h (by decide +kernel)

/-- The catch-up takes END, which begins a pass: the anchor moves on by the show's length and the gate record does not (R83, R84). -/
theorem gateBeforeEnd_step : ∃ t, step gateBeforeEnd = .next t ∧
    t.rows[(0 : Fin 4)].map (fun r => (r.phase, r.anchor)) = some (.gated (gateAt 0 3 10 0), 1) :=
  ⟨_, rfl, by decide +kernel⟩

/-- Refutes O9: from `gateBeforeEnd`, which satisfies ShowsHeld, the completion of the catch-up begins a pass under a gate that still
stands, so that the gate's due frame no longer agrees with its row's anchor. The step-lemma wants the law that a GATED player is in no
catch-up, which ShowsHeld leaves out. -/
theorem not_showsHeldKept : ¬ Obligations.ShowsHeldKept := by
  unfold Obligations.ShowsHeldKept
  intro h
  obtain ⟨t, hstep, hfound⟩ := gateBeforeEnd_step
  obtain ⟨r, hrow, hr⟩ := Option.map_eq_some_iff.1 hfound
  obtain ⟨hgate, hanchor⟩ := Prod.mk.inj hr
  obtain ⟨hdue, -⟩ := ((h gateBeforeEnd t gateBeforeEnd_showsHeld hstep).row 0 r hrow).gate _ hgate
  rw [hanchor] at hdue
  exact absurd hdue (by decide)

end Sys2Proof.Machine.InstanceProofs
end

section
/-!
PROOFS. Rules that the statements on show instances share: how a command reaches its owner, and what an operation does that goes through the
four players one after another.
-/

namespace Sys2Proof.Machine.InstanceProofs

/-! ### How a command reaches its owner (R171, R172, R178) -/

section
variable {s : State}

theorem onEvent_awake (h : awake s = true) (f : State → State) : onEvent f s = .next (f s) := by
  unfold onEvent; rw [if_pos h]

theorem onFrame_awake (h : awake s = true) (n : LineNumber) (cls sub : Nat) (f : State → State) :
    onFrame n cls sub f s = .next (f (noteSender n (frameLength cls sub) s)) := by
  unfold onFrame; rw [if_pos h]

/-- Outside STARTING a frame's owner takes it (R177). -/
theorem onFrameStarted_started (h : started s = true) (n : LineNumber) (cls sub : Nat) (f : State → State) :
    onFrameStarted n cls sub f s = .next (f (noteSender n (frameLength cls sub) s)) := by
  obtain ⟨hawake, hstate⟩ : awake s = true ∧ s.start.state ≠ .starting := by simpa [started] using h
  unfold onFrameStarted
  rw [onFrame_awake hawake, if_neg (by simpa using hstate)]

theorem concerns_noteSender (target : Byte) (n : LineNumber) (k : Nat) : concerns target (noteSender n k s) = concerns target s := by
  unfold concerns; simp

theorem frameNow_noteSender (n : LineNumber) (k : Nat) : frameNow (noteSender n k s) = frameNow s := by
  unfold frameNow towerUs; simp

theorem isRunning_noteSender (n : LineNumber) (k : Nat) : isRunning (noteSender n k s) = isRunning s := by
  unfold isRunning awake; simp

theorem headerOf_noteSender (n : LineNumber) (k m : Nat) : headerOf (noteSender n k s) m = headerOf s m := by
  unfold headerOf slotOf; simp

theorem servePort_line (s : State) : (servePort s).line = s.line := by simp

theorem servePort_mixer (s : State) : (servePort s).mixer = s.mixer := by simp

end

/-! ### Flushes and counts -/

theorem flushesAsked_of_mixer {a b : State} (h : b.mixer = a.mixer) : FlushesAsked 0 a b := by
  unfold FlushesAsked; rw [h]; rfl

theorem flushesAsked_trans {a b c : State} {m n : Nat} (h : FlushesAsked m a b) (k : FlushesAsked n b c) :
    FlushesAsked (m + n) a c := by
  unfold FlushesAsked at *; rw [k, h]; simp [Nat.add_assoc]

/-- What happens before and after that leaves the Frame Mixer alone asks for no flush. -/
theorem flushesAsked_congr {a b a' b' : State} {n : Nat} (h : FlushesAsked n a b) (ha : a'.mixer = a.mixer) (hb : b'.mixer = b.mixer) :
    FlushesAsked n a' b' := by
  unfold FlushesAsked at *; rw [hb, h, ha]

theorem flushesAsked_askFlush (s : State) : FlushesAsked 1 s (askFlush s) := rfl

theorem sameLibrary_of_lib {a b : State} (h : b.lib = a.lib) : SameLibrary a b := by unfold SameLibrary; rw [h]

theorem counted_zero {c : Counter} {a b : State} (h : count b c = count a c) : Counted 0 c a b := by
  have := (count a c).isLt
  unfold Counted; rw [h]; omega

/-- A counter that a step counts, seen from states that agree on it. -/
theorem counted_congr {c : Counter} {n : Nat} {a b a' b' : State} (h : Counted n c a b) (ha : count a' c = count a c)
    (hb : count b' c = count b c) : Counted n c a' b' := by
  unfold Counted at *; rw [ha, hb, h]

/-! ### An operation on one row, and on every row in turn -/

/-- An operation on player `p` makes `G` of its row, leaves the other rows, asks for as many flushes as `asks` tells of the row, and leaves
the library but for the port. -/
structure OnRow (p : Fin 4) (G : Option Row → Option Row) (asks : Option Row → Nat) (s t : State) : Prop where
  row : t.rows[p] = G s.rows[p]
  others : ∀ i : Fin 4, i ≠ p → t.rows[i] = s.rows[i]
  flushes : FlushesAsked (asks s.rows[p]) s t
  library : SameLibrary s t

/-- An operation that goes through the players of a list makes `G` of each of their rows (R59, R68). -/
theorem foldl_onRow {f : State → Fin 4 → State} {G : Option Row → Option Row} {asks : Option Row → Nat} {same : State → Prop}
    (step : ∀ p u, same u → OnRow p G asks u (f u p)) (keep : ∀ p u, same u → same (f u p))
    (ps : List (Fin 4)) (nodup : ps.Nodup) (s : State) (hs : same s) :
    (∀ p ∈ ps, (ps.foldl f s).rows[p] = G s.rows[p]) ∧ (∀ p, p ∉ ps → (ps.foldl f s).rows[p] = s.rows[p]) ∧
      FlushesAsked (ps.map (fun p => asks s.rows[p])).sum s (ps.foldl f s) ∧ SameLibrary s (ps.foldl f s) := by
  induction ps generalizing s with
  | nil => exact ⟨by simp, by simp, rfl, rfl⟩
  | cons p ps ih =>
    obtain ⟨hp, nodup⟩ := List.nodup_cons.1 nodup
    have one := step p s hs
    obtain ⟨each, rest, flushes, library⟩ := ih nodup (f s p) (keep p s hs)
    have still : ∀ q ∈ ps, (f s p).rows[q] = s.rows[q] := fun q hq => one.others q (fun e => hp (e ▸ hq))
    refine ⟨fun q hq => ?_, fun q hq => ?_, ?_, one.library.trans library⟩
    · rcases List.mem_cons.1 hq with rfl | hq
      · exact (rest q hp).trans one.row
      · exact (each q hq).trans (by rw [still q hq])
    · obtain ⟨hne, hq⟩ := not_or.1 (fun h => hq (List.mem_cons.2 h))
      exact (rest q hq).trans (one.others q hne)
    · have sums : ps.map (fun q => asks (f s p).rows[q]) = ps.map (fun q => asks s.rows[q]) :=
        List.map_congr_left (fun q hq => by rw [still q hq])
      rw [List.map_cons, List.sum_cons, ← sums]
      exact flushesAsked_trans one.flushes flushes

/-- The show rows, player by player. -/
theorem rows_toList (v : Vector (Option Row) 4) : v.toList = (List.finRange 4).map (fun p => v[p]) := by
  apply List.ext_getElem (by simp)
  intro i h1 h2
  simp

/-- Asks of 1 for each row that passes a test add up to the number of these rows. -/
theorem sum_asks {α : Type} (test : α → Bool) (l : List α) :
    (l.map (fun x => if test x then 1 else 0)).sum = (l.filter test).length := by
  induction l with
  | nil => rfl
  | cons a l ih => cases h : test a <;> simp [h, ih, Nat.add_comm]

/-- An operation that goes through all four players. -/
theorem foldl_players {f : State → Fin 4 → State} {G : Option Row → Option Row} {asks : Option Row → Nat} {same : State → Prop}
    (step : ∀ p u, same u → OnRow p G asks u (f u p)) (keep : ∀ p u, same u → same (f u p)) (s : State) (hs : same s) :
    (∀ p : Fin 4, ((List.finRange 4).foldl f s).rows[p] = G s.rows[p]) ∧
      FlushesAsked (s.rows.toList.map asks).sum s ((List.finRange 4).foldl f s) ∧
      SameLibrary s ((List.finRange 4).foldl f s) := by
  obtain ⟨each, -, flushes, library⟩ := foldl_onRow step keep (List.finRange 4) (List.nodup_finRange 4) s hs
  refine ⟨fun p => each p (List.mem_finRange p), ?_, library⟩
  rw [rows_toList, List.map_map]
  exact flushes

end Sys2Proof.Machine.InstanceProofs
end

section
/-!
PROOFS. What a stop and a mark make of the show rows (R58, R59, R67, R68, R85).
-/

namespace Sys2Proof.Machine.InstanceProofs

/-! ### Stops (R58, R59, R89) -/

/-- What a stop makes of a row of the station `s` (R58). -/
def stopped (s : State) (x : Option Row) : Option Row :=
  x.bind (fun r => stoppedRow (frameNow s) (headerOr s r.showNo).attack (headerOr s r.showNo).release r)

/-- The flushes that a stop of a row asks for: one unless it was RELEASING (R89). -/
def stopAsks (x : Option Row) : Nat := if x.any aliveRow then 1 else 0

theorem stopAsks_some (r : Row) : stopAsks (some r) = if aliveRow r then 1 else 0 := rfl

theorem frameNow_congr {a b : State} (h : a.time = b.time) : frameNow a = frameNow b := by unfold frameNow towerUs; rw [h]

/-- A row that becomes IDLE, with the flush it asks for (R48, R89). -/
theorem idle_onRow {p : Fin 4} {s : State} {G : Option Row → Option Row} {asks : Option Row → Nat} (hG : G s.rows[p] = none)
    (ha : asks s.rows[p] = 1) : OnRow p G asks s (askFlush (toIdle p s)) := by
  obtain ⟨gone, others, mixer⟩ := toIdle_spec p s
  refine ⟨gone.trans hG.symm, others, ?_, toIdle_library s⟩
  rw [ha]
  exact flushesAsked_congr (flushesAsked_askFlush (toIdle p s)) mixer.symm rfl

/-- A row that is set to another, with the flush it asks for (R89). -/
theorem set_onRow {p : Fin 4} {s : State} {G : Option Row → Option Row} {asks : Option Row → Nat} {r' : Row} (hG : G s.rows[p] = some r')
    (ha : asks s.rows[p] = 1) : OnRow p G asks s (askFlush (setRow p (some r') s)) := by
  refine ⟨(setRow_get _ _ _).trans hG.symm, fun i hi => setRow_other _ _ hi, ?_, rfl⟩
  rw [ha]; rfl

/-- A row that stays, with no flush asked. -/
theorem same_onRow {p : Fin 4} {s : State} {G : Option Row → Option Row} {asks : Option Row → Nat} (hG : G s.rows[p] = s.rows[p])
    (ha : asks s.rows[p] = 0) : OnRow p G asks s s := by
  refine ⟨hG.symm, fun _ _ => rfl, ?_, rfl⟩
  rw [ha]; rfl

/-- A stop of a row that is not RELEASING sets it to what R58 states, and asks for a flush (R58, R89). -/
theorem stopRow_eq {p : Fin 4} {s : State} {r : Row} (hr : s.rows[p] = some r) : stopRow p s =
    if aliveRow r then
      askFlush (match stopped s (some r) with
        | none => toIdle p s
        | some r' => setRow p (some r') s)
    else s := by
  unfold stopRow stopped aliveRow
  simp only [hr, Option.bind_some, stoppedRow]
  cases r.phase with
  | armed => rfl
  | releasing _ _ => rfl
  | running => by_cases h0 : (headerOr s r.showNo).release = 0 <;> simp [h0]
  | gated _ => by_cases h0 : (headerOr s r.showNo).release = 0 <;> simp [h0]

/-- A RELEASING row is not stopped again (R58). -/
theorem stopped_releasing {s : State} {r : Row} (h : aliveRow r = false) : stopped s (some r) = some r := by
  unfold stopped stoppedRow
  unfold aliveRow at h
  cases hp : r.phase with
  | releasing _ _ => simp [hp]
  | _ => simp [hp] at h

theorem stopRow_onRow (p : Fin 4) (s : State) : OnRow p (stopped s) stopAsks s (stopRow p s) := by
  cases hr : s.rows[p] with
  | none =>
    rw [show stopRow p s = s by unfold stopRow; simp only [hr]]
    exact same_onRow (by rw [hr]; rfl) (by rw [hr]; rfl)
  | some r =>
    rw [stopRow_eq hr]
    cases ha : aliveRow r with
    | false =>
      exact same_onRow (by rw [hr]; exact stopped_releasing ha) (by rw [hr, stopAsks_some, ha]; rfl)
    | true =>
      have asks : stopAsks s.rows[p] = 1 := by rw [hr, stopAsks_some, ha]; rfl
      cases hs : stopped s (some r) with
      | none => exact idle_onRow (by rw [hr]; exact hs) asks
      | some r' => exact set_onRow (by rw [hr]; exact hs) asks

theorem stopped_congr {a b : State} (ht : a.time = b.time) (hd : a.lib.dir = b.lib.dir) : stopped a = stopped b := by
  unfold stopped
  rw [frameNow_congr ht, funext (headerOr_congr hd)]

/-- Every row is stopped (R59). -/
theorem stopRows_spec (s : State) :
    (∀ p : Fin 4, (stopRows s).rows[p] = stopped s s.rows[p]) ∧ FlushesAsked (s.rows.toList.map stopAsks).sum s (stopRows s) ∧
      SameLibrary s (stopRows s) := by
  refine foldl_players (same := fun u => u.time = s.time ∧ u.lib.dir = s.lib.dir) (fun p u hu => ?_) (fun p u hu => ?_) s ⟨rfl, rfl⟩
  · rw [← stopped_congr hu.1 hu.2]; exact stopRow_onRow p u
  · exact ⟨by simpa using hu.1, (congrArg Library.dir (stopRow_onRow p u).library).trans hu.2⟩

/-! ### Marks offered (R68, R85, R89) -/

/-- What the offer of a mark with release frame `release` makes of a row at frame `now` (R85). -/
def offered (now m release : Nat) (r : Row) : Row :=
  match r.phase with
  | .gated g => if r.suspended = false ∧ g.mark = m then openGate g (max (release + 4) (max g.due (now + 1))) r else r
  | _ => r

theorem offered_gated {now m release : Nat} {r : Row} {g : Gate} (hp : r.phase = .gated g) : offered now m release r =
    if r.suspended = false ∧ g.mark = m then openGate g (max (release + 4) (max g.due (now + 1))) r else r := by
  unfold offered; rw [hp]

theorem offered_other {now m release : Nat} {r : Row} (h : gatedOn r m = false) : offered now m release r = r := by
  unfold offered
  unfold gatedOn at h
  cases hp : r.phase with
  | gated g =>
    rw [hp] at h
    simp only at h ⊢
    rw [if_neg]
    rintro ⟨h1, h2⟩
    simp [h1, h2] at h
  | _ => rfl

/-- The flushes that the offer of a mark to a row asks for (R89). -/
def offerAsks (m : Nat) (x : Option Row) : Nat := if x.any (fun r => gatedOn r m) then 1 else 0

/-- A mark offered to a player GATED on it releases its gate and asks for a flush; another's row stays (R85, R89). -/
theorem offerMark_eq {p : Fin 4} {s : State} {r : Row} (hr : s.rows[p] = some r) (m release : Nat) : offerMark p m release s =
    if gatedOn r m then askFlush (setRow p (some (offered (frameNow s) m release r)) s) else s := by
  unfold offerMark gatedOn offered
  simp only [hr]
  cases r.phase with
  | gated g => by_cases h1 : r.suspended = false <;> by_cases h2 : g.mark = m <;> simp [h1, h2]
  | _ => rfl

theorem offerMark_onRow (p : Fin 4) (m release : Nat) (s : State) :
    OnRow p (Option.map (offered (frameNow s) m release)) (offerAsks m) s (offerMark p m release s) := by
  cases hr : s.rows[p] with
  | none =>
    rw [show offerMark p m release s = s by unfold offerMark; simp only [hr]]
    exact same_onRow (by rw [hr]; rfl) (by rw [hr]; rfl)
  | some r =>
    rw [offerMark_eq hr]
    cases hg : gatedOn r m with
    | true => exact set_onRow (by rw [hr]; rfl) (by simp [hr, offerAsks, hg])
    | false =>
      exact same_onRow (by rw [hr]; exact congrArg some (offered_other hg)) (by simp [hr, offerAsks, hg])

/-- A GO mark is offered to every player (R68). -/
theorem offerGo_spec (release : Nat) (s : State) :
    (∀ p : Fin 4, (offerGo release s).rows[p] = s.rows[p].map (offered (frameNow s) 0 release)) ∧
      FlushesAsked (s.rows.toList.filter (fun x => x.any (fun r => gatedOn r 0))).length s (offerGo release s) ∧
      SameLibrary s (offerGo release s) := by
  rw [← sum_asks]
  refine foldl_players (same := fun u => u.time = s.time) (fun p u hu => ?_) (fun p u hu => ?_) s rfl
  · rw [← frameNow_congr hu]; exact offerMark_onRow p 0 release u
  · simpa using hu

end Sys2Proof.Machine.InstanceProofs
end

section
/-!
PROOFS. Contact inputs of no function, of GO and of STOP ALL (09_safety_hold_and_contact_inputs.md: R153, R159, R160).
-/

namespace Sys2Proof.Machine.InstanceProofs

/-! ### What a reading is (R153) -/

theorem rawActive_eq (sense : InputSense) (closed : Bool) : rawActive sense closed = if sense = .activeOpen then !closed else closed := by
  cases sense <;> rfl

/-- The raw reading of an input and its debounce timer after a reading (R153). -/
theorem Input_read_eq (sense : InputSense) (x : Input) :
    x.read sense =
      let closed := readVoltage x.millivolts x.closed
      { millivolts := x.millivolts, closed := closed, state := x.state
        timer := match x.state with
          | .unsettled => some (if closed = x.closed then x.timer.getD 20000 else 20000)
          | .active => if rawActive sense closed then none else some (x.timer.getD 20000)
          | .inactive => if rawActive sense closed then some (x.timer.getD 20000) else none } := by
  unfold Input.read
  generalize readVoltage x.millivolts x.closed = closed
  cases x.state with
  | unsettled => by_cases h : closed = x.closed <;> simp [h]
  | active => cases h : rawActive sense closed <;> simp [debouncedOf, h]
  | inactive => cases h : rawActive sense closed <;> simp [debouncedOf, h]

theorem exec_inputChange (i : Fin 8) (millivolts : Nat) (s : State) :
    exec (.inputChange i millivolts) s = execInputChange i millivolts s := rfl

/-- The station with the voltage of input `i` changed. -/
def voltageAt (i : Fin 8) (millivolts : Nat) (s : State) : State :=
  let x := s.inputs[i]
  { s with inputs := s.inputs.set i { x with millivolts := millivolts } }

theorem execInputChange_eq (i : Fin 8) (millivolts : Nat) (s : State) : execInputChange i millivolts s = .next
    (if started s then readInput i (voltageAt i millivolts s) else voltageAt i millivolts s) := rfl

theorem readInput_voltageAt (i : Fin 8) (millivolts : Nat) (s : State) : readInput i (voltageAt i millivolts s) =
    let x := s.inputs[i]
    { s with inputs := s.inputs.set i (Input.read (senseOf s i) { x with millivolts := millivolts }) } := by
  simp [readInput, voltageAt, senseOf]

/-! ### What an expiry is (R153) -/

theorem exec_debounceExpiry {s : State} (h : awake s = true) (i : Fin 8) : exec (.debounceExpiry i) s = .next (servePort (debounce i s)) :=
  onEvent_awake h (fun s => servePort (debounce i s))

/-- The station with input `i` settled on its raw reading. -/
def settledAt (i : Fin 8) (s : State) : State :=
  let x := s.inputs[i]
  { s with inputs := s.inputs.set i { x with state := debouncedOf (rawActive (senseOf s i) x.closed), timer := none } }

theorem debounce_stopped {s : State} {i : Fin 8} (h : s.inputs[i].timer = none) : debounce i s = s := by
  unfold debounce; simp only [h]

/-- A debounce timer that runs out settles its input, and an activation, release or settle reaches the input's function (R153). -/
theorem debounce_eq {s : State} {i : Fin 8} (h : s.inputs[i].timer.isSome = true) : debounce i s =
    let active := rawActive (senseOf s i) s.inputs[i].closed
    match s.inputs[i].state with
    | .unsettled => onSettle (functionOf s i) active (settledAt i s)
    | _ => if active then onActivation (functionOf s i) (settledAt i s) else onRelease (functionOf s i) (settledAt i s) := by
  obtain ⟨n, hn⟩ := Option.isSome_iff_exists.1 h
  unfold debounce
  simp only [hn]
  cases hs : s.inputs[i].state <;> rfl

/-- Inputs of no function, of GO and of STOP ALL pass over settles (R153). -/
theorem onSettle_quiet {f : InputFunction} (hf : f ≠ .safety) (active : Bool) (s : State) : onSettle f active s = s := by
  cases f with
  | safety => exact absurd rfl hf
  | _ => rfl

/-- They pass over releases (R153). -/
theorem onRelease_quiet {f : InputFunction} (hf : f ≠ .safety) (s : State) : onRelease f s = s := by
  cases f with
  | safety => exact absurd rfl hf
  | _ => rfl

/-- A settle, a release, and any expiry of an input of no function raise nothing (R153, R159, R160). -/
theorem debounce_quiet {s : State} {i : Fin 8} (h : s.inputs[i].timer.isSome = true) (hf : functionOf s i ≠ .safety)
    (hq : s.inputs[i].state = .unsettled ∨ rawActive (senseOf s i) s.inputs[i].closed = false ∨
      ∀ t, onActivation (functionOf s i) t = t) : debounce i s = settledAt i s := by
  rw [debounce_eq h]
  dsimp only
  rw [onSettle_quiet hf, onRelease_quiet hf]
  rcases hq with hq | hq | hq
  · rw [hq]
  · rw [hq]; cases s.inputs[i].state <;> rfl
  · rw [hq]; cases s.inputs[i].state
    · rfl
    all_goals exact ite_self _

/-- An activation (R153). -/
theorem debounce_activation {s : State} {i : Fin 8} (h : s.inputs[i].timer.isSome = true) (hs : s.inputs[i].state = .inactive)
    (ha : rawActive (senseOf s i) s.inputs[i].closed = true) :
    debounce i s = onActivation (functionOf s i) (settledAt i s) := by
  rw [debounce_eq h]
  dsimp only
  rw [hs, ha]; rfl

/-! ### GO (R68, R159) -/

/-- A GO contact offers its mark to every GATED player of a station that is RUNNING, and queues its MARK frame (R159). -/
theorem raiseGo_spec (s : State) :
    (∀ p : Fin 4, (raiseGo s).rows[p] = if isRunning s then s.rows[p].map (offered (frameNow s) 0 (frameNow s)) else s.rows[p]) ∧
      FlushesAsked (s.rows.toList.filter (fun x => isRunning s && x.any (fun r => gatedOn r 0))).length s (raiseGo s) ∧
      SameLibrary s (raiseGo s) ∧ (raiseGo s).line = (send (newFrame 3 (markData 0 0 0 (frameNow s))) s).line ∧
      Counted 1 .goRaised s (raiseGo s) ∧ count (raiseGo s) .activations = count s .activations := by
  obtain ⟨rows, flushes, library⟩ := offerGo_spec (frameNow s) (bump .goRaised s)
  have go : raiseGo s = send (newFrame 3 (markData 0 0 0 (frameNow s)))
      (if isRunning s then offerGo (frameNow s) (bump .goRaised s) else bump .goRaised s) := rfl
  generalize hv : (if isRunning s then offerGo (frameNow s) (bump .goRaised s) else bump .goRaised s) = v at go
  have counters : v.counters = (bump .goRaised s).counters := by rw [← hv]; split <;> simp
  have sent : ∀ c, c ≠ .txDropped → c ≠ .txDisplaced → count (raiseGo s) c = count (bump .goRaised s) c := fun c h1 h2 => by
    rw [go, count_send _ _ _ h1 h2]; exact count_congr counters c
  have start : v.start = s.start := by rw [← hv]; split <;> simp
  have line : v.line = s.line := by rw [← hv]; split <;> simp
  refine ⟨fun p => ?_, ?_, ?_, ?_, ?_, ?_⟩
  · rw [go, send_rows, ← hv]
    split
    · exact rows p
    · rfl
  · rw [go]
    refine flushesAsked_congr (a := s) (b := v) ?_ rfl (send_mixer _ _)
    rw [← hv]
    cases isRunning s
    · simp only [Bool.false_and, List.filter_false, Bool.false_eq_true, if_false]; exact flushesAsked_of_mixer rfl
    · simp only [Bool.true_and, if_true]; exact flushes
  · have kept : SameLibrary s v := by
      rw [← hv]
      split
      · exact library
      · rfl
    exact kept.trans (sameLibrary_of_lib (by rw [go]; simp))
  · rw [go]; exact send_line_congr _ _ _ start line
  · exact counted_congr (counted_bump .goRaised s) rfl (sent _ (by decide) (by decide))
  · rw [sent _ (by decide) (by decide)]; exact count_bump_other (by decide) s

/-! ### STOP ALL (R60, R160) -/

/-- Frames queued one after another leave everything but the line and the transmit queue's own counts. -/
theorem foldl_send_rest {α : Type} (f : α → TxFrame) (l : List α) (s : State) :
    let t := l.foldl (fun v x => send (f x) v) s
    t.rows = s.rows ∧ t.mixer = s.mixer ∧ t.lib = s.lib ∧ ∀ c, c ≠ .txDropped → c ≠ .txDisplaced → count t c = count s c := by
  induction l generalizing s with
  | nil => exact ⟨rfl, rfl, rfl, fun _ _ _ => rfl⟩
  | cons x l ih =>
    obtain ⟨rows, mixer, lib, counts⟩ := ih (send (f x) s)
    exact ⟨rows.trans (send_rows _ _), mixer.trans (send_mixer _ _), lib.trans (by simp),
      fun c h1 h2 => (counts c h1 h2).trans (count_send _ _ _ h1 h2)⟩

/-- The rows that a stop reaches, for which an ANNOUNCE STOP is queued (R60). -/
theorem recorded_rows (l : List (Option Row)) :
    l.filterMap (fun r => match r with | some r => if aliveRow r then some r else none | none => none) =
      l.filterMap (fun r => r.filter aliveRow) := by
  refine List.filterMap_congr (fun r _ => ?_)
  cases r <;> rfl

/-- A STOP ALL contact stops every row and queues an ANNOUNCE STOP for each that it reached (R60). -/
theorem raiseStopAll_spec (s : State) :
    (∀ p : Fin 4, (raiseStopAll s).rows[p] = stopped s s.rows[p]) ∧
      FlushesAsked (s.rows.toList.filter (fun x => x.any aliveRow)).length s (raiseStopAll s) ∧ SameLibrary s (raiseStopAll s) ∧
      (raiseStopAll s).line = ((s.rows.toList.filterMap (fun r => r.filter aliveRow)).foldl
        (fun u r => send (newFrame 2 (announceData 3 r)) u) s).line ∧
      Counted 1 .stopAllRaised s (raiseStopAll s) ∧ count (raiseStopAll s) .activations = count s .activations := by
  obtain ⟨rows, flushes, library⟩ := stopRows_spec (bump .stopAllRaised s)
  have all : raiseStopAll s = (s.rows.toList.filterMap (fun r => r.filter aliveRow)).foldl
      (fun u r => send (newFrame 2 (announceData 3 r)) u) (stopRows (bump .stopAllRaised s)) := by
    rw [← recorded_rows]; rfl
  obtain ⟨sentRows, sentMixer, sentLib, sentCount⟩ := foldl_send_rest (fun r => newFrame 2 (announceData 3 r))
    (s.rows.toList.filterMap (fun r => r.filter aliveRow)) (stopRows (bump .stopAllRaised s))
  have counts : ∀ c, c ≠ .txDropped → c ≠ .txDisplaced → count (raiseStopAll s) c = count (bump .stopAllRaised s) c := fun c h1 h2 => by
    rw [all, sentCount c h1 h2]; exact count_congr (by simp) c
  refine ⟨fun p => ?_, ?_, ?_, ?_, ?_, ?_⟩
  · rw [all, sentRows]; exact rows p
  · rw [all, ← sum_asks]; exact flushesAsked_congr flushes rfl sentMixer
  · rw [all]; exact library.trans (sameLibrary_of_lib sentLib)
  · rw [all]; exact foldl_send_congr _ _ _ _ (by simp) (by simp)
  · exact counted_congr (counted_bump .stopAllRaised s) rfl (counts _ (by decide) (by decide))
  · rw [counts _ (by decide) (by decide)]; exact count_bump_other (by decide) s

/-! ### The statement -/

/-- A mark offered at frame `now` with that release frame, as R85 puts it for a GO contact. -/
theorem offered_go (running : Bool) (now : Nat) (r : Row) :
    (if running then offered now 0 now r else r) = match r.phase with
      | .gated g =>
        if running = true ∧ r.suspended = false ∧ g.mark = 0 then
          { r with anchor := max (now + 4) (max g.due (now + 1)) - g.time, phase := .running }
        else r
      | _ => r := by
  unfold offered
  cases running
  · cases r.phase <;> simp
  · cases r.phase <;> simp [openGate]

theorem offered_go_rows (running : Bool) (now : Nat) (x : Option Row) :
    (if running then x.map (offered now 0 now) else x).map Row.noAsk = x.map (fun r =>
      (match r.phase with
       | .gated g =>
         if running = true ∧ r.suspended = false ∧ g.mark = 0 then
           { r with anchor := max (now + 4) (max g.due (now + 1)) - g.time, phase := .running }
         else r
       | _ => r).noAsk) := by
  cases x with
  | none => cases running <;> rfl
  | some r =>
    rw [Option.map_some, ← apply_ite some]
    exact congrArg (fun r => some r.noAsk) (offered_go running now r)

/-- The rows that a GO contact flushes. -/
theorem gatedOn_go_rows (running : Bool) (l : List (Option Row)) :
    l.filter (fun x => running && x.any (fun r => gatedOn r 0)) = l.filter (fun x => match x with
      | some r => (match r.phase with | .gated g => running && !r.suspended && g.mark == 0 | _ => false)
      | none => false) := by
  refine List.filter_congr (fun x _ => ?_)
  cases x with
  | none => exact Bool.and_false running
  | some r =>
    obtain ⟨phase⟩ := r
    cases phase with
    | gated g => exact (Bool.and_assoc _ _ _).symm
    | _ => exact Bool.and_false running

/-- The rows that a STOP ALL contact flushes. -/
theorem aliveRow_rows (l : List (Option Row)) :
    l.filter (fun x => x.any aliveRow) = l.filter (fun x => match x with | some r => aliveRow r | none => false) := by
  refine List.filter_congr (fun x _ => ?_)
  cases x <;> rfl

/-- An activation of an input leaves the inputs settled and every part that no contact reaches. -/
theorem debounce_parts (i : Fin 8) (s : State) (hf : functionOf s i = .go ∨ functionOf s i = .stopAll)
    (h : debounce i s = onActivation (functionOf s i) (settledAt i s)) :
    OnlyChanges [.inputs, .rows, .lib, .mixer, .line, .counters] s (servePort (debounce i s)) ∧
      (servePort (debounce i s)).inputs = (settledAt i s).inputs := by
  rw [h]
  rcases hf with hf | hf <;> rw [hf]
  · exact ⟨(onlyChanges_iff _ _ _).2 (by simp [onActivation, settledAt]), by simp [onActivation, settledAt]⟩
  · exact ⟨(onlyChanges_iff _ _ _).2 (by simp [onActivation, raiseStopAll, settledAt]), by simp [onActivation, raiseStopAll, settledAt]⟩

/-- Settles O51: an input's reading and expiry by the equations of `Input.read` and `debounce`, and the two contacts by what an offer and a
stop make of every row. -/
theorem contactsDebounced : Obligations.ContactsDebounced := by
  intro i s x activeAt
  have raw : rawActive (senseOf s i) = activeAt := funext (rawActive_eq (senseOf s i))
  refine ⟨fun millivolts => ⟨fun h => ?_, fun h => ?_⟩, fun ha ht => ?_, fun ha ht => ?_⟩
  · rw [exec_inputChange, execInputChange_eq, h]; rfl
  · rw [exec_inputChange, execInputChange_eq, h, if_pos rfl, readInput_voltageAt]
    dsimp only
    rw [Input_read_eq, raw]; rfl
  · rw [exec_debounceExpiry ha, debounce_stopped ht]
  · rw [exec_debounceExpiry ha]
    rw [← raw]
    intro active settled
    have settles : settled = settledAt i s := rfl
    rw [settles]
    refine ⟨fun hf => ?_, fun hf hq => ?_, fun hf hs hactive => ?_, fun hf hs hactive => ?_⟩
    · rw [debounce_quiet ht (by rcases hf with hf | hf <;> rw [hf] <;> decide)]
      exact .inr (.inr (by rcases hf with hf | hf <;> rw [hf] <;> exact fun _ => rfl))
    · rw [debounce_quiet ht (by rcases hf with hf | hf <;> rw [hf] <;> decide)]
      exact hq.imp_right .inl
    · have activation := debounce_activation ht hs hactive
      obtain ⟨only, inputs⟩ := debounce_parts i s (.inl hf) activation
      refine ⟨_, rfl, only, inputs, ?_⟩
      obtain ⟨rows, flushes, library, line, raised, kept⟩ := raiseGo_spec (bump .activations (settledAt i s))
      have go : debounce i s = raiseGo (bump .activations (settledAt i s)) := by rw [activation, hf]; rfl
      rw [go]
      refine ⟨library.trans (servePort_library _), ?_, ?_, ?_, ?_, fun p => ?_⟩
      · exact counted_congr (counted_bump .activations (settledAt i s)) rfl ((count_servePort _ _).trans kept)
      · exact counted_congr raised (count_bump_other (by decide) _).symm (count_servePort _ _)
      · rw [servePort_line, line]; exact send_line_congr _ _ _ rfl rfl
      · exact flushesAsked_congr (gatedOn_go_rows _ _ ▸ flushes) rfl (servePort_mixer _)
      · rw [servePort_same, rows]; exact offered_go_rows _ _ _
    · have activation := debounce_activation ht hs hactive
      obtain ⟨only, inputs⟩ := debounce_parts i s (.inr hf) activation
      refine ⟨_, rfl, only, inputs, ?_⟩
      obtain ⟨rows, flushes, library, line, raised, kept⟩ := raiseStopAll_spec (bump .activations (settledAt i s))
      have stop : debounce i s = raiseStopAll (bump .activations (settledAt i s)) := by rw [activation, hf]; rfl
      rw [stop]
      refine ⟨library.trans (servePort_library _), ?_, ?_, ?_, ?_, fun p => ?_⟩
      · exact counted_congr (counted_bump .activations (settledAt i s)) rfl ((count_servePort _ _).trans kept)
      · exact counted_congr raised (count_bump_other (by decide) _).symm (count_servePort _ _)
      · rw [servePort_line, line]; exact foldl_send_congr _ _ _ _ rfl rfl
      · exact flushesAsked_congr (aliveRow_rows _ ▸ flushes) rfl (servePort_mixer _)
      · rw [servePort_same, rows]; exact Option.map_bind

end Sys2Proof.Machine.InstanceProofs
end

section
/-!
PROOFS. Stops and marks that arrive as frames (03_show_instances.md: R58, R59, R61, R66 to R68, R85, R89).
-/

namespace Sys2Proof.Machine.InstanceProofs

/-! ### The row that holds a show (R48) -/

section
variable {s : State}

theorem heldRow_congr {a b : State} (h : a.rows = b.rows) (k : Nat) : heldRow a k = heldRow b k := by unfold heldRow; rw [h]

theorem heldRow_some {k : Nat} {p : Fin 4} (h : heldRow s k = some p) : ∃ r, s.rows[p] = some r ∧ r.showNo = k := by
  have hp := List.find?_some h
  cases hr : s.rows[p] with
  | none => simp [hr] at hp
  | some r => exact ⟨r, rfl, by simpa [hr] using hp⟩

theorem heldRow_none {k : Nat} : heldRow s k = none ↔ ∀ (p : Fin 4) (r : Row), s.rows[p] = some r → r.showNo ≠ k := by
  unfold heldRow
  rw [List.find?_eq_none]
  constructor
  · intro h p r hr hk
    exact h p (List.mem_finRange p) (by rw [hr]; exact beq_iff_eq.2 hk)
  · intro h p _
    cases hr : s.rows[p] with
    | none => exact Bool.false_ne_true
    | some r => exact fun hk => h p r hr (beq_iff_eq.1 hk)

/-- At most one row holds a show, so the row that holds it is found (R48). -/
theorem heldRow_of_row (h : ShowsHeld s) {p : Fin 4} {r : Row} (hr : s.rows[p] = some r) : heldRow s r.showNo = some p := by
  cases hk : heldRow s r.showNo with
  | none => exact absurd rfl (heldRow_none.1 hk p r hr)
  | some q =>
    obtain ⟨r', hr', he⟩ := heldRow_some hk
    rw [h.distinct q p r' r hr' hr he]

end

/-! ### What the Line Interface notes of a sender, and what is answered -/

section
variable {s : State}

theorem count_noteSender (n : LineNumber) (k : Nat) {c : Counter} (hc : c ≠ .duplicateFrames) : count (noteSender n k s) c = count s c := by
  unfold noteSender
  dsimp only
  split
  · exact count_bump_other (Ne.symm hc) _
  · rfl

theorem stopped_noteSender (n : LineNumber) (k : Nat) : stopped (noteSender n k s) = stopped s := stopped_congr (by simp) (by simp)

theorem answerResult_mixer (n : LineNumber) (target : Byte) (cls sub : Nat) (v : Verdict) (subject : Nat) :
    (answerResult n target cls sub v subject s).mixer = s.mixer := by simp

/-- A RESULT changes no row, asks for no flush and leaves the library. -/
theorem answered_onRow {p : Fin 4} {G : Option Row → Option Row} {asks : Option Row → Nat} {t : State} (h : OnRow p G asks s t)
    (n : LineNumber) (target : Byte) (cls sub : Nat) (v : Verdict) (subject : Nat) :
    OnRow p G asks s (answerResult n target cls sub v subject t) :=
  ⟨by simpa using h.row, fun i hi => by simpa using h.others i hi, flushesAsked_congr h.flushes rfl (answerResult_mixer ..),
    h.library.trans (sameLibrary_of_lib (by simp))⟩

end

/-! ### What a command on one row leaves behind -/

/-- What the statements say of a command that changes rows and serves the port: the parts that change, the library, and the refills. -/
theorem served_shape {s t : State} (same : OnlyChanges [.rows, .lib, .mixer, .line, .counters] s t) (library : SameLibrary s t) :
    OnlyChanges [.rows, .lib, .mixer, .line, .counters] s (servePort t) ∧ SameLibrary s (servePort t) ∧ RefillsAsked (servePort t) := by
  refine ⟨?_, library.trans (servePort_library t), servePort_asks t⟩
  obtain ⟨h1, h2, h3, h4, h5, -, -, -, h9, h10, h11, h12, h13, -, -, h16⟩ := (onlyChanges_iff _ _ _).1 same
  exact (onlyChanges_iff _ _ _).2 (by
    simp [h1 (by decide), h2 (by decide), h3 (by decide), h4 (by decide), h5 (by decide), h9 (by decide), h10 (by decide),
      h11 (by decide), h12 (by decide), h13 (by decide), h16 (by decide)])

/-! ### Stop commands (R59, R61) -/

section
variable {s : State}

theorem exec_stopShow (h : started s = true) (n : LineNumber) (target showNo : Byte) (hc : concerns target s = true) :
    exec (.stopShow n target showNo) s = .next (servePort (answerResult n target 4 2 (stopShowEffect showNo.toNat (noteSender n 3 s)).1
      showNo.toNat (stopShowEffect showNo.toNat (noteSender n 3 s)).2)) := by
  refine (onFrameStarted_started h n 4 2 _).trans (congrArg Host.Outcome.next ?_)
  exact if_pos ((concerns_noteSender target n _).trans hc)

theorem exec_stopAll (h : started s = true) (n : LineNumber) (target : Byte) (hc : concerns target s = true) :
    exec (.stopAll n target) s = .next (servePort (answerResult n target 4 3 .accepted 0 (stopRows (noteSender n 2 s)))) := by
  refine (onFrameStarted_started h n 4 3 _).trans (congrArg Host.Outcome.next ?_)
  exact if_pos ((concerns_noteSender target n _).trans hc)

theorem exec_announceStop (h : started s = true) (n : LineNumber) (a : Announcement) :
    exec (.announceStop n a) s = .next (takeAnnounceStop a (noteSender n 17 s)) :=
  onFrameStarted_started h n 2 3 _

theorem stopShowEffect_held {k : Nat} {p : Fin 4} (hk : k ≠ 0) (h : heldRow s k = some p) :
    stopShowEffect k s = (.accepted, stopRow p s) := by
  unfold stopShowEffect
  rw [if_neg hk, h]

theorem stopShowEffect_unheld {k : Nat} (hk : k ≠ 0) (h : heldRow s k = none) : stopShowEffect k s = (.unknown, s) := by
  unfold stopShowEffect
  rw [if_neg hk, h]

theorem takeAnnounceStop_held {a : Announcement} {p : Fin 4} {r : Row} (h : heldRow s a.showNo.toNat = some p) (hr : s.rows[p] = some r) :
    takeAnnounceStop a s = if r.tag ≤ a.tag.toNat then servePort (stopRow p s) else s := by
  unfold takeAnnounceStop; simp only [h, hr]

theorem takeAnnounceStop_unheld {a : Announcement} (h : heldRow s a.showNo.toNat = none) : takeAnnounceStop a s = s := by
  unfold takeAnnounceStop; simp only [h]

/-- One row stopped by a frame, with what is answered (R58, R59, R61). -/
theorem stopped_by_frame {p : Fin 4} {t : State} {k : Nat} (n : LineNumber)
    (h : OnRow p (stopped (noteSender n k s)) stopAsks (noteSender n k s) t)
    (same : OnlyChanges [.rows, .lib, .mixer, .line, .counters] s t) :
    (OnlyChanges [.rows, .lib, .mixer, .line, .counters] s (servePort t) ∧ SameLibrary s (servePort t) ∧ RefillsAsked (servePort t)) ∧
      FlushesAsked (stopAsks s.rows[p]) s (servePort t) ∧
      (servePort t).rows[p].map Row.noAsk = (stopped s s.rows[p]).map Row.noAsk ∧
      ∀ q : Fin 4, q ≠ p → (servePort t).rows[q].map Row.noAsk = s.rows[q].map Row.noAsk := by
  have rows : (noteSender n k s).rows = s.rows := by simp
  refine ⟨served_shape same ((sameLibrary_of_lib (by simp)).trans h.library), ?_, ?_, fun q hq => ?_⟩
  · have := h.flushes
    rw [rows] at this
    exact flushesAsked_congr this (by simp) (servePort_mixer t)
  · rw [servePort_same, h.row, stopped_noteSender, rows]
  · rw [servePort_same, h.others q hq, rows]

/-- What R58 makes of a row, but for the refill its player asks for. -/
theorem stopped_noAsk (x : Option Row) : (stopped s x).map Row.noAsk =
    x.bind (fun r => (stoppedRow (frameNow s) (headerOr s r.showNo).attack (headerOr s r.showNo).release r).map Row.noAsk) :=
  Option.map_bind

theorem stopRow_others (p : Fin 4) (n : LineNumber) (k : Nat) :
    OnlyChanges [.rows, .lib, .mixer, .line, .counters] s (stopRow p (noteSender n k s)) :=
  (onlyChanges_iff _ _ _).2 (by simp)

end

/-- Settles O44: each stop finds its row by its show, `stopRow` makes of it what R58 states, and the answer and the port leave the rows. -/
theorem stopsRelease : Obligations.StopsRelease := by
  intro n s hs held u want shape asks
  have rows : ∀ k, (u k).rows = s.rows := fun k => by simp [u]
  have asksEq : ∀ x, asks x = stopAsks x := by
    intro x
    cases x with
    | none => rfl
    | some r => obtain ⟨phase⟩ := r; cases phase <;> rfl
  clear_value asks
  refine ⟨fun target show' hc => ⟨fun h0 => ?_, fun h0 unheld => ?_, fun p r h0 hr hk => ?_⟩, fun target hc => ?_,
    fun a => ⟨fun later => ?_, fun p r hr hk ht => ?_⟩⟩
  · rw [exec_stopShow hs n target show' hc, h0]; rfl
  · have h0' : show'.toNat ≠ 0 := fun e => h0 (BitVec.eq_of_toNat_eq e)
    have none : heldRow (u 3) show'.toNat = none := (heldRow_congr (rows 3) _).trans (heldRow_none.2 unheld)
    rw [exec_stopShow hs n target show' hc, stopShowEffect_unheld h0' none]
  · have h0' : show'.toNat ≠ 0 := fun e => h0 (BitVec.eq_of_toNat_eq e)
    have found : heldRow (u 3) show'.toNat = some p := by rw [heldRow_congr (rows 3), ← hk]; exact heldRow_of_row held hr
    rw [exec_stopShow hs n target show' hc, stopShowEffect_held h0' found]
    obtain ⟨shaped, flushes, row, others⟩ := stopped_by_frame n (answered_onRow (stopRow_onRow p (u 3)) n target 4 2 .accepted show'.toNat)
      ((onlyChanges_iff _ _ _).2 (by simp [u]))
    rw [hr] at flushes row
    refine ⟨_, rfl, shaped, ?_, ?_, row.trans (stopped_noAsk _), others⟩
    · rw [servePort_line]
      exact answerResult_line _ _ _ _ _ _ _ _ (by simp) (by simp)
    · rw [asksEq]; exact flushes
  · rw [exec_stopAll hs n target hc]
    obtain ⟨each, flushes, library⟩ := stopRows_spec (u 2)
    have shaped := served_shape (s := s) (t := answerResult n target 4 3 .accepted 0 (stopRows (u 2)))
      ((onlyChanges_iff _ _ _).2 (by simp [u])) ((sameLibrary_of_lib (by simp [u])).trans (library.trans (sameLibrary_of_lib (by simp))))
    refine ⟨_, rfl, shaped, ?_, ?_, fun p => ?_⟩
    · rw [servePort_line]
      exact answerResult_line _ _ _ _ _ _ _ _ (by simp [u]) (by simp [u])
    · rw [rows, ← funext asksEq] at flushes
      exact flushesAsked_congr flushes (by simp [u]) ((servePort_mixer _).trans (answerResult_mixer ..))
    · rw [rows, stopped_noteSender] at each
      have answered : (answerResult n target 4 3 .accepted 0 (stopRows (u 2))).rows = (stopRows (u 2)).rows := by simp
      rw [servePort_same, answered, each]
      exact stopped_noAsk _
  · rw [exec_announceStop hs]
    cases hk : heldRow (u 17) a.showNo.toNat with
    | none => rw [takeAnnounceStop_unheld hk]
    | some p =>
      obtain ⟨r, hr, hshow⟩ := heldRow_some hk
      rw [takeAnnounceStop_held hk hr, if_neg (Nat.not_le.2 (later p r (rows 17 ▸ hr) hshow))]
  · have found : heldRow (u 17) a.showNo.toNat = some p := by rw [heldRow_congr (rows 17), ← hk]; exact heldRow_of_row held hr
    rw [exec_announceStop hs, takeAnnounceStop_held found (by rw [rows]; exact hr), if_pos ht]
    obtain ⟨shaped, flushes, row, others⟩ := stopped_by_frame n (stopRow_onRow p (u 17)) (stopRow_others p n 17)
    rw [hr] at flushes row
    refine ⟨_, rfl, shaped, ?_, ?_, row.trans (stopped_noAsk _), others⟩
    · rw [servePort_line]; simp
    · rw [asksEq]; exact flushes

end Sys2Proof.Machine.InstanceProofs
end

section
/-!
PROOFS. Marks that arrive as frames (03_show_instances.md: R66 to R68, R85, R85a, R89).
-/

namespace Sys2Proof.Machine.InstanceProofs

section
variable {s : State}

/-! ### What a numbered mark makes of its row (R67, R85, R85a) -/

/-- A row's mark list with a new pair: a full list loses its oldest (R67). -/
def listed (m d : Nat) (r : Row) : List (Nat × Nat) := (if 16 ≤ r.marks.length then r.marks.tail else r.marks) ++ [(m, d)]

/-- The row of a player with the late watch of a number met (R85a). -/
def watched (m : Nat) (r : Row) : Row :=
  { r with ctx := { r.ctx with lateWatch := (if r.ctx.lateWatch = some m then none else r.ctx.lateWatch) } }

/-- The station with a new pair listed in a row, before it meets the row's player (R67). -/
def pairListed (p : Fin 4) (m d : Nat) (r : Row) (s : State) : State :=
  let u := setRow p (some { r with marks := listed m d r }) s
  if 16 ≤ r.marks.length then bump .marksDropped u else u

theorem fileMark_present {p : Fin 4} {r : Row} {m : Nat} (hr : s.rows[p] = some r) (h : r.marks.any (fun e => e.1 == m) = true) (d : Nat) :
    fileMark p m d s = s := by
  unfold fileMark; simp only [hr, h, if_true]

theorem fileMark_new {p : Fin 4} {r : Row} {m : Nat} (hr : s.rows[p] = some r) (h : r.marks.any (fun e => e.1 == m) = false) (d : Nat) :
    fileMark p m d s = meetMark p m d (pairListed p m d r s) := by
  unfold fileMark pairListed listed
  simp only [hr, h, Bool.false_eq_true, if_false, decide_eq_true_eq]

theorem pairListed_row (p : Fin 4) (m d : Nat) (r : Row) (s : State) :
    (pairListed p m d r s).rows = s.rows.set p (some { r with marks := listed m d r }) := by
  unfold pairListed; dsimp only; split <;> rfl

theorem pairListed_rest (p : Fin 4) (m d : Nat) (r : Row) (s : State) :
    (pairListed p m d r s).mixer = s.mixer ∧ (pairListed p m d r s).time = s.time ∧
      Counted (if 16 ≤ r.marks.length then 1 else 0) .marksDropped s (pairListed p m d r s) ∧
      count (pairListed p m d r s) .marksLate = count s .marksLate := by
  unfold pairListed
  dsimp only
  split
  · exact ⟨rfl, rfl, counted_bump _ _, count_bump_other (by decide) _⟩
  · exact ⟨rfl, rfl, counted_zero rfl, rfl⟩

/-- A new pair meets a player GATED on its number: its gate is released (R85). -/
theorem meetMark_gated {p : Fin 4} {r : Row} {m : Nat} (hr : s.rows[p] = some r) (hg : gatedOn r m = true) (d : Nat) :
    meetMark p m d s = askFlush (setRow p (some (offered (frameNow s) m d r)) s) := by
  unfold meetMark
  simp only [hr, hg, if_true]
  rw [offerMark_eq hr, if_pos hg]

/-- Another meets its late watch (R85a). -/
theorem meetMark_watched {p : Fin 4} {r : Row} {m : Nat} (hr : s.rows[p] = some r) (hg : gatedOn r m = false) (d : Nat) :
    (meetMark p m d s).rows[p] = some (watched m r) ∧ (∀ i : Fin 4, i ≠ p → (meetMark p m d s).rows[i] = s.rows[i]) ∧
      Counted (if r.ctx.lateWatch = some m then 1 else 0) .marksLate s (meetMark p m d s) ∧
      count (meetMark p m d s) .marksDropped = count s .marksDropped := by
  obtain ⟨row, -, others⟩ := meetMark_filed m d hr hg
  refine ⟨row, others, ?_⟩
  unfold meetMark
  simp only [hr, hg, Bool.false_eq_true, if_false, modCtx_eq _ hr]
  split
  · exact ⟨counted_bump .marksLate (setRow p _ s), count_bump_other (by decide) (setRow p _ s)⟩
  · exact ⟨counted_zero rfl, rfl⟩

theorem gatedOn_iff {r : Row} {m : Nat} : gatedOn r m = true ↔ ∃ g, r.phase = .gated g ∧ r.suspended = false ∧ g.mark = m := by
  unfold gatedOn
  cases r.phase <;> simp

/-- The rows whose players a GO mark releases. -/
theorem gatedOn_rows (l : List (Option Row)) :
    l.filter (fun x => x.any (fun r => gatedOn r 0)) = l.filter (fun x => match x with
      | some r => (match r.phase with | .gated g => !r.suspended && g.mark == 0 | _ => false)
      | none => false) := by
  refine List.filter_congr (fun x _ => ?_)
  cases x <;> rfl

/-! ### MARK (R66, R68) -/

theorem exec_mark (h : awake s = true) (n : LineNumber) (showNo : Byte) (tag : BitVec 40) (number : Byte) (release : BitVec 40) :
    exec (.mark n showNo tag number release) s =
      .next (takeMarkFrame showNo.toNat tag.toNat number.toNat release.toNat (noteSender n 12 s)) :=
  onFrame_awake h n 3 0 _

theorem takeMarkFrame_not_running (h : isRunning s = false) (k tag m d : Nat) : takeMarkFrame k tag m d s = bump .marksDiscarded s := by
  unfold takeMarkFrame; simp only [h, Bool.not_false, if_true]

/-- A mark of number 0 is a GO mark for show 0 and tag 0 alone (R68). -/
theorem takeMarkFrame_go (h : isRunning s = true) (k tag d : Nat) :
    takeMarkFrame k tag 0 d s = if k = 0 ∧ tag = 0 then offerGo d s else bump .marksDiscarded s := by
  unfold takeMarkFrame; simp only [h, Bool.not_true, Bool.false_eq_true, if_false, if_true]

/-- A numbered mark is filed in the row that holds its show with its tag (R66). -/
theorem takeMarkFrame_held {p : Fin 4} {r : Row} {k tag m : Nat} (h : isRunning s = true) (hm : m ≠ 0) (hk : heldRow s k = some p)
    (hr : s.rows[p] = some r) (ht : r.tag = tag) (d : Nat) : takeMarkFrame k tag m d s = fileMark p m d s := by
  unfold takeMarkFrame
  simp only [h, Bool.not_true, Bool.false_eq_true, if_false, hm, hk, hr, ht, if_true]

theorem takeMarkFrame_unheld {k tag m : Nat} (h : isRunning s = true) (hm : m ≠ 0)
    (hk : ∀ (p : Fin 4) (r : Row), s.rows[p] = some r → ¬ (r.showNo = k ∧ r.tag = tag)) (d : Nat) :
    takeMarkFrame k tag m d s = bump .marksDiscarded s := by
  unfold takeMarkFrame
  simp only [h, Bool.not_true, Bool.false_eq_true, if_false, hm]
  cases hp : heldRow s k with
  | none => rfl
  | some p =>
    obtain ⟨r, hr, hshow⟩ := heldRow_some hp
    simp only [hr]
    exact if_neg (fun ht => hk p r hr ⟨hshow, ht⟩)

theorem takeMarkFrame_line (k tag m d : Nat) : (takeMarkFrame k tag m d s).line = s.line := by simp

end

/-- Settles O45: `takeMarkFrame` tells the three kinds of mark apart; a GO mark is offered to every row, and a numbered one listed in its
row meets the row's player, GATED on it or not. -/
theorem marksFiledAndOffered : Obligations.MarksFiledAndOffered := by
  intro n show' tag number release s ha c released
  rw [show exec c s = _ from exec_mark ha n show' tag number release]
  have running : isRunning (noteSender n 12 s) = isRunning s := isRunning_noteSender n 12
  have rows : (noteSender n 12 s).rows = s.rows := by simp
  have tx : ∀ k t m d, (takeMarkFrame k t m d (noteSender n 12 s)).line.tx = s.line.tx := fun k t m d => by
    rw [takeMarkFrame_line]; exact (noteSender_line n 12 s).1
  refine ⟨fun h => ?_, fun h h0 hother => ?_, fun h h0 unheld => ?_, fun h h0 hshow htag => ?_, fun h h0 held p r hr hk ht => ?_⟩
  · rw [takeMarkFrame_not_running (running.trans h)]
  · rw [h0, show (0 : Byte).toNat = 0 from rfl, takeMarkFrame_go (running.trans h), if_neg]
    rintro ⟨h1, h2⟩
    exact hother.elim (absurd (BitVec.eq_of_toNat_eq h1)) (absurd (BitVec.eq_of_toNat_eq h2))
  · rw [takeMarkFrame_unheld (running.trans h) (fun e => h0 (BitVec.eq_of_toNat_eq e)) (by rw [rows]; exact unheld)]
  · rw [h0, hshow, htag]
    have go : takeMarkFrame 0 0 0 release.toNat (noteSender n 12 s) = offerGo release.toNat (noteSender n 12 s) := by
      rw [takeMarkFrame_go (running.trans h), if_pos ⟨rfl, rfl⟩]
    obtain ⟨each, flushes, -⟩ := offerGo_spec release.toNat (noteSender n 12 s)
    refine ⟨_, rfl, (onlyChanges_iff _ _ _).2 (by simp), tx _ _ _ _, ?_, fun p => ?_⟩
    · rw [rows] at flushes
      exact flushesAsked_congr (gatedOn_rows _ ▸ flushes) (by simp) (congrArg State.mixer go)
    · refine (congrArg (fun t : State => t.rows[p]) go).trans ((each p).trans ?_)
      rw [rows, frameNow_noteSender]
      refine congrArg (fun f => s.rows[p].map f) (funext fun r => ?_)
      obtain ⟨phase⟩ := r
      cases phase <;> rfl
  · have h0' : number.toNat ≠ 0 := fun e => h0 (BitVec.eq_of_toNat_eq e)
    have hru : (noteSender n 12 s).rows[p] = some r := by rw [rows]; exact hr
    have filed : takeMarkFrame show'.toNat tag.toNat number.toNat release.toNat (noteSender n 12 s) =
        fileMark p number.toNat release.toNat (noteSender n 12 s) :=
      takeMarkFrame_held (running.trans h) h0' ((heldRow_congr rows _).trans (hk ▸ heldRow_of_row held hr)) hru ht _
    have only : OnlyChanges [.rows, .mixer, .line, .counters] s (fileMark p number.toNat release.toNat (noteSender n 12 s)) :=
      (onlyChanges_iff _ _ _).2 (by simp)
    have line : (fileMark p number.toNat release.toNat (noteSender n 12 s)).line.tx = s.line.tx := by rw [← filed]; exact tx _ _ _ _
    rw [filed]
    cases hnew : r.marks.any (fun e => e.1 == number.toNat) with
    | true =>
      rw [fileMark_present hru hnew] at only line ⊢
      exact ⟨_, r, rfl, only, line, fun q _ => by rw [rows], hru, fun _ => rfl, fun h => absurd h (by decide)⟩
    | false =>
      rw [fileMark_new hru hnew] at only line ⊢
      have listedRow := pairListed_row p number.toNat release.toNat r (noteSender n 12 s)
      obtain ⟨mixer, time, dropped, late⟩ := pairListed_rest p number.toNat release.toNat r (noteSender n 12 s)
      generalize hv : pairListed p number.toNat release.toNat r (noteSender n 12 s) = v at only line listedRow mixer time dropped late ⊢
      have now : frameNow v = frameNow s := (frameNow_congr time).trans (frameNow_noteSender n 12)
      have row : v.rows[p] = some { r with marks := listed number.toNat release.toNat r } := by rw [listedRow]; simp
      have others : ∀ q : Fin 4, q ≠ p → v.rows[q] = s.rows[q] := fun q hq => by
        rw [listedRow, rows]; exact setRow_other _ s hq
      have counted : Counted (if 16 ≤ r.marks.length then 1 else 0) .marksDropped s v :=
        counted_congr dropped (count_noteSender n 12 (by decide)).symm rfl
      have uncounted : count v .marksLate = count s .marksLate := late.trans (count_noteSender n 12 (by decide))
      cases hg : gatedOn r number.toNat with
      | true =>
        obtain ⟨g, hp, hs, hm⟩ := gatedOn_iff.1 hg
        have opened : offered (frameNow v) number.toNat release.toNat { r with marks := listed number.toNat release.toNat r } =
            { released g r with marks := listed number.toNat release.toNat r } := by
          rw [now]
          exact (offered_gated (r := { r with marks := listed number.toNat release.toNat r }) hp).trans (if_pos ⟨hs, hm⟩)
        rw [meetMark_gated row hg, opened] at only line ⊢
        refine ⟨_, _, rfl, only, line, fun q hq => (setRow_other _ _ hq).trans (others q hq), setRow_get _ _ _,
          fun h => absurd h (by decide), fun _ => ⟨rfl, counted_congr counted rfl rfl, fun g' hp' _ _ => ?_, fun hno => ?_⟩⟩
        · cases hp.symm.trans hp'
          exact ⟨rfl, flushesAsked_congr (flushesAsked_askFlush v) (by rw [mixer]; simp) rfl⟩
        · exact (hno g hp).elim (fun h => absurd (h.symm.trans hs) (by decide)) (absurd hm)
      | false =>
        obtain ⟨row', others', late', dropped'⟩ := meetMark_watched row hg release.toNat
        refine ⟨_, _, rfl, only, line, fun q hq => (others' q hq).trans (others q hq), row', fun h => absurd h (by decide),
          fun _ => ⟨rfl, counted_congr counted rfl dropped', fun g hp hs hm => ?_, fun _ => ⟨rfl, counted_congr late' uncounted.symm rfl⟩⟩⟩
        exact absurd (hg.symm.trans (gatedOn_iff.2 ⟨g, hp, hs, hm⟩)) (by decide)

end Sys2Proof.Machine.InstanceProofs
end

section
/-!
PROOFS. A run of a catch-up (04_show_players.md: R75 to R90): what it leaves alone, and the items that the laws of CatchUp do not state.
-/

namespace Sys2Proof.Machine.InstanceProofs

/-! ### What a player's advance leaves alone -/

/-- The window of player `p` holds no MARK cue. -/
def NoMarks (p : Fin 4) (s : State) : Prop := ∀ r, s.rows[p] = some r → ∀ c ∈ r.ctx.window, c.action ≠ .mark

/-- The work of player `p` for its own row: the other rows stay, the Frame Mixer is at most asked for flushes, the library stays but for
the port, and without a MARK cue in the window nothing is queued. -/
structure Works (p : Fin 4) (s t : State) : Prop where
  others : ∀ i : Fin 4, i ≠ p → t.rows[i] = s.rows[i]
  flushes : ∃ k, FlushesAsked k s t
  library : SameLibrary s t
  quiet : NoMarks p s → t.line = s.line ∧ NoMarks p t

section
variable {p : Fin 4} {s t v : State}

theorem works_refl (p : Fin 4) (s : State) : Works p s s := ⟨fun _ _ => rfl, ⟨0, rfl⟩, rfl, fun h => ⟨rfl, h⟩⟩

theorem works_trans (h : Works p s t) (k : Works p t v) : Works p s v := by
  obtain ⟨m, hm⟩ := h.flushes
  obtain ⟨n, hn⟩ := k.flushes
  refine ⟨fun i hi => (k.others i hi).trans (h.others i hi), ⟨m + n, flushesAsked_trans hm hn⟩, h.library.trans k.library, fun hq => ?_⟩
  obtain ⟨line, marks⟩ := h.quiet hq
  obtain ⟨line', marks'⟩ := k.quiet marks
  exact ⟨line'.trans line, marks'⟩

theorem works_askFlush (p : Fin 4) (s : State) : Works p s (askFlush s) := ⟨fun _ _ => rfl, ⟨1, rfl⟩, rfl, fun h => ⟨rfl, h⟩⟩

theorem works_askFlushIf (b : Bool) (p : Fin 4) (s : State) : Works p s (askFlushIf b s) := by
  cases b
  · exact works_refl p s
  · exact works_askFlush p s

theorem works_bump (c : Counter) (p : Fin 4) (s : State) : Works p s (bump c s) := ⟨fun _ _ => rfl, ⟨0, rfl⟩, rfl, fun h => ⟨rfl, h⟩⟩

/-- The row is set to one whose window holds no other cues. -/
theorem works_setRow {r r' : Row} (hr : s.rows[p] = some r) (hw : r'.ctx.window ⊆ r.ctx.window) : Works p s (setRow p (some r') s) := by
  refine ⟨fun i hi => setRow_other _ _ hi, ⟨0, rfl⟩, rfl, fun h => ⟨rfl, fun r₁ hr₁ c hc => ?_⟩⟩
  cases (setRow_get p (some r') s).symm.trans hr₁
  exact h r hr c (hw hc)

theorem works_modCtx (f : Context → Context) (hf : ∀ x, (f x).window ⊆ x.window) (p : Fin 4) (s : State) : Works p s (modCtx p f s) := by
  cases hr : s.rows[p] with
  | none => rw [show modCtx p f s = s by unfold modCtx modRow; simp only [hr]]; exact works_refl p s
  | some r => rw [modCtx_eq _ hr]; exact works_setRow hr (hf _)

theorem works_withdrawRefill (p : Fin 4) (s : State) : Works p s (withdrawRefill p s) := by
  have cleared := works_modCtx (fun x => { x with refillAsked := false }) (fun _ => List.Subset.refl _) p s
  unfold withdrawRefill
  dsimp only
  split
  · exact works_trans cleared ⟨fun _ _ => rfl, ⟨0, rfl⟩, rfl, fun h => ⟨rfl, h⟩⟩
  · exact cleared

theorem works_toIdle (p : Fin 4) (s : State) : Works p s (toIdle p s) := by
  obtain ⟨gone, others, mixer⟩ := toIdle_spec p s
  refine ⟨others, ⟨0, flushesAsked_of_mixer mixer⟩, toIdle_library s, fun _ => ⟨by simp, fun r hr => ?_⟩⟩
  exact absurd (gone.symm.trans hr) (Option.some_ne_none r).symm

theorem works_beginRelease {r : Row} (hr : s.rows[p] = some r) (start : Nat) : Works p s (beginRelease p r start s) := by
  unfold beginRelease
  refine works_trans ?_ (works_askFlush p _)
  split
  · exact works_toIdle p s
  · exact works_setRow hr (List.Subset.refl _)

theorem works_meetEndFrame (p : Fin 4) (s : State) : Works p s (meetEndFrame p s) := by
  unfold meetEndFrame
  split
  next r hr =>
    split
    · split
      · exact works_trans (works_toIdle p s) (works_askFlush p _)
      · exact works_beginRelease hr _
    · exact works_refl p s
  next => exact works_refl p s

theorem dropHead_window (x : Context) : (dropHead x).window ⊆ x.window := by
  unfold dropHead
  split
  · exact List.nil_subset _
  · exact List.tail_subset _

theorem works_newPass {r : Row} (hr : s.rows[p] = some r) (length : Nat) : Works p s (newPass p r length s) := by
  refine works_trans (works_setRow hr ?_) (works_askFlush p _)
  have kept : (dropHead r.ctx).window ⊆ r.ctx.window := dropHead_window r.ctx
  dsimp only
  split <;> exact kept

/-! ### The items (R76) -/

theorem takeSweep_window (zmap : List ZoneBoot) (c : Cue) (x : Context) : (takeSweep zmap c x).1.window = x.window := by
  unfold takeSweep
  dsimp only
  split
  · rfl
  · split
    · split <;> rfl
    · rfl

theorem works_takeGate {r : Row} (hr : s.rows[p] = some r) (c : Cue) : Works p s (takeGate p c r s).2 := by
  unfold takeGate
  dsimp only
  split
  · exact works_trans (works_setRow hr (dropHead_window r.ctx)) (works_askFlushIf _ p _)
  · exact works_trans (works_setRow hr (dropHead_window r.ctx)) (works_askFlushIf _ p _)

theorem works_takeEnd {r : Row} (hr : s.rows[p] = some r) (c : Cue) : Works p s (takeEnd p c r s).2 := by
  have passed : Works p s (modCtx p (pastEnd c.time) (withdrawRefill p s)) :=
    works_trans (works_withdrawRefill p s) (works_modCtx _ (fun _ => List.nil_subset _) p _)
  unfold takeEnd
  split
  · exact passed
  · split
    · exact works_newPass hr _
    · dsimp only
      split
      next hr' => exact works_trans passed (works_beginRelease hr' _)
      next => exact passed

theorem emitMark_eq {r : Row} (hr : s.rows[p] = some r) (m d : Nat) :
    emitMark p m d s = send (newFrame 3 (markData r.showNo r.tag m d)) (fileMark p m d s) := by
  unfold emitMark; simp only [hr]

/-- A mark emitted by a player that is not GATED (R69). -/
theorem emitMark_others {r : Row} (hr : s.rows[p] = some r) (hg : ∀ g, r.phase ≠ .gated g) (m d : Nat) :
    (∀ i : Fin 4, i ≠ p → (emitMark p m d s).rows[i] = s.rows[i]) ∧ (emitMark p m d s).mixer = s.mixer ∧
      (emitMark p m d s).lib = s.lib := by
  obtain ⟨-, others, -⟩ := fileMark_effects m d hr hg
  rw [emitMark_eq hr]
  exact ⟨fun i hi => by rw [send_rows]; exact others i hi, by rw [send_mixer, (fileMark_rest hr hg).1], by simp⟩

theorem takeMark_others {r : Row} (hr : s.rows[p] = some r) (c : Cue) :
    (∀ i : Fin 4, i ≠ p → (takeMark p c r s).rows[i] = s.rows[i]) ∧ (takeMark p c r s).mixer = s.mixer ∧
      (takeMark p c r s).lib = s.lib := by
  have dropped := modCtx_eq dropHead hr
  have row : (modCtx p dropHead s).rows[p] = some { r with ctx := dropHead r.ctx } := by rw [dropped, setRow_get]
  have others : ∀ i : Fin 4, i ≠ p → (modCtx p dropHead s).rows[i] = s.rows[i] := fun i hi => by rw [dropped, setRow_other _ _ hi]
  have still : (∀ i : Fin 4, i ≠ p → (modCtx p dropHead s).rows[i] = s.rows[i]) ∧ (modCtx p dropHead s).mixer = s.mixer ∧
      (modCtx p dropHead s).lib = s.lib := ⟨others, by rw [dropped]; rfl, by rw [dropped]; rfl⟩
  unfold takeMark
  dsimp only
  split
  next hrun =>
    have emitted : ∀ m d, (∀ i : Fin 4, i ≠ p → (emitMark p m d (modCtx p dropHead s)).rows[i] = s.rows[i]) ∧
        (emitMark p m d (modCtx p dropHead s)).mixer = s.mixer ∧ (emitMark p m d (modCtx p dropHead s)).lib = s.lib := fun m d => by
      obtain ⟨h1, h2, h3⟩ := emitMark_others row (fun g h => by simp [hrun] at h) m d
      exact ⟨fun i hi => (h1 i hi).trans (others i hi), h2.trans still.2.1, h3.trans still.2.2⟩
    split
    · rw [modCtx_eq _ row]
      split <;> exact ⟨fun i hi => (setRow_other _ _ hi).trans (others i hi), still.2⟩
    · split
      · exact still
      · exact still
      · exact emitted _ _
      · exact emitted _ _
  next => exact still

/-- A MARK cue taken from the head of the window: whether it is emitted, only then does the line change (R82). -/
theorem works_takeMark {r : Row} (hr : s.rows[p] = some r) {c : Cue} (hc : c ∈ r.ctx.window) (ha : c.action = .mark) :
    Works p s (takeMark p c r s) := by
  obtain ⟨others, mixer, lib⟩ := takeMark_others hr c
  exact ⟨others, ⟨0, flushesAsked_of_mixer mixer⟩, sameLibrary_of_lib lib, fun h => absurd ha (h r hr c hc)⟩

theorem nextItem_cue_mem {zmap : List ZoneBoot} {x : Context} {c : Cue} (h : nextItem zmap x = some (.cue c)) : c ∈ x.window := by
  unfold nextItem at h
  split at h
  · cases h
  next hw => cases h; rw [hw]; exact List.mem_cons_self
  · cases h
  next hw =>
    split at h
    · cases h
    · cases h; rw [hw]; exact List.mem_cons_self

/-- One item of an advance. -/
theorem works_advanceOne (p : Fin 4) (s : State) : Works p s (advanceOne p s).2 := by
  have moves : ∀ k, Works p s (modCtx p (moveTo k) s) := fun k => works_modCtx (moveTo k) (fun _ => List.Subset.refl _) p s
  have drops : ∀ f : Context → Context, (∀ x, (f x).window = x.window) → Works p s (modCtx p (fun x => f (dropHead x)) s) :=
    fun f hf => works_modCtx _ (fun x => by rw [hf]; exact dropHead_window x) p s
  unfold advanceOne
  split
  next => exact works_refl p s
  next r hr =>
    have sweeps : ∀ c, Works p s (if (takeSweep (zonesOf s) c (dropHead r.ctx)).2 then
        bump .sweepOverflow (modCtx p (fun _ => (takeSweep (zonesOf s) c (dropHead r.ctx)).1) s)
        else modCtx p (fun _ => (takeSweep (zonesOf s) c (dropHead r.ctx)).1) s) := fun c => by
      have taken : Works p s (modCtx p (fun _ => (takeSweep (zonesOf s) c (dropHead r.ctx)).1) s) := by
        rw [modCtx_eq _ hr]
        exact works_setRow hr (by rw [takeSweep_window]; exact dropHead_window r.ctx)
      split
      · exact works_trans taken (works_bump _ p _)
      · exact taken
    dsimp only
    split
    next => exact moves _
    next it hit =>
      split
      · exact moves _
      · split
        · exact works_meetEndFrame p s
        · cases it with
          | sweep c i e => exact works_modCtx (takeSweepItem (zonesOf s) c i e) (fun _ => List.Subset.refl _) p s
          | cue c =>
            dsimp only
            split
            · exact drops _ (fun _ => rfl)
            · exact drops _ (fun _ => rfl)
            · exact sweeps c
            · exact sweeps c
            next ha => exact works_takeMark hr (nextItem_cue_mem hit) ha
            · split
              · exact drops (fun x => { x with lateWatch := none }) (fun _ => rfl)
              · split
                · exact works_trans (moves _) (works_askFlushIf _ p _)
                · exact works_takeGate hr c
            · split
              · exact moves _
              · exact works_takeEnd hr c
            · exact drops id (fun _ => rfl)

theorem works_advanceLoop (p : Fin 4) (k : Nat) (s : State) : Works p s (advanceLoop p k s).2 := by
  induction k generalizing s with
  | zero => exact works_refl p s
  | succ k ih =>
    have one := works_advanceOne p s
    unfold advanceLoop
    split
    next s' h => rw [h] at one; exact works_trans one (ih s')
    next => exact one

theorem works_advanceAll (p : Fin 4) (s : State) : Works p s (advanceAll p s).2 := by
  unfold advanceAll
  split
  · exact works_advanceLoop p _ s
  · exact works_refl p s

theorem works_noteEmptied (p : Fin 4) (r : Row) (s : State) : Works p s (noteEmptied p r s) := by
  unfold noteEmptied
  split
  · exact works_askFlushIf _ p s
  · exact works_refl p s

theorem works_settleCatchUp (p : Fin 4) (h : Halt) (s : State) : Works p s (settleCatchUp p h s) := by
  have completes : ∀ t, Works p t (completeCatchUp p t) := fun t =>
    works_trans (works_modCtx (fun x => { x with catchUp := none }) (fun _ => List.Subset.refl _) p t) (works_askFlush p _)
  unfold settleCatchUp
  split
  · exact works_askFlush p s
  · split
    · exact works_trans (works_toIdle p s) (works_askFlush p _)
    · split
      · exact works_refl p s
      · refine works_trans ?_ (completes _)
        split_ifs
        · exact works_meetEndFrame p s
        · exact works_refl p s

/-- A run of a catch-up is work of its player alone (R90). -/
theorem works_runCatchUp (p : Fin 4) (s : State) : Works p s (runCatchUp p s) := by
  unfold runCatchUp
  split
  next r hr =>
    split
    · split
      · exact works_trans (works_toIdle p s) (works_askFlush p _)
      · exact works_trans (works_trans (works_advanceAll p s) (works_noteEmptied p r _)) (works_settleCatchUp p _ _)
    · exact works_refl p s
  next => exact works_refl p s

end

end Sys2Proof.Machine.InstanceProofs
end

section
/-!
PROOFS. A catch-up's run, clause by clause (04_show_players.md: R70, R77 to R90).
-/

namespace Sys2Proof.Machine.InstanceProofs

section
variable {p : Fin 4} {s : State} {r : Row} {u : CatchUp}

/-! ### A zone that a sweep in progress reaches (R81) -/

theorem nextItem_sweep {zmap : List ZoneBoot} {x : Context} {c : Cue} {i : Nat} {todo : List Nat} {k : Int}
    (hsw : x.sweeps = [{ cue := c, todo := i :: todo }]) (hi : (reachedAt zmap c i : Int) ≤ k) (hw : cuesBeyond x.window k) :
    nextItem zmap x = some (.sweep c i (reachedAt zmap c i)) := by
  have first : nextSweepItem zmap x.sweeps = some (c, i, reachedAt zmap c i) := by
    rw [hsw, ← sweepFrameAt_eq]; rfl
  unfold nextItem
  rw [first]
  cases hwin : x.window with
  | nil => rfl
  | cons d ds =>
    have := hw.1 d (by rw [hwin]; rfl)
    exact if_pos (by omega)

/-- What a sweep's item makes of the context of its player (R81). -/
theorem takeSweepItem_one {zmap : List ZoneBoot} {x : Context} {c : Cue} {i : Nat} {todo : List Nat} (e : Nat)
    (hsw : x.sweeps = [{ cue := c, todo := i :: todo }]) :
    ∃ zs, ZonesTake c e (fun j => j = i ∧ j < zmap.length) x.zones zs ∧
      takeSweepItem zmap c i e x = { x with zones := zs, sweeps := if todo = [] then [] else [{ cue := c, todo := todo }] } := by
  refine ⟨_, (mapZones_take zmap (fun j _ => [i].contains j) c e x.zones).congr (fun j => ?_), ?_⟩
  · constructor
    · rintro ⟨b, hb, hj⟩
      exact ⟨by simpa using hj, (List.getElem?_eq_some_iff.1 hb).1⟩
    · rintro ⟨rfl, hj⟩
      exact ⟨_, List.getElem?_eq_getElem hj, by simp⟩
  · have left : (takeSweepItem zmap c i e x).sweeps = if todo = [] then [] else [{ cue := c, todo := todo }] := by
      rw [takeSweepItem_sweeps, hsw]
      cases todo <;> simp [sweepLeft]
    rw [← left]; rfl

/-- A catch-up takes its one item up to its target, which leaves the row but for its context, and completes (R90). -/
theorem runCatchUp_one_context {y : Context} (hr : s.rows[p] = some r) (hcu : r.ctx.catchUp = some u) (hsu : r.suspended = false)
    (hg : CatchUpGoesOn r (frameNow s) (headerOr s r.showNo).release) (hk : r.ctx.position < (frameNow s : Int) - r.anchor)
    (one : advanceOne p s = (.more, setRow p (some { r with ctx := y }) s)) (hy : y.position = r.ctx.position)
    (hs : sweepsBeyond (zonesOf s) y.sweeps ((frameNow s : Int) - r.anchor)) (hw : cuesBeyond y.window ((frameNow s : Int) - r.anchor)) :
    runCatchUp p s =
      askFlush (setRow p (some { r with ctx := { y with position := (frameNow s : Int) - r.anchor, catchUp := none } }) s) := by
  have target : advanceTarget { r with ctx := y } (frameNow s) = (frameNow s : Int) - r.anchor :=
    advanceTarget_free (r := { r with ctx := y }) hsu _
  rw [runCatchUp_one_item hr hcu hg one (setRow_get _ _ _) rfl rfl rfl (le_of_eq target) hs hw hg
    (fun h => absurd h (cuesBeyond_ne_nil hw)), setRow_setRow, target]
  refine congrArg (fun k => askFlush (setRow p (some { r with ctx := { y with position := k, catchUp := none } }) s)) ?_
  exact max_eq_right (hy ▸ le_of_lt hk)

/-- A catch-up takes the item of a sweep in progress (R81, R90). -/
theorem runCatchUp_sweep {c : Cue} {i : Nat} {todo : List Nat} (hr : s.rows[p] = some r) (hcu : r.ctx.catchUp = some u)
    (hsu : r.suspended = false) (hg : CatchUpGoesOn r (frameNow s) (headerOr s r.showNo).release)
    (hk : r.ctx.position < (frameNow s : Int) - r.anchor) (hsw : r.ctx.sweeps = [{ cue := c, todo := i :: todo }])
    (hi : (reachedAt (zonesOf s) c i : Int) ≤ (frameNow s : Int) - r.anchor)
    (hlater : ∀ j ∈ todo, (frameNow s : Int) - r.anchor < reachedAt (zonesOf s) c j)
    (hw : cuesBeyond r.ctx.window ((frameNow s : Int) - r.anchor)) :
    FlushesAsked 1 s (runCatchUp p s) ∧
      ∃ zs, ZonesTake c (reachedAt (zonesOf s) c i) (fun j => j = i ∧ j < (zonesOf s).length) r.ctx.zones zs ∧
        (runCatchUp p s).rows[p] = some { r with
          ctx := { r.ctx with zones := zs, sweeps := (if todo = [] then [] else [{ cue := c, todo := todo }])
                              position := (frameNow s : Int) - r.anchor, catchUp := none } } := by
  obtain ⟨zs, hz, hx⟩ := takeSweepItem_one (reachedAt (zonesOf s) c i) hsw (zmap := zonesOf s)
  have tells : windowReach r ((frameNow s : Int) - r.anchor) = (frameNow s : Int) - r.anchor :=
    windowReach_tells r _ (hw.2.imp id fun ⟨d, h1, h2⟩ => ⟨d, h1, le_of_lt h2⟩) _ (le_refl _)
  have one : advanceOne p s =
      (.more, setRow p (some { r with ctx := takeSweepItem (zonesOf s) c i (reachedAt (zonesOf s) c i) r.ctx }) s) := by
    unfold advanceOne
    simp only [hr, advanceTarget_free hsu, tells, nextItem_sweep hsw hi hw, Item.frame, goesOn_not_past hg hi, modCtx_eq _ hr]
    rw [if_neg (by omega)]
    rfl
  rw [hx] at one
  have left : sweepsBeyond (zonesOf s) (if todo = [] then [] else [{ cue := c, todo := todo }]) ((frameNow s : Int) - r.anchor) := by
    intro w hw' j hj
    split at hw'
    · exact absurd hw' List.not_mem_nil
    · obtain rfl := List.mem_singleton.1 hw'
      exact hlater j hj
  rw [runCatchUp_one_context hr hcu hsu hg hk one rfl left hw]
  exact ⟨rfl, zs, hz, setRow_get _ _ _⟩

/-! ### A SET or FADE cue where the end frame lies behind (R80, R86) -/

/-- A step that takes a SET or FADE cue. -/
theorem advanceOne_zone_cue {c : Cue} {later : List Cue} {k : Int} (hr : s.rows[p] = some r) (hk : advanceTarget r (frameNow s) = k)
    (hs : sweepsBeyond (zonesOf s) r.ctx.sweeps k) (hwin : r.ctx.window = c :: later) (hc : (c.time : Int) ≤ k) (hw : cuesBeyond later k)
    (hpast : pastEndFrame r c.time = false) (hact : c.action = .set ∨ c.action = .fade) :
    advanceOne p s = (.more, setRow p (some { r with ctx := takeZoneCue (zonesOf s) c (dropHead r.ctx) }) s) := by
  rw [advanceOne_cue hr hk hs hwin hc (by rw [hwin]; exact window_tells_cons (.inl hw)) hpast, modCtx_eq _ hr]
  rcases hact with h | h <;> rw [h]

/-- A RUNNING player that meets its end frame before its release is over becomes RELEASING (R86). -/
theorem meetEndFrame_releasing {e : Nat} (hr : s.rows[p] = some r) (he : r.endFrame = some e) (h0 : 0 < (headerOr s r.showNo).release)
    (h1 : frameNow s < e + (headerOr s r.showNo).release) :
    meetEndFrame p s =
      askFlush (setRow p (some { r with phase := .releasing e (attackWeight r.tag (headerOr s r.showNo).attack e) }) s) := by
  have met : meetEndFrame p s = if e + (headerOr s r.showNo).release ≤ frameNow s then askFlush (toIdle p s) else beginRelease p r e s := by
    unfold meetEndFrame; simp only [hr, he]
  rw [met, if_neg (Nat.not_le.2 h1)]
  exact congrArg askFlush (if_neg (Nat.ne_of_gt h0))

/-- A cue beyond the end frame waits until the player has met it (R86). -/
theorem advanceOne_past_end_frame {c : Cue} {later : List Cue} {k : Int} (hr : s.rows[p] = some r) (hk : advanceTarget r (frameNow s) = k)
    (hs : sweepsBeyond (zonesOf s) r.ctx.sweeps k) (hwin : r.ctx.window = c :: later) (hc : (c.time : Int) ≤ k) (hw : cuesBeyond later k)
    (hpast : pastEndFrame r c.time = true) : advanceOne p s = (.more, meetEndFrame p s) := by
  have htell := window_tells_cons (c := c) (.inl hw)
  rw [← hwin] at htell
  unfold advanceOne
  simp only [hr, hk, windowReach_tells r _ htell _ (le_refl _), nextItem_cue _ _ _ _ _ hs hwin hc, Item.frame]
  rw [if_neg (Int.not_lt.2 hc), if_pos hpast]

/-- A catch-up takes a SET or FADE cue before or after it meets its end frame, and ends RELEASING (R80, R86). -/
theorem runCatchUp_end_frame_zone_cue {c : Cue} {later : List Cue} {e : Nat} (hr : s.rows[p] = some r) (hcu : r.ctx.catchUp = some u)
    (hsu : r.suspended = false) (hrun : r.phase = .running) (he : r.endFrame = some e) (hle : e ≤ frameNow s)
    (hk : r.ctx.position < (frameNow s : Int) - r.anchor) (hs : sweepsBeyond (zonesOf s) r.ctx.sweeps ((frameNow s : Int) - r.anchor))
    (hwin : r.ctx.window = c :: later) (hc : (c.time : Int) ≤ (frameNow s : Int) - r.anchor)
    (hw : cuesBeyond later ((frameNow s : Int) - r.anchor)) (h0 : 0 < (headerOr s r.showNo).release)
    (h1 : frameNow s < e + (headerOr s r.showNo).release) (hact : c.action = .set ∨ c.action = .fade) :
    FlushesAsked 2 s (runCatchUp p s) ∧ ∃ x', CueTaken (zonesOf s) c later r.ctx x' ∧
      (runCatchUp p s).rows[p] = some { r with
        phase := .releasing e (attackWeight r.tag (headerOr s r.showNo).attack e)
        ctx := { x' with position := (frameNow s : Int) - r.anchor, catchUp := none } } := by
  obtain ⟨x', hx, hxe⟩ := takeZoneCue_taken (zonesOf s) c later r.ctx hact hwin
  rw [headTaken_more (cuesBeyond_ne_nil hw), ← (cueTaken_keeps hx).2] at hxe
  obtain ⟨sweeps, window, position⟩ := cueTaken_beyond hx hs (by rcases hact with h | h <;> simp [h])
  have left : cuesBeyond x'.window ((frameNow s : Int) - r.anchor) := by rw [window]; exact hw
  have stands : x'.position ≤ (frameNow s : Int) - r.anchor := by rw [position]; exact le_of_lt hk
  have target := advanceTarget_free hsu (frameNow s)
  have notOver : releaseOver s r (frameNow s) = false := by simp [releaseOver, hrun]
  cases hpast : pastEndFrame r c.time with
  | false =>
    have one := advanceOne_zone_cue hr target hs hwin hc hw hpast hact
    rw [hxe] at one
    have two := advanceOne_to_target (setRow_get p (some { r with ctx := x' }) s) stands target sweeps left
    rw [setRow_setRow] at two
    have run := runCatchUp_run hr hcu notOver (advanceAll_two p s _ r _ _ hr one two (by simp))
      (fun r' hr' hw' => by rw [setRow_get] at hr'; cases hr'; exact absurd hw' (cuesBeyond_ne_nil left))
    obtain ⟨-, ends, -⟩ := settleCatchUp_end_frame
      (setRow_get p (some { r with ctx := { x' with position := (frameNow s : Int) - r.anchor } }) s) hrun he hle
    obtain ⟨flushes, row⟩ := ends h0 h1
    rw [run]
    exact ⟨flushes, x', hx, row⟩
  | true =>
    have one := advanceOne_past_end_frame hr target hs hwin hc hw hpast
    rw [meetEndFrame_releasing hr he h0 h1] at one
    let q : Row := { r with phase := .releasing e (attackWeight r.tag (headerOr s r.showNo).attack e) }
    let v := askFlush (setRow p (some q) s)
    have goes : CatchUpGoesOn q (frameNow v) (headerOr v q.showNo).release := .inr ⟨_, _, rfl, h1⟩
    have two := advanceOne_zone_cue (s := v) (r := q) (setRow_get _ _ _) (advanceTarget_free (r := q) hsu _) hs hwin hc hw
      (goesOn_not_past goes hc) hact
    rw [show takeZoneCue (zonesOf v) c (dropHead q.ctx) = x' from hxe] at two
    have three := advanceOne_to_target (s := setRow p (some { q with ctx := x' }) v) (setRow_get _ _ _) stands
      (advanceTarget_free (r := { q with ctx := x' }) hsu _) sweeps left
    have run := runCatchUp_run hr hcu notOver (advanceAll_three p s _ _ r _ _ hr one two three (by simp))
      (fun r' hr' hw' => by rw [setRow_get] at hr'; cases hr'; exact absurd hw' (cuesBeyond_ne_nil left))
    have settled := settleCatchUp_done (r1 := { q with ctx := { x' with position := (frameNow s : Int) - r.anchor } })
      (setRow_get p _ (setRow p (some { q with ctx := x' }) v)) goes
    rw [run.trans settled]
    exact ⟨rfl, x', hx, setRow_get _ _ _⟩

/-! ### The statement -/

/-- What a run of a catch-up leaves in its player's row, seen once the port has been served. -/
theorem served_becomes {t : State} {r' : Row} (h : t.rows[p] = some r') : (servePort t).rows[p].map Row.noAsk = some r'.noAsk := by
  rw [servePort_same, h]; rfl

theorem served_idle {t : State} (h : t.rows[p] = none) : (servePort t).rows[p] = none := by
  have := servePort_same t p
  rw [h] at this
  exact Option.map_eq_none_iff.1 this

theorem served_flushes {t : State} {n : Nat} (h : FlushesAsked n s t) : FlushesAsked n s (servePort t) :=
  flushesAsked_congr h rfl (servePort_mixer t)

/-- A row that a run leaves, and the flushes it asks for, once the port has been served. -/
theorem served_both {t : State} {r' : Row} {n : Nat} (h : t.rows[p] = some r' ∧ FlushesAsked n s t) :
    (servePort t).rows[p].map Row.noAsk = some r'.noAsk ∧ FlushesAsked n s (servePort t) :=
  ⟨served_becomes h.1, served_flushes h.2⟩

/-- A run that sets its player's row and asks for one flush. -/
theorem served_completed {t : State} {r' : Row} (h : t = askFlush (setRow p (some r') s)) :
    (servePort t).rows[p].map Row.noAsk = some r'.noAsk ∧ FlushesAsked 1 s (servePort t) := by
  rw [h]
  exact ⟨served_becomes (setRow_get p (some r') s), served_flushes (flushesAsked_askFlush (setRow p (some r') s))⟩

/-- A run of a catch-up does what CatchUpRun states, clause by clause. -/
theorem catchUpRun_served (hr : s.rows[p] = some r) (hcu : r.ctx.catchUp = some u) (hsu : r.suspended = false) :
    CatchUpRun p r u s (servePort (runCatchUp p s)) := by
  unfold CatchUpRun
  intro zmap h now x k becomes completes reaches releasing goesOn weightAt
  refine ⟨fun start w hp hl => ?_, fun hg hk hi => ?_, fun hg hk hs hw => ?_, fun hg hk hs hw he => ?_, fun hg hk hs hw he => ?_,
    fun c hg hk hwin hpc hc hs hact => ?_, fun c i todo hg hk hsw hi hlater hw => ?_,
    fun c later hg hk hwin hpc hc hs hw => ⟨fun hact => ?_, fun hact => ?_, fun hact => ?_⟩,
    fun c later hg hk hwin hpc hc hs hact => ?_, fun e hrun he hle hk hs => ?_⟩
  · obtain ⟨gone, flushes⟩ := runCatchUp_over hr hcu hp hl
    exact ⟨served_idle gone, served_flushes flushes⟩
  · exact served_completed (runCatchUp_reached hr hcu hsu hg hk hi)
  · exact served_completed (runCatchUp_no_item hr hcu hsu hg hk hs hw)
  · exact served_completed ((runCatchUp_empty_window hr hcu hsu (.inr hg) hk hs hw).trans (if_pos he))
  · have waits : runCatchUp p s = s :=
      (runCatchUp_empty_window hr hcu hsu hg hk hs hw).trans (if_neg (fun h => Bool.false_ne_true (he.symm.trans h)))
    exact ⟨served_becomes ((congrArg (fun t : State => t.rows[p]) waits).trans hr), (servePort_mixer _).trans (congrArg State.mixer waits)⟩
  · obtain ⟨x', hx, completesAt, waits⟩ := runCatchUp_last_cue hr hcu hsu hg hk hwin hpc hc hs hact
    exact ⟨x', hx, fun h => served_both (completesAt h), fun h h' => served_both (waits h h')⟩
  · obtain ⟨flushes, zs, hz, row⟩ := runCatchUp_sweep hr hcu hsu hg hk hsw hi hlater hw
    exact ⟨served_flushes flushes, zs, hz, served_becomes row⟩
  · obtain ⟨flushes, x', hx, row⟩ := runCatchUp_zone_cue hr hcu hsu hg hk hwin hc hs hw hact
    exact ⟨served_flushes flushes, x', hx, served_becomes row⟩
  · obtain ⟨flushes, silent, emitted⟩ := runCatchUp_mark hr hcu hsu hg hk hwin hc hs hw hact
    refine ⟨served_flushes flushes, fun hq => ?_, fun hrun hu => ?_⟩
    · obtain ⟨row, line⟩ := silent (hq.imp_left fun ⟨start, w, hp, _⟩ => ⟨start, w, hp⟩)
      exact ⟨served_becomes row, (servePort_line _).trans line⟩
    · obtain ⟨row, line⟩ := emitted hrun hu
      exact ⟨served_becomes row, (servePort_line _).trans line⟩
  · obtain ⟨passed, stands⟩ := runCatchUp_gate hr hcu hsu hg hk hwin hpc hc hs hw hact
    refine ⟨fun ⟨start, w, hp, _⟩ => served_both (passed start w hp), fun hrun => ⟨fun hwaits => ?_, fun q watch hq => ?_⟩⟩
    · obtain ⟨flushes, row⟩ := (stands hrun).1 hwaits
      exact ⟨served_flushes flushes, served_becomes row⟩
    · obtain ⟨flushes, row⟩ := (stands hrun).2 q watch hq
      exact ⟨by rw [servePort_mixer]; exact flushes, served_becomes row⟩
  · obtain ⟨released, ended⟩ := runCatchUp_end hr hcu hsu hg hk hwin hpc hc hs hact
    have seen : ∀ r' : Row, (runCatchUp p s).rows[p].map Row.noAsk = some r'.noAsk → becomes r' := fun r' h' =>
      (servePort_same _ p).trans h'
    refine ⟨fun ⟨start, w, hp, _⟩ => ?_, fun hrun => ⟨fun hm hp hw => ?_, fun hlast => ?_⟩⟩
    · obtain ⟨row, flushes⟩ := released start w hp
      exact ⟨seen _ row, served_flushes flushes⟩
    · obtain ⟨flushes, row⟩ := (ended hrun).1 hm hp hw
      exact ⟨served_flushes flushes, seen _ row⟩
    · obtain ⟨isOver, begun⟩ := (ended hrun).2 hlast
      refine ⟨?_, fun ho => served_idle (isOver ho).1, fun h0 h1 => seen _ (begun h0 h1).2⟩
      by_cases ho : h.release = 0 ∨ r.anchor + c.time + h.release ≤ now
      · exact served_flushes (isOver ho).2
      · obtain ⟨h0, h1⟩ := not_or.1 ho
        exact served_flushes (begun (Nat.pos_of_ne_zero h0) (Nat.not_le.1 h1)).1
  · have ends := fun hw => runCatchUp_end_frame hr hcu hsu hrun he hle hk hs hw
    refine ⟨fun ho hw => ?_, fun h0 h1 => ⟨fun hw => ?_, fun c later hwin hpc hc hw => ⟨fun hact => ?_, fun hact hlt => ?_⟩⟩⟩
    · obtain ⟨gone, flushes⟩ := (ends hw).1 ho
      exact ⟨served_idle gone, served_flushes flushes⟩
    · obtain ⟨flushes, row⟩ := (ends hw).2 h0 h1
      exact ⟨served_becomes row, served_flushes flushes⟩
    · obtain ⟨flushes, x', hx, row⟩ := runCatchUp_end_frame_zone_cue hr hcu hsu hrun he hle hk hs hwin hc hw h0 h1 hact
      exact ⟨served_flushes flushes, x', hx, served_becomes row⟩
    · obtain ⟨flushes, line, row⟩ := runCatchUp_end_frame_mark hr hcu hsu hrun he hle hk hs hwin hc hw h0 h1 hact hlt
      exact ⟨served_flushes flushes, served_becomes row, (servePort_line _).trans line⟩

theorem exec_catchUpComplete (h : awake s = true) (p : Fin 4) : exec (.catchUpComplete p) s = .next (servePort (runCatchUp p s)) :=
  onEvent_awake h (fun s => servePort (runCatchUp p s))

theorem runCatchUp_none (hr : s.rows[p] = some r) (hcu : r.ctx.catchUp = none) : runCatchUp p s = s := by
  unfold runCatchUp; simp [hr, hcu]

end

/-- Settles O46: a run of a catch-up is its player's work alone, its clauses are the laws of CatchUp and the two above, and serving the
port leaves them. -/
theorem catchUpCompletes : Obligations.CatchUpCompletes := by
  intro p r s ha hr
  rw [exec_catchUpComplete ha]
  refine ⟨fun hcu => by rw [runCatchUp_none hr hcu], fun u hcu hsu => ⟨_, rfl, ?_⟩⟩
  have works := works_runCatchUp p s
  obtain ⟨only, library, refills⟩ := served_shape (s := s) (t := runCatchUp p s) ((onlyChanges_iff _ _ _).2 (by simp)) works.library
  obtain ⟨k, flushes⟩ := works.flushes
  refine ⟨only, library, refills, ⟨k, served_flushes flushes⟩, fun q hq => ?_, fun hno => ?_, catchUpRun_served hr hcu hsu⟩
  · rw [servePort_same, works.others q hq]
  · rw [servePort_line]
    refine (works.quiet fun r' hr' c hc => ?_).1
    cases hr.symm.trans hr'
    exact hno c hc

end Sys2Proof.Machine.InstanceProofs
end

section
/-!
PROOFS. What taking a request does (03_show_instances.md: R54 to R57, R93): the row it goes to, and what it makes of the station.
-/

namespace Sys2Proof.Machine.InstanceProofs

/-! ### The row that gives way (R56) -/

section
variable {s : State}

/-- One row of the search for the row that gives way. -/
def evictStep (s : State) (priority : Nat) (best : Option (Fin 4 × Row)) (p : Fin 4) : Option (Fin 4 × Row) :=
  match s.rows[p] with
  | some r =>
    if r.priority < priority then
      match best with
      | some b => if evictsBefore (p, r) b then some (p, r) else best
      | none => some (p, r)
    else best
  | none => best

theorem evictionOf_eq (s : State) (priority : Nat) :
    evictionOf s priority = ((List.finRange 4).foldl (evictStep s priority) none).map (·.1) := rfl

/-- A row of that priority or a higher one, or an IDLE one, does not give way. -/
theorem evictStep_passes {priority : Nat} {p : Fin 4} (h : ∀ r, s.rows[p] = some r → priority ≤ r.priority) (best : Option (Fin 4 × Row)) :
    evictStep s priority best p = best := by
  unfold evictStep
  cases hr : s.rows[p] with
  | none => rfl
  | some r => exact if_neg (Nat.not_lt.2 (h r hr))

/-- A row of lower priority gives way unless the best so far goes before it. -/
theorem evictStep_lower {priority : Nat} {p : Fin 4} {r : Row} (hr : s.rows[p] = some r) (h : r.priority < priority)
    (best : Option (Fin 4 × Row)) :
    evictStep s priority best p = if best.all (fun b => evictsBefore (p, r) b) then some (p, r) else best := by
  unfold evictStep
  simp only [hr, h, if_true]
  cases best <;> rfl

theorem evictionOf_none {priority : Nat} (h : ∀ (p : Fin 4) (r : Row), s.rows[p] = some r → priority ≤ r.priority) :
    evictionOf s priority = none := by
  have passes : ∀ ps : List (Fin 4), ps.foldl (evictStep s priority) none = none := by
    intro ps
    induction ps with
    | nil => rfl
    | cons p ps ih => rw [List.foldl_cons, evictStep_passes (h p)]; exact ih
  rw [evictionOf_eq, passes]; rfl

/-- A row of lower priority is found. -/
theorem evictionOf_some {priority : Nat} {p : Fin 4} {r : Row} (hr : s.rows[p] = some r) (h : r.priority < priority) :
    ∃ i, evictionOf s priority = some i := by
  have keeps : ∀ (i : Fin 4) (best : Option (Fin 4 × Row)), best ≠ none → evictStep s priority best i ≠ none := by
    intro i best hb
    by_cases hlt : ∃ o, s.rows[i] = some o ∧ o.priority < priority
    · obtain ⟨o, ho, hlt⟩ := hlt
      rw [evictStep_lower ho hlt]
      split
      · exact Option.some_ne_none _
      · exact hb
    · rw [evictStep_passes (fun o ho => Nat.not_lt.1 (fun hlt' => hlt ⟨o, ho, hlt'⟩))]
      exact hb
  have finds : ∀ (ps : List (Fin 4)) (best : Option (Fin 4 × Row)), best ≠ none ∨ p ∈ ps → ps.foldl (evictStep s priority) best ≠ none := by
    intro ps
    induction ps with
    | nil => exact fun best h => h.resolve_right List.not_mem_nil
    | cons i ps ih =>
      intro best hb
      refine ih _ (hb.elim (fun hb => .inl (keeps i best hb)) (fun hb => (List.mem_cons.1 hb).imp_left ?_))
      rintro rfl
      cases best with
      | none => rw [evictStep_lower hr h]; exact Option.some_ne_none _
      | some b => exact keeps p _ (Option.some_ne_none b)
  obtain ⟨b, hb⟩ := Option.ne_none_iff_exists'.1 (finds _ none (.inr (List.mem_finRange p)))
  exact ⟨b.1, by rw [evictionOf_eq, hb]; rfl⟩

/-- The row that R56 names is the one the search finds. -/
theorem evictionOf_evicted {priority : Nat} {p : Fin 4} (h : Evicted s priority p) : evictionOf s priority = some p := by
  obtain ⟨r, hr, hlow, first⟩ := h
  have goesBefore : ∀ (i : Fin 4) (o : Row), i ≠ p → s.rows[i] = some o → o.priority < priority →
      evictsBefore (p, r) (i, o) = true ∧ evictsBefore (i, o) (p, r) = false := by
    intro i o hi ho hlt
    have := first i o hi ho hlt
    unfold evictsBefore
    simp only [Bool.or_eq_true, Bool.and_eq_true, decide_eq_true_eq, beq_iff_eq, Bool.or_eq_false_iff, Bool.and_eq_false_iff,
      decide_eq_false_iff_not, beq_eq_false_iff_ne]
    omega
  have keeps : ∀ ps : List (Fin 4), p ∉ ps → ps.foldl (evictStep s priority) (some (p, r)) = some (p, r) := by
    intro ps
    induction ps with
    | nil => exact fun _ => rfl
    | cons i ps ih =>
      intro hp
      obtain ⟨hne, hp⟩ := not_or.1 (fun h => hp (List.mem_cons.2 h))
      have stays : evictStep s priority (some (p, r)) i = some (p, r) := by
        by_cases hlt : ∃ o, s.rows[i] = some o ∧ o.priority < priority
        · obtain ⟨o, ho, hlt⟩ := hlt
          rw [evictStep_lower ho hlt, if_neg]
          simp [(goesBefore i o (Ne.symm hne) ho hlt).2]
        · exact evictStep_passes (fun o ho => Nat.not_lt.1 (fun hlt' => hlt ⟨o, ho, hlt'⟩)) _
      rw [List.foldl_cons, stays]
      exact ih hp
  have finds : ∀ (ps : List (Fin 4)) (best : Option (Fin 4 × Row)), p ∈ ps → ps.Nodup → best.all (fun b => evictsBefore (p, r) b) = true →
      ps.foldl (evictStep s priority) best = some (p, r) := by
    intro ps
    induction ps with
    | nil => exact fun _ h => absurd h List.not_mem_nil
    | cons i ps ih =>
      intro best hmem hnd hbest
      obtain ⟨hi, hnd⟩ := List.nodup_cons.1 hnd
      rw [List.foldl_cons]
      by_cases hip : i = p
      · subst hip
        rw [evictStep_lower hr hlow, if_pos hbest]
        exact keeps ps hi
      · refine ih _ ((List.mem_cons.1 hmem).resolve_left (Ne.symm hip)) hnd ?_
        by_cases hlt : ∃ o, s.rows[i] = some o ∧ o.priority < priority
        · obtain ⟨o, ho, hlt⟩ := hlt
          rw [evictStep_lower ho hlt]
          split
          · exact (goesBefore i o hip ho hlt).1
          · exact hbest
        · rw [evictStep_passes (fun o ho => Nat.not_lt.1 (fun hlt' => hlt ⟨o, ho, hlt'⟩))]
          exact hbest
  rw [evictionOf_eq, finds _ none (List.mem_finRange p) (List.nodup_finRange 4) rfl]; rfl

/-! ### Where a request goes (R54, R56) -/

/-- The first player that passes a test is the one that a search in ascending order finds. -/
theorem find_first {f : Fin 4 → Bool} {p : Fin 4} (hp : f p = true) (first : ∀ i : Fin 4, i < p → f i = false) :
    (List.finRange 4).find? f = some p := by
  refine List.find?_eq_some_iff_getElem.2 ⟨hp, p, by simp, by simp, fun j hj => ?_⟩
  rw [List.getElem_finRange, first _ hj]
  rfl

theorem idleRow_first {p : Fin 4} (hp : s.rows[p] = none) (first : ∀ i : Fin 4, i < p → s.rows[i] ≠ none) : idleRow s = some p :=
  find_first (Option.isNone_iff_eq_none.2 hp) (fun i hi => Bool.eq_false_iff.2 (fun h => first i hi (Option.isNone_iff_eq_none.1 h)))

theorem idleRow_none (h : ∀ i : Fin 4, s.rows[i] ≠ none) : idleRow s = none := by
  unfold idleRow
  rw [List.find?_eq_none]
  intro p _
  simpa using h p

theorem heldRow_first {p : Fin 4} {r : Row} {k : Nat} (hr : s.rows[p] = some r) (hk : r.showNo = k)
    (first : ∀ (i : Fin 4) (o : Row), i < p → s.rows[i] = some o → o.showNo ≠ k) : heldRow s k = some p := by
  refine find_first (by rw [hr]; exact beq_iff_eq.2 hk) (fun i hi => ?_)
  cases ho : s.rows[i] with
  | none => rfl
  | some o => exact beq_eq_false_iff_ne.2 (first i o hi ho)

/-- The request finds no player: its show is not held, and no row is IDLE or of lower priority (R56). -/
def NoPlayer (q : Request) (s : State) : Prop :=
  (∀ (p : Fin 4) (r : Row), s.rows[p] = some r → r.showNo ≠ q.showNo) ∧ ∀ p : Fin 4, ∃ r, s.rows[p] = some r ∧ q.priority ≤ r.priority

section
variable {q : Request}

theorem takeRequest_unheld (h : ∀ (p : Fin 4) (r : Row), s.rows[p] = some r → r.showNo ≠ q.showNo) : takeRequest q s = allocate q s := by
  unfold takeRequest; rw [heldRow_none.2 h]

theorem takeRequest_idle {p : Fin 4} (h : ∀ (p : Fin 4) (r : Row), s.rows[p] = some r → r.showNo ≠ q.showNo) (hp : s.rows[p] = none)
    (first : ∀ i : Fin 4, i < p → s.rows[i] ≠ none) : takeRequest q s = (true, createRow p q s) := by
  rw [takeRequest_unheld h]
  unfold allocate
  rw [idleRow_first hp first]

theorem takeRequest_evicts {p : Fin 4} (h : ∀ (p : Fin 4) (r : Row), s.rows[p] = some r → r.showNo ≠ q.showNo)
    (busy : ∀ i : Fin 4, s.rows[i] ≠ none) (hp : Evicted s q.priority p) :
    takeRequest q s = (true, createRow p q (bump .evictions (cutRow p s))) := by
  rw [takeRequest_unheld h]
  unfold allocate
  rw [idleRow_none busy, evictionOf_evicted hp]

theorem takeRequest_full (h : NoPlayer q s) : takeRequest q s = (false, bump .instanceFull s) := by
  obtain ⟨unheld, busy⟩ := h
  have noIdle : ∀ i : Fin 4, s.rows[i] ≠ none := fun i hi => by
    obtain ⟨r, hr, -⟩ := busy i
    exact Option.some_ne_none r (hr.symm.trans hi)
  have noLower : ∀ (p : Fin 4) (r : Row), s.rows[p] = some r → q.priority ≤ r.priority := fun p r hr => by
    obtain ⟨r', hr', hle⟩ := busy p
    cases hr.symm.trans hr'
    exact hle
  rw [takeRequest_unheld unheld]
  unfold allocate
  rw [idleRow_none noIdle, evictionOf_none noLower]

/-- A request whose show is held goes to the row that holds it: a RELEASING one is cut, another is merged (R54, R55). -/
theorem takeRequest_held {p : Fin 4} {r : Row} (hk : heldRow s q.showNo = some p) (hr : s.rows[p] = some r) :
    takeRequest q s = (true, if aliveRow r then mergeRow p q s else createRow p q (cutRow p s)) := by
  unfold takeRequest aliveRow
  simp only [hk, hr]
  cases r.phase <;> rfl

theorem mergeRow_eq {p : Fin 4} {r : Row} (hr : s.rows[p] = some r) : mergeRow p q s =
    if pairSmaller q r then
      let v := askFlush (setRow p (some (adoptPair q r)) s)
      reposition p (q.tag != r.tag) (if q.origin.isOwn then announceStartOf p v else v)
    else s := by
  unfold mergeRow; simp only [hr]

theorem pairSmaller_iff (r : Row) : pairSmaller q r = true ↔ q.tag < r.tag ∨ (q.tag = r.tag ∧ q.anchor < r.anchor) := by
  unfold pairSmaller; simp

theorem adoptedRow_silent {number : Nat} {r : Row} (h : q.origin.isOwn = false ∨ number = 0) : adoptedRow number q r = adoptPair q r := by
  have silent : (q.origin.isOwn && number != 0) = false := by rcases h with h | h <;> simp [h]
  unfold adoptedRow
  rw [silent, Bool.or_false]
  rfl

theorem adoptedRow_announces {number : Nat} {r : Row} (h : q.origin.isOwn = true) (hn : number ≠ 0) :
    adoptedRow number q r = { adoptPair q r with announcer := true } := by
  have announces : (q.origin.isOwn && number != 0) = true := by simp [h, hn]
  unfold adoptedRow
  rw [announces, Bool.or_true]
  rfl

/-- A row that adopts a smaller pair, and announces where the request is the station's own, before its player repositions (R55). -/
theorem adopted_spec (p : Fin 4) (r : Row) :
    let v := askFlush (setRow p (some (adoptPair q r)) s)
    let t := if q.origin.isOwn then announceStartOf p v else v
    t.rows[p] = some (adoptedRow s.start.number q r) ∧ (∀ i : Fin 4, i ≠ p → t.rows[i] = s.rows[i]) ∧ FlushesAsked 1 s t ∧
      t.line = (if q.origin.isOwn then send (newFrame 2 (announceData 1 (adoptedRow s.start.number q r))) s else s).line ∧
      t.lib = s.lib ∧ t.start = s.start ∧ t.time = s.time ∧ ∀ c, c ≠ .txDropped → c ≠ .txDisplaced → count t c = count s c := by
  intro v t
  have row : v.rows[p] = some (adoptPair q r) := setRow_get _ _ _
  have others : ∀ i : Fin 4, i ≠ p → v.rows[i] = s.rows[i] := fun i hi => setRow_other _ _ hi
  cases hown : q.origin.isOwn with
  | false =>
    have ht : t = v := by simp only [t, hown, Bool.false_eq_true, if_false]
    rw [ht]
    exact ⟨by rw [row, adoptedRow_silent (.inl hown)], others, rfl, rfl, rfl, rfl, rfl, fun _ _ _ => rfl⟩
  | true =>
    have ht : t = announceStartOf p v := by simp only [t, hown, if_true]
    rw [announceStartOf_eq row] at ht
    by_cases hn : s.start.number = 0
    · rw [ht, if_pos (show v.start.number = 0 from hn), if_pos rfl]
      refine ⟨by rw [row, adoptedRow_silent (.inr hn)], others, rfl, ?_, rfl, rfl, rfl, fun _ _ _ => rfl⟩
      unfold send; rw [if_pos hn]; rfl
    · rw [ht, if_neg (show ¬ v.start.number = 0 from hn), if_pos rfl]
      unfold announce
      refine ⟨?_, fun i hi => ?_, ?_, ?_, ?_, ?_, ?_, fun c h1 h2 => ?_⟩
      · rw [send_rows, setRow_get, adoptedRow_announces hown hn]
      · rw [send_rows, setRow_other _ _ hi]; exact others i hi
      · exact flushesAsked_congr (flushesAsked_askFlush (setRow p (some (adoptPair q r)) s)) rfl (send_mixer _ _)
      · exact send_line_congr _ _ _ rfl rfl
      · simp; rfl
      · simp; rfl
      · simp; rfl
      · rw [count_send _ _ _ h1 h2]; rfl

theorem modRow_library (f : Row → Row) (p : Fin 4) (s : State) : SameLibrary s (modRow p f s) := sameLibrary_of_lib (by simp)

theorem askFlushIf_library (b : Bool) (s : State) : SameLibrary s (askFlushIf b s) := by cases b <;> rfl

theorem reposition_library (p : Fin 4) (newTag : Bool) (s : State) : SameLibrary s (reposition p newTag s) := by
  have catchUp : ∀ k t, SameLibrary s t → SameLibrary s (beginCatchUp k p t) := fun k t h => h.trans (beginCatchUp_library k t)
  unfold reposition
  split
  · rfl
  · dsimp only
    split
    · have withdrawn := withdrawRefill_library (p := p) s
      split
      · exact withdrawn.trans (modRow_library _ p _)
      · have asked := fun b => withdrawn.trans (askFlushIf_library b _)
        split
        · exact (asked _).trans (modRow_library _ p _)
        · exact catchUp _ _ ((asked _).trans (modRow_library _ p _))
    · split
      · split
        · rfl
        · exact catchUp _ _ rfl
      · split
        · rfl
        · split
          · rfl
          · exact catchUp _ _ rfl
      · split
        · rfl
        · split
          · exact catchUp _ _ rfl
          · rfl
      · rfl

/-- A smaller pair that is adopted, with the player's repositioning (R55, R93). -/
theorem mergeRow_smaller {p : Fin 4} {r : Row} (hr : s.rows[p] = some r) (h : pairSmaller q r = true) :
    let t := mergeRow p q s
    (∃ r', Repositioned (zonesOf s).length (frameNow s) (q.tag != r.tag) (adoptedRow s.start.number q r) r' ∧
        t.rows[p].map Row.noAsk = some r'.noAsk) ∧
      (∀ i : Fin 4, i ≠ p → t.rows[i] = s.rows[i]) ∧ (∃ k, 1 ≤ k ∧ FlushesAsked k s t) ∧ SameLibrary s t ∧
      t.line = (if q.origin.isOwn then send (newFrame 2 (announceData 1 (adoptedRow s.start.number q r))) s else s).line ∧
      ∀ c, c ≠ .txDropped → c ≠ .txDisplaced → count t c = count s c := by
  rw [mergeRow_eq hr, if_pos h]
  obtain ⟨row, others, flushes, line, lib, start, time, counts⟩ := adopted_spec (s := s) (q := q) p r
  dsimp only
  generalize (if q.origin.isOwn = true then announceStartOf p (askFlush (setRow p (some (adoptPair q r)) s))
    else askFlush (setRow p (some (adoptPair q r)) s)) = v at row others flushes line lib start time counts ⊢
  obtain ⟨⟨r', hrep, hrow⟩, others', k, asked⟩ := reposition_spec row (q.tag != r.tag)
  have zones : zonesOf v = zonesOf s := by unfold zonesOf; rw [start]
  rw [zones, frameNow_congr time] at hrep
  refine ⟨⟨r', hrep, hrow⟩, fun i hi => (others' i hi).trans (others i hi), ⟨1 + k, Nat.le_add_right 1 k, flushesAsked_trans flushes asked⟩,
    (sameLibrary_of_lib lib).trans (reposition_library p _ v), ?_, fun c h1 h2 => ?_⟩
  · rw [← line]; simp
  · rw [← counts c h1 h2]; exact count_congr (by simp) c

theorem mergeRow_larger {p : Fin 4} {r : Row} (hr : s.rows[p] = some r) (h : pairSmaller q r = false) : mergeRow p q s = s := by
  rw [mergeRow_eq hr, h]; rfl

theorem announceStartOf_library (p : Fin 4) (s : State) : SameLibrary s (announceStartOf p s) := sameLibrary_of_lib (by simp)

theorem createRow_library (p : Fin 4) (q : Request) (s : State) : SameLibrary s (createRow p q s) := by
  have placed : SameLibrary s (askFlush (setRow p (some (rowOfRequest q s)) s)) := rfl
  have announced : ∀ b : Bool, SameLibrary s (if b then announceStartOf p (askFlush (setRow p (some (rowOfRequest q s)) s))
      else askFlush (setRow p (some (rowOfRequest q s)) s)) := fun b => by
    cases b
    · exact placed
    · exact placed.trans (announceStartOf_library p _)
  unfold createRow
  dsimp only
  split
  · exact (announced _).trans (beginCatchUp_library _ _)
  · exact announced _

/-- A row that is cut, and the row created in its place (R54, R56). -/
theorem cutRow_spec (p : Fin 4) (s : State) :
    (∀ i : Fin 4, i ≠ p → (cutRow p s).rows[i] = s.rows[i]) ∧ FlushesAsked 1 s (cutRow p s) ∧ SameLibrary s (cutRow p s) := by
  obtain ⟨-, others, mixer⟩ := toIdle_spec p s
  exact ⟨others, flushesAsked_congr (flushesAsked_askFlush (toIdle p s)) mixer.symm rfl, toIdle_library s⟩

/-- The counters that only taking a request counts (R56). -/
def requestCounters : List Counter := [.evictions, .instanceFull, .txDropped, .txDisplaced]

/-- What a row created for a request in place of `u`'s does, seen from a station `s` that `u` agrees with (R57). -/
structure Created (p : Fin 4) (q : Request) (k : Nat) (s t : State) : Prop where
  row : t.rows[p].map Row.noAsk =
    some (createdRow (zonesOf s).length s.start.number (frameNow s) (s.safety.holdList != []) q).noAsk
  others : ∀ i : Fin 4, i ≠ p → t.rows[i] = s.rows[i]
  flushes : FlushesAsked k s t
  library : SameLibrary s t
  line : t.line = (if q.origin.isOwn then send (newFrame 2 (announceData 1
    (createdRow (zonesOf s).length s.start.number (frameNow s) (s.safety.holdList != []) q))) s else s).line

theorem createRow_created {p : Fin 4} {k : Nat} {u : State} (others : ∀ i : Fin 4, i ≠ p → u.rows[i] = s.rows[i])
    (flushes : FlushesAsked k s u) (library : SameLibrary s u) (start : u.start = s.start) (time : u.time = s.time)
    (safety : u.safety = s.safety) (line : u.line = s.line) : Created p q (k + 1) s (createRow p q u) := by
  obtain ⟨row, others', flushes', line', -⟩ := createRow_spec p q u
  have zones : zonesOf u = zonesOf s := by unfold zonesOf; rw [start]
  rw [zones, start, safety, frameNow_congr time] at row line'
  refine ⟨row, fun i hi => (others' i hi).trans (others i hi), flushesAsked_trans flushes flushes',
    library.trans (createRow_library p q u), ?_⟩
  rw [line']
  split
  · exact send_line_congr _ _ _ start line
  · exact line

theorem count_createRow (p : Fin 4) (c : Counter) (h1 : c ≠ .txDisplaced) (h2 : c ≠ .txDropped) : count (createRow p q s) c = count s c :=
  (createRow_spec p q s).2.2.2.2 c h1 h2

/-- A row created at once (R56). -/
theorem createRow_idle (p : Fin 4) : Created p q 1 s (createRow p q s) :=
  createRow_created (k := 0) (fun _ _ => rfl) rfl rfl rfl rfl rfl rfl

/-- A row created in the place of one that is cut, by itself or as an eviction (R54, R56). -/
theorem createRow_cut (p : Fin 4) : Created p q 2 s (createRow p q (cutRow p s)) := by
  obtain ⟨others, flushes, library⟩ := cutRow_spec p s
  exact createRow_created others flushes library (by simp) (by simp) (by simp) (by simp)

theorem createRow_evicted (p : Fin 4) : Created p q 2 s (createRow p q (bump .evictions (cutRow p s))) := by
  obtain ⟨others, flushes, library⟩ := cutRow_spec p s
  exact createRow_created (u := bump .evictions (cutRow p s)) others flushes library (by simp) (by simp) (by simp) (by simp)

/-! ### What taking a request does (R54 to R57) -/

/-- What RequestTaken tells of the line: the announcement of a start, or nothing. -/
def Tells (s t : State) (x : Option Row) : Prop :=
  t.line = (match x with | some r => send (newFrame 2 (announceData 1 r)) s | none => s).line

/-- A row stands as RequestTaken tells, but for the refill its player asks for. -/
def Stands (t : State) (p : Fin 4) (x : Option Row) : Prop := t.rows[p].map Row.noAsk = x.map Row.noAsk

theorem stands_of_eq {t : State} {p : Fin 4} {x : Option Row} (h : t.rows[p] = x) : Stands t p x := congrArg (Option.map Row.noAsk) h

theorem tells_own {t : State} {r : Row} (h : t.line = (if q.origin.isOwn then send (newFrame 2 (announceData 1 r)) s else s).line) :
    Tells s t (if q.origin.isOwn then some r else none) := by
  unfold Tells
  rw [h]
  cases q.origin.isOwn <;> rfl

theorem aliveRow_false {r : Row} : aliveRow r = false ↔ ∃ start w, r.phase = .releasing start w := by
  unfold aliveRow
  cases r.phase <;> simp

theorem takeRequest_taken (q : Request) (s : State) :
    RequestTaken q s (takeRequest q s).2 (Stands (takeRequest q s).2)
      (fun k => FlushesAsked k s (takeRequest q s).2) (Tells s (takeRequest q s).2) := by
  unfold RequestTaken
  intro now zones new said others sameCounts unheld
  refine ⟨fun p hu hp first => ?_, fun p hu busy hp => ?_, fun hu busy => ?_, fun p r hr hk first => ?_⟩
  · have taken := takeRequest_idle hu hp first
    have created : Created p q 1 s (takeRequest q s).2 := by rw [taken]; exact createRow_idle p
    have counts : ∀ c, c ≠ .txDisplaced → c ≠ .txDropped → count (takeRequest q s).2 c = count s c := fun c h1 h2 => by
      rw [taken]; exact count_createRow p c h1 h2
    exact ⟨created.row, fun i hi => stands_of_eq (created.others i hi), created.flushes, tells_own created.line,
      counts _ (by decide) (by decide), counts _ (by decide) (by decide)⟩
  · have taken := takeRequest_evicts hu busy hp
    have created : Created p q 2 s (takeRequest q s).2 := by rw [taken]; exact createRow_evicted p
    have counts : ∀ c, c ≠ .txDisplaced → c ≠ .txDropped →
        count (takeRequest q s).2 c = count (bump .evictions (cutRow p s)) c := fun c h1 h2 => by
      rw [taken]; exact count_createRow p c h1 h2
    refine ⟨created.row, fun i hi => stands_of_eq (created.others i hi), created.flushes, tells_own created.line, ?_, ?_⟩
    · exact counted_congr (counted_bump .evictions (cutRow p s)) (count_congr (by simp) _) (counts _ (by decide) (by decide))
    · rw [counts _ (by decide) (by decide), count_bump_other (by decide)]
      exact count_congr (by simp) _
  · have taken : (takeRequest q s).2 = bump .instanceFull s := congrArg Prod.snd (takeRequest_full ⟨hu, busy⟩)
    have counted : Counted 1 .instanceFull s (takeRequest q s).2 := by rw [taken]; exact counted_bump _ s
    have kept : count (takeRequest q s).2 .evictions = count s .evictions := by rw [taken]; exact count_bump_other (by decide) s
    exact ⟨fun i => stands_of_eq (by rw [taken]; rfl), by rw [taken]; rfl, by rw [taken]; rfl, counted, kept⟩
  · have taken : (takeRequest q s).2 = if aliveRow r then mergeRow p q s else createRow p q (cutRow p s) :=
      congrArg Prod.snd (takeRequest_held (heldRow_first hr hk first) hr)
    cases ha : aliveRow r with
    | false =>
      have cut : (takeRequest q s).2 = createRow p q (cutRow p s) := by rw [taken, ha]; rfl
      have created : Created p q 2 s (takeRequest q s).2 := by rw [cut]; exact createRow_cut p
      have counts : ∀ c, c ≠ .txDisplaced → c ≠ .txDropped → count (takeRequest q s).2 c = count s c := fun c h1 h2 => by
        rw [cut, count_createRow p c h1 h2]; exact count_congr (by simp) c
      refine ⟨fun i hi => stands_of_eq (created.others i hi), ⟨counts _ (by decide) (by decide), counts _ (by decide) (by decide)⟩,
        fun _ => ⟨created.row, created.flushes, tells_own created.line⟩, fun h => ?_⟩
      obtain ⟨start, w, hp⟩ := aliveRow_false.1 ha
      exact absurd hp (h start w)
    | true =>
      have merged : (takeRequest q s).2 = mergeRow p q s := by rw [taken, ha]; rfl
      cases hsm : pairSmaller q r with
      | true =>
        obtain ⟨row, others', flushes, library, line, counts⟩ := mergeRow_smaller hr hsm
        rw [← merged] at row others' flushes line counts
        refine ⟨fun i hi => stands_of_eq (others' i hi), ⟨counts _ (by decide) (by decide), counts _ (by decide) (by decide)⟩,
          fun ⟨start, w, hp⟩ => ?_, fun _ => ⟨fun _ => ⟨row, flushes, tells_own line⟩, fun h => ?_⟩⟩
        · exact absurd (ha.symm.trans (aliveRow_false.2 ⟨start, w, hp⟩)) (by decide)
        · exact absurd ((pairSmaller_iff r).1 hsm) h
      | false =>
        have same : (takeRequest q s).2 = s := merged.trans (mergeRow_larger hr hsm)
        refine ⟨fun i _ => stands_of_eq (by rw [same]), ⟨by rw [same], by rw [same]⟩, fun ⟨start, w, hp⟩ => ?_,
          fun _ => ⟨fun h => ?_, fun _ => ⟨stands_of_eq (by rw [same, hr]), by rw [same]; rfl, by rw [same]; rfl⟩⟩⟩
        · exact absurd (ha.symm.trans (aliveRow_false.2 ⟨start, w, hp⟩)) (by decide)
        · exact absurd ((pairSmaller_iff r).2 h) (by rw [hsm]; decide)

/-- Where a request goes, whatever the station (R54, R56): nowhere, or to one row, the one that holds its show where one does. -/
theorem takeRequest_cases (q : Request) (s : State) :
    (NoPlayer q s ∧ takeRequest q s = (false, bump .instanceFull s)) ∨
      ∃ p, (heldRow s q.showNo = none ∨ heldRow s q.showNo = some p) ∧ (takeRequest q s).1 = true ∧
        ((takeRequest q s).2 = createRow p q s ∨ (takeRequest q s).2 = createRow p q (bump .evictions (cutRow p s)) ∨
          (takeRequest q s).2 = createRow p q (cutRow p s) ∨ (takeRequest q s).2 = mergeRow p q s) := by
  cases hk : heldRow s q.showNo with
  | some p =>
    obtain ⟨r, hr, -⟩ := heldRow_some hk
    have taken := takeRequest_held hk hr
    refine .inr ⟨p, .inr rfl, by rw [taken], ?_⟩
    rw [taken]
    cases aliveRow r
    · exact .inr (.inr (.inl rfl))
    · exact .inr (.inr (.inr rfl))
  | none =>
    have unheld := heldRow_none.1 hk
    have taken : takeRequest q s = allocate q s := takeRequest_unheld unheld
    unfold allocate at taken
    cases hi : idleRow s with
    | some p =>
      rw [hi] at taken
      exact .inr ⟨p, .inl rfl, by rw [taken], .inl (by rw [taken])⟩
    | none =>
      rw [hi] at taken
      cases he : evictionOf s q.priority with
      | some p =>
        rw [he] at taken
        exact .inr ⟨p, .inl rfl, by rw [taken], .inr (.inl (by rw [taken]))⟩
      | none =>
        rw [he] at taken
        refine .inl ⟨⟨unheld, fun p => ?_⟩, taken⟩
        have busy : ¬ s.rows[p].isNone = true := List.find?_eq_none.1 hi p (List.mem_finRange p)
        obtain ⟨r, hr⟩ := Option.ne_none_iff_exists'.1 (fun h => busy (Option.isNone_iff_eq_none.2 h))
        refine ⟨r, hr, Nat.not_lt.1 (fun hlt => ?_)⟩
        obtain ⟨i, hi⟩ := evictionOf_some hr hlt
        exact Option.some_ne_none i (hi.symm.trans he)

theorem mergeRow_rest (p : Fin 4) (q : Request) (s : State) :
    SameLibrary s (mergeRow p q s) ∧ (∀ i : Fin 4, i ≠ p → (mergeRow p q s).rows[i] = s.rows[i]) ∧
      ∀ c, c ≠ .txDropped → c ≠ .txDisplaced → count (mergeRow p q s) c = count s c := by
  cases hr : s.rows[p] with
  | none =>
    have same : mergeRow p q s = s := by unfold mergeRow; simp only [hr]
    exact ⟨by rw [same]; rfl, fun i _ => by rw [same], fun c _ _ => by rw [same]⟩
  | some r =>
    cases h : pairSmaller q r with
    | true =>
      obtain ⟨-, others, -, library, -, counts⟩ := mergeRow_smaller hr h
      exact ⟨library, others, counts⟩
    | false =>
      have same := mergeRow_larger hr h
      exact ⟨by rw [same]; rfl, fun i _ => by rw [same], fun c _ _ => by rw [same]⟩

/-- Taking a request keeps the library and every counter but its own and those of the transmit queue. -/
theorem takeRequest_rest (q : Request) (s : State) :
    SameLibrary s (takeRequest q s).2 ∧ ∀ c, c ∉ requestCounters → count (takeRequest q s).2 c = count s c := by
  have not : ∀ c, c ∉ requestCounters → c ≠ .evictions ∧ c ≠ .instanceFull ∧ c ≠ .txDropped ∧ c ≠ .txDisplaced := fun c hc => by
    simpa [requestCounters] using hc
  rcases takeRequest_cases q s with ⟨-, taken⟩ | ⟨p, -, -, taken | taken | taken | taken⟩
  · rw [taken]
    exact ⟨rfl, fun c hc => count_bump_other (not c hc).2.1.symm s⟩
  · rw [taken]
    exact ⟨(createRow_idle p).library, fun c hc => count_createRow p c (not c hc).2.2.2 (not c hc).2.2.1⟩
  · rw [taken]
    refine ⟨(createRow_evicted p).library, fun c hc => ?_⟩
    rw [count_createRow p c (not c hc).2.2.2 (not c hc).2.2.1, count_bump_other (not c hc).1.symm]
    exact count_congr (by simp) c
  · rw [taken]
    refine ⟨(createRow_cut p).library, fun c hc => ?_⟩
    rw [count_createRow p c (not c hc).2.2.2 (not c hc).2.2.1]
    exact count_congr (by simp) c
  · obtain ⟨library, -, counts⟩ := mergeRow_rest p q s
    rw [taken]
    exact ⟨library, fun c hc => counts c (not c hc).2.2.1 (not c hc).2.2.2⟩

/-- A request is refused when it finds no player, and only then (R56). -/
theorem takeRequest_flag {q : Request} {s : State} (h : ¬ NoPlayer q s) : (takeRequest q s).1 = true := by
  rcases takeRequest_cases q s with ⟨no, -⟩ | ⟨p, -, taken, -⟩
  · exact absurd no h
  · exact taken

/-- A request changes one row, which is its show's where one holds it (R54, R56). -/
theorem takeRequest_one_row (q : Request) (s : State) :
    ∃ p, (heldRow s q.showNo = none ∨ heldRow s q.showNo = some p) ∧ ∀ i : Fin 4, i ≠ p → (takeRequest q s).2.rows[i] = s.rows[i] := by
  rcases takeRequest_cases q s with ⟨⟨unheld, -⟩, taken⟩ | ⟨p, hp, -, taken | taken | taken | taken⟩
  · exact ⟨0, .inl (heldRow_none.2 unheld), fun i _ => by rw [taken]; rfl⟩
  · exact ⟨p, hp, fun i hi => by rw [taken]; exact (createRow_idle p).others i hi⟩
  · exact ⟨p, hp, fun i hi => by rw [taken]; exact (createRow_evicted p).others i hi⟩
  · exact ⟨p, hp, fun i hi => by rw [taken]; exact (createRow_cut p).others i hi⟩
  · exact ⟨p, hp, fun i hi => by rw [taken]; exact (mergeRow_rest p q s).2.1 i hi⟩

/-- What RequestTaken states, seen from a station that agrees on what it looks at and after what leaves its effects. -/
theorem requestTaken_congr {s s' t t' : State} {B B' : Fin 4 → Option Row → Prop} {A A' : Nat → Prop} {T T' : Option Row → Prop}
    (h : RequestTaken q s t B A T) (rows : s'.rows = s.rows) (start : s'.start = s.start) (time : s'.time = s.time)
    (safety : s'.safety = s.safety) (before : ∀ c ∈ [Counter.evictions, .instanceFull], count s' c = count s c)
    (after : ∀ c ∈ [Counter.evictions, .instanceFull], count t' c = count t c) (hB : ∀ p x, B p x → B' p x) (hA : ∀ k, A k → A' k)
    (hT : ∀ x, T x → T' x) : RequestTaken q s' t' B' A' T' := by
  have zones : zonesOf s' = zonesOf s := by unfold zonesOf; rw [start]
  have now : frameNow s' = frameNow s := frameNow_congr time
  have evicted : ∀ pr p, Evicted s' pr p ↔ Evicted s pr p := fun pr p => by unfold Evicted; rw [rows]
  have e1 := before .evictions (by simp)
  have e2 := before .instanceFull (by simp)
  have e3 := after .evictions (by simp)
  have e4 := after .instanceFull (by simp)
  have counted : ∀ n c, count s' c = count s c → count t' c = count t c → (Counted n c s t → Counted n c s' t') :=
    fun n c h1 h2 h => counted_congr h h1 h2
  obtain ⟨idle, evicts, full, holds⟩ := h
  unfold RequestTaken
  rw [zones, now, rows, start, safety, e1, e2, e3, e4]
  refine ⟨fun p hu hp first => ?_, fun p hu busy hp => ?_, fun hu busy => ?_, fun p r hr hk first => ?_⟩
  · obtain ⟨row, others, asked, said, counts⟩ := idle p hu hp first
    exact ⟨hB _ _ row, fun i hi => hB _ _ (others i hi), hA _ asked, hT _ said, counts⟩
  · obtain ⟨row, others, asked, said, evictions, fulls⟩ := evicts p hu busy ((evicted _ p).1 hp)
    exact ⟨hB _ _ row, fun i hi => hB _ _ (others i hi), hA _ asked, hT _ said, counted _ _ e1 e3 evictions, fulls⟩
  · obtain ⟨each, asked, said, fulls, evictions⟩ := full hu busy
    exact ⟨fun i => hB _ _ (each i), hA _ asked, hT _ said, counted _ _ e2 e4 fulls, evictions⟩
  · obtain ⟨others, counts, cut, merged⟩ := holds p r hr hk first
    refine ⟨fun i hi => hB _ _ (others i hi), counts, fun hp => ?_, fun hp => ⟨fun hsm => ?_, fun hsm => ?_⟩⟩
    · obtain ⟨row, asked, said⟩ := cut hp
      exact ⟨hB _ _ row, hA _ asked, hT _ said⟩
    · obtain ⟨⟨r', hrep, row⟩, ⟨k, hk, asked⟩, said⟩ := (merged hp).1 hsm
      exact ⟨⟨r', hrep, hB _ _ row⟩, ⟨k, hk, hA _ asked⟩, hT _ said⟩
    · obtain ⟨row, asked, said⟩ := (merged hp).2 hsm
      exact ⟨hB _ _ row, hA _ asked, hT _ said⟩

end

end

end Sys2Proof.Machine.InstanceProofs
end

section
/-!
PROOFS. START_SHOW (03_show_instances.md: R52, R54 to R57, R93).
-/

namespace Sys2Proof.Machine.InstanceProofs

section
variable {s : State}

theorem exec_startShow (h : started s = true) (n : LineNumber) (target : Byte) (f : StartImage) (hc : concerns target s = true) :
    exec (.startShow n target f) s = .next (servePort (answerResult n target 4 1 (startEffect n f (noteSender n 14 s)).1 f.showNo.toNat
      (startEffect n f (noteSender n 14 s)).2)) := by
  refine (onFrameStarted_started h n 4 1 _).trans (congrArg Host.Outcome.next ?_)
  exact if_pos ((concerns_noteSender target n _).trans hc)

/-! ### The tests of a START SHOW (R52) -/

theorem startInvalid_iff (f : StartImage) : startInvalid f = true ↔
    f.showNo = 0 ∨ (f.mode ≠ 0 ∧ f.mode ≠ 1) ∨ (f.mode = 0 ∧ f.passes ≠ 0) ∨ 15 < f.passes.toNat ∨ 345600 < f.duration.toNat ∨
      126230400000 ≤ f.tag.toNat := by
  unfold startInvalid
  simp [or_assoc]

theorem startRefusal_configFault {f : StartImage} {q : Request} (h : s.start.state = .configFault) : startRefusal f q s = some .notNow := by
  unfold startRefusal; rw [if_pos h]

theorem startRefusal_invalid {f : StartImage} {q : Request} (h : s.start.state ≠ .configFault) (hb : startInvalid f = true) :
    startRefusal f q s = some .invalid := by
  unfold startRefusal; rw [if_neg h, if_pos hb]

theorem startRefusal_untimed {f : StartImage} {q : Request} (h : s.start.state ≠ .configFault) (hb : startInvalid f = false)
    (ht : s.time.timeValid = false) : startRefusal f q s = some .notNow := by
  unfold startRefusal; rw [if_neg h, if_neg (Bool.eq_false_iff.1 hb), if_pos ht]

/-- The tests of a START SHOW that depend on the library (R52). -/
theorem startRefusal_timed {f : StartImage} {q : Request} (h : s.start.state ≠ .configFault) (hb : startInvalid f = false)
    (ht : s.time.timeValid = true) : startRefusal f q s =
      match headerOf s f.showNo.toNat with
      | none => some .unknown
      | some h => if ∃ e, nominalFinal q h.length = some e ∧ e ≤ frameNow s then some .notNow else none := by
  unfold startRefusal
  rw [if_neg h, if_neg (Bool.eq_false_iff.1 hb), if_neg (by rw [ht]; decide)]
  cases headerOf s f.showNo.toNat with
  | none => rfl
  | some h =>
    dsimp only
    cases nominalFinal q h.length <;> simp

theorem startRefusal_noteSender (f : StartImage) (q : Request) (n : LineNumber) (k : Nat) :
    startRefusal f q (noteSender n k s) = startRefusal f q s := by
  unfold startRefusal
  rw [headerOf_noteSender, frameNow_noteSender]
  simp

theorem startRequest_noteSender (n m : LineNumber) (f : StartImage) (k : Nat) :
    startRequest n f (noteSender m k s) = startRequest n f s := by
  unfold startRequest; rw [frameNow_noteSender]

theorem startEffect_refused {n : LineNumber} {f : StartImage} {v : Verdict} (h : startRefusal f (startRequest n f s) s = some v)
    (hv : v ≠ .unknown) : startEffect n f s = (v, bump .startRefused s) := by
  unfold startEffect
  cases v with
  | unknown => exact absurd rfl hv
  | _ => simp only [h]

theorem startEffect_unknown {n : LineNumber} {f : StartImage} (h : startRefusal f (startRequest n f s) s = some .unknown) :
    startEffect n f s = (.unknown, bump .showAbsent s) := by
  unfold startEffect; simp only [h]

theorem startEffect_taken {n : LineNumber} {f : StartImage} (h : startRefusal f (startRequest n f s) s = none) :
    startEffect n f s = (if (takeRequest (startRequest n f s) s).1 then .accepted else .full, (takeRequest (startRequest n f s) s).2) := by
  unfold startEffect; simp only [h]

/-- The nominal final frame of a START SHOW whose mode is in range (R50, R52). -/
theorem startRequest_final {f : StartImage} (hm : f.mode = 0 ∨ f.mode = 1) (n : LineNumber) (length : Nat) :
    nominalFinal (startRequest n f s) length =
      (let q := startRequest n f s
       match q.endFrame, (if f.mode = 0 then some (q.tag + length)
                          else if f.passes = 0 then none else some (q.tag + f.passes.toNat * length)) with
       | some e, some x => some (min e x)
       | some e, none => some e
       | none, x => x) := by
  have passes : f.passes.toNat = 0 ↔ f.passes = 0 := ⟨fun h => BitVec.eq_of_toNat_eq h, fun h => by rw [h]; rfl⟩
  have mode : (startRequest n f s).mode = if f.mode = 1 then .loop else .once := rfl
  unfold nominalFinal
  rw [mode]
  rcases hm with hm | hm
  · rw [hm]; rfl
  · rw [hm]
    by_cases h0 : f.passes = 0
    · have h0' : (startRequest n f s).passes = 0 := passes.2 h0
      simp only [h0, h0', if_true]; rfl
    · have h0' : ¬ (startRequest n f s).passes = 0 := fun h => h0 (passes.1 h)
      simp only [h0, h0', if_false, if_true]; rfl

end

/-- Settles O42: the tests of R52 in their order, and an accepted request taken as `takeRequest_taken` states, which the RESULT and the
port leave as it stands. -/
theorem startShowTakesPlayer : Obligations.StartShowTakesPlayer := by
  intro n target f s hs hc c u now tag endFrame priority bad final refused
  have run : exec c s = _ := exec_startShow hs n target f hc
  have hbad : startInvalid f = true ↔ bad := startInvalid_iff f
  have hgood : ¬ bad → startInvalid f = false := fun h => Bool.eq_false_iff.2 (fun h' => h (hbad.1 h'))
  have refusal : ∀ q, startRefusal f q u = startRefusal f q s := fun q => startRefusal_noteSender f q n 14
  have request : startRequest n f u = startRequest n f s := startRequest_noteSender n n f 14
  have finals : ¬ bad → ∀ length, nominalFinal (startRequest n f s) length = final length := fun hb length => by
    have hm : f.mode = 0 ∨ f.mode = 1 := by
      by_contra hm
      exact hb (.inr (.inl (not_or.1 hm)))
    exact startRequest_final hm n length
  have refuses : ∀ v, v ≠ .unknown → startRefusal f (startRequest n f s) s = some v → exec c s = .next (refused v .startRefused) := by
    intro v hv h
    rw [run, startEffect_refused (by rw [request, refusal]; exact h) hv]
  refine ⟨fun h => ?_, fun hf => ⟨fun h => ?_, fun hb ht => ?_, fun hb ht => ⟨fun hh => ?_,
    fun h hh => ⟨fun e he hle => ?_, fun hlt => ?_⟩⟩⟩⟩
  · exact refuses _ (by decide) (startRefusal_configFault h)
  · exact refuses _ (by decide) (startRefusal_invalid hf (hbad.2 h))
  · exact refuses _ (by decide) (startRefusal_untimed hf (hgood hb) ht)
  · rw [run, startEffect_unknown]
    rw [request, refusal, startRefusal_timed hf (hgood hb) ht, hh]
  · refine refuses _ (by decide) ?_
    rw [startRefusal_timed hf (hgood hb) ht, hh]
    exact if_pos ⟨e, (finals hb _).trans he, hle⟩
  · intro q full
    have accepted : startRefusal f (startRequest n f u) u = none := by
      rw [request, refusal, startRefusal_timed hf (hgood hb) ht, hh]
      refine if_neg ?_
      rintro ⟨e, he, hle⟩
      exact absurd (hlt e ((finals hb _).symm.trans he)) (Nat.not_lt.2 hle)
    have taken := startEffect_taken accepted
    rw [request, show startRequest n f s = q from rfl] at taken
    have rows : u.rows = s.rows := by simp [u]
    have noPlayer : NoPlayer q u ↔ full := by unfold NoPlayer; rw [rows]
    refine ⟨fun hfull => ?_, ?_⟩
    · rw [run, taken, takeRequest_full (noPlayer.2 hfull)]; rfl
    · obtain ⟨library, counts⟩ := takeRequest_rest q u
      have requested := takeRequest_taken q u
      have flag := takeRequest_flag (q := q) (s := u)
      have only : OnlyChanges [.rows, .lib, .mixer, .line, .counters] s (takeRequest q u).2 := (onlyChanges_iff _ _ _).2 (by simp [u])
      have start : (takeRequest q u).2.start = u.start := by simp
      rw [run, taken]
      generalize (takeRequest q u).2 = w at library counts requested only start ⊢
      generalize (takeRequest q u).1 = b at flag ⊢
      have kept : ∀ c, c ≠ .txDropped → c ≠ .txDisplaced → c ≠ .duplicateFrames → c ∉ requestCounters →
          count (servePort (answerResult n target 4 1 (if b then .accepted else .full) f.showNo.toNat w)) c = count s c := by
        intro c h1 h2 h3 h4
        rw [count_servePort, count_answerResult _ _ _ _ _ _ _ _ h1 h2, counts c h4]
        exact count_noteSender n 14 h3
      obtain ⟨parts, lib, refills⟩ := served_shape (s := s)
        (t := answerResult n target 4 1 (if b then .accepted else .full) f.showNo.toNat w)
        (only.trans ((onlyChanges_iff _ _ _).2 (by simp)))
        ((sameLibrary_of_lib (by simp [u])).trans (library.trans (sameLibrary_of_lib (by simp))))
      refine ⟨_, rfl, parts, lib, refills, kept _ (by decide) (by decide) (by decide) (by decide),
        kept _ (by decide) (by decide) (by decide) (by decide), ?_⟩
      refine requestTaken_congr requested rows.symm (by simp [u]) (by simp [u]) (by simp [u]) (fun c hc => ?_) (fun c hc => ?_)
        (fun p x hx => ?_) (fun k hk => ?_) (fun x hx hnot => ?_)
      · exact (count_noteSender n 14 (by rintro rfl; simp at hc)).symm
      · rw [count_servePort, count_answerResult _ _ _ _ _ _ _ _ (by rintro rfl; simp at hc) (by rintro rfl; simp at hc)]
      · have answered : (answerResult n target 4 1 (if b then .accepted else .full) f.showNo.toNat w).rows = w.rows := by simp
        rw [servePort_same, answered]
        exact hx
      · exact flushesAsked_congr hk (by simp [u]) ((servePort_mixer _).trans (answerResult_mixer ..))
      · rw [if_pos (flag (fun h => hnot (noPlayer.1 h))), servePort_line]
        cases x with
        | none => exact answerResult_line _ _ _ _ _ _ _ _ hx start
        | some r => exact answerResult_line _ _ _ _ _ _ _ _ hx (start.trans (by simp))

end Sys2Proof.Machine.InstanceProofs
end

section
/-!
PROOFS. ANNOUNCE_START and ANNOUNCE_RUNNING (03_show_instances.md: R53 to R57, R64, R93).
-/

namespace Sys2Proof.Machine.InstanceProofs

section
variable {s : State} {q : Request}

/-! ### Conditions (R53) -/

theorem announceActedOn_iff (q : Request) (s : State) : announceActedOn q s = true ↔
    isRunning s = true ∧ s.time.timeValid = true ∧ ∃ h, headerOf s q.showNo = some h ∧
      (∃ z ∈ zonesOf s, h.low ≤ z.tower.toNat ∧ z.tower.toNat ≤ h.high) ∧ q.tag ≤ q.anchor ∧
      ∀ e, nominalFinal q h.length = some e → frameNow s < e := by
  unfold announceActedOn
  rw [Bool.and_eq_true, Bool.and_eq_true, and_assoc]
  refine and_congr_right fun _ => and_congr_right fun _ => ?_
  cases headerOf s q.showNo with
  | none => simp
  | some h =>
    have spans : spanMeets h s = true ↔ ∃ z ∈ zonesOf s, h.low ≤ z.tower.toNat ∧ z.tower.toNat ≤ h.high := by
      unfold spanMeets; simp
    have ahead : (match nominalFinal q h.length with | some e => decide (frameNow s < e) | none => true) = true ↔
        ∀ e, nominalFinal q h.length = some e → frameNow s < e := by
      cases nominalFinal q h.length <;> simp
    simp only [Bool.and_eq_true, decide_eq_true_eq, spans, Option.some.injEq, exists_eq_left', and_assoc]
    exact and_congr_right fun _ => and_congr_right fun _ => ahead

theorem announceActedOn_congr {t : State} (running : isRunning t = isRunning s) (time : t.time = s.time) (dir : t.lib.dir = s.lib.dir)
    (zones : zonesOf t = zonesOf s) (q : Request) : announceActedOn q t = announceActedOn q s := by
  unfold announceActedOn spanMeets
  rw [running, time, zones, frameNow_congr time, show headerOf t q.showNo = headerOf s q.showNo by unfold headerOf slotOf; rw [dir]]

theorem exec_announce (h : started s = true) (n : LineNumber) (a : Announcement) :
    ∀ c ∈ [Instr.announceStart n a, .announceRunning n a], exec c s = .next (takeAnnouncement n a (noteSender n 17 s)) := by
  obtain ⟨hawake, hstate⟩ : awake s = true ∧ s.start.state ≠ .starting := by simpa [started] using h
  have hears : hearAnnouncement n a (noteSender n 17 s) = takeAnnouncement n a (noteSender n 17 s) := by
    unfold hearAnnouncement
    exact if_neg (by simpa using hstate)
  intro c hc
  simp only [List.mem_cons, List.not_mem_nil, or_false] at hc
  rcases hc with rfl | rfl
  · exact (onFrame_awake hawake n 2 1 _).trans (congrArg _ hears)
  · exact (onFrame_awake hawake n 2 2 _).trans (congrArg _ hears)

/-! ### A show held once (R48) -/

/-- At most one row holds a show (R48). -/
def HeldOnce (k : Nat) (s : State) : Prop :=
  ∀ (i j : Fin 4) (a b : Row), s.rows[i] = some a → s.rows[j] = some b → a.showNo = k → b.showNo = k → i = j

theorem heldOnce_of_shows (h : ShowsHeld s) (k : Nat) : HeldOnce k s :=
  fun i j a b ha hb hka hkb => h.distinct i j a b ha hb (hka.trans hkb.symm)

/-- Taking a request leaves its show held once (R54, R56). -/
theorem takeRequest_heldOnce (h : HeldOnce q.showNo s) : HeldOnce q.showNo (takeRequest q s).2 := by
  obtain ⟨p, hp, others⟩ := takeRequest_one_row q s
  have unheld : ∀ (i : Fin 4) (r : Row), i ≠ p → (takeRequest q s).2.rows[i] = some r → r.showNo ≠ q.showNo := by
    intro i r hi hr hk
    rw [others i hi] at hr
    rcases hp with hp | hp
    · exact heldRow_none.1 hp i r hr hk
    · obtain ⟨o, ho, hok⟩ := heldRow_some hp
      exact hi (h i p r o hr ho hk hok)
  intro i j a b ha hb hka hkb
  have hi : i = p := by_contra fun hi => unheld i a hi ha hka
  have hj : j = p := by_contra fun hj => unheld j b hj hb hkb
  exact hi.trans hj.symm

theorem rows_ext {v w : Vector (Option Row) 4} (h : ∀ p : Fin 4, v[p] = w[p]) : v = w :=
  Vector.ext fun i hi => h ⟨i, hi⟩

/-! ### Last heard (R64) -/

/-- A row that hears an announcement of its show with its tag (R64). -/
def heardBy (q : Request) (now : Nat) (r : Row) : Row :=
  if r.showNo = q.showNo ∧ r.tag = q.tag then { r with lastHeard := now } else r

theorem noteHeard_rows (h : HeldOnce q.showNo s) : (noteHeard q s).rows = s.rows.map (fun x => x.map (heardBy q (frameNow s))) := by
  refine rows_ext fun i => ?_
  have mapped : (s.rows.map (fun x => x.map (heardBy q (frameNow s))))[i] = s.rows[i].map (heardBy q (frameNow s)) := by simp
  rw [mapped]
  have deaf : ∀ r, s.rows[i] = some r → r.showNo ≠ q.showNo → s.rows[i].map (heardBy q (frameNow s)) = s.rows[i] := fun r hr hk => by
    rw [hr, Option.map_some]
    unfold heardBy
    rw [if_neg (fun h => hk h.1)]
  unfold noteHeard
  cases hk : heldRow s q.showNo with
  | none =>
    cases hr : s.rows[i] with
    | none => rfl
    | some r => exact (hr ▸ (deaf r hr (heldRow_none.1 hk i r hr)).symm)
  | some p =>
    obtain ⟨r, hr, hshow⟩ := heldRow_some hk
    dsimp only
    unfold modRow
    simp only [hr]
    by_cases hi : i = p
    · subst hi
      rw [setRow_get, hr, Option.map_some]
      unfold heardBy
      simp [hshow]
    · rw [setRow_other _ _ hi]
      cases hr' : s.rows[i] with
      | none => rfl
      | some r' => exact hr' ▸ (deaf r' hr' (fun hk' => hi (h i p r' r hr' hr hk' hshow))).symm

theorem heardBy_showNo (q : Request) (now : Nat) (r : Row) : (heardBy q now r).showNo = r.showNo := by
  unfold heardBy; split <;> rfl

theorem heldOnce_heard (h : HeldOnce q.showNo s) : HeldOnce q.showNo (noteHeard q s) := by
  have before : ∀ (i : Fin 4) (a : Row), (noteHeard q s).rows[i] = some a → ∃ r, s.rows[i] = some r ∧ a.showNo = r.showNo := by
    intro i a ha
    have mapped : (noteHeard q s).rows[i] = s.rows[i].map (heardBy q (frameNow s)) := by rw [noteHeard_rows h]; simp
    obtain ⟨r, hr, rfl⟩ := Option.map_eq_some_iff.1 (mapped.symm.trans ha)
    exact ⟨r, hr, heardBy_showNo q _ r⟩
  intro i j a b ha hb hka hkb
  obtain ⟨x, hx, hax⟩ := before i a ha
  obtain ⟨y, hy, hby⟩ := before j b hb
  exact h i j x y hx hy (hax.symm.trans hka) (hby.symm.trans hkb)

/-! ### The announcer (R64) -/

/-- A row that hears its own pair from a lower-numbered station gives up its duty (R64). -/
def ruledBy (sender number : Nat) (q : Request) (r : Row) : Row :=
  if r.showNo = q.showNo ∧ r.tag = q.tag ∧ r.anchor = q.anchor ∧ sender < number then { r with announcer := false } else r

theorem ruledBy_noAsk (sender number : Nat) (q : Request) (r : Row) :
    (ruledBy sender number q r).noAsk = ruledBy sender number q r.noAsk := by
  unfold ruledBy
  by_cases h : r.showNo = q.showNo ∧ r.tag = q.tag ∧ r.anchor = q.anchor ∧ sender < number
  · rw [if_pos h, if_pos (show r.noAsk.showNo = q.showNo ∧ r.noAsk.tag = q.tag ∧ r.noAsk.anchor = q.anchor ∧ sender < number from h)]; rfl
  · rw [if_neg h, if_neg (show ¬ (r.noAsk.showNo = q.showNo ∧ r.noAsk.tag = q.tag ∧ r.noAsk.anchor = q.anchor ∧ sender < number) from h)]

theorem ruledBy_map_noAsk (sender number : Nat) (q : Request) (x : Option Row) :
    (x.map (ruledBy sender number q)).map Row.noAsk = (x.map Row.noAsk).map (ruledBy sender number q) := by
  cases x with
  | none => rfl
  | some r => exact congrArg some (ruledBy_noAsk sender number q r)

theorem ruledBy_map_congr (sender number : Nat) (q : Request) {x y : Option Row} (h : x.map Row.noAsk = y.map Row.noAsk) :
    (x.map (ruledBy sender number q)).map Row.noAsk = (y.map (ruledBy sender number q)).map Row.noAsk := by
  rw [ruledBy_map_noAsk, h, ruledBy_map_noAsk]

theorem ruledBy_keeps (sender number : Nat) (q : Request) (r : Row) :
    (ruledBy sender number q r).showNo = r.showNo ∧ (ruledBy sender number q r).tag = r.tag ∧
      (ruledBy sender number q r).anchor = r.anchor := by
  unfold ruledBy; split <;> exact ⟨rfl, rfl, rfl⟩

/-- The announcer rules on the row that holds the show. -/
theorem announcerRules_held {sender : Nat} {p : Fin 4} {r : Row} (hk : heldRow s q.showNo = some p) (hr : s.rows[p] = some r) :
    announcerRules sender q s =
      if r.tag = q.tag ∧ r.anchor = q.anchor then
        if sender < s.start.number then setRow p (some { r with announcer := false }) s else s
      else if r.tag < q.tag ∨ (r.tag = q.tag ∧ r.anchor < q.anchor) then announce 2 r s
      else s := by
  unfold announcerRules; simp only [hk, hr]

theorem announcerRules_unheld {sender : Nat} (hk : heldRow s q.showNo = none) : announcerRules sender q s = s := by
  unfold announcerRules; rw [hk]

theorem announcerRules_rows (h : HeldOnce q.showNo s) (sender : Nat) (i : Fin 4) :
    (announcerRules sender q s).rows[i] = s.rows[i].map (ruledBy sender s.start.number q) := by
  have stays : (∀ r, s.rows[i] = some r → ¬ (r.showNo = q.showNo ∧ r.tag = q.tag ∧ r.anchor = q.anchor ∧ sender < s.start.number)) →
      s.rows[i].map (ruledBy sender s.start.number q) = s.rows[i] := fun hno => by
    cases hr : s.rows[i] with
    | none => rfl
    | some r => exact congrArg some (if_neg (hno r hr))
  cases hk : heldRow s q.showNo with
  | none =>
    rw [announcerRules_unheld hk, stays fun r hr ⟨hshow, _⟩ => heldRow_none.1 hk i r hr hshow]
  | some p =>
    obtain ⟨r, hr, hshow⟩ := heldRow_some hk
    rw [announcerRules_held hk hr]
    by_cases hi : i = p
    · subst hi
      by_cases hpair : r.tag = q.tag ∧ r.anchor = q.anchor
      · rw [if_pos hpair]
        by_cases hn : sender < s.start.number
        · rw [if_pos hn, setRow_get, hr]
          exact congrArg some (if_pos ⟨hshow, hpair.1, hpair.2, hn⟩).symm
        · rw [if_neg hn, stays fun _ _ ⟨_, _, _, hn'⟩ => hn hn']
      · rw [stays fun r' hr' ⟨_, ht, ha, _⟩ => hpair (by cases hr.symm.trans hr'; exact ⟨ht, ha⟩), if_neg hpair]
        split
        · exact congrArg (fun v : Vector (Option Row) 4 => v[i]) (send_rows _ s)
        · rfl
    · rw [stays fun r' hr' ⟨hshow', _⟩ => hi (h i p r' r hr' hr hshow' hshow)]
      split
      · split
        · exact setRow_other _ _ hi
        · rfl
      · split
        · exact congrArg (fun v : Vector (Option Row) 4 => v[i]) (send_rows _ s)
        · rfl

theorem announcerRules_line (h : HeldOnce q.showNo s) (sender : Nat) {p : Fin 4} {r : Row} (hr : s.rows[p] = some r)
    (hshow : r.showNo = q.showNo) : (announcerRules sender q s).line =
      if r.tag < q.tag ∨ (r.tag = q.tag ∧ r.anchor < q.anchor) then (send (newFrame 2 (announceData 2 r)) s).line else s.line := by
  have hk : heldRow s q.showNo = some p := by
    cases hk : heldRow s q.showNo with
    | none => exact absurd hshow (heldRow_none.1 hk p r hr)
    | some i =>
      obtain ⟨r', hr', hshow'⟩ := heldRow_some hk
      rw [h i p r' r hr' hr hshow' hshow]
  rw [announcerRules_held hk hr]
  by_cases hpair : r.tag = q.tag ∧ r.anchor = q.anchor
  · have notSmaller : ¬ (r.tag < q.tag ∨ (r.tag = q.tag ∧ r.anchor < q.anchor)) := by omega
    rw [if_pos hpair, if_neg notSmaller]
    split <;> rfl
  · rw [if_neg hpair]
    split <;> rfl

theorem count_announcerRules (sender : Nat) (c : Counter) (h1 : c ≠ .txDropped) (h2 : c ≠ .txDisplaced) :
    count (announcerRules sender q s) c = count s c := by
  unfold announcerRules
  split
  · rfl
  · split
    · rfl
    · split
      · split <;> rfl
      · split
        · exact count_send _ _ _ h1 h2
        · rfl

/-- A peer's request announces nothing (R55, R57). -/
theorem takeRequest_silent (h : q.origin.isOwn = false) : (takeRequest q s).2.line = s.line := by
  have created : ∀ {p : Fin 4} {k : Nat}, Created p q k s (takeRequest q s).2 → (takeRequest q s).2.line = s.line := fun c => by
    rw [c.line, h]; rfl
  rcases takeRequest_cases q s with ⟨-, taken⟩ | ⟨p, -, -, taken | taken | taken | taken⟩
  · rw [taken]; rfl
  · exact created (taken ▸ createRow_idle p)
  · exact created (taken ▸ createRow_evicted p)
  · exact created (taken ▸ createRow_cut p)
  · rw [taken]
    cases hr : s.rows[p] with
    | none => rw [show mergeRow p q s = s by unfold mergeRow; simp only [hr]]
    | some r =>
      cases hsm : pairSmaller q r with
      | true =>
        obtain ⟨-, -, -, -, line, -⟩ := mergeRow_smaller hr hsm
        rw [line, h]; rfl
      | false => rw [mergeRow_larger hr hsm]

theorem announceData_ruledBy (sub sender number : Nat) (q : Request) (r : Row) :
    announceData sub (ruledBy sender number q r) = announceData sub r := by
  unfold ruledBy
  split <;> rfl

end

/-- Settles O43: the announcement is noted in its show's row, a request taken as `takeRequest_taken` states, and the announcer rules look at
the one row that then holds the show. -/
theorem announcementsMerge : Obligations.AnnouncementsMerge := by
  refine ⟨announceActedOn_iff, ?_⟩
  intro n a s hs held q u heard ruled c hc
  rw [exec_announce hs n a c hc]
  let v := noteHeard q u
  have once : HeldOnce q.showNo u := fun i j x y hx hy =>
    heldOnce_of_shows held q.showNo i j x y (by simpa [u] using hx) (by simpa [u] using hy)
  have uRows : u.rows = s.rows := by simp [u]
  have rows : v.rows = s.rows.map (fun x => x.map heard) := by
    rw [show v.rows = _ from noteHeard_rows once, uRows, frameNow_noteSender]
    rfl
  have acts : announceActedOn q v = announceActedOn q s :=
    announceActedOn_congr (by unfold isRunning awake; simp [v, u]) (by simp [v, u]) (by simp [v, u]) (by unfold zonesOf; simp [v, u]) q
  have counts : ∀ c, c ≠ .duplicateFrames → count v c = count s c := fun c hc =>
    (count_congr (show v.counters = u.counters by simp [v]) c).trans (count_noteSender n 17 hc)
  have vOnce : HeldOnce q.showNo v := heldOnce_heard once
  have takes : takeAnnouncement n a u =
      if announceActedOn q s then servePort (announcerRules n.toNat q (takeRequest q v).2) else bump .announceIgnored v := by
    rw [← acts]; rfl
  have only : ∀ t, t = takeAnnouncement n a u → OnlyChanges [.rows, .lib, .mixer, .line, .counters] s t := fun t ht =>
    (onlyChanges_iff _ _ _).2 (by simp [ht, u])
  refine ⟨fun hno => ?_, fun hyes => ?_⟩
  · rw [takes, hno]
    refine ⟨bump .announceIgnored v, rfl, (onlyChanges_iff _ _ _).2 (by simp [v, u]), ?_, by simp [v], fun p => ?_⟩
    · exact counted_congr (counted_bump .announceIgnored v) (counts _ (by decide)).symm rfl
    · exact (congrArg (fun w : Vector (Option Row) 4 => w[p]) rows).trans (by simp)
  · have parts := only _ rfl
    rw [takes, hyes, if_pos rfl] at parts ⊢
    have requested := takeRequest_taken q v
    have wOnce := takeRequest_heldOnce vOnce
    have wLine : (takeRequest q v).2.line = u.line := (takeRequest_silent rfl).trans (by simp [v])
    have wStart : (takeRequest q v).2.start = s.start := by simp [v, u]
    obtain ⟨library, -⟩ := takeRequest_rest q v
    generalize (takeRequest q v).2 = w at parts requested wOnce wLine wStart library ⊢
    have wRows : ∀ p : Fin 4, (servePort (announcerRules n.toNat q w)).rows[p].map Row.noAsk = (w.rows[p].map ruled).map Row.noAsk := by
      intro p
      rw [servePort_same, announcerRules_rows wOnce, wStart]
      rfl
    have found : ∀ (p : Fin 4) (r : Row), (servePort (announcerRules n.toNat q w)).rows[p] = some r →
        ∃ r', w.rows[p] = some r' ∧ r.noAsk = (ruled r').noAsk := by
      intro p r hr
      have := wRows p
      rw [hr, Option.map_map] at this
      obtain ⟨r', hr', he⟩ := Option.map_eq_some_iff.1 this.symm
      exact ⟨r', hr', he.symm⟩
    refine ⟨_, rfl, parts, ?_, servePort_asks _, ?_, fun unheld => ?_, fun p r hr hshow => ?_⟩
    · exact (sameLibrary_of_lib (by simp [v, u])).trans (library.trans ((sameLibrary_of_lib (by simp)).trans (servePort_library _)))
    · refine requestTaken_congr requested rows.symm (by simp [v, u]) (by simp [v, u]) (by simp [v, u]) (fun c hc => ?_) (fun c hc => ?_)
        (fun p x hx => ?_) (fun k hk => ?_) (fun _ _ => trivial)
      · exact (counts c (by rintro rfl; simp at hc)).symm
      · rw [count_servePort, count_announcerRules _ _ (by rintro rfl; simp at hc) (by rintro rfl; simp at hc)]
      · exact (wRows p).trans (ruledBy_map_congr n.toNat s.start.number q hx)
      · exact flushesAsked_congr hk (by simp [v, u]) ((servePort_mixer _).trans (by simp))
    · have none : heldRow w q.showNo = none := by
        refine heldRow_none.2 fun p r' hr' hshow => ?_
        have row := wRows p
        rw [hr'] at row
        obtain ⟨r, hr, he⟩ := Option.map_eq_some_iff.1 row
        exact unheld p r hr ((congrArg Row.showNo he).trans ((ruledBy_keeps _ _ q r').1.trans hshow))
      rw [servePort_line, announcerRules_unheld none, wLine]
    · obtain ⟨r', hr', he⟩ := found p r hr
      obtain ⟨keepsShow, keepsTag, keepsAnchor⟩ := ruledBy_keeps n.toNat s.start.number q r'
      have showNo : r.showNo = r'.showNo := (congrArg Row.showNo he).trans keepsShow
      have tag : r.tag = r'.tag := (congrArg Row.tag he).trans keepsTag
      have anchor : r.anchor = r'.anchor := (congrArg Row.anchor he).trans keepsAnchor
      have data : announceData 2 r = announceData 2 r' :=
        (congrArg (announceData 2) he).trans (announceData_ruledBy 2 n.toNat s.start.number q r')
      rw [servePort_line, announcerRules_line wOnce n.toNat hr' (showNo.symm.trans hshow), tag, anchor, data, wLine,
        send_line_congr _ w u (wStart.trans (by simp [u])) wLine]

end Sys2Proof.Machine.InstanceProofs
end
